-- ==== Sys2Proof/Word.lean ====
section
/-! DEFINITION. Word types of the layouts (spec/12, R207) and of point keys (spec/00, R1). -/

namespace Sys2Proof

/-- One byte of a line frame, a pin group or a trace record. -/
abbrev Byte := BitVec 8

/-- A 32-bit word of a request or answer, a 32-bit item value, a wrapping millisecond time or position. -/
abbrev Word := BitVec 32

/-- A point key (R1) or another 16-bit field. -/
abbrev Key := BitVec 16

end Sys2Proof
end

