-- ==== Sys2Proof/Syntax.lean ====
section
/-! DEFINITION. The commands: one constructor for each row of spec/opcode_table.json. -/

namespace Sys2Proof

/-- The five header bytes of a line frame as received (R207): kind, origin node, destination node, origin
sequence, item count. -/
structure Header where
  kind : Byte
  origin : Byte
  dest : Byte
  seq : Byte
  count : Byte
deriving DecidableEq, Repr

/-- The commands of the block: events at its ports and pins, its own timers and turns, and the execution of the
request at the head of MA's queue. `cfg` is the level of the CFG pin, read when the authority check is made (R198).
HEADER_END gives the header, or none for an Ethernet frame whose payload is not a line frame (R2). An error mask lists,
byte by byte, the bits that the trace memory turns over (log entry 6). -/
inductive Instr where
  | powerOnReset
  | rstNRise (node : Byte)
  | bypAssert
  | bypDeassert
  | downstreamRxFrame (bytes : List Byte)
  | headerEnd (h : Option Header)
  | receptionComplete (payload : List Byte) (checkGood : Bool)
  | actuateFrameCheck
  | transmitComplete
  | returnTimeout (seq : Byte)
  | recoveryTimerExpiry
  | freshnessTimerExpiry (channel : Nat)
  | staleHoldTimerExpiry (channel : Nat)
  | millisecondPointDue
  | bagDeadline (slot : Nat)
  | shuttleDeadlineExpiry (shuttle : Nat)
  | confirmationDeadline (entry : Nat)
  | assemblyTimeout
  | lotReportRetry
  | deliveryReportRetry
  | alertRetry
  | placeWriteComplete (storeErr readErr : List Byte)
  | rewriteComplete (readErr storeErr verifyErr : List Byte)
  | traceReadComplete (readErr : List Byte)
  | warmRestart
  | warmRestartComplete
  | readStatus
  | readTable
  | writeChannelMap (cfg : Bool)
  | writeTrackChannels (cfg : Bool)
  | writeStageGeometry (cfg : Bool)
  | writeGuardTable (cfg : Bool)
  | writeRecipes (cfg : Bool)
  | writeShuttleTable (cfg : Bool)
  | writeAlertRoutes (cfg : Bool)
  | writeLineConfiguration (cfg : Bool)
  | writeAuthorityList (cfg : Bool)
  | setMode (cfg : Bool)
  | openLot (cfg : Bool)
  | closeLot (cfg : Bool)
  | placeHold (cfg : Bool)
  | releaseHold (cfg : Bool)
  | readRecord
  | list
  | startChannel (cfg : Bool)
  | stopChannel (cfg : Bool)
  | enableShuttle (cfg : Bool)
  | requeuePallet (cfg : Bool)
  | clearAlerts (cfg : Bool)
  | restart (cfg : Bool)
deriving DecidableEq, Repr

end Sys2Proof
end

