-- ==== Sys2Proof/Decode.lean ====
section
/-! DEFINITION. Commands read from words. No row of spec/opcode_table.json gives any bits (every row's fields are
empty), so no word spells a command. -/

namespace Sys2Proof

/-- The command that a word spells by the table's bits: none, since the table gives no row any bits. -/
def decodeTableWord (_nbits _w : Nat) : Option Instr := none

end Sys2Proof
end

