-- ==== Sys2Proof/Config.lean ====
section
/-! DEFINITION. Values the manual leaves open: free values, with no body, so that a claim holds whatever they are. -/

namespace Sys2Proof

/-- A fresh free value for each use, the use's number being its argument (log entry 13): the subject of
TRACE-BACKLOG when no place is at the write pointer (R151, R156), and the answer word of a remaining budget
that no signed 32-bit word holds (R178, R207). -/
opaque Config.freeWord : Nat → Word

end Sys2Proof
end

