-- ==== Sys2Proof/Machine/State.lean ====
section
/-! DEFINITION. The state of the part, block by block, as plain data, and its value after power-on reset. -/

namespace Sys2Proof.Machine

/-! ## Frames (spec/01, spec/12 section 12.8) -/

/-- The seven kinds of a line frame (R3, R207). -/
inductive FrameKind where
  | sample | actuate | mgmtReq | mgmtAns | alert | report | time
deriving DecidableEq, Repr

/-- One item of a line frame (R207). -/
structure Item where
  key : Key
  value : Word
  quality : Byte
deriving DecidableEq, Repr

/-- A line frame (R207). -/
structure LineFrame where
  kind : FrameKind
  origin : Byte
  dest : Byte
  seq : Byte
  items : List Item
deriving DecidableEq, Repr

/-- ACTIVE, PASSIVE or ISOLATED (R14). -/
inductive RingState where
  | active | passive | isolated
deriving DecidableEq, Repr

/-- The 19 alert kinds, in the order of their numbers (R202). -/
inductive AlertKind where
  | staleInput | probeSplit | overRange | reverse | untracked | divertMissed | warmExit | gateFault | bagOverrun | orphan
  | palletFull | traceFault | traceBacklog | exposure | transferFault | misroute | ringDegraded | ringIsolated | txOverflow
deriving DecidableEq, Repr

/-- Which block's frame an own frame is: for hand-backs and notices (R9 to R11, R117, R176, R206). -/
inductive FrameSource where
  | ownActuation
  | alert (kind : AlertKind)
  | answer (isRestart : Bool)
  | lotReport (lot : Nat)
  | deliveryReport (pallet revision : Nat)
deriving DecidableEq, Repr

/-- A frame handed to RP: RP adds the origin and the sequence (section 1.5). -/
structure OwnFrame where
  kind : FrameKind
  dest : Byte
  items : List Item
  source : FrameSource
deriving DecidableEq, Repr

/-- An entry of the return list (R11); `isRestart` marks the answer to RESTART (R206). -/
structure ReturnEntry where
  seq : Byte
  kind : FrameKind
  sentAt : Word
  isRestart : Bool
deriving DecidableEq, Repr

/-- A frame in the forward buffer (R6): still being received, or waiting for AG's check (R7), or ready. -/
structure ForwardEntry where
  frame : LineFrame
  receiving : Bool
  unchecked : Bool
deriving DecidableEq, Repr

/-- How the frame in reception is being forwarded (R5, R6). -/
inductive RxForward where
  | cutThrough | buffered | overflowed | notForwarded
deriving DecidableEq, Repr

/-- The frame in reception: its header and how it is forwarded. -/
structure Reception where
  header : Header
  fwd : RxForward
deriving DecidableEq, Repr

/-- The frame leaving on the Downstream transmit pair: its header and the bytes after it, absent while a cut-through copy's
are still being received; `badCheck` is the deliberately wrong frame check of R5. -/
structure Leaving where
  header : Header
  body : Option (List Byte)
  badCheck : Bool
deriving DecidableEq, Repr

/-- The ring port (spec/01, R20). -/
structure Rp where
  rxErr : Nat
  txErr : Nat
  recovery : Option Word
  ring : RingState
  txQueue : List OwnFrame
  returnList : List ReturnEntry
  forward : List ForwardEntry
  overflow : Nat
  nextSeq : Byte
  epoch : Word
  epochPresent : Bool
  rx : Option Reception
  tx : Option Leaving
deriving DecidableEq, Repr

/-! ## Sample intake (spec/02) -/

/-- The three belts: the stages with an encoder (R57). -/
inductive Belt where
  | blanch | chill | freeze
deriving DecidableEq, Repr

/-- The thirteen roles with their bindings (R26); `encoder none` is binding NONE. -/
inductive Role where
  | zoneTemp (zone : Nat) | chillTemp | exitTemp | dockTemp | infeedMass | encoder (belt : Option Belt) | marker
  | bagMade | bagWeight | bagCode | bagMetal | shuttleStatus (shuttle : Nat) | pointEcho (point : Nat)
deriving DecidableEq, Repr

/-- Configuration of an intake channel (R22); no role only before the first write (R39). -/
structure IntakeCfg where
  enabled : Bool
  filter : Key
  mask : Key
  role : Option Role
  offset : Int
  gain : Int
  low : Int
  high : Int
  freshTimeout : Nat
  staleTimeout : Nat
  partner : Option Nat
deriving DecidableEq, Repr

/-- FRESH, STALE or STALE-HELD (section 2.5). -/
inductive Freshness where
  | fresh | stale | staleHeld
deriving DecidableEq, Repr

/-- The latest value of a channel with its marks and time (R22). -/
structure Latest where
  value : Int
  suspect : Bool
  clampLow : Bool
  clampHigh : Bool
  line : Nat
  ms : Word
deriving DecidableEq, Repr

/-- Dynamic state of an intake channel (R22). -/
structure IntakeDyn where
  latest : Option Latest
  fresh : Freshness
  freshTimer : Option Nat
  staleTimer : Option Nat
  ref : Option (BitVec 16)
  accepted : Nat
  bad : Nat
  suspects : Nat
  clamps : Nat
deriving DecidableEq, Repr

/-- An intake channel. -/
structure IntakeChan where
  cfg : IntakeCfg
  dyn : IntakeDyn
deriving DecidableEq, Repr

/-- A blancher zone as SI derives it (R34). -/
structure Zone where
  temp : Option Int
  state : Freshness
deriving DecidableEq, Repr

/-- Sample intake: 48 channels and 6 zones. -/
structure Si where
  chans : List IntakeChan
  zones : List Zone
deriving DecidableEq, Repr

/-! ## Track channels (spec/03) -/

inductive ChanMode where
  | off | cut | delay | gate | capture | interval
deriving DecidableEq, Repr

/-- The source of a channel (R40); `unset` only before the first write (R56). -/
inductive Source where
  | unset | encoder (channel : Nat) | milliseconds
deriving DecidableEq, Repr

inductive Edge where
  | rising | falling | both
deriving DecidableEq, Repr

/-- The start triggers (R40, R44). -/
inductive Trigger where
  | command | marker (channel : Nat) (edge : Edge) | master (channel : Nat) | segmentDecision (belt : Belt) | bagMade
deriving DecidableEq, Repr

inductive Policy where
  | ignore | restart | queue
deriving DecidableEq, Repr

inductive FireCond where
  | always | bagNotAccepted
deriving DecidableEq, Repr

/-- The output of a DELAY or GATE channel (R40). -/
structure Output where
  key : Key
  onValue : Word
  offValue : Word
  timeout : Nat
deriving DecidableEq, Repr

/-- Configuration of a track channel (R40). -/
structure TrackCfg where
  mode : ChanMode
  source : Source
  length : Nat
  delay : Nat
  width : Nat
  trigger : Trigger
  policy : Policy
  cond : FireCond
  output : Option Output
deriving DecidableEq, Repr

inductive ChanState where
  | stopped | armed | delaying | opened | running
deriving DecidableEq, Repr

/-- A served record: a segment id or a bag sequence number (R40). -/
inductive Served where
  | segment (id : Nat) | bag (seq : Nat)
deriving DecidableEq, Repr

/-- A pending start: its start point and served record (R40). -/
structure Start where
  point : Word
  served : Option Served
deriving DecidableEq, Repr

/-- The outcome of a pulse or value (R40, R53). -/
inductive Outcome4 where
  | notSent | pending | confirmed | failed
deriving DecidableEq, Repr

/-- A gate pulse or awaited value: its served records, its outcome and the token AG reports it by. -/
structure Pulse where
  served : List Served
  outcome : Outcome4
  token : Nat
deriving DecidableEq, Repr

/-- One captured position with its times (R51). -/
structure Captured where
  point : Word
  line : Nat
  ms : Word
deriving DecidableEq, Repr

/-- The capture registers (R51). -/
structure Capture where
  last : Option Captured
  prev : Option Captured
  counts : Option Nat
  interval : Option Word
  overflow : Bool
  span : Bool
deriving DecidableEq, Repr

/-- The dynamic part of a track channel (R40). `pulse` is absent while no pulse has begun; `awaiting` holds the
earlier pulses and DELAY starts whose outcome is PENDING. -/
structure TrackDyn where
  state : ChanState
  pend : List Start
  onEnd : Word
  pulse : Option Pulse
  awaiting : List Pulse
  remainder : Nat
  nextFire : Word
  lastLevel : Option Bool
  filtered : Option Bool
  capture : Capture
  fires : Nat
  refused : Nat
  skipped : Nat
deriving DecidableEq, Repr

structure TrackChan where
  cfg : TrackCfg
  dyn : TrackDyn
deriving DecidableEq, Repr

/-- The track channels: 8 channels, 48 running positions, 8 unsent marks (R52). -/
structure Tc where
  chans : List TrackChan
  positions : List Word
  unsent : List Bool
  nextToken : Nat
deriving DecidableEq, Repr

/-! ## Segment tracker (spec/04) -/

inductive Stage where
  | blanch | chill | freeze | surge
deriving DecidableEq, Repr

/-- The BLANCH geometry entry (R57). `zoneStarts` holds the starts of zones 1 to 5. -/
structure BlanchGeo where
  written : Bool
  encoder : Nat
  length : Nat
  segLen : Nat
  cutChannel : Nat
  void : Nat
  zones : Nat
  zoneStarts : List Nat
  decision : Nat
  gate : Nat
deriving DecidableEq, Repr

/-- The CHILL geometry entry (R57). -/
structure ChillGeo where
  written : Bool
  encoder : Nat
  length : Nat
  entry : Nat
deriving DecidableEq, Repr

/-- The FREEZE geometry entry (R57). -/
structure FreezeGeo where
  written : Bool
  encoder : Nat
  length : Nat
  entry : Nat
  decision : Nat
  gate : Nat
  winStart : Nat
  winEnd : Nat
deriving DecidableEq, Repr

/-- A set of the fourteen hold reasons, as the mask in which R207 sends it. -/
abbrev HoldSet := BitVec 14

/-- The fourteen hold reasons, in the mask order of R207. -/
inductive HoldReason where
  | staleZone | gateUnconfirmed | untrackedGap | lateChill | warmChill | underDwell | noExitTemp | divertMissed
  | traceShort | traceFault | exposure | transferFault | unverified | manual
deriving DecidableEq, Repr

/-- PENDING, DIVERT, DIVERTING or PASS (R61). -/
inductive Disposition where
  | pending | divert | diverting | pass
deriving DecidableEq, Repr

/-- The flags of a segment (R60). -/
structure SegFlags where
  gap : Bool
  aboveTable : Bool
  overblanch : Bool
  massEst : Bool
deriving DecidableEq, Repr

/-- A segment record (R60). Its stage is the queue it stands in (R59). -/
structure Segment where
  id : Nat
  lot : Nat
  head : Option Nat
  nominal : Nat
  remaining : Nat
  cutTime : Nat
  blanchExit : Option Nat
  freezerEntry : Option Nat
  freezerExit : Option Nat
  zone : Option Nat
  zoneEntry : Option Nat
  credited : Option Nat
  dose : Nat
  flags : SegFlags
  warmChill : Nat
  warmest : Option Int
  disp : Disposition
  hold : HoldSet
deriving DecidableEq, Repr

/-- The segment tracker: geometry and the four stage queues, oldest first (R59). The pool's free records are the
256 less the live ones. -/
structure St where
  blanch : BlanchGeo
  chill : ChillGeo
  freeze : FreezeGeo
  qBlanch : List Segment
  qChill : List Segment
  qFreeze : List Segment
  qSurge : List Segment
  nextId : Nat
  totalRef : Option Nat
  lastNominal : Nat
  gapSet : BitVec 8
  stray : Nat
deriving DecidableEq, Repr

/-! ## Dose engine (spec/05) and freeze verifier (spec/06) -/

/-- What a write of a zone's channels leaves to DE until the zone's next item (R81, R93): `written`, DE takes that item to
have no temperature before it; `silenced`, also the write made the zone STALE, and its record does not become STALE-HELD
before that item (log entry 32). -/
inductive ZoneWrite where
  | none | written | silenced
deriving DecidableEq, Repr

/-- A zone crediting record (R80), with what a write of the zone's channels has left. -/
structure DoseZone where
  write : ZoneWrite
  state : Freshness
  creditTime : Option Nat
  lastTemp : Option Int
  credits : Nat
  skipped : Nat
  gaps : Nat
  staleZones : Nat
deriving DecidableEq, Repr

structure De where
  zones : List DoseZone
deriving DecidableEq, Repr

/-- The freeze verifier's own record (R97); `prevChill` is value and line time. -/
structure Fv where
  chillState : Freshness
  prevChill : Option (Int × Nat)
  exitState : Freshness
  window : List Nat
  lateChill : Nat
  warmChill : Nat
  underDwell : Nat
  noExit : Nat
  warmExit : Nat
  unapplied : Nat
deriving DecidableEq, Repr

/-! ## Lots and recipes (spec/05 R78, spec/06 R96, spec/07) -/

/-- A recipe (R78, R96, R109). -/
structure Recipe where
  product : Nat
  valid : Bool
  tbase : Int
  table : List Nat
  target : Nat
  maximum : Nat
  chillWindow : Nat
  chillLimit : Int
  warmAllowance : Nat
  dwell : Nat
  exitLimit : Int
  bagTarget : Nat
  tare : Nat
  under : Nat
  overweight : Nat
  needWeight : Bool
  needCode : Bool
  needMetal : Bool
  permille : Nat
  bagsPerCase : Nat
  casesPerPallet : Nat
  budget : Nat
  expReference : Int
  assumedDock : Int
deriving DecidableEq, Repr

inductive LotState where
  | opened | draining | finished
deriving DecidableEq, Repr

/-- The report states of R117 and R175. -/
inductive ReportState where
  | none | waiting | queued
deriving DecidableEq, Repr

/-- The ten production counts, in the order of R112. -/
structure Production where
  segmentsCut : Nat
  massCut : Nat
  massDiverted : Nat
  untrackedMass : Nat
  tailMass : Nat
  overblanch : Nat
  bagsAccepted : Nat
  bagsRejected : Nat
  palletsClosed : Nat
  palletsDelivered : Nat
deriving DecidableEq, Repr

/-- A lot entry that is not FREE (R111); `drained` says that the drain point has been reached (R115). -/
structure Lot where
  number : Word
  recipe : Nat
  state : LotState
  openTime : Nat
  closeTime : Option Nat
  finishTime : Option Nat
  manual : Bool
  counts : Production
  building : Option Nat
  live : Nat
  openBags : Nat
  unwritten : Nat
  inFlight : Nat
  drained : Bool
  report : ReportState
deriving DecidableEq, Repr

/-- The lot and hold unit: 16 recipes, 8 lot entries (`none` is FREE). -/
structure Lh where
  recipes : List Recipe
  lots : List (Option Lot)
  lastHanding : Option Nat
deriving DecidableEq, Repr

/-! ## Bagging and pallets (spec/08, spec/10 R162) -/

/-- One draw: segment id and grams (R127). -/
structure Draw where
  segment : Nat
  grams : Nat
deriving DecidableEq, Repr

/-- A bag record (R143); `lot` is the lot index that TM's place index keeps (R149). -/
structure BagRecord where
  seq : Nat
  lot : Nat
  lotNumber : Word
  made : Nat
  epoch : Word
  epochPresent : Bool
  net : Option Int
  codeFail : Option Bool
  metalFail : Option Bool
  rejected : Bool
  reasons : Byte
  draws : List Draw
  hold : HoldSet
  pallet : Option Nat
deriving DecidableEq, Repr

inductive SlotState where
  | gathering | palletWait | decided
deriving DecidableEq, Repr

inductive Decision where
  | gathering | accepted | rejected
deriving DecidableEq, Repr

/-- A bag slot that is not FREE (R127). `conflict` has bits WEIGHT, CODE, METAL; `order` is the order of decision. -/
structure Slot where
  state : SlotState
  seq : Nat
  lot : Nat
  madeLine : Nat
  madeMs : Word
  deadline : Word
  weight : Option Nat
  codeFail : Option Bool
  metalFail : Option Bool
  conflict : BitVec 3
  draws : List Draw
  hold : HoldSet
  tail : Bool
  decision : Decision
  reasons : Byte
  pallet : Option Nat
  record : Option BagRecord
  order : Nat
deriving DecidableEq, Repr

inductive PalletState where
  | building | closed | assigned | inTransfer | delivered | faulted
deriving DecidableEq, Repr

inductive Destination where
  | store | quarantine
deriving DecidableEq, Repr

/-- A pallet record with TD's fields (R140, R162); `serial` is the order of handing. -/
structure Pallet where
  id : Nat
  lot : Nat
  state : PalletState
  short : Bool
  bags : Nat
  cases : Nat
  firstPlace : Option Nat
  lastPlace : Option Nat
  hold : HoldSet
  closeTime : Option Nat
  exposure : Nat
  dest : Option Destination
  shuttle : Option Nat
  reportPending : Bool
  expTime : Nat
  expTemp : Int
  exhausted : Bool
  delDest : Option Destination
  delTime : Option Nat
  report : ReportState
  revision : Nat
  serial : Nat
deriving DecidableEq, Repr

/-- An entry of the decision list (R136). -/
structure DecisionEntry where
  seq : Nat
  lot : Option Nat
  slot : Option Nat
  decision : Decision
  place : Option Nat
  gateReasons : HoldSet
deriving DecidableEq, Repr

structure Ba where
  slots : List (Option Slot)
  pallets : List Pallet
  nextPallet : Nat
  decisions : List DecisionEntry
  carried : List HoldSet
  keptMade : Option Word
  keptWeight : Option Word
  keptCode : Option Word
  keptMetal : Option Word
  lastOverrun : Option Nat
  overruns : Nat
  lostRecords : Nat
  lotless : Nat
  orphans : Nat
  strayGate : Nat
  serial : Nat
deriving DecidableEq, Repr

/-! ## Trace memory controller (spec/09) -/

inductive PlaceState where
  | archived | free | pending | stored | poisoned
deriving DecidableEq, Repr

/-- The record fields of an index entry (R149); the rewrite mark is kept in `Tm.marks`. -/
structure PlaceFields where
  seq : Nat
  lot : Nat
  pallet : Option Nat
  rejected : Bool
  hold : HoldSet
  freeAtCompletion : Bool
  placed : Nat
deriving DecidableEq, Repr

/-- An entry of the place index (R149). -/
structure Place where
  state : PlaceState
  fields : Option PlaceFields
deriving DecidableEq, Repr

/-- A record with the place it has been given. -/
structure Placed where
  place : Nat
  record : BagRecord
deriving DecidableEq, Repr

/-- The operation on the SPI master (R152): a place write with what is being sent, a rewrite with the hold set it
puts into the record, or a read with the index entry at its grant (R155). -/
inductive SpiOp where
  | write (place : Nat) (record : BagRecord)
  | rewrite (place : Nat) (hold : HoldSet)
  | read (place : Nat) (entry : Place)
deriving DecidableEq, Repr

/-- The work set apart at a warm restart (R161). -/
structure RestartWork where
  writes : List Placed
  rewrites : List (Nat × HoldSet)
  held : Option BagRecord
deriving DecidableEq, Repr

structure Tm where
  places : List Place
  marks : List Nat
  pointer : Nat
  writeQueue : List Placed
  holding : Option BagRecord
  spi : Option SpiOp
  lastWasRead : Bool
  readWaiting : Option Nat
  verifyFail : Nat
  corrected : Nat
  uncorrectable : Nat
  restart : Option RestartWork
  placed : Nat
deriving DecidableEq, Repr

/-! ## Transfer dispatcher (spec/10) -/

inductive ShuttleState where
  | offline | idle | assigned | loaded | inAirlock | fault
deriving DecidableEq, Repr

/-- A shuttle's table entry and record (R166). -/
structure Shuttle where
  written : Bool
  point : Key
  load : Nat
  airlock : Nat
  delivery : Nat
  state : ShuttleState
  enabled : Bool
  pallet : Option Nat
  deadline : Option Nat
  late : Nat
  mismatch : Nat
  faults : Nat
deriving DecidableEq, Repr

structure Td where
  shuttles : List Shuttle
  dock : List Nat
  lost : Nat
  lastHanding : Option Nat
deriving DecidableEq, Repr

/-! ## Actuation guard (spec/11) -/

inductive Mode where
  | offline | commission | production
deriving DecidableEq, Repr

inductive Condition where
  | always | poolLow | noLot | zoneStale | traceBacklog | palletFull | lotHeld
deriving DecidableEq, Repr

inductive GuardAction where
  | pass | block | clamp | clampFreezer | force
deriving DecidableEq, Repr

/-- A guard table entry (R185). -/
structure Guard where
  enabled : Bool
  filter : Key
  mask : Key
  cond : Condition
  action : GuardAction
  low : Word
  high : Word
  force : Word
deriving DecidableEq, Repr

inductive Verdict where
  | block | clamp | clampFreezer | force | owned | suppressed
deriving DecidableEq, Repr

/-- The entry of a trap record: a guard index, OWNED or OWN-SUPPRESSED (R188). -/
inductive TrapEntry where
  | guard (index : Nat) | owned | ownSuppressed
deriving DecidableEq, Repr

/-- A trap record (R188). -/
structure Trap where
  line : Nat
  key : Key
  received : Word
  verdict : Verdict
  applied : Option Word
  entry : TrapEntry
  mode : Mode
deriving DecidableEq, Repr

/-- A shadow entry (R189). -/
structure Shadow where
  key : Key
  received : Word
  receivedAt : Nat
  forwarded : Option (Word × Nat)
deriving DecidableEq, Repr

/-- The source of a pending confirmation (R191). -/
inductive ConfSource where
  | channel (n : Nat) | pause
deriving DecidableEq, Repr

/-- A pending confirmation (R191). -/
structure Confirm where
  point : Nat
  value : Word
  source : ConfSource
  serves : Option Nat
  deadline : Word
deriving DecidableEq, Repr

structure Ag where
  mode : Mode
  guards : List Guard
  traps : List Trap
  trapCount : Nat
  shadows : List Shadow
  unshadowed : Nat
  confirms : List Confirm
  confOverflow : Nat
  faults : List Nat
deriving DecidableEq, Repr

/-! ## Management and alerts (spec/12) -/

/-- A complete request (R196, R197). -/
structure Request where
  origin : Byte
  tag : Key
  code : Byte
  words : List Word
deriving DecidableEq, Repr

/-- An assembly in progress (R196). -/
structure Assembly where
  origin : Byte
  tag : Key
  code : Byte
  words : List Word
  last : Nat
  started : Word
deriving DecidableEq, Repr

/-- Subject types of an alert, in the order of R207. -/
inductive SubjectType where
  | none | channel | zone | segment | bag | lot | pallet | place | point | shuttle | stage
deriving DecidableEq, Repr

/-- A member of the pending set (R203). -/
structure PendingAlert where
  count : Nat
  subjectType : SubjectType
  subject : Word
  line : Nat
  unsent : Bool
deriving DecidableEq, Repr

structure Route where
  dest : Option Byte
  stop : Bool
deriving DecidableEq, Repr

/-- The bagger pause point of the line configuration (R201). -/
structure PausePoint where
  index : Nat
  key : Key
  pause : Word
  resume : Word
  timeout : Nat
deriving DecidableEq, Repr

/-- The line configuration (R201). -/
structure LineConfig where
  returnTimeout : Nat
  recovery : Nat
  split : Nat
  reserve : Nat
  bagDeadline : Nat
  pausePoint : Option PausePoint
  reportDest : Byte
deriving DecidableEq, Repr

/-- What MA is executing (R197, R206): nothing, a place read, or a RESTART in its phases: waiting for its answer to
be out, ready to start the warm restart, and completing it. -/
inductive MaPhase where
  | idle | reading | restartWait | restartReady | restartRunning
deriving DecidableEq, Repr

structure Ma where
  queue : List Request
  phase : MaPhase
  assembly : Option Assembly
  pending : List (Option PendingAlert)
  lastHanding : Option Nat
  routes : List Route
  config : LineConfig
  authority : List (Option Byte)
deriving DecidableEq, Repr

/-! ## The part and the machine -/

/-- Levels on the pins, and what the rise of RST_N found (R17, R20, R198, R204). -/
structure Pins where
  rstN : Bool
  running : Bool
  node : Byte
  byp : Bool
  cfg : Bool
  rly : Bool
  stopN : Bool
deriving DecidableEq, Repr

/-- Millisecond time, line time and the milliseconds since the last decisecond (R1, R20). -/
structure Clock where
  ms : Word
  line : Nat
  sub : Nat
deriving DecidableEq, Repr

/-- The part: pins, clock and twelve blocks. `freeCount` numbers the free values used (log entry 13). -/
structure Chip where
  pins : Pins
  clock : Clock
  freeCount : Nat
  rp : Rp
  si : Si
  tc : Tc
  st : St
  de : De
  fv : Fv
  lh : Lh
  ba : Ba
  tm : Tm
  td : Td
  ag : Ag
  ma : Ma
deriving DecidableEq, Repr

/-- The trace memory's contents: listed bytes in rising order of address (R150). -/
abbrev Memory := List Host.Cell

/-- The machine: the commands that wait, the external trace memory, and the part. -/
structure State where
  pending : List Instr
  mem : Memory
  chip : Chip
deriving DecidableEq, Repr

/-- `outsideTraceMemory`: raised by the completions of a place write, a rewrite and a read whose place is not one of
the 1024 of R150, so that the access would lie outside the 73,728 bytes of the trace memory. No run reaches such a
state: places come from the write pointer and from checked requests. Safe: nothing is read or written. -/
inductive Fault where
  | outsideTraceMemory
deriving DecidableEq, Repr

/-- `notModelled`: raised by exec's arms for a command without a meaning; there is none. Safe. -/
inductive Refusal where
  | notModelled (mnemonic : String)
deriving DecidableEq, Repr

/-! ## Power-on values -/

def Rp.power : Rp :=
  { rxErr := 0, txErr := 0, recovery := none, ring := .active, txQueue := [], returnList := [], forward := [],
    overflow := 0, nextSeq := 0, epoch := 0, epochPresent := false, rx := none, tx := none }

/-- Dynamic state after a reset or a table write (R33, R39). -/
def IntakeDyn.clear : IntakeDyn :=
  { latest := none, fresh := .stale, freshTimer := none, staleTimer := none, ref := none, accepted := 0, bad := 0,
    suspects := 0, clamps := 0 }

def IntakeCfg.power : IntakeCfg :=
  { enabled := false, filter := 0, mask := 0, role := none, offset := 0, gain := 0, low := 0, high := 0,
    freshTimeout := 0, staleTimeout := 0, partner := none }

def IntakeChan.power : IntakeChan := { cfg := .power, dyn := .clear }

def Zone.clear : Zone := { temp := none, state := .stale }

def Si.power : Si := { chans := List.replicate 48 .power, zones := List.replicate 6 .clear }

def Capture.clear : Capture :=
  { last := none, prev := none, counts := none, interval := none, overflow := false, span := false }

/-- The dynamic part after a reset or a table write (R41, R56). -/
def TrackDyn.clear : TrackDyn :=
  { state := .stopped, pend := [], onEnd := 0, pulse := none, awaiting := [], remainder := 0, nextFire := 0,
    lastLevel := none, filtered := none, capture := .clear, fires := 0, refused := 0, skipped := 0 }

def TrackCfg.power : TrackCfg :=
  { mode := .off, source := .unset, length := 0, delay := 0, width := 0, trigger := .command, policy := .ignore,
    cond := .always, output := none }

def TrackChan.power : TrackChan := { cfg := .power, dyn := .clear }

def Tc.power : Tc :=
  { chans := List.replicate 8 .power, positions := List.replicate 48 0, unsent := List.replicate 8 false, nextToken := 0 }

def St.power : St :=
  { blanch := { written := false, encoder := 0, length := 0, segLen := 0, cutChannel := 0, void := 0, zones := 0,
                zoneStarts := [0, 0, 0, 0, 0], decision := 0, gate := 0 },
    chill := { written := false, encoder := 0, length := 0, entry := 0 },
    freeze := { written := false, encoder := 0, length := 0, entry := 0, decision := 0, gate := 0, winStart := 0,
                winEnd := 0 },
    qBlanch := [], qChill := [], qFreeze := [], qSurge := [], nextId := 0, totalRef := none, lastNominal := 0,
    gapSet := 0, stray := 0 }

def DoseZone.clear : DoseZone :=
  { write := .none, state := .stale, creditTime := none, lastTemp := none, credits := 0, skipped := 0, gaps := 0,
    staleZones := 0 }

def De.power : De := { zones := List.replicate 6 .clear }

def Fv.power : Fv :=
  { chillState := .stale, prevChill := none, exitState := .stale, window := [], lateChill := 0, warmChill := 0,
    underDwell := 0, noExit := 0, warmExit := 0, unapplied := 0 }

def Recipe.power : Recipe :=
  { product := 0, valid := false, tbase := 0, table := List.replicate 64 0, target := 0, maximum := 0, chillWindow := 0,
    chillLimit := 0, warmAllowance := 0, dwell := 0, exitLimit := 0, bagTarget := 0, tare := 0, under := 0, overweight := 0,
    needWeight := false, needCode := false, needMetal := false, permille := 0, bagsPerCase := 0, casesPerPallet := 0,
    budget := 0, expReference := 0, assumedDock := 0 }

def Lh.power : Lh :=
  { recipes := List.replicate 16 .power, lots := List.replicate 8 none, lastHanding := none }

def Ba.power : Ba :=
  { slots := List.replicate 4 none, pallets := [], nextPallet := 0, decisions := [], carried := List.replicate 8 0,
    keptMade := none, keptWeight := none, keptCode := none, keptMetal := none, lastOverrun := none, overruns := 0,
    lostRecords := 0, lotless := 0, orphans := 0, strayGate := 0, serial := 0 }

def Place.archived : Place := { state := .archived, fields := none }

def Tm.power : Tm :=
  { places := List.replicate 1024 .archived, marks := [], pointer := 0, writeQueue := [], holding := none, spi := none,
    lastWasRead := false, readWaiting := none, verifyFail := 0, corrected := 0, uncorrectable := 0, restart := none,
    placed := 0 }

def Shuttle.power : Shuttle :=
  { written := false, point := 0, load := 0, airlock := 0, delivery := 0, state := .offline, enabled := false,
    pallet := none, deadline := none, late := 0, mismatch := 0, faults := 0 }

def Td.power : Td := { shuttles := List.replicate 4 .power, dock := [], lost := 0, lastHanding := none }

def Guard.power : Guard :=
  { enabled := false, filter := 0, mask := 0, cond := .always, action := .pass, low := 0, high := 0, force := 0 }

def Ag.power : Ag :=
  { mode := .offline, guards := List.replicate 64 .power, traps := [], trapCount := 0, shadows := [], unshadowed := 0,
    confirms := [], confOverflow := 0, faults := List.replicate 8 0 }

def LineConfig.power : LineConfig :=
  { returnTimeout := 10, recovery := 60, split := 20, reserve := 16, bagDeadline := 2000, pausePoint := none,
    reportDest := 255 }

def Ma.power : Ma :=
  { queue := [], phase := .idle, assembly := none, pending := List.replicate 19 none, lastHanding := none,
    routes := List.replicate 19 { dest := none, stop := false }, config := .power, authority := List.replicate 4 none }

/-- The part while RST_N is low (R20, R39, R56, R76, R94, R108, R125, R147, R160, R179, R195, R205); the levels of
the input pins BYP and CFG are the surroundings'. -/
def Chip.power (byp cfg : Bool) : Chip :=
  { pins := { rstN := false, running := false, node := 0, byp := byp, cfg := cfg, rly := false, stopN := true },
    clock := { ms := 0, line := 0, sub := 0 }, freeCount := 0, rp := .power, si := .power, tc := .power, st := .power,
    de := .power, fv := .power, lh := .power, ba := .power, tm := .power, td := .power, ag := .power, ma := .power }

/-- The machine in power-on reset: RST_N low, BYP and CFG low, nothing listed in the trace memory (log entries 4, 6). -/
def State.reset : State := { pending := [], mem := [], chip := Chip.power false false }

end Sys2Proof.Machine
end

