-- ==== Sys2Proof/Machine/Flags.lean ====
section
/-! DEFINITION. Flag and set computations: hold sets, reject reasons, saturating and wrapping counts, the ring state of
the error counts, kinds by number. -/

namespace Sys2Proof.Machine

/-! ## Statuses (R207) -/

/-- The statuses of an answer, in the order of their numbers. -/
inductive Status where
  | ok | badFormat | badIndex | range | mode | lotActive | notFound | notReady | noRoom | denied | full
deriving DecidableEq, Repr

def Status.number : Status → Nat
  | .ok => 0 | .badFormat => 1 | .badIndex => 2 | .range => 3 | .mode => 4 | .lotActive => 5 | .notFound => 6
  | .notReady => 7 | .noRoom => 8 | .denied => 9 | .full => 10

/-! ## Counts -/

/-- A count that runs 0 to 65,535 and saturates. -/
def inc16 (n : Nat) : Nat := min (n + 1) 65535

/-- A count that runs 0 to 65,535 and wraps. -/
def wrap16 (n : Nat) : Nat := (n + 1) % 65536

/-- Addition that stays at the greatest 32-bit value. -/
def satAdd32 (a b : Nat) : Nat := min (a + b) 4294967295

/-- R1: a 32-bit time or position `t` is reached at `now`. -/
def reached (now t : Word) : Bool := decide ((now - t).toNat < 2147483648)

/-- Enter a member of a list kept in order of a key, behind those of equal key. -/
def insertKey {α : Type} (key : α → Nat) (x : α) : List α → List α
  | [] => [x]
  | y :: ys => if key x < key y then x :: y :: ys else y :: insertKey key x ys

/-- The members in order of a key, those of equal key as they stood. -/
def sortKey {α : Type} (key : α → Nat) (l : List α) : List α := l.foldl (fun acc x => insertKey key x acc) []

/-! ## Hold sets (R119, R207) -/

/-- Bit of a reason in the mask of R207. -/
def HoldReason.bit : HoldReason → Nat
  | .staleZone => 0 | .gateUnconfirmed => 1 | .untrackedGap => 2 | .lateChill => 3 | .warmChill => 4
  | .underDwell => 5 | .noExitTemp => 6 | .divertMissed => 7 | .traceShort => 8 | .traceFault => 9
  | .exposure => 10 | .transferFault => 11 | .unverified => 12 | .manual => 13

/-- The set of one reason. -/
def HoldReason.only (r : HoldReason) : HoldSet := BitVec.ofNat 14 (2 ^ r.bit)

/-- A reason is in a hold set. -/
def HoldSet.has (h : HoldSet) (r : HoldReason) : Bool := h.getLsbD r.bit

/-- Placing a reason (R119): a set that holds it is unchanged. -/
def HoldSet.place (h : HoldSet) (r : HoldReason) : HoldSet := h ||| r.only

/-- Removing a set of reasons (R122): those not held are passed over. -/
def HoldSet.release (h reasons : HoldSet) : HoldSet := h &&& ~~~reasons

/-! ## Reject reasons (R135, R207) -/

inductive RejectReason where
  | incomplete | weightLow | weightHigh | codeFail | metal | conflict | overrun | tail
deriving DecidableEq, Repr

/-- Bit of a reject reason in the trace record (R207). -/
def RejectReason.bit : RejectReason → Nat
  | .incomplete => 0 | .weightLow => 1 | .weightHigh => 2 | .codeFail => 3 | .metal => 4 | .conflict => 5
  | .overrun => 6 | .tail => 7

/-- The reason as a set if its check fails, and the empty set otherwise. -/
def RejectReason.when (r : RejectReason) (fails : Bool) : Byte := if fails then BitVec.ofNat 8 (2 ^ r.bit) else 0

/-! ## Ring state (R14, R16) -/

/-- The ring state as a function of the two error counts and BYP (R14). -/
def ringStateOf (txErr rxErr : Nat) (byp : Bool) : RingState :=
  if byp || decide (256 ≤ txErr) then .isolated
  else if decide (127 < txErr) || decide (127 < rxErr) then .passive
  else .active

/-- R16: the recovery timer starts when its conditions begin to hold together and stops when either ceases. -/
def recoveryOf (rp : Rp) (now : Word) : Option Word :=
  if 256 ≤ rp.txErr ∧ rp.rxErr = 0 then some (rp.recovery.getD now) else none

/-! ## Alert kinds (R202) -/

/-- Position of a kind in the list of R202, from 0: its number less 1. -/
def AlertKind.index : AlertKind → Nat
  | .staleInput => 0 | .probeSplit => 1 | .overRange => 2 | .reverse => 3 | .untracked => 4 | .divertMissed => 5
  | .warmExit => 6 | .gateFault => 7 | .bagOverrun => 8 | .orphan => 9 | .palletFull => 10 | .traceFault => 11
  | .traceBacklog => 12 | .exposure => 13 | .transferFault => 14 | .misroute => 15 | .ringDegraded => 16
  | .ringIsolated => 17 | .txOverflow => 18

/-- The kinds in the order of their numbers. -/
def AlertKind.all : List AlertKind :=
  [.staleInput, .probeSplit, .overRange, .reverse, .untracked, .divertMissed, .warmExit, .gateFault, .bagOverrun,
   .orphan, .palletFull, .traceFault, .traceBacklog, .exposure, .transferFault, .misroute, .ringDegraded,
   .ringIsolated, .txOverflow]

/-- Number of a subject type (R207). -/
def SubjectType.number : SubjectType → Nat
  | .none => 0 | .channel => 1 | .zone => 2 | .segment => 3 | .bag => 4 | .lot => 5 | .pallet => 6 | .place => 7
  | .point => 8 | .shuttle => 9 | .stage => 10

/-- R204: STOP_N is low while some pending kind's route has its stop flag set. -/
def stopLevel (pending : List (Option PendingAlert)) (routes : List Route) : Bool :=
  !((pending.zip routes).any fun (a, r) => a.isSome && r.stop)

end Sys2Proof.Machine
end

