-- ==== Sys2Proof/Machine/Ops.lean ====
section
/-! DEFINITION. Shared operations: trace memory bytes and check codes, frames as bytes, look-ups and updates of the
tables, handing frames to RP (R9, R10), raising alerts (R203), own actuations and confirmations (R190, R191), values
handed for sending (R53). -/

namespace Sys2Proof.Machine

/-! ## Trace memory (R150) -/

/-- What a byte of the trace memory that nothing has written reads as (log entry 6). -/
def Memory.blank : Byte := 0

/-- The byte at an address. -/
def Memory.read : Memory → Nat → Byte
  | [], _ => Memory.blank
  | (x, v) :: m, a => if x = a then v else Memory.read m a

/-- Store one byte, keeping the canonical form: addresses rising, no entry equal to what an unlisted one reads as. -/
def Memory.write (a : Nat) (b : Byte) : Memory → Memory
  | [] => if b = Memory.blank then [] else [(a, b)]
  | (x, v) :: m =>
    if a < x then (if b = Memory.blank then (x, v) :: m else (a, b) :: (x, v) :: m)
    else if a = x then (if b = Memory.blank then m else (a, b) :: m)
    else (x, v) :: Memory.write a b m

/-- Store consecutive bytes. -/
def Memory.writeAll (a : Nat) : List Byte → Memory → Memory
  | [], m => m
  | b :: bs, m => Memory.writeAll (a + 1) bs (Memory.write a b m)

/-- Read `n` consecutive bytes. -/
def Memory.readAll (m : Memory) (a n : Nat) : List Byte := (List.range n).map fun i => Memory.read m (a + i)

/-- The canonical form, over a lower bound of the addresses. -/
def Memory.wfFrom (lo : Nat) : Memory → Bool
  | [] => true
  | (a, b) :: m => decide (lo ≤ a) && decide (b ≠ Memory.blank) && Memory.wfFrom (a + 1) m

/-- The canonical form of the trace memory. -/
def Memory.wf (m : Memory) : Bool := Memory.wfFrom 0 m

/-- Turn over the bits that an error mask lists; a shorter mask leaves the rest. -/
def xorMask : List Byte → List Byte → List Byte
  | [], _ => []
  | b :: bs, [] => b :: bs
  | b :: bs, e :: es => (b ^^^ e) :: xorMask bs es

/-! ## Check codes (R150) -/

/-- Positions 3 to 71 that are no power of two: those of word bits 0 to 63. -/
def dataPositions : List Nat := (List.range 72).filter fun p => decide (3 ≤ p) && decide (p &&& (p - 1) ≠ 0)

/-- The 64 bits of a word of 8 bytes: bit 0 is the least significant bit of byte 7. -/
def wordBits (bs : List Byte) : List Bool := bs.reverse.flatMap fun b => (List.range 8).map fun i => b.getLsbD i

/-- Exclusive or of the positions of the ones among the word's bits. -/
def positionSum (bits : List Bool) : Nat :=
  (bits.zip dataPositions).foldl (fun acc (b, p) => if b then acc ^^^ p else acc) 0

/-- Whether a list of bits holds an odd number of ones. -/
def oddOnes (bits : List Bool) : Bool := bits.foldl (fun acc b => acc != b) false

/-- The bits of a code byte, from bit 0. -/
def byteBits (b : Byte) : List Bool := (List.range 8).map fun i => b.getLsbD i

/-- The check code of a word (R150): bits 0 to 6 make every position group even, bit 7 makes all 72 positions even. -/
def checkCode (bs : List Byte) : Byte :=
  let bits := wordBits bs
  let low := BitVec.ofNat 8 (positionSum bits)
  if oddOnes (bits ++ byteBits low) then low ||| 128 else low

/-- Result of checking a word. -/
inductive WordCheck where
  | good (bs : List Byte) | corrected (bs : List Byte) | uncorrectable (bs : List Byte)
deriving DecidableEq, Repr

def WordCheck.bytes : WordCheck → List Byte
  | .good bs => bs | .corrected bs => bs | .uncorrectable bs => bs

/-- Turn over word bit `k`. -/
def flipBit (k : Nat) (bs : List Byte) : List Byte := bs.modify (7 - k / 8) fun b => b ^^^ BitVec.ofNat 8 (2 ^ (k % 8))

/-- Check a word against its code (R150). -/
def checkWord (bs : List Byte) (code : Byte) : WordCheck :=
  let syndrome := positionSum (wordBits bs) ^^^ (code.toNat % 128)
  let odd := oddOnes (wordBits bs ++ byteBits code)
  if odd then
    if 71 < syndrome then .uncorrectable bs
    else
      match dataPositions.idxOf? syndrome with
      | some k => .corrected (flipBit k bs)
      | none => .corrected bs
  else if syndrome = 0 then .good bs
  else .uncorrectable bs

/-- Cut a record into its eight words. -/
def recordWords (bs : List Byte) : List (List Byte) := (List.range 8).map fun w => (bs.drop (8 * w)).take 8

/-- The eight check codes of a record. -/
def recordCodes (bs : List Byte) : List Byte := (recordWords bs).map checkCode

/-- Check a record of 64 bytes against its eight codes, word by word. -/
def checkRecord (bs codes : List Byte) : List WordCheck :=
  ((recordWords bs).zip codes).map fun (w, c) => checkWord w c

/-- Read results of R155, in their order there. -/
inductive ReadResult where
  | good | corrected | uncorrectable
deriving DecidableEq, Repr

/-- The read result of a record and its bytes: corrected where every error is correctable, as read otherwise. -/
def readRecord (bs codes : List Byte) : ReadResult × List Byte :=
  let ws := checkRecord bs codes
  if ws.any (fun w => match w with | .uncorrectable _ => true | _ => false) then (.uncorrectable, bs)
  else if ws.any (fun w => match w with | .corrected _ => true | _ => false) then (.corrected, ws.flatMap WordCheck.bytes)
  else (.good, bs)

/-- The `k` low bytes of a number, most significant first (R207). -/
def beBytes (n : Nat) : Nat → List Byte
  | 0 => []
  | k + 1 => BitVec.ofNat 8 (n / 256 ^ k) :: beBytes n k

/-- A number from bytes, most significant first (R207). -/
def beNat (bs : List Byte) : Nat := bs.foldl (fun acc b => acc * 256 + b.toNat) 0

/-- A flag bit of a mask. -/
def maskBit (i : Nat) (b : Bool) : Nat := if b then 2 ^ i else 0

/-- The 64 bytes of a bag record in the layout of R207. The bytes of an absent net weight or pallet id and the FAIL flag of an
absent result are 0, and the epoch bytes are the epoch offset as it stands (the model's choice, log entry 36). -/
def BagRecord.bytes (r : BagRecord) : List Byte :=
  let flags := maskBit 0 r.rejected + maskBit 1 r.net.isSome + maskBit 2 r.codeFail.isSome + maskBit 3 r.metalFail.isSome
    + maskBit 4 r.pallet.isSome + maskBit 5 r.epochPresent + maskBit 6 (r.codeFail.getD false)
    + maskBit 7 (r.metalFail.getD false)
  let drawBytes := (List.range 8).flatMap fun i =>
    match r.draws[i]? with
    | some d => beBytes d.segment 2 ++ beBytes d.grams 3
    | none => beBytes 0 5
  beBytes r.seq 2 ++ beBytes r.lotNumber.toNat 4 ++ [BitVec.ofNat 8 flags, r.reasons]
    ++ beBytes r.made 4 ++ beBytes r.epoch.toNat 4
    ++ beBytes (BitVec.ofInt 24 (r.net.getD 0)).toNat 3 ++ beBytes r.hold.toNat 2 ++ beBytes (r.pallet.getD 0) 2
    ++ beBytes r.draws.length 1 ++ drawBytes

/-- A record's bytes with another hold set put in (R154): bytes 3 to 4 of word 2. -/
def withHoldBytes (h : HoldSet) (bs : List Byte) : List Byte := bs.take 19 ++ beBytes h.toNat 2 ++ bs.drop 21

/-- Address of a place and of its check codes (R150). -/
def placeAddr (p : Nat) : Nat := 64 * p
def codeAddr (p : Nat) : Nat := 65536 + 8 * p

/-- The 64 bytes of a place, and its eight codes, as they stand. -/
def placeBytes (m : Memory) (p : Nat) : List Byte := Memory.readAll m (placeAddr p) 64
def placeCodes (m : Memory) (p : Nat) : List Byte := Memory.readAll m (codeAddr p) 8

/-- Store 72 bytes (64 of the record, then eight codes) in a place. -/
def storePlace (p : Nat) (bs : List Byte) (m : Memory) : Memory :=
  Memory.writeAll (codeAddr p) ((bs.drop 64).take 8) (Memory.writeAll (placeAddr p) (bs.take 64) m)

/-! ## Frames as bytes (R207) -/

/-- The kind a kind byte names. -/
def frameKind? (b : Byte) : Option FrameKind :=
  match b.toNat with
  | 1 => some .sample | 2 => some .actuate | 3 => some .mgmtReq | 4 => some .mgmtAns | 5 => some .alert
  | 6 => some .report | 7 => some .time | _ => none

def FrameKind.byte : FrameKind → Byte
  | .sample => 1 | .actuate => 2 | .mgmtReq => 3 | .mgmtAns => 4 | .alert => 5 | .report => 6 | .time => 7

/-- Read `n` items of 7 bytes; none if the bytes run short (R3, R207). -/
def parseItems : Nat → List Byte → Option (List Item)
  | 0, _ => some []
  | n + 1, b0 :: b1 :: b2 :: b3 :: b4 :: b5 :: b6 :: rest =>
    (parseItems n rest).map fun is =>
      { key := BitVec.ofNat 16 (beNat [b0, b1]), value := BitVec.ofNat 32 (beNat [b2, b3, b4, b5]), quality := b6 } :: is
  | _ + 1, _ => none

def Item.bytes (i : Item) : List Byte := beBytes i.key.toNat 2 ++ beBytes i.value.toNat 4 ++ [i.quality]

/-- The bytes of a frame's items, as they follow the header. -/
def itemBytes (l : List Item) : List Byte := l.flatMap Item.bytes

def headerBytes (h : Header) : List Byte := [h.kind, h.origin, h.dest, h.seq, h.count]

/-- A header is good as far as a header shows it (R3): known kind, 1 to 16 items. -/
def headerGood (h : Header) : Bool :=
  (frameKind? h.kind).isSome && decide (1 ≤ h.count.toNat) && decide (h.count.toNat ≤ 16)

def LineFrame.header (f : LineFrame) : Header :=
  { kind := f.kind.byte, origin := f.origin, dest := f.dest, seq := f.seq, count := BitVec.ofNat 8 f.items.length }

/-- A line frame's bytes (R207). -/
def LineFrame.bytes (f : LineFrame) : List Byte := headerBytes f.header ++ itemBytes f.items

/-- An item with quality 0, as own frames carry it (R207). -/
def mkItem (key : Key) (value : Word) : Item := { key := key, value := value, quality := 0 }

/-! ## Look-ups and updates -/

/-- The dynamic and configured part of an intake channel; an index beyond 47 names none. -/
def intakeChan (c : Chip) (i : Nat) : IntakeChan := c.si.chans.getD i .power

def modIntake (i : Nat) (f : IntakeDyn → IntakeDyn) (c : Chip) : Chip :=
  { c with si := { c.si with chans := c.si.chans.modify i fun k => { k with dyn := f k.dyn } } }

/-- The lowest enabled intake entry whose role is `r` (at most one, R23, but for the roles R23 excepts). -/
def findRole (c : Chip) (r : Role) : Option IntakeChan := c.si.chans.find? fun k => k.cfg.enabled && k.cfg.role == some r

def trackChan (c : Chip) (n : Nat) : TrackChan := c.tc.chans.getD n .power

def modTrack (n : Nat) (f : TrackDyn → TrackDyn) (c : Chip) : Chip :=
  { c with tc := { c.tc with chans := c.tc.chans.modify n fun k => { k with dyn := f k.dyn } } }

/-- The lot of an entry that is not FREE. -/
def lotAt (c : Chip) (i : Nat) : Option Lot := c.lh.lots.getD i none

def modLot (i : Nat) (f : Lot → Lot) (c : Chip) : Chip :=
  { c with lh := { c.lh with lots := c.lh.lots.modify i (Option.map f) } }

/-- Index of the OPEN lot, if there is one (R111). -/
def openLot? (c : Chip) : Option Nat :=
  c.lh.lots.findIdx? fun l => match l with | some e => e.state == .opened | none => false

/-- The recipe of a lot; a lot of a live record is never FREE (R111), so the default is not met (log entry 27). -/
def recipeOfLot (c : Chip) (i : Nat) : Recipe :=
  match lotAt c i with
  | some l => c.lh.recipes.getD l.recipe .power
  | none => .power

/-- The hold set of a lot: empty or MANUAL (R119). -/
def lotHold (c : Chip) (i : Nat) : HoldSet :=
  match lotAt c i with
  | some l => if l.manual then HoldReason.manual.only else 0
  | none => 0

def palletAt (c : Chip) (id : Nat) : Option Pallet := c.ba.pallets.find? fun p => p.id == id

def modPallet (id : Nat) (f : Pallet → Pallet) (c : Chip) : Chip :=
  { c with ba := { c.ba with pallets := c.ba.pallets.map fun p => if p.id = id then f p else p } }

def placeAt (c : Chip) (p : Nat) : Place := c.tm.places.getD p .archived

def modPlace (p : Nat) (f : Place → Place) (c : Chip) : Chip :=
  { c with tm := { c.tm with places := c.tm.places.modify p f } }

/-- Change the record fields of an index entry that has them. -/
def modFields (p : Nat) (f : PlaceFields → PlaceFields) (c : Chip) : Chip :=
  modPlace p (fun e => { e with fields := e.fields.map f }) c

/-- TRACE-BACKLOG: the holding slot is occupied (R156). -/
def traceBacklog (c : Chip) : Bool := c.tm.holding.isSome

/-- Effective hold (R119): the record's own set together with its lot's. -/
def effectiveHold (c : Chip) (lot : Nat) (own : HoldSet) : HoldSet := own ||| lotHold c lot

/-! ## Handing frames to RP (R9, R10) -/

/-- Class order of the transmit queue (R9). -/
def classRank : FrameKind → Nat
  | .actuate => 0 | .alert => 1 | .mgmtAns => 2 | _ => 3

/-- Enter a frame behind those of its class and of the classes before it (R9). -/
def enterQueue (f : OwnFrame) (q : List OwnFrame) : List OwnFrame :=
  q.takeWhile (fun g => decide (classRank g.kind ≤ classRank f.kind)) ++
    f :: q.dropWhile (fun g => decide (classRank g.kind ≤ classRank f.kind))

/-- What RP does with a frame handed to it. -/
inductive Offer where
  | taken | refused | overflow
deriving DecidableEq, Repr

/-- A REPORT handed back becomes WAITING (R117); a superseded delivery report changes nothing (R176). -/
def reportHandedBack (src : FrameSource) (c : Chip) : Chip :=
  match src with
  | .lotReport l => modLot l (fun e => if e.report = .queued then { e with report := .waiting } else e) c
  | .deliveryReport id rev =>
    modPallet id (fun p => if p.revision = rev ∧ p.report = .queued then { p with report := .waiting } else p) c
  | _ => c

/-- The REPORT frame that entered the queue most recently, if the queue holds one: it stands last (R9, R10). -/
def displaceable (f : OwnFrame) (q : List OwnFrame) : Option OwnFrame :=
  if f.kind = .actuate ∨ f.kind = .alert then
    match q.getLast? with
    | some g => if g.kind = .report then some g else none
    | none => none
  else none

/-- A frame that may be sent now (R9). -/
def sendable (c : Chip) (f : OwnFrame) : Bool := decide (f.kind ≠ .report) || decide (c.rp.ring = .active)

/-- A frame at the head of the forward buffer is ready (R6, R7). -/
def forwardReady (c : Chip) : Option ForwardEntry :=
  match c.rp.forward with
  | e :: _ => if e.receiving || e.unchecked then none else some e
  | [] => none

/-- An own frame begins to leave (R11), its originator aside. -/
def beginOwn (f : OwnFrame) (c : Chip) : Chip :=
  let frame : LineFrame := { kind := f.kind, origin := c.pins.node, dest := f.dest, seq := c.rp.nextSeq, items := f.items }
  let entry : ReturnEntry :=
    { seq := c.rp.nextSeq, kind := f.kind, sentAt := c.clock.ms, isRestart := decide (f.source = .answer true) }
  { c with rp := { c.rp with
      returnList := c.rp.returnList ++ [entry], nextSeq := c.rp.nextSeq + 1,
      tx := some { header := frame.header, body := some (itemBytes f.items), badCheck := false } } }

/-- The transmitter is idle, no source is ready, and the return list has room: a frame that enters the queue now and may be
sent is the first such frame, and the grant is made for it at once (R8). -/
def txAwaits (c : Chip) : Bool :=
  c.rp.tx.isNone && (forwardReady c).isNone && decide (c.rp.returnList.length < 16) && !c.rp.txQueue.any (sendable c)

/-- A frame that may be sent now enters the transmit queue (R9), and begins to leave if the transmitter awaits one (R8). -/
def acceptFrame (f : OwnFrame) (c : Chip) : Chip :=
  if txAwaits c then beginOwn f c else { c with rp := { c.rp with txQueue := enterQueue f c.rp.txQueue } }

/-- R9 and R10 without the alert of a discarded frame. -/
def rpOffer (f : OwnFrame) (c : Chip) : Chip × Offer :=
  if c.rp.ring = .isolated then (c, .refused)
  else if c.rp.ring = .passive ∧ f.kind = .report then (c, .refused)
  else if c.rp.txQueue.length < 32 then (acceptFrame f c, .taken)
  else
    match displaceable f c.rp.txQueue with
    | some g =>
      (reportHandedBack g.source (acceptFrame f { c with rp := { c.rp with txQueue := c.rp.txQueue.dropLast } }), .taken)
    | none => (c, .overflow)

/-! ## Alerts (R203, R204) -/

def pendingAlert (c : Chip) (k : AlertKind) : Option PendingAlert := c.ma.pending.getD k.index none

def routeOf (c : Chip) (k : AlertKind) : Route := c.ma.routes.getD k.index { dest := none, stop := false }

/-- Re-evaluate STOP_N (R204). -/
def evalStopN (c : Chip) : Chip :=
  { c with pins := { c.pins with stopN := stopLevel c.ma.pending c.ma.routes } }

/-- Put a member of the pending set, or remove it, and re-evaluate STOP_N. -/
def setAlert (k : AlertKind) (a : Option PendingAlert) (c : Chip) : Chip :=
  evalStopN { c with ma := { c.ma with pending := c.ma.pending.set k.index a } }

/-- The ALERT frame of a pending kind (R203, R207). An epoch offset that is absent is sent as 0, and so is the subject of a kind
whose subject is none (the model's choices, log entry 47). -/
def alertFrame (k : AlertKind) (a : PendingAlert) (dest : Byte) (c : Chip) : OwnFrame :=
  { kind := .alert, dest := dest, source := .alert k,
    items := [mkItem (BitVec.ofNat 16 (k.index + 1 + 256 * a.subjectType.number)) a.subject,
              mkItem (BitVec.ofNat 16 a.count) (BitVec.ofNat 32 a.line),
              mkItem (if c.rp.epochPresent then 1 else 0) c.rp.epoch] }

/-- Hand RP the frame of a pending kind whose route names a destination; the unsent mark follows what RP does.
The second component says that the frame met a full queue and was discarded (R10). -/
def handAlert (k : AlertKind) (c : Chip) : Chip × Bool :=
  match pendingAlert c k, (routeOf c k).dest with
  | some a, some d =>
    match rpOffer (alertFrame k a d c) c with
    | (c1, o) =>
      (setAlert k (some { a with unsent := decide (o ≠ .taken) })
        { c1 with ma := { c1.ma with lastHanding := some c1.clock.line } }, decide (o = .overflow))
  | _, _ => (c, false)

/-- One more occurrence of a pending kind: nothing is handed (R203). -/
def countAlert (k : AlertKind) (c : Chip) : Chip :=
  match pendingAlert c k with
  | some a => setAlert k (some { a with count := inc16 a.count }) c
  | none => c

/-- A kind that is not pending joins the set (R203). -/
def addAlert (k : AlertKind) (t : SubjectType) (subject : Word) (c : Chip) : Chip :=
  setAlert k (some { count := 1, subjectType := t, subject := subject, line := c.clock.line, unsent := false }) c

/-- Raise TX-OVERFLOW (R10): its own frame may be discarded too, which only counts. -/
def raiseOverflow (c : Chip) : Chip :=
  match pendingAlert c .txOverflow with
  | some _ => countAlert .txOverflow c
  | none =>
    match handAlert .txOverflow (addAlert .txOverflow .none 0 c) with
    | (c1, true) => countAlert .txOverflow c1
    | (c1, false) => c1

/-- Raise an alert (R203). -/
def raise (k : AlertKind) (t : SubjectType) (subject : Word) (c : Chip) : Chip :=
  match pendingAlert c k with
  | some _ => countAlert k c
  | none =>
    match handAlert k (addAlert k t subject c) with
    | (c1, true) => raiseOverflow c1
    | (c1, false) => c1

/-- Raise an alert whose subject is a number. -/
def raiseNat (k : AlertKind) (t : SubjectType) (n : Nat) (c : Chip) : Chip := raise k t (BitVec.ofNat 32 n) c

/-- A block hands RP a frame (R9, R10): true if it entered the queue. -/
def rpHand (f : OwnFrame) (c : Chip) : Chip × Bool :=
  match rpOffer f c with
  | (c1, .taken) => (c1, true)
  | (c1, .refused) => (c1, false)
  | (c1, .overflow) => (raiseOverflow c1, false)

/-- A REPORT handed to RP now begins to leave at once (R8, R9): in ACTIVE every frame may be sent, so the queue is empty. -/
def reportBegins (c : Chip) : Bool := decide (c.rp.ring = .active) && txAwaits c

/-- A fresh free value (log entry 13). -/
def takeFree (c : Chip) : Chip × Word := ({ c with freeCount := c.freeCount + 1 }, Config.freeWord c.freeCount)

/-! ## Own actuations (R188, R190, R191, R193) -/

/-- Write a trap record: the newest stands first, the oldest of 32 is replaced (R188). -/
def addTrap (t : Trap) (c : Chip) : Chip :=
  { c with ag := { c.ag with traps := (t :: c.ag.traps).take 32, trapCount := inc16 c.ag.trapCount } }

/-- An own actuation (R190): sent in PRODUCTION as a frame of one item to the node of its key, suppressed otherwise. -/
def agOwn (key : Key) (value : Word) (c : Chip) : Chip × Bool :=
  if c.ag.mode = .production then
    rpHand { kind := .actuate, dest := BitVec.ofNat 8 (key.toNat / 256), items := [mkItem key value],
             source := .ownActuation } c
  else
    (addTrap { line := c.clock.line, key := key, received := value, verdict := .suppressed, applied := none,
               entry := .ownSuppressed, mode := c.ag.mode } c, false)

/-- A value has failed (R193): GATE-FAULT is raised and the point's fault count increases. -/
def gateFault (n : Nat) (c : Chip) : Chip :=
  let c1 := { c with ag := { c.ag with faults := c.ag.faults.modify n inc16 } }
  raiseNat .gateFault .point n c1

/-- The confirmation of a value RP has taken (R191): confirmed at once without an echo channel, pending with one, and
failed at once where the list holds 8. -/
def agConfirm (n : Nat) (value : Word) (src : ConfSource) (serves : Option Nat) (timeout : Nat) (c : Chip) :
    Chip × Outcome4 :=
  match findRole c (.pointEcho n) with
  | none => (c, .confirmed)
  | some _ =>
    if c.ag.confirms.length < 8 then
      ({ c with ag := { c.ag with confirms := c.ag.confirms ++
          [{ point := n, value := value, source := src, serves := serves,
             deadline := c.clock.ms + BitVec.ofNat 32 timeout }] } }, .pending)
    else (gateFault n { c with ag := { c.ag with confOverflow := inc16 c.ag.confOverflow } }, .failed)

/-! ## Owned points and values handed for sending (R52, R53) -/

/-- Key and intended state of owned point `n`, if it is in use (R52). -/
def ownedPoint (c : Chip) (n : Nat) : Option (Key × Word) :=
  match (trackChan c n).cfg.output with
  | some o =>
    some (o.key, if (trackChan c n).cfg.mode = .gate ∧ (trackChan c n).dyn.state = .opened then o.onValue else o.offValue)
  | none =>
    match c.ma.config.pausePoint with
    | some p => if p.index = n then some (p.key, if traceBacklog c then p.pause else p.resume) else none
    | none => none

def setUnsent (n : Nat) (b : Bool) (c : Chip) : Chip :=
  { c with tc := { c.tc with unsent := c.tc.unsent.set n b } }

/-- A value handed for sending (R53): withheld while ISOLATED, suppressed outside PRODUCTION, refused, or taken and
then confirmed, pending or failed. -/
def sendValue (n : Nat) (key : Key) (value : Word) (src : ConfSource) (serves : Option Nat) (timeout : Nat) (c : Chip) :
    Chip × Outcome4 :=
  if c.rp.ring = .isolated then (setUnsent n true c, .notSent)
  else
    match agOwn key value c with
    | (c1, true) => agConfirm n value src serves timeout (setUnsent n false c1)
    | (c1, false) => (setUnsent n true c1, .notSent)

/-- TRACE-BACKLOG has risen or fallen (R156): the pause or resume value is handed for sending. -/
def sendPause (c : Chip) : Chip :=
  match c.ma.config.pausePoint with
  | some p => (sendValue p.index p.key (if traceBacklog c then p.pause else p.resume) .pause none p.timeout c).1
  | none => c

/-- Hand owned point `n`'s intended state for sending, with no served record (R55, R182). -/
def sendIntended (n : Nat) (c : Chip) : Chip :=
  match ownedPoint c n with
  | some (key, v) =>
    match (trackChan c n).cfg.output, c.ma.config.pausePoint with
    | some o, _ => (sendValue n key v (.channel n) none o.timeout c).1
    | none, some p => (sendValue n key v .pause none p.timeout c).1
    | none, none => c
  | none => c

end Sys2Proof.Machine
end

