-- ==== Sys2Proof/Machine/Dock.lean ====
section
/-! DEFINITION. The transfer dispatcher's dock: destinations (R163), exposure (R164, R165), arbitration and assignment
(R168, R169), taking a closed pallet (R162). -/

namespace Sys2Proof.Machine

/-- Dock temperature in effect for a pallet of a lot (R164): the latest DOCK-TEMP value while FRESH, and the recipe's
assumed dock temperature otherwise. -/
def dockTemp (c : Chip) (lot : Nat) : Int :=
  match findRole c .dockTemp with
  | some k =>
    match k.dyn.fresh, k.dyn.latest with
    | .fresh, some v => v.value
    | _, _ => (recipeOfLot c lot).assumedDock
  | none => (recipeOfLot c lot).assumedDock

/-- Destination of an effective hold (R119, R163). -/
def destinationOf (h : HoldSet) : Destination := if h = 0 then .store else .quarantine

/-- A CLOSED pallet's destination follows its effective hold; no other state's does (R163). -/
def evalDestination (id : Nat) (c : Chip) : Chip :=
  modPallet id (fun p =>
    if p.state = .closed then { p with dest := some (destinationOf (effectiveHold c p.lot p.hold)) } else p) c

/-- Change a pallet's own hold set, and its destination with it (R163). -/
def changePalletHold (id : Nat) (f : HoldSet → HoldSet) (c : Chip) : Chip :=
  evalDestination id (modPallet id (fun p => { p with hold := f p.hold }) c)

/-- Increment of an exposure interval (R164 steps 3 and 4). -/
def exposureIncrement (expTemp tEnd reference : Int) (interval : Nat) : Nat :=
  let tx := max expTemp tEnd
  if reference < tx then (tx - reference).toNat * interval else 0

/-- Exhaustion check (R165). -/
def checkExhausted (id : Nat) (c : Chip) : Chip :=
  match palletAt c id with
  | some p =>
    if (recipeOfLot c p.lot).budget * 6000 ≤ p.exposure ∧ ¬ p.exhausted then
      raiseNat .exposure .pallet id
        (changePalletHold id (fun h => h.place .exposure) (modPallet id (fun q => { q with exhausted := true }) c))
    else c
  | none => c

/-- Bring one pallet's exposure up to date (R164). -/
def exposePallet (id : Nat) (c : Chip) : Chip :=
  match palletAt c id with
  | some p =>
    let tEnd := dockTemp c p.lot
    let inc := exposureIncrement p.expTemp tEnd (recipeOfLot c p.lot).expReference (c.clock.line - p.expTime)
    checkExhausted id
      (modPallet id (fun q =>
        { q with exposure := satAdd32 q.exposure inc, expTime := c.clock.line, expTemp := tEnd }) c)
  | none => c

/-- Bring every CLOSED or ASSIGNED pallet's exposure up to date (R164, R165), in order of creation (the model's choice, log
entry 8). -/
def exposeAll (c : Chip) : Chip :=
  ((c.ba.pallets.filter fun p => p.state == .closed || p.state == .assigned).map (·.id)).foldl
    (fun acc id => exposePallet id acc) c

/-- Place of a pallet in the order of closing (R162): by close time, and by handing among equal close times. -/
def closeOrder (c : Chip) (id : Nat) : Nat :=
  match palletAt c id with
  | some p => p.serial
  | none => 0

/-- Enter the dock queue at the place the close time gives (R162, R174). -/
def enterDock (id : Nat) (c : Chip) : Chip :=
  let before := fun j => decide (closeOrder c j ≤ closeOrder c id)
  { c with td := { c.td with dock := c.td.dock.takeWhile before ++ id :: c.td.dock.dropWhile before } }

/-- Remaining budget of a pallet (R168), signed. -/
def remainingBudget (c : Chip) (p : Pallet) : Int := ((recipeOfLot c p.lot).budget * 6000 : Nat) - (p.exposure : Nat)

/-- The queued pallet with the least remaining budget, the earliest in the queue among equals (R168). -/
def arbitrationWinner (c : Chip) : Option Pallet :=
  (c.td.dock.filterMap (palletAt c)).foldl (fun best p =>
    match best with
    | none => some p
    | some b => if remainingBudget c p < remainingBudget c b then some p else some b) none

/-- Lowest-numbered IDLE shuttle (R168). -/
def idleShuttle (c : Chip) : Option Nat := c.td.shuttles.findIdx? fun s => s.state == .idle

def shuttleAt (c : Chip) (n : Nat) : Shuttle := c.td.shuttles.getD n .power

def modShuttle (n : Nat) (f : Shuttle → Shuttle) (c : Chip) : Chip :=
  { c with td := { c.td with shuttles := c.td.shuttles.modify n f } }

/-- The transfer command's value (R169): pallet id above, 1 for STORE or 2 for QUARANTINE below. -/
def transferValue (p : Pallet) : Word :=
  BitVec.ofNat 32 (p.id * 65536 + (if p.dest = some .quarantine then 2 else 1))

/-- Assign a pallet to a shuttle (R169); false if the command was lost and the assignment undone. -/
def assignPallet (p : Pallet) (n : Nat) (c : Chip) : Chip × Bool :=
  let s := shuttleAt c n
  let c1 := modPallet p.id (fun q => { q with state := .assigned, shuttle := some n })
    { c with td := { c.td with dock := c.td.dock.erase p.id } }
  let c2 := modShuttle n (fun t =>
    { t with state := .assigned, pallet := some p.id, deadline := some (c.clock.line + 10 * s.load) }) c1
  match agOwn s.point (transferValue p) c2 with
  | (c3, true) => (c3, true)
  | (c3, false) =>
    let c4 := modPallet p.id (fun q => { q with state := .closed, shuttle := none }) c3
    let c5 := modShuttle n (fun t => { t with state := .idle, pallet := none, deadline := none }) c4
    let c6 := evalDestination p.id (enterDock p.id c5)
    ({ c6 with td := { c6.td with lost := inc16 c6.td.lost } }, false)

/-- Steps (2) to (5) of an arbitration (R168), at most once for each shuttle. -/
def arbitrationLoop : Nat → Chip → Chip
  | 0, c => c
  | k + 1, c =>
    match idleShuttle c, arbitrationWinner c with
    | some n, some p =>
      match assignPallet p n c with
      | (c1, true) => arbitrationLoop k c1
      | (c1, false) => c1
    | _, _ => c

/-- The four conditions of R168. -/
def arbitrationOpen (c : Chip) : Bool :=
  decide (c.ag.mode = .production) && decide (c.rp.ring ≠ .isolated) && (idleShuttle c).isSome && !c.td.dock.isEmpty

/-- Check the conditions and run arbitration (R168). -/
def arbitrate (c : Chip) : Chip := if arbitrationOpen c then arbitrationLoop 4 (exposeAll c) else c

/-- TD takes a closed pallet (R162). -/
def takePallet (id : Nat) (c : Chip) : Chip :=
  let c1 := evalDestination id (enterDock id c)
  let c2 := modPallet id (fun p => { p with expTime := p.closeTime.getD 0, expTemp := dockTemp c p.lot }) c1
  arbitrate c2

end Sys2Proof.Machine
end

