-- ==== Sys2Proof/Machine/Trace.lean ====
section
/-! DEFINITION. The trace memory controller's records: what waits for the SPI master (R152), taking (R151), placing and BA's place report (R144), backlog
(R156), amendments (R154), poisoning (R153), freeing (R157). -/

namespace Sys2Proof.Machine

/-! ## Operations that wait for the SPI master (R152) -/

def setSpi (op : Option SpiOp) (isRead : Bool) (c : Chip) : Chip :=
  { c with tm := { c.tm with spi := op, lastWasRead := isRead } }

def clearMark (p : Nat) (c : Chip) : Chip := { c with tm := { c.tm with marks := c.tm.marks.filter (· ≠ p) } }

/-- The first STORED place whose rewrite mark is set, in the order of marking (R152), with the hold set to put in. -/
def nextRewrite (c : Chip) : Option (Nat × HoldSet) :=
  c.tm.marks.findSome? fun p =>
    match (placeAt c p).state, (placeAt c p).fields with
    | .stored, some f => some (p, f.hold)
    | _, _ => none

/-- Cases 2 and 3 of a grant (R152): the head write, then a rewrite. -/
def grantWork (c : Chip) : Chip :=
  match c.tm.writeQueue with
  | q :: _ => setSpi (some (.write q.place q.record)) false c
  | [] =>
    match nextRewrite c with
    | some (p, h) => setSpi (some (.rewrite p h)) false (clearMark p c)
    | none => c

/-- The SPI master is free and no operation waits for it. -/
def spiAwaits (c : Chip) : Bool :=
  c.tm.spi.isNone && c.tm.restart.isNone && c.tm.readWaiting.isNone && c.tm.writeQueue.isEmpty && (nextRewrite c).isNone

/-- An operation has become waiting, `c` being the part before: a free master is granted to it at once (R152). -/
def whenWaiting (c after : Chip) : Chip := if spiAwaits c then grantWork after else after

/-! ## Taking records (R151) -/

/-- A place the write pointer passes over: a STORED or POISONED record of a rejected bag (R151). -/
def passedOver (e : Place) : Bool :=
  (e.state == .stored || e.state == .poisoned) && (match e.fields with | some f => f.rejected | none => false)

/-- The place at the write pointer (R151): the first in ring order that is not passed over. -/
def pointerPlace (c : Chip) : Option Nat :=
  ((List.range 1024).map fun i => (c.tm.pointer + i) % 1024).find? fun p => !passedOver (placeAt c p)

/-- The place a record can be given now (R151). -/
def openPlace (c : Chip) : Option Nat :=
  if c.tm.writeQueue.length < 4 then
    match pointerPlace c with
    | some p => if (placeAt c p).state = .free ∨ (placeAt c p).state = .archived then some p else none
    | none => none
  else none

/-- BA's entry of the decision list for a record: the oldest of that bag, lot and decision with no place yet. -/
def entryOfRecord (r : BagRecord) (e : DecisionEntry) : Bool :=
  e.seq == r.seq && e.lot == some r.lot && e.place.isNone && e.decision == (if r.rejected then .rejected else .accepted)

/-- BA writes a record's place into the decision list and the record's pallet (R144). -/
def placeReport (r : BagRecord) (p : Nat) (c : Chip) : Chip :=
  let ds := match c.ba.decisions.findIdx? (entryOfRecord r) with
    | some i => c.ba.decisions.modify i fun e => { e with place := some p }
    | none => c.ba.decisions
  let c1 := { c with ba := { c.ba with decisions := ds } }
  match r.pallet with
  | some id =>
    modPallet id (fun q =>
      if q.lot = r.lot then { q with firstPlace := some (q.firstPlace.getD p), lastPlace := some p } else q) c1
  | none => c1

/-- Place a record (R151, second case). -/
def placeRecord (p : Nat) (r : BagRecord) (c : Chip) : Chip :=
  let fields : PlaceFields :=
    { seq := r.seq, lot := r.lot, pallet := r.pallet, rejected := r.rejected, hold := r.hold, freeAtCompletion := false,
      placed := c.tm.placed }
  let c1 := modPlace p (fun _ => { state := .pending, fields := some fields }) c
  placeReport r p (whenWaiting c
    { c1 with tm := { c1.tm with writeQueue := c1.tm.writeQueue ++ [{ place := p, record := r }],
                                 pointer := (p + 1) % 1024, placed := c1.tm.placed + 1 } })

/-- The rise of TRACE-BACKLOG (R156). Where no place is at the write pointer the subject is a free value. -/
def backlogRises (c : Chip) : Chip :=
  match pointerPlace c with
  | some p => sendPause (raiseNat .traceBacklog .place p c)
  | none =>
    match takeFree c with
    | (c1, w) => sendPause (raise .traceBacklog .place w c1)

/-- TM takes a record or refuses it (R151); during the completion of a warm restart it takes none (R161). -/
def takeRecord (r : BagRecord) (c : Chip) : Chip × Bool :=
  if c.tm.restart.isSome || c.tm.holding.isSome then (c, false)
  else
    match openPlace c with
    | some p => (placeRecord p r c, true)
    | none => (backlogRises { c with tm := { c.tm with holding := some r } }, true)

/-- Place the held record if it can be placed (R151), and tell TC of the fall (R156): true if the slot emptied. -/
def placeHeld (c : Chip) : Chip × Bool :=
  match c.tm.holding, openPlace c with
  | some r, some p => (sendPause (placeRecord p r { c with tm := { c.tm with holding := none } }), true)
  | _, _ => (c, false)

/-- Set a rewrite mark; one that is set keeps its place in the order (R152, R154). -/
def setMark (p : Nat) (c : Chip) : Chip :=
  { c with tm := { c.tm with marks := if c.tm.marks.contains p then c.tm.marks else c.tm.marks ++ [p] } }

/-- The write of a place is in progress (R154). -/
def writeBegun (c : Chip) (p : Nat) : Bool :=
  match c.tm.spi with
  | some (.write q _) => p == q
  | _ => false

def modQueued (p : Nat) (f : BagRecord → BagRecord) (c : Chip) : Chip :=
  { c with tm := { c.tm with writeQueue := c.tm.writeQueue.map fun q =>
      if q.place = p then { q with record := f q.record } else q } }

/-- Amend the record of a place (R154, table). An amendment that leaves the hold set as it was sets the rewrite mark like any
other (the model's choice, log entry 46). -/
def amendPlace (p : Nat) (f : HoldSet → HoldSet) (c : Chip) : Chip :=
  let c1 := modFields p (fun g => { g with hold := f g.hold }) c
  match (placeAt c p).state with
  | .pending =>
    if writeBegun c p then setMark p c1 else modQueued p (fun r => { r with hold := f r.hold }) c1
  | .stored => whenWaiting c (setMark p c1)
  | .poisoned => c1
  | .free => c
  | .archived => c

/-- A place holds a live record (R121, R154). -/
def placeLive (e : Place) : Bool := e.state == .pending || e.state == .stored || e.state == .poisoned

/-- The most recently placed live entry of a lot with a sequence number (R154). -/
def placeOfBag (c : Chip) (lot seq : Nat) : Option Nat :=
  (c.tm.places.zipIdx.foldl (fun (best : Option (Nat × Nat)) (e, i) =>
    match placeLive e, e.fields with
    | true, some f =>
      if f.lot = lot ∧ f.seq = seq then
        match best with
        | none => some (f.placed, i)
        | some (b, j) => if b < f.placed then some (f.placed, i) else some (b, j)
      else best
    | _, _ => best) none).map (·.2)

/-- Amend the record BA names by lot index and sequence number (R154): the holding slot first, then the index. -/
def amendBag (lot seq : Nat) (f : HoldSet → HoldSet) (c : Chip) : Chip :=
  match c.tm.holding with
  | some r =>
    if r.lot = lot ∧ r.seq = seq then { c with tm := { c.tm with holding := some { r with hold := f r.hold } } }
    else
      match placeOfBag c lot seq with
      | some p => amendPlace p f c
      | none => c
  | none =>
    match placeOfBag c lot seq with
    | some p => amendPlace p f c
    | none => c

/-- TRACE-FAULT on the pallet a record names, if its record is in the table and not DELIVERED (R153, R155). -/
def faultPallet (pallet : Option Nat) (c : Chip) : Chip :=
  match pallet with
  | some id =>
    match palletAt c id with
    | some p => if p.state = .delivered then c else changePalletHold id (fun h => h.place .traceFault) c
    | none => c
  | none => c

/-- A place becomes POISONED (R153, R154, R155): mark cleared, TRACE-FAULT in the index and on the pallet. The alert
is its caller's. -/
def poisonPlace (p : Nat) (c : Chip) : Chip :=
  let pallet := match (placeAt c p).fields with
    | some f => f.pallet
    | none => none
  faultPallet pallet
    (clearMark p (modPlace p (fun e =>
      { state := .poisoned, fields := e.fields.map fun f => { f with hold := f.hold.place .traceFault } }) c))

/-- A place becomes FREE (R157, R158): no fields, no mark. -/
def freePlace (p : Nat) (c : Chip) : Chip := clearMark p (modPlace p (fun _ => { state := .free, fields := none }) c)

end Sys2Proof.Machine
end

