-- ==== Sys2Proof/Machine/Holding.lean ====
section
/-! DEFINITION. The records that wait for a place: BA hands them to TM (R143), the holding slot is checked (R151, R158), places
become FREE (R157, R158), and a lot whose report has begun to leave is retired (R118). -/

namespace Sys2Proof.Machine

/-! ## Slots and decision list -/

def slotAt (c : Chip) (k : Nat) : Option Slot := c.ba.slots.getD k none

def modSlot (k : Nat) (f : Slot → Slot) (c : Chip) : Chip :=
  { c with ba := { c.ba with slots := c.ba.slots.modify k (Option.map f) } }

def setSlot (k : Nat) (s : Option Slot) (c : Chip) : Chip := { c with ba := { c.ba with slots := c.ba.slots.set k s } }

/-- Change the decision list entries that satisfy a test. -/
def modDecisions (t : DecisionEntry → Bool) (f : DecisionEntry → DecisionEntry) (c : Chip) : Chip :=
  { c with ba := { c.ba with decisions := c.ba.decisions.map fun e => if t e then f e else e } }

/-- The entry of the bag in a slot. -/
def inSlot (k : Nat) (e : DecisionEntry) : Bool := e.slot == some k

/-! ## Handing records (R143) -/

/-- BA hands the record of a DECIDED slot: a taken one frees the slot. True if taken. -/
def handSlot (k : Nat) (c : Chip) : Chip × Bool :=
  match slotAt c k with
  | some s =>
    match s.record with
    | some r =>
      match takeRecord r c with
      | (c1, true) => (modDecisions (inSlot k) (fun e => { e with slot := none }) (setSlot k none c1), true)
      | (c1, false) => (c1, false)
    | none => (c, false)
  | none => (c, false)

/-- Slots in a state, in order of decision (R142, R143). -/
def slotsInOrder (st : SlotState) (c : Chip) : List Nat :=
  sortKey (fun k => match slotAt c k with | some s => s.order | none => 0)
    ((List.range 4).filter fun k => match slotAt c k with | some s => s.state == st | none => false)

/-- BA hands the records of DECIDED slots until TM refuses one (R143). -/
def handDecided : List Nat → Chip → Chip
  | [], c => c
  | k :: ks, c =>
    match handSlot k c with
    | (c1, true) => handDecided ks c1
    | (c1, false) => c1

/-- Check the holding slot (R151); if it empties, BA hands its DECIDED records again (R143). -/
def checkHolding (c : Chip) : Chip :=
  match placeHeld c with
  | (c1, true) => handDecided (slotsInOrder .decided c1) c1
  | (c1, false) => c1

/-! ## Places freed (R157, R158) and a lot retired (R118) -/

/-- Places whose index fields satisfy a test, in number order. -/
def placesWhere (t : PlaceFields → Bool) (c : Chip) : List Nat :=
  (c.tm.places.zipIdx.filter fun (e, _) => match e.fields with | some f => t f | none => false).map (·.2)

/-- Free a STORED or POISONED place (R157, R158). -/
def releasePlace (p : Nat) (c : Chip) : Chip :=
  if (placeAt c p).state = .stored ∨ (placeAt c p).state = .poisoned then freePlace p c else c

/-- Free one of a pallet's places, or mark it free-at-completion (R157). -/
def releasePalletPlace (p : Nat) (c : Chip) : Chip :=
  if (placeAt c p).state = .pending then modFields p (fun f => { f with freeAtCompletion := true }) c
  else releasePlace p c

/-- Free a pallet's places (R157), then check the holding slot, once (R158, and chapter 9's example of a backlog). -/
def freePalletPlaces (id : Nat) (c : Chip) : Chip :=
  checkHolding ((placesWhere (fun f => f.pallet == some id) c).foldl (fun acc p => releasePalletPlace p acc) c)

/-- Free a retired lot's places, then check the holding slot, once (R158). -/
def freeLotPlaces (i : Nat) (c : Chip) : Chip :=
  checkHolding ((placesWhere (fun f => f.lot == i) c).foldl (fun acc p => releasePlace p acc) c)

/-- Retire a lot (R118): its places, its entries of the decision list (R136), its carried gate reasons (R145), and the
entry. -/
def retireLot (i : Nat) (c : Chip) : Chip :=
  let c1 := freeLotPlaces i c
  { c1 with lh := { c1.lh with lots := c1.lh.lots.set i none },
            ba := { c1.ba with decisions := c1.ba.decisions.filter fun e => decide (e.lot ≠ some i),
                               carried := c1.ba.carried.modify i fun _ => 0 } }

end Sys2Proof.Machine
end

