-- ==== Sys2Proof/Machine/Lots.lean ====
section
/-! DEFINITION. The lot and hold unit: counts kept from reports (R112), drain point (R115), finish (R116), lot reports
(R117), the life of a lot (R113, R114); and the closing of pallets by BA (R141), which the drain point calls. -/

namespace Sys2Proof.Machine

/-- The reports that blocks make to LH (R112). -/
inductive LotReport where
  | segmentCreated (mass : Nat) | divertConfirmed (mass : Nat) | segmentDrawn | untracked (mass : Nat) | overblanched
  | bagTaken | bagSettled (accepted : Bool) | tail (mass : Nat) | recordMade | recordWritten
  | palletCreated | palletClosed | palletDelivered | palletReported
deriving DecidableEq, Repr

/-- The counts a report changes (R112); production counts stay at their greatest value. -/
def countLot (r : LotReport) (l : Lot) : Lot :=
  match r with
  | .segmentCreated m =>
    { l with counts := { l.counts with segmentsCut := satAdd32 l.counts.segmentsCut 1,
                                       massCut := satAdd32 l.counts.massCut m }, live := l.live + 1 }
  | .divertConfirmed m =>
    { l with counts := { l.counts with massDiverted := satAdd32 l.counts.massDiverted m }, live := l.live - 1 }
  | .segmentDrawn => { l with live := l.live - 1 }
  | .untracked m => { l with counts := { l.counts with untrackedMass := satAdd32 l.counts.untrackedMass m } }
  | .overblanched => { l with counts := { l.counts with overblanch := satAdd32 l.counts.overblanch 1 } }
  | .bagTaken => { l with openBags := l.openBags + 1 }
  | .bagSettled true =>
    { l with openBags := l.openBags - 1,
             counts := { l.counts with bagsAccepted := satAdd32 l.counts.bagsAccepted 1 } }
  | .bagSettled false =>
    { l with openBags := l.openBags - 1,
             counts := { l.counts with bagsRejected := satAdd32 l.counts.bagsRejected 1 } }
  | .tail m => { l with counts := { l.counts with tailMass := satAdd32 l.counts.tailMass m } }
  | .recordMade => { l with unwritten := l.unwritten + 1 }
  | .recordWritten => { l with unwritten := l.unwritten - 1 }
  | .palletCreated => { l with inFlight := l.inFlight + 1 }
  | .palletClosed => { l with counts := { l.counts with palletsClosed := satAdd32 l.counts.palletsClosed 1 } }
  | .palletDelivered => { l with counts := { l.counts with palletsDelivered := satAdd32 l.counts.palletsDelivered 1 } }
  | .palletReported => { l with inFlight := l.inFlight - 1 }

/-- Close a pallet (R141 steps 1 to 4). The report to LH changes no count that the drain point or the finish waits
for while the pallet is in flight, so it only counts. -/
def closePallet (id : Nat) (c : Chip) : Chip :=
  match palletAt c id with
  | some p =>
    let c1 := modPallet id (fun q =>
      { q with state := .closed, closeTime := some c.clock.line, serial := c.ba.serial })
      { c with ba := { c.ba with serial := c.ba.serial + 1 } }
    let c2 := modLot p.lot (fun l => countLot .palletClosed { l with building := none }) c1
    takePallet id c2
  | none => c

/-- Close a lot's building pallet short (R141). -/
def closeShort (id : Nat) (c : Chip) : Chip :=
  match palletAt c id with
  | some p =>
    let partCase := decide (p.bags % (recipeOfLot c p.lot).bagsPerCase ≠ 0)
    closePallet id (modPallet id (fun q =>
      { q with short := true, cases := if partCase then q.cases + 1 else q.cases }) c)
  | none => c

/-- Drain point (R115), reached once. -/
def checkDrain (i : Nat) (c : Chip) : Chip :=
  match lotAt c i with
  | some l =>
    if l.state = .draining ∧ l.drained = false ∧ l.live = 0 ∧ l.openBags = 0 then
      let c1 := modLot i (fun e => { e with drained := true }) c
      match l.building with
      | some id => closeShort id c1
      | none => c1
    else c
  | none => c

/-- The lot report (R116, R207). A close time that is absent is sent as 0 (the model's choice, log entry 47). -/
def lotReport (i : Nat) (l : Lot) (c : Chip) : OwnFrame :=
  let marks := maskBit 0 l.closeTime.isSome + maskBit 4 c.rp.epochPresent
  let counts := [l.counts.segmentsCut, l.counts.massCut, l.counts.massDiverted, l.counts.untrackedMass, l.counts.tailMass,
    l.counts.overblanch, l.counts.bagsAccepted, l.counts.bagsRejected, l.counts.palletsClosed, l.counts.palletsDelivered]
  { kind := .report, dest := c.ma.config.reportDest, source := .lotReport i,
    items :=
      [mkItem 2 l.number,
       mkItem (BitVec.ofNat 16 l.recipe) (BitVec.ofNat 32 (recipeOfLot c i).product),
       mkItem (BitVec.setWidth 16 (lotHold c i)) (BitVec.ofNat 32 l.openTime),
       mkItem (BitVec.ofNat 16 marks) (BitVec.ofNat 32 (l.closeTime.getD 0)),
       mkItem 0 (BitVec.ofNat 32 (l.finishTime.getD 0)),
       mkItem 0 c.rp.epoch] ++
      counts.zipIdx.map fun (n, k) => mkItem (BitVec.ofNat 16 k) (BitVec.ofNat 32 n) }

/-- LH hands a lot report to RP (R117); one that begins to leave at once retires its lot (R8, R118). -/
def handLot (i : Nat) (c : Chip) : Chip :=
  match lotAt c i with
  | some l =>
    match rpHand (lotReport i l c) c with
    | (c1, taken) =>
      let c2 := modLot i (fun e => { e with report := if taken then .queued else .waiting })
        { c1 with lh := { c1.lh with lastHanding := some c1.clock.line } }
      if reportBegins c then retireLot i c2 else c2
  | none => c

/-- Finish (R116). -/
def checkFinish (i : Nat) (c : Chip) : Chip :=
  match lotAt c i with
  | some l =>
    if l.state = .draining ∧ l.drained = true ∧ l.live = 0 ∧ l.openBags = 0 ∧ l.unwritten = 0 ∧ l.inFlight = 0 then
      handLot i (modLot i (fun e => { e with state := .finished, finishTime := some c.clock.line }) c)
    else c
  | none => c

/-- A report to LH (R112): the counts, then the drain point, then the finish. A FREE entry is left alone. -/
def reportLot (i : Nat) (r : LotReport) (c : Chip) : Chip := checkFinish i (checkDrain i (modLot i (countLot r) c))

/-- Lots whose report is WAITING, in order of finish time, entry order among equals (R117). -/
def waitingLots (c : Chip) : List Nat :=
  sortKey (fun i => match lotAt c i with | some l => l.finishTime.getD 0 | none => 0)
    ((List.range 8).filter fun i => match lotAt c i with | some l => l.report == .waiting | none => false)

/-- Hand every WAITING lot report again (R117). -/
def handWaitingLots (c : Chip) : Chip := (waitingLots c).foldl (fun acc i => handLot i acc) c

/-- A lot index leaves ST's gap set (R63). -/
def leaveGap (i : Nat) (c : Chip) : Chip :=
  { c with st := { c.st with gapSet := c.st.gapSet &&& ~~~(BitVec.ofNat 8 (2 ^ i)) } }

/-- An OPEN lot becomes DRAINING (R114): close time, ST's gap set, then the checks of R115 and R116. -/
def drainLot (i : Nat) (c : Chip) : Chip :=
  let c1 := modLot i (fun l => { l with state := .draining, closeTime := some c.clock.line }) c
  checkFinish i (checkDrain i (leaveGap i c1))

/-- The content of a lot newly opened (R113). -/
def newLot (number : Word) (recipe line : Nat) : Lot :=
  { number := number, recipe := recipe, state := .opened, openTime := line, closeTime := none, finishTime := none,
    manual := false,
    counts := { segmentsCut := 0, massCut := 0, massDiverted := 0, untrackedMass := 0, tailMass := 0, overblanch := 0,
                bagsAccepted := 0, bagsRejected := 0, palletsClosed := 0, palletsDelivered := 0 },
    building := none, live := 0, openBags := 0, unwritten := 0, inFlight := 0, drained := false, report := .none }

end Sys2Proof.Machine
end

