-- ==== Sys2Proof/Machine/Pool.lean ====
section
/-! DEFINITION. The segment pool: look-up, change, return to the pool (R59), and the outcome of a divert (R70). -/

namespace Sys2Proof.Machine

def queueOf (s : St) : Stage → List Segment
  | .blanch => s.qBlanch | .chill => s.qChill | .freeze => s.qFreeze | .surge => s.qSurge

def Belt.stage : Belt → Stage
  | .blanch => .blanch | .chill => .chill | .freeze => .freeze

def setQueue (st : Stage) (q : List Segment) (s : St) : St :=
  match st with
  | .blanch => { s with qBlanch := q }
  | .chill => { s with qChill := q }
  | .freeze => { s with qFreeze := q }
  | .surge => { s with qSurge := q }

/-- Every live segment (R59). -/
def liveSegments (s : St) : List Segment := s.qBlanch ++ s.qChill ++ s.qFreeze ++ s.qSurge

/-- Free records of the pool of 256 (R59). -/
def freeRecords (s : St) : Nat := 256 - (liveSegments s).length

/-- POOL-LOW (R65). -/
def poolLow (c : Chip) : Bool := decide (freeRecords c.st < c.ma.config.reserve)

def segmentAt (c : Chip) (id : Nat) : Option Segment := (liveSegments c.st).find? fun g => g.id == id

/-- The segment with an id in one stage's queue. -/
def segmentIn (c : Chip) (st : Stage) (id : Nat) : Option Segment := (queueOf c.st st).find? fun g => g.id == id

/-- Change the segment with an id, wherever it stands. -/
def modSegment (id : Nat) (f : Segment → Segment) (c : Chip) : Chip :=
  let g := fun s : Segment => if s.id = id then f s else s
  { c with st := { c.st with qBlanch := c.st.qBlanch.map g, qChill := c.st.qChill.map g, qFreeze := c.st.qFreeze.map g,
                             qSurge := c.st.qSurge.map g } }

/-- Remove the segment with an id from its queue. -/
def removeSegment (id : Nat) (c : Chip) : Chip :=
  let k := fun s : Segment => decide (s.id ≠ id)
  { c with st := { c.st with qBlanch := c.st.qBlanch.filter k, qChill := c.st.qChill.filter k,
                             qFreeze := c.st.qFreeze.filter k, qSurge := c.st.qSurge.filter k } }

def holdSegment (id : Nat) (r : HoldReason) (c : Chip) : Chip :=
  modSegment id (fun g => { g with hold := g.hold.place r }) c

/-- FV's window set without a segment (R102). -/
def leaveWindow (id : Nat) (c : Chip) : Chip := { c with fv := { c.fv with window := c.fv.window.filter (· ≠ id) } }

/-- Return a record to the pool (R59): `confirmed` for a confirmed divert, otherwise drawn. -/
def freeSegment (id : Nat) (confirmed : Bool) (c : Chip) : Chip :=
  match segmentAt c id with
  | some g =>
    reportLot g.lot (if confirmed then .divertConfirmed g.remaining else .segmentDrawn)
      (leaveWindow id (removeSegment id c))
  | none => c

/-- The outcomes TC reports (R54, R70, R145). -/
inductive Report where
  | confirmed | failed | notSent | refused
deriving DecidableEq, Repr

/-- The report of an outcome that is known. -/
def Outcome4.report? : Outcome4 → Option Report
  | .confirmed => some .confirmed | .failed => some .failed | .notSent => some .notSent | .pending => none

/-- The outcome of a segment's divert (R70); for no live DIVERTING segment it is counted as stray. -/
def segmentOutcome (id : Nat) (r : Report) (c : Chip) : Chip :=
  match segmentAt c id with
  | some g =>
    if g.disp = .diverting then
      match r with
      | .confirmed => freeSegment id true c
      | .failed => modSegment id (fun s => { s with disp := .pass, hold := s.hold.place .gateUnconfirmed }) c
      | .notSent => modSegment id (fun s => { s with disp := .pass, hold := s.hold.place .unverified }) c
      | .refused =>
        raiseNat .divertMissed .segment id
          (modSegment id (fun s => { s with disp := .pass, hold := s.hold.place .divertMissed }) c)
    else { c with st := { c.st with stray := inc16 c.st.stray } }
  | none => { c with st := { c.st with stray := inc16 c.st.stray } }

end Sys2Proof.Machine
end

