-- ==== Sys2Proof/Machine/Bags.lean ====
section
/-! DEFINITION. The bag assembler: decision list (R136), decision (R135), settlement (R138, R139), pallets (R140 to
R142), fire checks (R137), gate outcomes (R145), draws (R131, R132). -/

namespace Sys2Proof.Machine

/-- PALLET-FULL (R142). -/
def palletFull (c : Chip) : Bool :=
  c.ba.slots.any fun s => match s with | some b => b.state == .palletWait | none => false

/-- Add a bag at the tail of the decision list (R136): of 16, the oldest that is not GATHERING goes first. -/
def addDecision (e : DecisionEntry) (c : Chip) : Chip :=
  let ds := c.ba.decisions
  let kept := if ds.length < 16 then ds else
    match ds.findIdx? fun d => d.decision != .gathering with
    | some i => ds.eraseIdx i
    | none => ds
  { c with ba := { c.ba with decisions := kept ++ [e] } }

/-- Newest decision list entry with a sequence number (R137, R145). -/
def newestDecision (c : Chip) (seq : Nat) : Option DecisionEntry := c.ba.decisions.reverse.find? fun e => e.seq == seq

/-! ## Gate reasons (R145) -/

/-- A gate reason joins the lot's building pallet, or the lot's carried gate reasons. -/
def gateReasonToPallet (lot : Nat) (h : HoldSet) (c : Chip) : Chip :=
  match (lotAt c lot).bind (·.building) with
  | some id => changePalletHold id (fun g => g ||| h) c
  | none => { c with ba := { c.ba with carried := c.ba.carried.modify lot fun g => g ||| h } }

/-- A set of gate reasons joins the record of a bag in its slot. -/
def gateReasonToSlot (k : Nat) (h : HoldSet) (c : Chip) : Chip :=
  modSlot k (fun s =>
    { s with hold := s.hold ||| h, record := s.record.map fun r => { r with hold := r.hold ||| h } }) c

/-! ## Decision and settlement -/

/-- The record of a bag (R143), with the epoch offset in effect at the decision. -/
def makeRecord (s : Slot) (rejected : Bool) (reasons : Byte) (c : Chip) : BagRecord :=
  { seq := s.seq, lot := s.lot, lotNumber := (match lotAt c s.lot with | some l => l.number | none => 0),
    made := s.madeLine, epoch := c.rp.epoch, epochPresent := c.rp.epochPresent,
    net := s.weight.map fun w => (w : Int) - ((recipeOfLot c s.lot).tare : Nat),
    codeFail := s.codeFail, metalFail := s.metalFail, rejected := rejected, reasons := reasons, draws := s.draws,
    hold := s.hold, pallet := none }

/-- Every required field of a recipe is present (R133, R135). -/
def fieldsComplete (r : Recipe) (s : Slot) : Bool :=
  (!r.needWeight || s.weight.isSome) && (!r.needCode || s.codeFail.isSome) && (!r.needMetal || s.metalFail.isSome)

/-- The reject reasons of a bag (R135). -/
def rejectReasons (r : Recipe) (s : Slot) : Byte :=
  let low := match s.weight with
    | some w => decide ((w : Int) - (r.tare : Nat) < (r.bagTarget : Nat) - (r.under : Nat))
    | none => false
  let high := match s.weight with
    | some w => decide (((r.bagTarget : Nat) : Int) + (r.overweight : Nat) < (w : Int) - (r.tare : Nat))
    | none => false
  RejectReason.tail.when s.tail ||| RejectReason.incomplete.when (!fieldsComplete r s)
    ||| RejectReason.conflict.when (decide (s.conflict ≠ 0)) ||| RejectReason.weightLow.when low
    ||| RejectReason.weightHigh.when high ||| RejectReason.codeFail.when (s.codeFail == some true)
    ||| RejectReason.metal.when (s.metalFail == some true)

/-- The gate reasons that wait for the bag in a slot (R145). -/
def waitingReasons (k : Nat) (c : Chip) : HoldSet :=
  match c.ba.decisions.find? (inSlot k) with
  | some e => e.gateReasons
  | none => 0

/-- Settle a REJECTED bag (R138). -/
def settleRejected (k : Nat) (c : Chip) : Chip :=
  match slotAt c k with
  | some s =>
    let c1 := reportLot s.lot (.bagSettled false) (reportLot s.lot .recordMade c)
    let waiting := waitingReasons k c1
    let c2 := if waiting = 0 then c1 else gateReasonToPallet s.lot waiting (gateReasonToSlot k waiting c1)
    (handSlot k (modSlot k (fun b => { b with state := .decided }) c2)).1
  | none => c

/-- A pallet id (R140): the counter's value, or the next value no pallet record holds, as segment ids are taken (R59). -/
def freshId (used : List Nat) : Nat → Nat → Nat
  | 0, n => n
  | k + 1, n => if used.contains n then freshId used k ((n + 1) % 65536) else n

/-- Create a pallet record for a lot (R140); exposure time and temperature are 0 until its close (the model's choice, log
entry 27). -/
def createPallet (lot : Nat) (c : Chip) : Chip × Nat :=
  let id := freshId (c.ba.pallets.map (·.id)) 24 c.ba.nextPallet
  let p : Pallet :=
    { id := id, lot := lot, state := .building, short := false, bags := 0, cases := 0, firstPlace := none,
      lastPlace := none, hold := c.ba.carried.getD lot 0, closeTime := none, exposure := 0, dest := none, shuttle := none,
      reportPending := false, expTime := 0, expTemp := 0, exhausted := false, delDest := none, delTime := none,
      report := .none, revision := 0, serial := 0 }
  let c1 := { c with ba := { c.ba with pallets := c.ba.pallets ++ [p], nextPallet := (id + 1) % 65536,
                                       carried := c.ba.carried.modify lot fun _ => 0 } }
  (reportLot lot .palletCreated (modLot lot (fun l => { l with building := some id }) c1), id)

/-- The case and pallet count (R141); a pallet closed short at this settlement's drain point does not close again. -/
def countCase (id : Nat) (c : Chip) : Chip :=
  match palletAt c id with
  | some p =>
    let r := recipeOfLot c p.lot
    let cases := if p.bags % r.bagsPerCase = 0 then p.cases + 1 else p.cases
    let c1 := modPallet id (fun q => { q with cases := cases }) c
    if p.state = .building ∧ cases = r.casesPerPallet then closePallet id c1 else c1
  | none => c

/-- A bag joins a pallet (R139 steps 1 to 6). -/
def joinPallet (k id : Nat) (c : Chip) : Chip :=
  match slotAt c k with
  | some s =>
    let c1 := modPallet id (fun p => { p with hold := p.hold ||| s.hold, bags := p.bags + 1 }) c
    let c2 := modSlot k (fun b =>
      { b with pallet := some id, record := b.record.map fun r => { r with pallet := some id } }) c1
    let c3 := reportLot s.lot (.bagSettled true) (reportLot s.lot .recordMade c2)
    (handSlot k (modSlot k (fun b => { b with state := .decided }) (countCase id c3))).1
  | none => c

/-- An ACCEPTED bag joins its lot's building pallet, or a new one in a free entry (R139): false if there is none. -/
def tryJoin (k : Nat) (c : Chip) : Chip × Bool :=
  match slotAt c k with
  | some s =>
    match (lotAt c s.lot).bind (·.building) with
    | some id => (joinPallet k id c, true)
    | none =>
      if c.ba.pallets.length < 24 then
        match createPallet s.lot c with
        | (c1, id) => (joinPallet k id c1, true)
      else (c, false)
  | none => (c, false)

/-- Settle an ACCEPTED bag (R139): it joins a pallet, or waits in PALLET-WAIT with the alert. -/
def settleAccepted (k : Nat) (c : Chip) : Chip :=
  match tryJoin k c with
  | (c1, true) => c1
  | (c1, false) =>
    match slotAt c1 k with
    | some s => modSlot k (fun b => { b with state := .palletWait }) (raiseNat .palletFull .lot s.lot c1)
    | none => c1

/-- Decide a GATHERING bag (R134, R135) and settle it. -/
def decideBag (k : Nat) (c : Chip) : Chip :=
  match slotAt c k with
  | some s =>
    if s.state = .gathering then
      let reasons := rejectReasons (recipeOfLot c s.lot) s
      let rejected := decide (reasons ≠ 0)
      let d : Decision := if rejected then .rejected else .accepted
      let c1 := modSlot k (fun b =>
        { b with decision := d, reasons := reasons, order := c.ba.serial,
                 record := some (makeRecord s rejected reasons c) })
        { c with ba := { c.ba with serial := c.ba.serial + 1 } }
      let c2 := modDecisions (inSlot k) (fun e => { e with decision := d }) c1
      if rejected then settleRejected k c2 else settleAccepted k c2
    else c
  | none => c

/-- Bags in PALLET-WAIT, oldest decision first, when a pallet entry has become free (R142). Once the freed entry is used up,
a later bag whose lot is building a pallet still joins it (the model's choice, log entry 43). -/
def resumeWaiting (c : Chip) : Chip := (slotsInOrder .palletWait c).foldl (fun acc k => (tryJoin k acc).1) c

/-- BA's answer to a fire check (R137): true for ACCEPTED. A gathering bag is decided first. -/
def fireCheck (seq : Nat) (c : Chip) : Chip × Bool :=
  match newestDecision c seq with
  | none => (c, false)
  | some e =>
    match e.decision, e.slot with
    | .gathering, some k =>
      let c1 := decideBag k c
      (c1, match newestDecision c1 seq with | some d => d.decision == .accepted | none => false)
    | .gathering, none => (c, false)
    | .accepted, _ => (c, true)
    | .rejected, _ => (c, false)

/-- The gate reason of a report (R145). -/
def gateReason : Report → HoldSet
  | .confirmed => 0
  | .failed => HoldReason.gateUnconfirmed.only
  | .refused => HoldReason.gateUnconfirmed.only
  | .notSent => HoldReason.unverified.only

/-- The outcome of a reject gate's start or pulse (R145). -/
def bagOutcome (seq : Nat) (r : Report) (c : Chip) : Chip :=
  match newestDecision c seq with
  | none => { c with ba := { c.ba with strayGate := inc16 c.ba.strayGate } }
  | some e =>
    if gateReason r = 0 then c
    else
      match e.decision with
      | .accepted => c
      | .gathering =>
        match e.slot with
        | some k => modDecisions (inSlot k) (fun d => { d with gateReasons := d.gateReasons ||| gateReason r }) c
        | none => c
      | .rejected =>
        match e.lot with
        | none => c
        | some lot =>
          let c1 := match e.slot, e.place with
            | some k, _ => gateReasonToSlot k (gateReason r) c
            | none, some p => amendPlace p (fun h => h ||| gateReason r) c
            | none, none => amendBag lot seq (fun h => h ||| gateReason r) c
          gateReasonToPallet lot (gateReason r) c1

/-- TC reports a served record's outcome to its issuer (R54). -/
def reportServed (r : Report) (c : Chip) : Served → Chip
  | .segment id => segmentOutcome id r c
  | .bag seq => bagOutcome seq r c

/-! ## The draw (R131, R132) -/

/-- How a draw ends. -/
inductive DrawEnd where
  | met | boundary | short
deriving DecidableEq, Repr

/-- Draw amount (R131), rounded half up. -/
def drawAmount (r : Recipe) : Nat := (r.bagTarget * r.permille + 500) / 1000

/-- Grams drawn so far. -/
def drawnGrams (ds : List Draw) : Nat := (ds.map (·.grams)).foldl (· + ·) 0

/-- Take mass from the front of SURGE for the bag in slot `k` until the amount is met or the draw ends (R131). -/
def drawLoop (k : Nat) : Nat → Nat → Chip → Chip × DrawEnd
  | 0, need, c => (c, if need = 0 then .met else .short)
  | fuel + 1, need, c =>
    if need = 0 then (c, .met)
    else
      match c.st.qSurge, slotAt c k with
      | g :: _, some s =>
        if g.lot ≠ s.lot then (c, .boundary)
        else if 8 ≤ s.draws.length then (c, .short)
        else
          let grams := min g.remaining need
          let c1 := modSlot k (fun b =>
            { b with draws := b.draws ++ [{ segment := g.id, grams := grams }], hold := b.hold ||| g.hold }) c
          let c2 := modSegment g.id (fun x => { x with remaining := x.remaining - grams }) c1
          drawLoop k fuel (need - grams) (if g.remaining - grams = 0 then freeSegment g.id false c2 else c2)
      | _, _ => (c, .short)

/-- Make a bag's draw (R131) and its end (R132). -/
def drawBag (k : Nat) (c : Chip) : Chip :=
  match slotAt c k with
  | some s =>
    match drawLoop k 9 (drawAmount (recipeOfLot c s.lot)) c with
    | (c1, .met) => c1
    | (c1, .boundary) =>
      let taken := match slotAt c1 k with
        | some b => drawnGrams b.draws
        | none => 0
      reportLot s.lot (.tail taken) (modSlot k (fun b => { b with tail := true }) c1)
    | (c1, .short) => modSlot k (fun b => { b with hold := b.hold.place .traceShort }) c1
  | none => c

end Sys2Proof.Machine
end

