-- ==== Sys2Proof/Machine/Track.lean ====
section
/-! DEFINITION. The track channels: starts (R44, R48), fires (R46, R49, R50), closing, markers (R45), captures (R51),
outcome reports (R54), START-CHANNEL and STOP-CHANNEL (R43). Cuts (R47) stand in Segment.lean. -/

namespace Sys2Proof.Machine

/-- Position on a source (section 3.2); `unset` names none. -/
def sourcePos (c : Chip) : Source → Word
  | .encoder e => c.tc.positions.getD e 0
  | .milliseconds => c.clock.ms
  | .unset => 0

def channelPos (c : Chip) (n : Nat) : Word := sourcePos c (trackChan c n).cfg.source

/-- The trigger of a channel whose mode uses it (R40): a channel in mode OFF has none. -/
def triggerOf (k : TrackChan) : Option Trigger := if k.cfg.mode = .off then none else some k.cfg.trigger

/-- Report every record of a list with one outcome (R54), in the list's order: a served set's is that of joining (the
model's choice, log entry 8). -/
def reportAll (r : Report) (l : List Served) (c : Chip) : Chip := l.foldl (fun acc s => reportServed r acc s) c

/-! ## Starts -/

/-- A channel takes starts (R44): DELAY or GATE, and not STOPPED. -/
def takesStarts (k : TrackChan) : Bool :=
  (k.cfg.mode == .delay || k.cfg.mode == .gate) &&
    (k.dyn.state == .armed || k.dyn.state == .delaying || k.dyn.state == .opened)

/-- A start is refused: the channel's refused-start count increases (R44). -/
def refuseStart (n : Nat) (c : Chip) : Chip := modTrack n (fun d => { d with refused := inc16 d.refused }) c

/-- A taken start enters the pending list; an ARMED channel is DELAYING (R44, R48). -/
def pushStart (n : Nat) (st : Start) (c : Chip) : Chip :=
  modTrack n (fun d =>
    { d with pend := d.pend ++ [st], state := if d.state = .armed then .delaying else d.state }) c

/-- A start reaches a channel (R44): taken or refused under the retrigger policy (R48). The record of a refused start
is its issuer's to treat. -/
def enterStart (n : Nat) (st : Start) (c : Chip) : Chip × Bool :=
  let k := trackChan c n
  if takesStarts k then
    match k.cfg.policy with
    | .ignore => if k.dyn.state = .armed then (pushStart n st c, true) else (refuseStart n c, false)
    | .restart =>
      let c1 := pushStart n st (modTrack n (fun d => { d with pend := [] }) c)
      (reportAll .refused (k.dyn.pend.filterMap (·.served)) c1, true)
    | .queue => if k.dyn.pend.length < 8 then (pushStart n st c, true) else (refuseStart n c, false)
  else (refuseStart n c, false)

/-- Each channel whose trigger is MASTER naming `n` is given a start at the fire point (R46). -/
def startSlaves (n : Nat) (point : Word) (c : Chip) : Chip :=
  (List.range 8).foldl (fun acc m =>
    if triggerOf (trackChan acc m) = some (.master n) then (enterStart m { point := point, served := none } acc).1 else acc) c

/-- A fire event (R46): the fire count, then the slaves. -/
def fireEvent (n : Nat) (point : Word) (c : Chip) : Chip :=
  startSlaves n point (modTrack n (fun d => { d with fires := wrap16 d.fires }) c)

/-! ## Values and outcomes -/

/-- A channel hands a value of its output for sending (R53); without an output no value reaches the queue (log entry
14). -/
def sendOutput (n : Nat) (onValue : Bool) (serves : Option Nat) (c : Chip) : Chip × Outcome4 :=
  match (trackChan c n).cfg.output with
  | some o => sendValue n o.key (if onValue then o.onValue else o.offValue) (.channel n) serves o.timeout c
  | none => (c, .notSent)

/-- The next token: a name for the pulse or start a value serves (R191). -/
def takeToken (c : Chip) : Chip × Nat := ({ c with tc := { c.tc with nextToken := c.tc.nextToken + 1 } }, c.tc.nextToken)

/-- The outcome of the current pulse has become known (R54): its served records are reported and the set emptied. -/
def settlePulse (n : Nat) (o : Outcome4) (c : Chip) : Chip :=
  match (trackChan c n).dyn.pulse with
  | some p =>
    let c1 := modTrack n (fun d => { d with pulse := some { p with outcome := o, served := if o = .pending then p.served else [] } }) c
    match o.report? with
    | some r => reportAll r p.served c1
    | none => c1
  | none => c

/-- The current pulse awaits the outcome of the value with a token. -/
def awaitsToken (token : Nat) : Option Pulse → Bool
  | some p => p.token == token && p.outcome == .pending
  | none => false

/-- AG settles the value that a pulse or DELAY start served (R54, R192, R193). -/
def settleToken (n token : Nat) (o : Outcome4) (c : Chip) : Chip :=
  if awaitsToken token (trackChan c n).dyn.pulse then settlePulse n o c
  else
    match (trackChan c n).dyn.awaiting.find? (fun p => p.token == token), o.report? with
    | some p, some r =>
      reportAll r p.served (modTrack n (fun e => { e with awaiting := e.awaiting.filter (fun q => q.token != token) }) c)
    | _, _ => c

/-- A record joins the open pulse (R49, R54); the served set holds it once. One that is a member already joins nothing anew,
and is not reported FAILED where the set holds 16 (the model's choice, log entry 35). -/
def joinPulse (n : Nat) (s : Served) (c : Chip) : Chip :=
  match (trackChan c n).dyn.pulse with
  | some p =>
    match p.outcome.report? with
    | some r => reportServed r c s
    | none =>
      if s ∈ p.served then c
      else if p.served.length < 16 then
        modTrack n (fun d => { d with pulse := some { p with served := p.served ++ [s] } }) c
      else reportServed .failed c s
  | none => c

/-! ## Fires and closes -/

/-- The first pending start leaves the list; the state is what the list and the gate require (R48 to R50). -/
def popStart (n : Nat) (c : Chip) : Chip :=
  modTrack n (fun d =>
    { d with pend := d.pend.tail,
             state := if d.state = .opened then .opened else if d.pend.tail.isEmpty then .armed else .delaying }) c

/-- The later of two positions (R49). -/
def laterPoint (a b : Word) : Word := if reached a b then a else b

/-- A DELAY channel fires (R48): its on-value is handed for sending, and awaited if its outcome is PENDING. -/
def fireDelay (n : Nat) (st : Start) (c : Chip) : Chip :=
  match (trackChan c n).cfg.output with
  | none => c
  | some _ =>
    match takeToken c with
    | (c0, token) =>
      match sendOutput n true (some token) c0 with
      | (c1, o) =>
        match o.report? with
        | some r => reportAll r st.served.toList c1
        | none =>
          modTrack n (fun d =>
            { d with awaiting := d.awaiting ++ [{ served := st.served.toList, outcome := .pending, token := token }] }) c1

/-- A GATE channel's fire (R49): the gate opens and a pulse begins, or the open gate is extended. -/
def fireGate (n : Nat) (st : Start) (point : Word) (c : Chip) : Chip :=
  let k := trackChan c n
  let close := point + BitVec.ofNat 32 k.cfg.width
  if k.dyn.state = .opened then
    let c1 := modTrack n (fun d => { d with onEnd := laterPoint close d.onEnd }) c
    match st.served with
    | some s => joinPulse n s c1
    | none => c1
  else
    match takeToken c with
    | (c0, token) =>
      let earlier := match k.dyn.pulse with
        | some p => if p.outcome = .pending then [p] else []
        | none => []
      let c1 := modTrack n (fun d =>
        { d with state := .opened, onEnd := close, awaiting := d.awaiting ++ earlier,
                 pulse := some { served := st.served.toList, outcome := .pending, token := token } }) c0
      match sendOutput n true (some token) c1 with
      | (c2, o) => settlePulse n o c2

/-- The fire point of a start is reached: fire check (R50), fire event (R46), then DELAY (R48) or GATE (R49). -/
def fireStart (n : Nat) (st : Start) (point : Word) (c : Chip) : Chip :=
  let c0 := popStart n c
  let k := trackChan c n
  match k.cfg.mode with
  | .delay => fireDelay n st (fireEvent n point c0)
  | .gate =>
    if k.cfg.cond = .bagNotAccepted then
      match st.served with
      | some (.bag seq) =>
        match fireCheck seq c0 with
        | (c1, true) => modTrack n (fun d => { d with skipped := inc16 d.skipped }) c1
        | (c1, false) => fireGate n st point (fireEvent n point c1)
      | _ => fireGate n st point (fireEvent n point c0)
    else fireGate n st point (fireEvent n point c0)
  | _ => c0

/-- The ON end is reached (R49): the gate closes and the off-value is handed for sending. -/
def closeGate (n : Nat) (c : Chip) : Chip :=
  let c1 := modTrack n (fun d => { d with state := if d.pend.isEmpty then .armed else .delaying }) c
  (sendOutput n false none c1).1

/-- Fire point of a channel's first pending start, if it has been reached (R42, R48). -/
def dueFire (c : Chip) (n : Nat) : Option (Start × Word) :=
  let k := trackChan c n
  match k.dyn.pend with
  | st :: _ =>
    let fp := st.point + BitVec.ofNat 32 k.cfg.delay
    if takesStarts k && reached (channelPos c n) fp then some (st, fp) else none
  | [] => none

/-- ON end of an open gate, if it has been reached (R42, R49). -/
def dueClose (c : Chip) (n : Nat) : Option Word :=
  let k := trackChan c n
  if k.cfg.mode = .gate ∧ k.dyn.state = .opened ∧ reached (channelPos c n) k.dyn.onEnd then some k.dyn.onEnd else none

/-- Handle every reached point of a channel in order of position, a fire before a close at the same position (R42).
A pending list of 8 gives at most 8 fires and 9 closes. -/
def handlePoints (n : Nat) : Nat → Chip → Chip
  | 0, c => c
  | fuel + 1, c =>
    match dueFire c n, dueClose c n with
    | some (st, fp), some ce =>
      if (channelPos c n - ce).toNat ≤ (channelPos c n - fp).toNat then handlePoints n fuel (fireStart n st fp c)
      else handlePoints n fuel (closeGate n c)
    | some (st, fp), none => handlePoints n fuel (fireStart n st fp c)
    | none, some _ => handlePoints n fuel (closeGate n c)
    | none, none => c

/-- Handle a channel, bounded as `handlePoints` needs. -/
def handleChannel (n : Nat) (c : Chip) : Chip := handlePoints n 18 c

/-- A channel has trigger MASTER. -/
def isSlave (k : TrackChan) : Bool := match triggerOf k with | some (.master _) => true | _ => false

/-- The slaves behind a channel and below a limit handle their reached points in channel number order (R46). -/
def handleSlaves (limit n : Nat) (c : Chip) : Chip :=
  (List.range limit).foldl (fun acc m =>
    if n < m ∧ isSlave (trackChan acc m) ∧ (trackChan acc m).cfg.source = (trackChan acc n).cfg.source
    then handleChannel m acc else acc) c

/-- A start has been taken: if its fire point is reached at once, the fire is handled in the same event, and the slaves
after it (R44, R46). Channels from `limit` on are left to the sweep under way, which comes to them in number order (R42);
outside a sweep the limit is 8. -/
def settleStart (limit n : Nat) (point : Word) (c : Chip) : Chip :=
  if n < limit ∧ reached (channelPos c n) (point + BitVec.ofNat 32 (trackChan c n).cfg.delay)
  then handleSlaves limit n (handleChannel n c) else c

/-- Enter a start and handle what it reaches at once (R44): true if taken. -/
def startNow (n : Nat) (st : Start) (c : Chip) : Chip × Bool :=
  match enterStart n st c with
  | (c1, true) => (settleStart 8 n st.point c1, true)
  | (c1, false) => (c1, false)

/-! ## Markers and captures -/

/-- A capture (R51), with the fire event of R46. -/
def captureAt (n : Nat) (c : Chip) : Chip :=
  let pos := channelPos c n
  let f := fun (r : Capture) =>
    let fresh : Captured := { point := pos, line := c.clock.line, ms := c.clock.ms }
    match r.span, r.last with
    | true, some l =>
      let diff := (pos - l.point).toNat
      { last := some fresh, prev := r.last, counts := some (min diff 65535), interval := some (c.clock.ms - l.ms),
        overflow := decide (65535 < diff), span := true }
    | _, _ =>
      { last := some fresh, prev := r.last, counts := none, interval := none, overflow := false, span := true : Capture }
  handleSlaves 8 n (fireEvent n pos (modTrack n (fun d => { d with capture := f d.capture }) c))

/-- An edge field matches a level's edge (R45): RISING when the level is 1. -/
def edgeMatches (e : Edge) (level : Bool) : Bool :=
  match e with | .rising => level | .falling => !level | .both => true

/-- A marker item reaches one channel (R45). -/
def markerChannel (n : Nat) (edge : Edge) (level : Bool) (c : Chip) : Chip :=
  let d := (trackChan c n).dyn
  let settled := d.lastLevel == some level
  let recognised := settled && (match d.filtered with | some f => f != level | none => false)
  let c1 := modTrack n (fun e =>
    { e with lastLevel := some level, filtered := if settled then some level else e.filtered }) c
  if recognised && edgeMatches edge level && d.state != .stopped then
    match (trackChan c n).cfg.mode with
    | .capture => captureAt n c1
    | _ => (startNow n { point := channelPos c1 n, served := none } c1).1
  else c1

/-- An accepted MARKER item of an intake channel (R45), to the channels that name it in number order, each start completed
before the next channel's filter (the model's choice, log entry 15). -/
def markerItem (m : Nat) (level : Bool) (c : Chip) : Chip :=
  (List.range 8).foldl (fun acc n =>
    match triggerOf (trackChan acc n) with
    | some (.marker ch edge) => if ch = m then markerChannel n edge level acc else acc
    | _ => acc) c

/-- SI tells TC that a marker channel is STALE (R45). -/
def markerStale (m : Nat) (c : Chip) : Chip :=
  (List.range 8).foldl (fun acc n =>
    match triggerOf (trackChan acc n) with
    | some (.marker ch _) => if ch = m then modTrack n (fun d => { d with lastLevel := none, filtered := none }) acc else acc
    | _ => acc) c

/-- SI tells TC that an encoder is STALE (R42, R51): captures on it lose their span. -/
def encoderStale (e : Nat) (c : Chip) : Chip :=
  (List.range 8).foldl (fun acc n =>
    if (trackChan acc n).cfg.source = .encoder e then
      modTrack n (fun d => { d with capture := { d.capture with span := false } }) acc
    else acc) c

/-! ## Intervals (R47) -/

/-- Fire a RUNNING INTERVAL channel `k` times, each advancing its next fire time by L. -/
def fireIntervals (n : Nat) : Nat → Chip → Chip
  | 0, c => c
  | k + 1, c =>
    let d := (trackChan c n).dyn
    fireIntervals n k
      (fireEvent n d.nextFire
        (modTrack n (fun e => { e with nextFire := e.nextFire + BitVec.ofNat 32 (trackChan c n).cfg.length }) c))

/-- Fires of an INTERVAL channel that are due now. -/
def dueIntervals (c : Chip) (n : Nat) : Nat :=
  let k := trackChan c n
  if k.cfg.mode = .interval ∧ k.dyn.state = .running ∧ 0 < k.cfg.length ∧ reached c.clock.ms k.dyn.nextFire then
    (c.clock.ms - k.dyn.nextFire).toNat / k.cfg.length + 1
  else 0

/-- Everything due now on the millisecond-source channels, in channel number order (R42). -/
def handleMilliseconds (c : Chip) : Chip :=
  (List.range 8).foldl (fun acc n =>
    if (trackChan acc n).cfg.source = .milliseconds then handleChannel n (fireIntervals n (dueIntervals acc n) acc)
    else acc) c

/-- Some point on a millisecond-source channel is due now (R42). -/
def millisecondDue (c : Chip) : Bool :=
  (List.range 8).any fun n =>
    decide ((trackChan c n).cfg.source = .milliseconds) &&
      (decide (0 < dueIntervals c n) || (dueFire c n).isSome || (dueClose c n).isSome)

/-! ## START-CHANNEL and STOP-CHANNEL (R43) -/

/-- A command start (R43, R44). -/
def commandStart (n : Nat) (c : Chip) : Chip × Status :=
  match startNow n { point := channelPos c n, served := none } c with
  | (c1, true) => (c1, .ok)
  | (c1, false) => (c1, .noRoom)

/-- START-CHANNEL on a channel number 0 to 7 (R43). -/
def startChannel (n : Nat) (c : Chip) : Chip × Status :=
  let k := trackChan c n
  let command := decide (k.cfg.trigger = .command)
  match k.cfg.mode, k.dyn.state with
  | .off, _ => (c, .notReady)
  | .cut, .stopped => (modTrack n (fun d => { d with state := .running, remainder := 0 }) c, .ok)
  | .interval, .stopped =>
    (modTrack n (fun d =>
      { d with state := .running, nextFire := c.clock.ms + BitVec.ofNat 32 k.cfg.length }) c, .ok)
  | .capture, .stopped =>
    (modTrack n (fun d =>
      { d with state := .armed, pend := [], capture := { d.capture with span := false } }) c, .ok)
  | .delay, .stopped | .gate, .stopped =>
    let c1 := modTrack n (fun d => { d with state := .armed, pend := [] }) c
    if command then ((commandStart n c1).1, .ok) else (c1, .ok)
  | .delay, _ | .gate, _ => if command then commandStart n c else (c, .ok)
  | .cut, _ | .interval, _ | .capture, _ => (c, .ok)

/-- Stop a channel (R43): off-value, refused reports, STOPPED. -/
def stopChannel (n : Nat) (c : Chip) : Chip :=
  let d := (trackChan c n).dyn
  if d.state = .stopped then c
  else
    let c1 := modTrack n (fun e => { e with state := .stopped, pend := [] }) c
    let c2 := if d.state = .opened then (sendOutput n false none c1).1 else c1
    reportAll .refused (d.pend.filterMap (·.served)) c2

/-! ## Owned points re-sent (R55, R182) -/

/-- The intended state of every owned point in use, in order 0 to 7 (R55). -/
def resendAll (c : Chip) : Chip := (List.range 8).foldl (fun acc n => sendIntended n acc) c

/-- The intended state of every owned point in use whose unsent mark is set (R182). -/
def resendUnsent (c : Chip) : Chip :=
  (List.range 8).foldl (fun acc n => if acc.tc.unsent.getD n false then sendIntended n acc else acc) c

end Sys2Proof.Machine
end

