-- ==== Sys2Proof/Machine/Dose.lean ====
section
/-! DEFINITION. The dose engine: lethal rate (R79), credit events (R81 to R84), zone entry and silent zones (R86 to
R88), the blancher verdict and the overblanch check (R89 to R91). -/

namespace Sys2Proof.Machine

def doseZone (c : Chip) (z : Nat) : DoseZone := c.de.zones.getD z .clear

def modDose (z : Nat) (f : DoseZone → DoseZone) (c : Chip) : Chip :=
  { c with de := { zones := c.de.zones.modify z f } }

/-- Rate of an interval temperature under a recipe, and whether it lies above the table (R79). -/
def lethalRate (r : Recipe) (temp : Int) : Nat × Bool :=
  let o := temp - r.tbase
  if o < 0 then (0, false)
  else if o ≤ 315 then
    let i := o.toNat / 5
    let f := o.toNat % 5
    let e := r.table.getD i 0
    (e + (r.table.getD (i + 1) 0 - e) * f / 5, false)
  else (r.table.getD 63 0, true)

/-- Segments of the BLANCH queue in a zone, in queue order. -/
def zoneSegments (c : Chip) (z : Nat) : List Nat := (c.st.qBlanch.filter fun g => g.zone == some z).map (·.id)

/-- Start of a segment's interval (R83). -/
def intervalStart (creditTime credited : Option Nat) : Nat := max (creditTime.getD 0) (credited.getD 0)

/-- Credit one segment (R83, R84). -/
def creditSegment (z : Nat) (temp : Int) (creditTime : Option Nat) (id : Nat) (c : Chip) : Chip :=
  match segmentIn c .blanch id with
  | some g =>
    let now := c.clock.line
    let interval := now - intervalStart creditTime g.credited
    let rate := lethalRate (recipeOfLot c g.lot) temp
    let c1 := modSegment id (fun s =>
      { s with dose := satAdd32 s.dose (rate.1 * min interval 50), credited := some now,
               flags := { s.flags with gap := s.flags.gap || decide (50 < interval),
                                       aboveTable := s.flags.aboveTable || rate.2 } }) c
    if 50 < interval then modDose z (fun d => { d with gaps := inc16 d.gaps }) c1 else c1
  | none => c

/-- The temperature before an item as DE looks at it (R81): the one the update carries, and absent at the first item after a
write of the zone's channels (log entry 32). -/
def doseBefore (z : Nat) (before : Option Int) (c : Chip) : Option Int :=
  if (doseZone c z).write = .none then before else none

/-- A zone update (R81, R82): skipped without a temperature before, a credit event otherwise. It ends what a write left. -/
def zoneUpdate (z : Nat) (before : Option Int) (after : Int) (c : Chip) : Chip :=
  let now := c.clock.line
  match doseBefore z before c with
  | none =>
    let c1 := (zoneSegments c z).foldl (fun acc id => modSegment id (fun s => { s with credited := some now }) acc) c
    modDose z (fun d => { d with write := .none, creditTime := some now, skipped := inc16 d.skipped }) c1
  | some b =>
    let temp := min b after
    let ct := (doseZone c z).creditTime
    let c1 := (zoneSegments c z).foldl (fun acc id => creditSegment z temp ct id acc) c
    modDose z (fun d =>
      { d with write := .none, creditTime := some now, lastTemp := some temp, credits := wrap16 d.credits }) c1

/-- A segment enters a zone (R86). -/
def zoneEntered (z id : Nat) (c : Chip) : Chip :=
  if (doseZone c z).state = .staleHeld then
    modDose z (fun d => { d with staleZones := inc16 d.staleZones }) (holdSegment id .staleZone c)
  else c

/-- A map write has touched a zone's channels (R81, R93): the zone's next update is skipped. A zone made STALE by the write,
one FRESH before it and served by no FRESH channel after it (`fresh` false), is silenced until that item; a further write
before the item leaves it so. A zone silent before the write is not (R87, R88; log entry 32). -/
def zoneWritten (fresh : Bool) (d : DoseZone) : DoseZone :=
  if fresh = false ∧ (d.state = .fresh ∨ d.write = .silenced) then { d with write := .silenced } else { d with write := .written }

/-- The state that DE's record of a zone takes when SI tells it `st` (R87): `st`, but for a zone that a write has made STALE
and that has had no item since, which does not become STALE-HELD (R93; log entry 32). -/
def recordedState (z : Nat) (st : Freshness) (c : Chip) : Freshness :=
  if st = .staleHeld ∧ (doseZone c z).write = .silenced then .stale else st

/-- DE is told a new state of a zone (R87, R88). -/
def tellZone (z : Nat) (told : Freshness) (c : Chip) : Chip :=
  let st := recordedState z told c
  let c1 := modDose z (fun d => { d with state := st }) c
  if st = .staleHeld then
    (zoneSegments c z).foldl (fun acc id =>
      match segmentIn acc .blanch id with
      | some g =>
        if g.hold.has .staleZone then acc
        else modDose z (fun d => { d with staleZones := inc16 d.staleZones }) (holdSegment id .staleZone acc)
      | none => acc) c1
  else c1

/-- The verdict at the BLANCH decision point (R89): true for PASS. -/
def blanchVerdict (c : Chip) (g : Segment) : Bool := decide ((recipeOfLot c g.lot).target * 4096 ≤ g.dose)

/-- The overblanch comparison (R90, R91). -/
def checkOverblanch (id : Nat) (c : Chip) : Chip :=
  match segmentAt c id with
  | some g =>
    if (recipeOfLot c g.lot).maximum * 4096 < g.dose ∧ ¬ g.flags.overblanch then
      reportLot g.lot .overblanched
        (modSegment id (fun s => { s with flags := { s.flags with overblanch := true } }) c)
    else c
  | none => c

end Sys2Proof.Machine
end

