-- ==== Sys2Proof/Machine/Freeze.lean ====
section
/-! DEFINITION. The freeze verifier: chill window (R98), warm chill (R99 to R101), exit window and temperature (R102,
R103), freeze decision (R104, R105), dwell (R106), freezer speed limit (R107). -/

namespace Sys2Proof.Machine

def modFv (f : Fv → Fv) (c : Chip) : Chip := { c with fv := f c.fv }

/-- Place a hold reason on a segment and count it if it is newly placed (R97). -/
def holdCounted (id : Nat) (r : HoldReason) (count : Fv → Fv) (c : Chip) : Chip :=
  match segmentAt c id with
  | some g => if g.hold.has r then c else modFv count (holdSegment id r c)
  | none => c

def holdWarmChill (id : Nat) (c : Chip) : Chip :=
  holdCounted id .warmChill (fun f => { f with warmChill := inc16 f.warmChill }) c

/-- Chill window at freezer entry (R98). -/
def checkChillWindow (id : Nat) (c : Chip) : Chip :=
  match segmentAt c id with
  | some g =>
    if (recipeOfLot c g.lot).chillWindow < g.freezerEntry.getD 0 - g.blanchExit.getD 0 then
      holdCounted id .lateChill (fun f => { f with lateChill := inc16 f.lateChill }) c
    else c
  | none => c

/-- Charge warm-chill time to one segment and check its allowance (R99, R100). -/
def chargeWarm (v p : Int) (interval id : Nat) (c : Chip) : Chip :=
  match segmentIn c .chill id with
  | some g =>
    let r := recipeOfLot c g.lot
    if r.chillLimit < v ∧ r.chillLimit < p then
      let warm := min (g.warmChill + interval) 65535
      let c1 := modSegment id (fun s => { s with warmChill := warm }) c
      if r.warmAllowance < warm then holdWarmChill id c1 else c1
    else c
  | none => c

/-- An accepted CHILL-TEMP item (R99). -/
def chillItem (v : Int) (c : Chip) : Chip :=
  let now := c.clock.line
  let c1 := match c.fv.prevChill with
    | some (p, tp) =>
      (c.st.qChill.map (·.id)).foldl (fun acc id => chargeWarm v p (min (now - tp) 50) id acc) c
    | none => c
  modFv (fun f => { f with prevChill := some (v, now) }) c1

/-- A freshness change of the CHILL-TEMP channel (R101); `hasValue` says that its latest value is present. -/
def tellChill (st : Freshness) (hasValue : Bool) (c : Chip) : Chip :=
  let c1 := modFv (fun f => { f with chillState := st }) c
  match st with
  | .stale => if hasValue then c1 else modFv (fun f => { f with prevChill := none }) c1
  | .staleHeld => (c1.st.qChill.map (·.id)).foldl (fun acc id => holdWarmChill id acc) c1
  | .fresh => c1

/-- A segment has joined CHILL (R101). -/
def chillArrival (id : Nat) (c : Chip) : Chip := if c.fv.chillState = .staleHeld then holdWarmChill id c else c

/-- An accepted EXIT-TEMP item (R103). -/
def exitItem (v : Int) (c : Chip) : Chip :=
  if c.fv.window.isEmpty then modFv (fun f => { f with unapplied := inc16 f.unapplied }) c
  else
    c.fv.window.foldl (fun acc id =>
      modSegment id (fun s =>
        { s with warmest := some (match s.warmest with | some w => max w v | none => v) }) acc) c

def tellExit (st : Freshness) (c : Chip) : Chip := modFv (fun f => { f with exitState := st }) c

/-- A segment has entered the exit scan window (R102); the set is kept in order of entry (log entry 10). -/
def enterWindow (id : Nat) (c : Chip) : Chip :=
  modFv (fun f => { f with window := if f.window.contains id then f.window else f.window ++ [id] }) c

/-- The freeze decision (R104, R105): true for PASS. -/
def freezeVerdict (g : Segment) (c : Chip) : Chip × Bool :=
  match g.warmest with
  | none => (holdCounted g.id .noExitTemp (fun f => { f with noExit := inc16 f.noExit }) c, true)
  | some w =>
    if (recipeOfLot c g.lot).exitLimit < w then
      (modFv (fun f => { f with warmExit := inc16 f.warmExit }) (raiseNat .warmExit .segment g.id c), false)
    else (c, true)

/-- Dwell at freezer exit (R106). -/
def checkDwell (id : Nat) (c : Chip) : Chip :=
  match segmentAt c id with
  | some g =>
    if g.freezerExit.getD 0 - g.freezerEntry.getD 0 < (recipeOfLot c g.lot).dwell then
      holdCounted id .underDwell (fun f => { f with underDwell := inc16 f.underDwell }) c
    else c
  | none => c

/-- The geometry is valid (R57). -/
def geometryValid (s : St) : Bool := s.blanch.written && s.chill.written && s.freeze.written

/-- A recipe's freezer limit (R107). -/
def recipeLimit (lf dwell : Nat) : Nat := min (lf * 100 / dwell) 2147483647

/-- The freezer speed limit (R107), if there is one. -/
def freezerLimit (c : Chip) : Option Nat :=
  if geometryValid c.st then
    let lf := c.st.freeze.length - c.st.freeze.entry
    let lots := c.st.qFreeze.map (·.lot) ++ (openLot? c).toList
    (lots.map fun i => recipeLimit lf (recipeOfLot c i).dwell).foldl (fun best n =>
      match best with
      | none => some n
      | some b => some (min b n)) none
  else none

end Sys2Proof.Machine
end

