-- ==== Sys2Proof/Machine/Segment.lean ====
section
/-! DEFINITION. The segment tracker on the belts: advance and crossings (R66 to R68), decisions (R69), stage ends (R71,
R72), surge arrival (R74), cuts (R62 to R64), the CUT channels (R47), the advance of a track source (R42), encoder
silence (R73). -/

namespace Sys2Proof.Machine

def encoderOf (s : St) : Belt → Nat
  | .blanch => s.blanch.encoder | .chill => s.chill.encoder | .freeze => s.freeze.encoder

def stageLength (s : St) : Belt → Nat
  | .blanch => s.blanch.length | .chill => s.chill.length | .freeze => s.freeze.length

/-- The stage's encoder is STALE-HELD (R73): the entry its geometry names, bound to the stage (R32). -/
def encoderHeld (c : Chip) (b : Belt) : Bool :=
  let k := intakeChan c (encoderOf c.st b)
  k.cfg.enabled && k.cfg.role == some (.encoder (some b)) && k.dyn.fresh == .staleHeld

/-- A segment joins a stage whose encoder is STALE-HELD (R73). -/
def joinSilent (b : Belt) (id : Nat) (c : Chip) : Chip := if encoderHeld c b then holdSegment id .untrackedGap c else c

/-! ## Decisions (R69) -/

/-- A channel takes the SEGMENT-DECISION starts of a stage (R44). -/
def servesDecision (c : Chip) (b : Belt) (n : Nat) : Bool :=
  let k := trackChan c n
  (k.cfg.mode == .delay || k.cfg.mode == .gate) && k.cfg.trigger == .segmentDecision b &&
    (k.cfg.source == .encoder (encoderOf c.st b) || k.cfg.source == .milliseconds)

/-- When ST decides (R44): on a delta that SI hands to ST before TC adds it (R37), or at a cut, while TC handles a CUT
channel in the sweep of a delta it has added (R64). -/
inductive Moment where
  | beforeSweep (delta : Nat) | sweeping (channel : Nat)
deriving DecidableEq, Repr

/-- The part of the delta that TC has not yet added. -/
def Moment.ahead : Moment → Nat
  | .beforeSweep delta => delta
  | .sweeping _ => 0

/-- Start point of a SEGMENT-DECISION start (R44). -/
def decisionPoint (c : Chip) (n : Nat) (moment : Moment) (overshoot : Nat) : Word :=
  match (trackChan c n).cfg.source with
  | .milliseconds => c.clock.ms
  | s => sourcePos c s + BitVec.ofNat 32 moment.ahead - BitVec.ofNat 32 overshoot

/-- The channels from here on are still to be handled in the sweep under way (R42): those of the sweep's source behind
the CUT channel. -/
def sweepLimit (c : Chip) (n : Nat) : Moment → Nat
  | .beforeSweep _ => 8
  | .sweeping m => if (trackChan c n).cfg.source = (trackChan c m).cfg.source then m else 8

/-- ST starts the gate channel for a DIVERT verdict (R69). -/
def divertSegment (b : Belt) (gate id : Nat) (moment : Moment) (overshoot : Nat) (c : Chip) : Chip :=
  let c0 := modSegment id (fun s => { s with disp := .divert }) c
  let st : Start := { point := decisionPoint c gate moment overshoot, served := some (.segment id) }
  let r := if servesDecision c b gate then enterStart gate st c0 else (refuseStart gate c0, false)
  match r with
  | (c1, true) => settleStart (sweepLimit c gate moment) gate st.point (modSegment id (fun s => { s with disp := .diverting }) c1)
  | (c1, false) =>
    raiseNat .divertMissed .segment id
      (modSegment id (fun s => { s with disp := .pass, hold := s.hold.place .divertMissed }) c1)

/-- A segment's head has crossed the decision point (R69): the verdict, DE's or FV's further effects, the disposition. -/
def decideSegment (b : Belt) (id : Nat) (moment : Moment) (overshoot : Nat) (c : Chip) : Chip :=
  match segmentAt c id with
  | some g =>
    match b with
    | .blanch =>
      let pass := blanchVerdict c g
      let c1 := checkOverblanch id c
      if pass then modSegment id (fun s => { s with disp := .pass }) c1
      else divertSegment .blanch c.st.blanch.gate id moment overshoot c1
    | .freeze =>
      match freezeVerdict g c with
      | (c1, true) => modSegment id (fun s => { s with disp := .pass }) c1
      | (c1, false) => divertSegment .freeze c.st.freeze.gate id moment overshoot c1
    | .chill => c
  | none => c

/-! ## Stage ends (R71, R72, R74) -/

/-- A segment with no mass that joins SURGE is returned to the pool (R74). -/
def surgeArrival (id : Nat) (c : Chip) : Chip :=
  match segmentAt c id with
  | some g => if g.remaining = 0 then freeSegment id false c else c
  | none => c

/-- The record of a segment that enters the next stage (R72). -/
def transferred (s : St) (b : Belt) (now : Nat) (g : Segment) : Segment :=
  let h := if g.disp = .diverting then { g with disp := .pass, hold := g.hold.place .gateUnconfirmed } else g
  match b with
  | .blanch => { h with head := some s.chill.entry, blanchExit := some now, zone := none, zoneEntry := none, credited := none }
  | .chill => { h with head := some s.freeze.entry, freezerEntry := some now }
  | .freeze => { h with head := none, freezerExit := some now }

/-- The stage behind a belt. -/
def nextStage : Belt → Stage
  | .blanch => .chill | .chill => .freeze | .freeze => .surge

/-- A segment joins the tail of a stage's queue (R59). -/
def joinQueue (st : Stage) (g : Segment) (c : Chip) : Chip :=
  { c with st := setQueue st (queueOf c.st st ++ [g]) c.st }

/-- A segment reaches the stage end (R71, R72). -/
def stageEnd (b : Belt) (id : Nat) (c : Chip) : Chip :=
  let c0 := if b = .blanch then checkOverblanch id c else c
  match segmentIn c0 b.stage id with
  | some g =>
    let c2 := joinQueue (nextStage b) (transferred c0.st b c.clock.line g) (removeSegment id c0)
    match b with
    | .blanch => chillArrival id (joinSilent .chill id c2)
    | .chill => checkChillWindow id (joinSilent .freeze id c2)
    | .freeze => surgeArrival id (checkDwell id (leaveWindow id c2))
  | none => c0

/-! ## Advance (R66, R67) -/

/-- A position is crossed in a step (R66). -/
def crosses (p before after : Nat) : Bool := decide (before < p) && decide (p ≤ after)

/-- Enter zone `z` of the blancher (R67). -/
def enterZone (z id : Nat) (c : Chip) : Chip :=
  let now := c.clock.line
  zoneEntered z id
    (modSegment id (fun s => { s with zone := some z, zoneEntry := some now, credited := some now }) c)

/-- The zone boundaries of BLANCH crossed in a step: zones 1 to the zone count less 1 (R57, R67). -/
def crossZones (id before after : Nat) (c : Chip) : Chip :=
  (List.range 6).foldl (fun acc z =>
    if 0 < z ∧ z < c.st.blanch.zones ∧ crosses (c.st.blanch.zoneStarts.getD (z - 1) 0) before after
    then enterZone z id acc else acc) c

/-- The crossings of one step in order of position (R67): a valid geometry keeps them in this order (R58). -/
def crossAll (b : Belt) (id : Nat) (moment : Moment) (before after : Nat) (c : Chip) : Chip :=
  match b with
  | .blanch =>
    let c1 := crossZones id before after c
    if crosses c.st.blanch.decision before after
    then decideSegment .blanch id moment (after - c.st.blanch.decision) c1 else c1
  | .chill => c
  | .freeze =>
    let f := c.st.freeze
    let c1 := if crosses f.winStart before after then enterWindow id c else c
    let c2 := if decide (before ≤ f.winEnd) && decide (f.winEnd < after) then leaveWindow id c1 else c1
    if crosses f.decision before after then decideSegment .freeze id moment (after - f.decision) c2 else c2

/-- Advance one segment of a belt (R66): its crossings, then the stage end if it is reached and still there. -/
def advanceSegment (b : Belt) (delta : Nat) (moment : Moment) (id : Nat) (c : Chip) : Chip :=
  match segmentIn c b.stage id with
  | some g =>
    let before := g.head.getD 0
    let after := before + delta
    let c1 := crossAll b id moment before after (modSegment id (fun s => { s with head := some after }) c)
    if stageLength c.st b ≤ after then stageEnd b id c1 else c1
  | none => c

/-- A delta handed by SI for a stage (R66): applied if the geometry is valid and it comes from the stage's encoder. -/
def advanceStage (b : Belt) (channel delta : Nat) (c : Chip) : Chip :=
  if geometryValid c.st ∧ encoderOf c.st b = channel then
    ((queueOf c.st b.stage).map (·.id)).foldl (fun acc id => advanceSegment b delta (.beforeSweep delta) id acc) c
  else c

/-! ## Cuts (R62 to R64) -/

/-- The mass of a cut, whether it is estimated, and the new reference (R62). -/
def cutMass (c : Chip) : Nat × Bool × Option Nat :=
  match findRole c .infeedMass with
  | some k =>
    match k.dyn.fresh, k.dyn.latest with
    | .fresh, some v =>
      match c.st.totalRef with
      | some ref => (((v.value - ref) % 4294967296).toNat, false, some v.value.toNat)
      | none => (c.st.lastNominal, true, some v.value.toNat)
    | _, _ => (c.st.lastNominal, true, none)
  | none => (c.st.lastNominal, true, none)

/-- Segment ids in use. -/
def liveIds (s : St) : List Nat := (liveSegments s).map (·.id)

/-- The record of a new segment (R64), its head at L. -/
def newSegment (c : Chip) (id lot mass : Nat) (estimated : Bool) : Segment :=
  let gap := c.st.gapSet.getLsbD lot
  let h0 : HoldSet := if c.ag.mode = .production then 0 else HoldReason.unverified.only
  { id := id, lot := lot, head := some c.st.blanch.segLen, nominal := mass, remaining := mass, cutTime := c.clock.line,
    blanchExit := none, freezerEntry := none, freezerExit := none, zone := some 0, zoneEntry := some c.clock.line,
    credited := some c.clock.line, dose := 0,
    flags := { gap := false, aboveTable := false, overblanch := false, massEst := estimated }, warmChill := 0,
    warmest := none, disp := .pending, hold := if gap then HoldSet.place h0 .untrackedGap else h0 }

/-- Create a segment at a fire of CUT channel `n` and advance it by the counts beyond the cut (R64). -/
def createSegment (n lot mass : Nat) (estimated : Bool) (beyond : Nat) (c : Chip) : Chip :=
  let id := freshId (liveIds c.st) 256 c.st.nextId
  let g := newSegment c id lot mass estimated
  let c1 := leaveGap lot
    { c with st := { c.st with qBlanch := c.st.qBlanch ++ [g], nextId := (id + 1) % 65536, lastNominal := mass } }
  let c2 := joinSilent .blanch id (reportLot lot (.segmentCreated mass) c1)
  advanceSegment .blanch beyond (.sweeping n) id (zoneEntered 0 id c2)

/-- A cut (R63) by CUT channel `n`, with the counts of the delta that lie beyond it. -/
def cut (n beyond : Nat) (c : Chip) : Chip :=
  match cutMass c with
  | (mass, estimated, ref) =>
    let c1 := { c with st := { c.st with totalRef := ref } }
    if mass < c.st.blanch.void then c1
    else
      match openLot? c with
      | none => raise .untracked .stage 0 c1
      | some lot =>
        if freeRecords c.st = 0 then
          let c2 := raiseNat .untracked .lot lot (reportLot lot (.untracked mass) c1)
          { c2 with st := { c2.st with gapSet := c2.st.gapSet ||| BitVec.ofNat 8 (2 ^ lot) } }
        else createSegment n lot mass estimated beyond c1

/-! ## CUT channels and the advance of a source (R42, R47) -/

/-- Fire a CUT channel `k` times: the next fire lies `left` counts before the end of the delta (R47). -/
def fireCuts (n length : Nat) : Nat → Nat → Chip → Chip
  | 0, _, c => c
  | k + 1, left, c =>
    let c1 := if geometryValid c.st ∧ c.st.blanch.cutChannel = n then cut n left c else c
    fireCuts n length k (left - length) (fireEvent n (channelPos c n - BitVec.ofNat 32 left) c1)

/-- A RUNNING CUT channel takes a delta (R47). -/
def advanceCut (n delta : Nat) (c : Chip) : Chip :=
  let k := trackChan c n
  if k.cfg.mode = .cut ∧ k.dyn.state = .running ∧ 0 < k.cfg.length then
    let total := k.dyn.remainder + delta
    let c1 := modTrack n (fun d => { d with remainder := total % k.cfg.length }) c
    fireCuts n k.cfg.length (total / k.cfg.length) (total - k.cfg.length) c1
  else c

/-- A delta of an intake channel reaches TC (R42): the position, then the channels on it in number order. -/
def advanceSource (e delta : Nat) (c : Chip) : Chip :=
  let c0 := { c with tc := { c.tc with positions := c.tc.positions.modify e fun p => p + BitVec.ofNat 32 delta } }
  (List.range 8).foldl (fun acc n =>
    if (trackChan acc n).cfg.source = .encoder e then handleChannel n (advanceCut n delta acc) else acc) c0

/-- An encoder's STALE-HELD for a stage (R73): every segment then in the stage receives UNTRACKED-GAP. -/
def encoderSilent (b : Belt) (c : Chip) : Chip :=
  ((queueOf c.st b.stage).map (·.id)).foldl (fun acc id => holdSegment id .untrackedGap acc) c

end Sys2Proof.Machine
end

