-- ==== Sys2Proof/Machine/BagItems.lean ====
section
/-! DEFINITION. Bag items (R126): a bag is made (R128 to R130), its results are gathered (R133). -/

namespace Sys2Proof.Machine

/-- Bag sequence number and result of an item's value (R126). -/
def bagSeq (w : Word) : Nat := w.toNat / 65536
def bagResult (w : Word) : Nat := w.toNat % 65536

/-- The BAG-MADE starts (R44, R128 step 5), channels 0 to 7 in order, each completed, with a fire it reaches at once and all that
this fire causes, before the next channel gets its own (the model's choices, log entry 8); a refused one is reported to BA
as REFUSED (R145). -/
def issueBagStarts (seq : Nat) (c : Chip) : Chip :=
  (List.range 8).foldl (fun acc n =>
    if triggerOf (trackChan acc n) = some .bagMade then
      match startNow n { point := channelPos acc n, served := some (.bag seq) } acc with
      | (c1, true) => c1
      | (c1, false) => bagOutcome seq .refused c1
    else acc) c

/-- The lot of a bag being made (R128): that of the front of SURGE, otherwise the OPEN lot. -/
def bagLot (c : Chip) : Option Nat :=
  match c.st.qSurge with
  | g :: _ => some g.lot
  | [] => openLot? c

/-- The slot a bag takes (R128): none if a slot holds its number or no slot is FREE. -/
def bagSlot (c : Chip) (seq : Nat) : Option Nat :=
  if c.ba.slots.any fun s => match s with | some b => b.seq == seq | none => false then none
  else c.ba.slots.findIdx? fun s => s.isNone

/-- A bag with no lot (R130). -/
def lotlessBag (seq : Nat) (c : Chip) : Chip :=
  let c1 := raiseNat .untracked .bag seq c
  let c2 := { c1 with ba := { c1.ba with lotless := inc16 c1.ba.lotless } }
  issueBagStarts seq
    (addDecision { seq := seq, lot := none, slot := none, decision := .rejected, place := none, gateReasons := 0 } c2)

/-- The record of an overrun bag (R129). -/
def overrunRecord (seq lot : Nat) (c : Chip) : BagRecord :=
  { seq := seq, lot := lot, lotNumber := (match lotAt c lot with | some l => l.number | none => 0), made := c.clock.line,
    epoch := c.rp.epoch, epochPresent := c.rp.epochPresent, net := none, codeFail := none, metalFail := none,
    rejected := true, reasons := RejectReason.overrun.when true, draws := [], hold := 0, pallet := none }

/-- An overrun bag (R129). -/
def overrunBag (seq lot : Nat) (c : Chip) : Chip :=
  let c1 := { c with ba := { c.ba with lastOverrun := some seq, overruns := inc16 c.ba.overruns } }
  let c2 := raiseNat .bagOverrun .bag seq c1
  let c3 := issueBagStarts seq
    (addDecision { seq := seq, lot := some lot, slot := none, decision := .rejected, place := none, gateReasons := 0 } c2)
  match takeRecord (overrunRecord seq lot c) c3 with
  | (c4, true) => reportLot lot (.bagSettled false) (reportLot lot .recordMade (reportLot lot .bagTaken c4))
  | (c4, false) => { c4 with ba := { c4.ba with lostRecords := inc16 c4.ba.lostRecords } }

/-- The slot of a bag newly made (R128 step 1). -/
def newSlot (seq lot : Nat) (c : Chip) : Slot :=
  { state := .gathering, seq := seq, lot := lot, madeLine := c.clock.line, madeMs := c.clock.ms,
    deadline := c.clock.ms + BitVec.ofNat 32 c.ma.config.bagDeadline, weight := none, codeFail := none, metalFail := none,
    conflict := 0, draws := [], hold := 0, tail := false, decision := .gathering, reasons := 0, pallet := none,
    record := none, order := 0 }

/-- A required set that is empty (R128 step 6). -/
def nothingRequired (r : Recipe) : Bool := !r.needWeight && !r.needCode && !r.needMetal

/-- A bag takes slot `k` (R128 steps 1 to 6). -/
def gatherBag (seq lot k : Nat) (c : Chip) : Chip :=
  let c1 := reportLot lot .bagTaken (setSlot k (some (newSlot seq lot c)) c)
  let c2 := addDecision
    { seq := seq, lot := some lot, slot := some k, decision := .gathering, place := none, gateReasons := 0 } (drawBag k c1)
  let c3 := issueBagStarts seq c2
  if nothingRequired (recipeOfLot c lot) then decideBag k c3 else c3

/-- A new bag (R128). -/
def newBag (seq : Nat) (c : Chip) : Chip :=
  match bagLot c with
  | none => lotlessBag seq c
  | some lot =>
    match bagSlot c seq with
    | some k => gatherBag seq lot k c
    | none => overrunBag seq lot c

/-- A taken BAG-MADE item (R126, R128). -/
def bagMade (w : Word) (c : Chip) : Chip :=
  if c.ba.keptMade = some w then c
  else newBag (bagSeq w) { c with ba := { c.ba with keptMade := some w } }

/-- The three contributed fields (R133). -/
inductive BagField where
  | weight | code | metal
deriving DecidableEq, Repr

def BagField.bit : BagField → Nat
  | .weight => 0 | .code => 1 | .metal => 2

/-- A contribution to a slot's field (R133): set, ignored, or in conflict. True if the field was set. -/
def contributeField (f : BagField) (value : Nat) (s : Slot) : Slot × Bool :=
  let conflict := { s with conflict := s.conflict ||| BitVec.ofNat 3 (2 ^ f.bit) }
  let fail := decide (value ≠ 0)
  match f with
  | .weight =>
    match s.weight with
    | none => ({ s with weight := some value }, true)
    | some w => if w = value then (s, false) else (conflict, false)
  | .code =>
    match s.codeFail with
    | none => ({ s with codeFail := some fail }, true)
    | some b => if b = fail then (s, false) else (conflict, false)
  | .metal =>
    match s.metalFail with
    | none => ({ s with metalFail := some fail }, true)
    | some b => if b = fail then (s, false) else (conflict, false)

/-- The GATHERING slot that holds a sequence number (R133). -/
def gatheringSlot (c : Chip) (seq : Nat) : Option Nat :=
  c.ba.slots.findIdx? fun s => match s with | some b => b.state == .gathering && b.seq == seq | none => false

/-- A contribution for a bag (R133). -/
def contribute (f : BagField) (seq value : Nat) (c : Chip) : Chip :=
  match gatheringSlot c seq with
  | none =>
    let c1 := raiseNat .orphan .bag seq c
    { c1 with ba := { c1.ba with orphans := inc16 c1.ba.orphans } }
  | some k =>
    match slotAt c k with
    | some s =>
      match contributeField f value s with
      | (s1, true) =>
        let c1 := setSlot k (some s1) c
        if fieldsComplete (recipeOfLot c s.lot) s1 then decideBag k c1 else c1
      | (s1, false) => setSlot k (some s1) c
    | none => c

/-- A taken BAG-WEIGHT, BAG-CODE or BAG-METAL item (R126). -/
def bagField (f : BagField) (w : Word) (c : Chip) : Chip :=
  match f with
  | .weight =>
    if c.ba.keptWeight = some w then c
    else contribute .weight (bagSeq w) (bagResult w) { c with ba := { c.ba with keptWeight := some w } }
  | .code =>
    if c.ba.keptCode = some w then c
    else contribute .code (bagSeq w) (bagResult w) { c with ba := { c.ba with keptCode := some w } }
  | .metal =>
    if c.ba.keptMetal = some w then c
    else contribute .metal (bagSeq w) (bagResult w) { c with ba := { c.ba with keptMetal := some w } }

end Sys2Proof.Machine
end

