-- ==== Sys2Proof/Machine/Transfer.lean ====
section
/-! DEFINITION. The transfer dispatcher: delivery reports (R175 to R177), shuttle status (R167), phases (R170), delivery (R172), faults (R171, R173),
requeue (R174), enabling (R166). -/

namespace Sys2Proof.Machine

/-! ## Delivery reports -/

/-- Number of a destination in a report (R207), 0 while absent (the model's choice, log entry 47). -/
def destNumber : Option Destination → Nat
  | none => 0
  | some .store => 1
  | some .quarantine => 2

/-- The delivery report of a pallet, formed at its handing (R175, R207). A first or last place, or any other field, that is
absent is sent as 0 (the model's choice, log entry 47). -/
def deliveryReport (p : Pallet) (c : Chip) : OwnFrame :=
  let marks := maskBit 0 p.short + maskBit 1 p.exhausted + maskBit 2 p.firstPlace.isSome + maskBit 3 p.lastPlace.isSome
    + maskBit 4 c.rp.epochPresent
  let number := match lotAt c p.lot with
    | some l => l.number
    | none => 0
  { kind := .report, dest := c.ma.config.reportDest, source := .deliveryReport p.id p.revision,
    items :=
      [mkItem 1 number,
       mkItem (BitVec.ofNat 16 p.id) (BitVec.ofNat 32 p.revision),
       mkItem (BitVec.ofNat 16 marks) (BitVec.setWidth 32 p.hold),
       mkItem (BitVec.ofNat 16 p.bags) (BitVec.ofNat 32 p.cases),
       mkItem (BitVec.ofNat 16 (p.firstPlace.getD 0)) (BitVec.ofNat 32 (p.lastPlace.getD 0)),
       mkItem 0 (BitVec.ofNat 32 (p.closeTime.getD 0)),
       mkItem 0 (BitVec.ofNat 32 (p.delTime.getD 0)),
       mkItem 0 (BitVec.ofNat 32 c.clock.line),
       mkItem 0 c.rp.epoch,
       mkItem 0 (BitVec.ofNat 32 p.exposure),
       mkItem (BitVec.ofNat 16 (destNumber p.dest)) (BitVec.ofNat 32 (destNumber p.delDest))] }

/-- A delivery report begins to leave (R177): a superseded one changes nothing. -/
def palletReportLeft (id rev : Nat) (c : Chip) : Chip :=
  match palletAt c id with
  | some p =>
    if p.revision = rev ∧ p.reportPending then
      let c1 := freePalletPlaces id (modPallet id (fun q => { q with reportPending := false }) c)
      let c2 := { c1 with ba := { c1.ba with pallets := c1.ba.pallets.filter fun q => decide (q.id ≠ id) } }
      reportLot p.lot .palletReported (resumeWaiting c2)
    else c
  | none => c

/-- TD hands a pallet's report to RP; its report state follows (R176), and what R177 states if it begins to leave at once
(R8). -/
def handDelivery (id : Nat) (c : Chip) : Chip :=
  match palletAt c id with
  | some p =>
    match rpHand (deliveryReport p c) c with
    | (c1, taken) =>
      let c2 := modPallet id (fun q => { q with report := if taken then .queued else .waiting })
        { c1 with td := { c1.td with lastHanding := some c1.clock.line } }
      if reportBegins c then palletReportLeft id p.revision c2 else c2
  | none => c

/-- Delivered pallets whose report is WAITING, in order of delivery time, table order among equals (R176). -/
def waitingDeliveries (c : Chip) : List Nat :=
  (sortKey (fun p => p.delTime.getD 0) (c.ba.pallets.filter fun p => p.report == .waiting)).map (·.id)

/-- Hand every WAITING delivery report again (R176). -/
def handWaitingDeliveries (c : Chip) : Chip := (waitingDeliveries c).foldl (fun acc id => handDelivery id acc) c

/-- A hold change of a DELIVERED pallet whose report is QUEUED: a new revision is handed (R175). -/
def reviseDelivery (id : Nat) (c : Chip) : Chip :=
  match palletAt c id with
  | some p =>
    if p.state = .delivered ∧ p.report = .queued then
      handDelivery id (modPallet id (fun q => { q with revision := (q.revision + 1) % 256 }) c)
    else c
  | none => c

/-! ## Transfers -/

/-- A pallet's airlock entry (R170). -/
def airlockEntry (n id : Nat) (c : Chip) : Chip :=
  let c1 := modPallet id (fun p => { p with state := .inTransfer }) (exposePallet id c)
  modShuttle n (fun s =>
    { s with state := .inAirlock, deadline := some (c.clock.line + 10 * s.delivery) }) c1

/-- A delivery (R172). -/
def deliver (n id : Nat) (dest : Destination) (c : Chip) : Chip :=
  match palletAt c id with
  | some p =>
    let c1 := if p.state = .assigned then exposePallet id c else c
    let c2 := modPallet id (fun q =>
      { q with state := .delivered, delTime := some c.clock.line, delDest := some dest, reportPending := true,
               revision := 0 }) c1
    let c3 := modShuttle n (fun s => { s with state := .idle, pallet := none, deadline := none }) c2
    let c4 := if p.dest = some dest then c3
      else raiseNat .misroute .pallet id (changePalletHold id (fun h => h.place .transferFault) c3)
    handDelivery id (reportLot p.lot .palletDelivered c4)
  | none => c

/-- A transfer is faulted (R173). -/
def faultTransfer (n : Nat) (c : Chip) : Chip :=
  match (shuttleAt c n).pallet with
  | some id =>
    let c1 := modPallet id (fun p => { p with state := .faulted, hold := p.hold.place .transferFault }) c
    let c2 := modShuttle n (fun s =>
      { s with state := .fault, pallet := none, deadline := none, enabled := false, faults := inc16 s.faults }) c1
    raiseNat .transferFault .pallet id c2
  | none => c

/-- A FAULT status from an IDLE shuttle (R173). -/
def faultIdle (n : Nat) (c : Chip) : Chip :=
  raiseNat .transferFault .shuttle n
    (modShuttle n (fun s => { s with state := .fault, faults := inc16 s.faults }) c)

/-- The status codes that name a pallet (R167). -/
inductive PhaseStatus where
  | loaded | entered | delivered (dest : Destination)
deriving DecidableEq, Repr

/-- A phase status of a shuttle in ASSIGNED, LOADED or IN-AIRLOCK (R170). -/
def phaseStatus (n named : Nat) (ph : PhaseStatus) (c : Chip) : Chip :=
  let s := shuttleAt c n
  match s.pallet with
  | some id =>
    if named ≠ id then modShuttle n (fun t => { t with mismatch := inc16 t.mismatch }) c
    else
      match ph with
      | .loaded =>
        if s.state = .assigned then
          modShuttle n (fun t =>
            { t with state := .loaded, deadline := some (c.clock.line + 10 * t.airlock) }) c
        else c
      | .entered => if s.state = .inAirlock then c else airlockEntry n id c
      | .delivered d => deliver n id d c
  | none => c

/-- What a status code says (R167): a code outside 1 to 6 says nothing. -/
inductive ShuttleStatus where
  | atDockIdle | phase (ph : PhaseStatus) | fault | unknown
deriving DecidableEq, Repr

def statusOfCode : Nat → ShuttleStatus
  | 1 => .atDockIdle | 2 => .phase .loaded | 3 => .phase .entered | 4 => .phase (.delivered .store)
  | 5 => .phase (.delivered .quarantine) | 6 => .fault | _ => .unknown

/-- An accepted SHUTTLE-STATUS item (R167, table). -/
def shuttleStatus (n : Nat) (w : Word) (c : Chip) : Chip :=
  let s := shuttleAt c n
  match s.state, statusOfCode (w.toNat % 65536) with
  | _, .unknown => c
  | .offline, .atDockIdle =>
    if s.enabled then arbitrate (modShuttle n (fun t => { t with state := .idle }) c) else c
  | .offline, _ => c
  | .idle, .atDockIdle => arbitrate c
  | .idle, .fault => faultIdle n c
  | .idle, .phase _ => c
  | .fault, .fault => c
  | .fault, _ => modShuttle n (fun t => { t with late := inc16 t.late }) c
  | .assigned, .phase ph | .loaded, .phase ph | .inAirlock, .phase ph => phaseStatus n (w.toNat / 65536) ph c
  | .assigned, .fault | .loaded, .fault | .inAirlock, .fault => faultTransfer n c
  | .assigned, .atDockIdle | .loaded, .atDockIdle | .inAirlock, .atDockIdle => c

/-- A shuttle's deadline has been reached (R171). -/
def shuttleDue (c : Chip) (n : Nat) : Bool :=
  match (shuttleAt c n).deadline with
  | some t => decide (t ≤ c.clock.line)
  | none => false

/-- ENABLE-SHUTTLE on an index 0 to 3 (R166). -/
def enableShuttle (n : Nat) (c : Chip) : Chip × Status :=
  let s := shuttleAt c n
  if ¬ s.written then (c, .notReady)
  else if s.state ≠ .offline ∧ s.state ≠ .fault then (c, .mode)
  else (modShuttle n (fun t => { t with state := .offline, enabled := true }) c, .ok)

/-- REQUEUE-PALLET (R174). -/
def requeuePallet (id : Nat) (c : Chip) : Chip × Status :=
  match palletAt c id with
  | none => (c, .notFound)
  | some p =>
    if p.state ≠ .faulted then (c, .notReady)
    else
      let c1 := enterDock id (modPallet id (fun q => { q with state := .closed, shuttle := none }) c)
      let c2 := modPallet id (fun q => { q with expTime := c.clock.line, expTemp := dockTemp c p.lot }) c1
      (arbitrate (evalDestination id c2), .ok)

end Sys2Proof.Machine
end

