-- ==== Sys2Proof/Machine/Guarding.lean ====
section
/-! DEFINITION. The actuation guard: conditions (R186), owned-point override (R184), guard verdicts (R185, R187), trap
and shadow records (R188, R189), echoes and expiries (R192, R193). -/

namespace Sys2Proof.Machine

/-- Zones in use (R186): those of the zone count, all six while the BLANCH entry is not written. -/
def zonesInUse (c : Chip) : Nat := if c.st.blanch.written then c.st.blanch.zones else 6

/-- The value of a guard condition (R186). -/
def conditionHolds (c : Chip) : Condition → Bool
  | .always => true
  | .poolLow => poolLow c
  | .noLot => (openLot? c).isNone
  | .zoneStale => (c.si.zones.take (zonesInUse c)).any fun z => z.state != .fresh
  | .traceBacklog => traceBacklog c
  | .palletFull => palletFull c
  | .lotHeld => c.lh.lots.any fun l => match l with | some e => e.manual | none => false

/-- Filter and mask match a key (R24, R185). -/
def keyMatches (filter mask key : Key) : Bool := decide ((key ^^^ filter) &&& mask = 0)

/-- The intended state of the owned point in use with a key (R183, R184): of two with one key, that of the lower index (the
model's choice, log entry 37). -/
def ownedByKey (c : Chip) (key : Key) : Option Word :=
  (List.range 8).findSome? fun n =>
    match ownedPoint c n with
    | some (k, v) => if k = key then some v else none
    | none => none

/-- The verdict of a deciding entry (R187): the value (none for BLOCK) and the verdict (none for PASS). -/
def guardVerdict (c : Chip) (g : Guard) (v : Word) : Option Word × Option Verdict :=
  match g.action with
  | .pass => (some v, none)
  | .block => (none, some .block)
  | .clamp =>
    if v.toInt < g.low.toInt then (some g.low, some .clamp)
    else if g.high.toInt < v.toInt then (some g.high, some .clamp)
    else (some v, none)
  | .clampFreezer =>
    match freezerLimit c with
    | some limit => if (limit : Int) < v.toInt then (some (BitVec.ofNat 32 limit), some .clampFreezer) else (some v, none)
    | none => (some v, none)
  | .force => (some g.force, some .force)

/-- The deciding entry of an item (R185): the first that is enabled, matches and whose condition is true. -/
def decidingGuard (c : Chip) (key : Key) : Option (Guard × Nat) :=
  c.ag.guards.zipIdx.find? fun (g, _) => g.enabled && keyMatches g.filter g.mask key && conditionHolds c g.cond

/-- Some enabled entry matches the key, whether or not its condition holds (R189). -/
def guarded (c : Chip) (key : Key) : Bool := c.ag.guards.any fun g => g.enabled && keyMatches g.filter g.mask key

/-- The forwarded value and time of a shadow entry after a result: a removed item leaves them (R189). -/
def forwardedBy (result : Option Word) (now : Nat) (old : Option (Word × Nat)) : Option (Word × Nat) :=
  match result with
  | some v => some (v, now)
  | none => old

/-- Update the shadow table for a checked item (R189): `mayEnter` lets a new point in, at the first index not in use, and every
item of a point that finds no room adds to the unshadowed count (the model's choices, log entry 38). -/
def shadowItem (mayEnter : Bool) (key : Key) (received : Word) (result : Option Word) (c : Chip) : Chip :=
  let now := c.clock.line
  if c.ag.shadows.any fun e => e.key == key then
    { c with ag := { c.ag with shadows := c.ag.shadows.map fun e =>
        if e.key = key then { e with received := received, receivedAt := now, forwarded := forwardedBy result now e.forwarded } else e } }
  else if mayEnter then
    if c.ag.shadows.length < 32 then
      { c with ag := { c.ag with shadows := c.ag.shadows ++
          [{ key := key, received := received, receivedAt := now, forwarded := forwardedBy result now none }] } }
    else { c with ag := { c.ag with unshadowed := inc16 c.ag.unshadowed } }
  else c

/-- AG rules on one item (R183, R184, R187): the value to forward, or none for remove. -/
def checkItem (key : Key) (v : Word) (c : Chip) : Chip × Option Word :=
  match c.ag.mode with
  | .offline => (shadowItem false key v (some v) c, some v)
  | m =>
    match ownedByKey c key with
    | some intended =>
      let result := if m = .production then intended else v
      let c1 := if v = intended then c else
        addTrap { line := c.clock.line, key := key, received := v, verdict := .owned, applied := some intended,
                  entry := .owned, mode := m } c
      (shadowItem false key v (some result) c1, some result)
    | none =>
      match decidingGuard c key with
      | none => (shadowItem (guarded c key) key v (some v) c, some v)
      | some (g, i) =>
        match guardVerdict c g v with
        | (applied, verdict) =>
          let result := if m = .production then applied else some v
          let c1 := match verdict with
            | some d => addTrap { line := c.clock.line, key := key, received := v, verdict := d, applied := applied,
                                  entry := .guard i, mode := m } c
            | none => c
          (shadowItem true key v result c1, result)

/-- AG rules on the items of a frame in item order (R183): the items kept, each with its value (R7). -/
def checkItems : List Item → Chip → Chip × List Item
  | [], c => (c, [])
  | i :: is, c =>
    match checkItem i.key i.value c with
    | (c1, some v) =>
      match checkItems is c1 with
      | (c2, kept) => (c2, { i with value := v } :: kept)
    | (c1, none) => checkItems is c1

/-- The source of a settled confirmation is told (R192, R193). -/
def tellSource (e : Confirm) (o : Outcome4) (c : Chip) : Chip :=
  match e.source, e.serves with
  | .channel n, some token => settleToken n token o c
  | _, _ => c

/-- An accepted POINT-ECHO item (R192): it is compared with the oldest entry of its point alone. -/
def pointEcho (n : Nat) (w : Word) (c : Chip) : Chip :=
  match c.ag.confirms.findIdx? fun e => e.point == n with
  | some i =>
    match c.ag.confirms[i]? with
    | some e =>
      if e.value = w then
        tellSource e .confirmed { c with ag := { c.ag with confirms := c.ag.confirms.eraseIdx i } }
      else c
    | none => c
  | none => c

/-- The deadline of an entry has been reached (R193). -/
def confirmDue (c : Chip) (i : Nat) : Bool :=
  match c.ag.confirms[i]? with
  | some e => reached c.clock.ms e.deadline
  | none => false

/-- An entry expires (R193). -/
def expireConfirm (i : Nat) (c : Chip) : Chip :=
  match c.ag.confirms[i]? with
  | some e =>
    tellSource e .failed
      (gateFault e.point { c with ag := { c.ag with confirms := c.ag.confirms.eraseIdx i } })
  | none => c

end Sys2Proof.Machine
end

