-- ==== Sys2Proof/Machine/Intake.lean ====
section
/-! DEFINITION. Sample intake: matching (R24), quality (R25), conversion and clamping (R27 to R29), freshness (R31, R32),
zones (R34 to R36), encoders (R37, R38), handing on (R30). -/

namespace Sys2Proof.Machine

/-! ## Zones (R34) -/

/-- The latest value while FRESH. -/
def freshValue (d : IntakeDyn) : Option Int := if d.fresh = .fresh then d.latest.map (·.value) else none

/-- Zone state and temperature of a pair with both partners in the derivation (R34). -/
def pairZone (a b : IntakeDyn) : Zone :=
  match a.fresh, b.fresh with
  | .fresh, .fresh =>
    { state := .fresh, temp := (freshValue a).bind fun x => (freshValue b).map fun y => min x y }
  | .fresh, _ => { state := .fresh, temp := freshValue a }
  | _, .fresh => { state := .fresh, temp := freshValue b }
  | .staleHeld, .staleHeld => { state := .staleHeld, temp := none }
  | _, _ => { state := .stale, temp := none }

/-- An entry serves a zone: it is enabled and bound to it (R34). -/
def servesZone (z : Nat) (k : IntakeCfg) : Bool := k.enabled && k.role == some (.zoneTemp z)

/-- Zone state and temperature of the entries that serve it, those with no value left out: the table of R34. -/
def servingZone (chans : List IntakeChan) (z : Nat) : Zone :=
  match chans.filter fun k => servesZone z k.cfg && k.dyn.latest.isSome with
  | [] => .clear
  | [a] => { state := a.dyn.fresh, temp := freshValue a.dyn }
  | a :: b :: _ => pairZone a.dyn b.dyn

def zoneAt (c : Chip) (z : Nat) : Zone := c.si.zones.getD z .clear

/-- Re-derive a zone and tell DE of a new state (R34). -/
def rederiveZone (z : Nat) (c : Chip) : Chip :=
  let new := servingZone c.si.chans z
  let c1 := { c with si := { c.si with zones := c.si.zones.set z new } }
  if new.state = (zoneAt c z).state then c1 else tellZone z new.state c1

/-! ## Telling freshness (R32) -/

/-- Tell the consumer of a role of a freshness state of channel `i` (R32). At a STALE of the DOCK-TEMP role TD's end temperature
is the temperature in effect, also where the entry written is off and another one is FRESH (R164; the model's choice, log entry
19). -/
def tellFreshness (i : Nat) (role : Option Role) (st : Freshness) (c : Chip) : Chip :=
  match role with
  | some (.zoneTemp z) => rederiveZone z c
  | some .chillTemp => tellChill st (intakeChan c i).dyn.latest.isSome c
  | some .exitTemp => tellExit st c
  | some .dockTemp => if st = .stale then exposeAll c else c
  | some (.encoder belt) =>
    match st with
    | .stale => encoderStale i c
    | .staleHeld =>
      match belt with
      | some b => if encoderOf c.st b = i then encoderSilent b c else c
      | none => c
    | .fresh => c
  | some .marker => if st = .stale then markerStale i c else c
  | _ => c

/-! ## Values (R27 to R29) -/

/-- A role that carries a temperature (R26). -/
def Role.isTemperature : Role → Bool
  | .zoneTemp _ | .chillTemp | .exitTemp | .dockTemp => true
  | _ => false

/-- The engineering value (R27), truncated toward zero. -/
def convert (k : IntakeCfg) (raw : Int) : Int := Int.tdiv ((raw - k.offset) * k.gain) 1024

/-- A value taken: the value, CLAMPED-LOW, CLAMPED-HIGH. -/
structure Taken where
  value : Int
  low : Bool
  high : Bool
deriving DecidableEq, Repr

/-- Limit an engineering value (R28). -/
def clampValue (k : IntakeCfg) (v : Int) : Taken :=
  if v < k.low then { value := k.low, low := true, high := false }
  else if k.high < v then { value := k.high, low := false, high := true }
  else { value := v, low := false, high := false }

/-- The value taken from an item's 32 bits (R27 to R29). -/
def takeValue (k : IntakeCfg) (w : Word) : Taken :=
  match k.role with
  | some (.encoder _) => { value := (w.toNat % 65536 : Nat), low := false, high := false }
  | some .marker => { value := if w = 0 then 0 else 1, low := false, high := false }
  | some r =>
    if r.isTemperature then clampValue k (convert k w.toInt) else { value := (w.toNat : Nat), low := false, high := false }
  | none => { value := (w.toNat : Nat), low := false, high := false }

/-! ## Handing on (R30) -/

/-- PROBE-SPLIT (R36). -/
def checkSplit (z i : Nat) (c : Chip) : Chip :=
  match (intakeChan c i).cfg.partner with
  | some p =>
    match freshValue (intakeChan c i).dyn, freshValue (intakeChan c p).dyn with
    | some x, some y =>
      if (intakeChan c p).cfg.enabled ∧ c.ma.config.split < (x - y).natAbs then raiseNat .probeSplit .zone z c else c
    | _, _ => c
  | none => c

/-- An accepted ZONE-TEMP item: the zone, the update, the split check (R34 to R36). -/
def zoneItem (z i : Nat) (before : Option Int) (c : Chip) : Chip :=
  let c1 := rederiveZone z c
  checkSplit z i
    (match (zoneAt c1 z).temp with
     | some after => zoneUpdate z before after c1
     | none => c1)

/-- An accepted ENCODER item (R37, R38). -/
def encoderItem (i : Nat) (belt : Option Belt) (count : BitVec 16) (c : Chip) : Chip :=
  match (intakeChan c i).dyn.ref with
  | none => modIntake i (fun d => { d with ref := some count }) c
  | some ref =>
    let delta := (count - ref).toInt
    if delta = 0 then c
    else if delta < 0 then raiseNat .reverse .channel i c
    else
      let c1 := modIntake i (fun d => { d with ref := some count }) c
      let c2 := match belt with
        | some b => advanceStage b i delta.toNat c1
        | none => c1
      advanceSource i delta.toNat c2

/-- Hand an accepted item to its consumer (R30). -/
def handOn (i : Nat) (role : Option Role) (before : Option Int) (value : Int) (w : Word) (c : Chip) : Chip :=
  match role with
  | some (.zoneTemp z) => zoneItem z i before c
  | some .chillTemp => chillItem value c
  | some .exitTemp => exitItem value c
  | some .dockTemp => exposeAll c
  | some .infeedMass => c
  | some (.encoder belt) => encoderItem i belt (BitVec.setWidth 16 w) c
  | some .marker => markerItem i (decide (w ≠ 0)) c
  | some .bagMade => bagMade w c
  | some .bagWeight => bagField .weight w c
  | some .bagCode => bagField .code w c
  | some .bagMetal => bagField .metal w c
  | some (.shuttleStatus n) => shuttleStatus n w c
  | some (.pointEcho n) => pointEcho n w c
  | none => c

/-! ## Taking an item (R24, R25, R31) -/

/-- OVER-RANGE for a value clamped high (R28). -/
def overRange (i : Nat) (role : Option Role) (t : Taken) (c : Chip) : Chip :=
  if t.high then
    match role with
    | some (.zoneTemp _) | some .exitTemp => raiseNat .overRange .channel i c
    | _ => c
  else c

/-- The channel's dynamic state after an accepted item: latest value, freshness, counts (R25, R28, R31). -/
def acceptDyn (k : IntakeCfg) (t : Taken) (suspect : Bool) (clock : Clock) (d : IntakeDyn) : IntakeDyn :=
  { d with
    latest := some { value := t.value, suspect := suspect, clampLow := t.low, clampHigh := t.high, line := clock.line,
                     ms := clock.ms },
    fresh := .fresh, freshTimer := some (clock.line + k.freshTimeout), staleTimer := none,
    accepted := wrap16 d.accepted, suspects := if suspect then inc16 d.suspects else d.suspects,
    clamps := if t.low || t.high then inc16 d.clamps else d.clamps }

/-- An accepted item of channel `i` (R25). -/
def acceptItem (i : Nat) (suspect : Bool) (w : Word) (c : Chip) : Chip :=
  let k := (intakeChan c i).cfg
  let t := takeValue k w
  let before := match k.role with
    | some (.zoneTemp z) => (zoneAt c z).temp
    | _ => none
  let c1 := modIntake i (acceptDyn k t suspect c.clock) (overRange i k.role t c)
  let c2 := if (intakeChan c i).dyn.fresh = .fresh then c1 else tellFreshness i k.role .fresh c1
  handOn i k.role before t.value w c2

/-- The entry that takes an item (R24). -/
def matchingEntry (c : Chip) (key : Key) : Option Nat :=
  c.si.chans.findIdx? fun k => k.cfg.enabled && keyMatches k.cfg.filter k.cfg.mask key

/-- Take one SAMPLE item (R24, R25): quality 0 is GOOD, 1 SUSPECT, any other BAD (R207). -/
def takeItem (it : Item) (c : Chip) : Chip :=
  match matchingEntry c it.key with
  | none => c
  | some i =>
    if it.quality = 0 then acceptItem i false it.value c
    else if it.quality = 1 then acceptItem i true it.value c
    else modIntake i (fun d => { d with bad := inc16 d.bad }) c

/-- Take the items of a SAMPLE frame in item order. -/
def takeItems (l : List Item) (c : Chip) : Chip := l.foldl (fun acc it => takeItem it acc) c

/-! ## Timers (R31, R32) -/

/-- A line time has been reached. -/
def lineDue (c : Chip) : Option Nat → Bool
  | some t => decide (t ≤ c.clock.line)
  | none => false

/-- The freshness timer of channel `i` expires (R31). -/
def expireFreshness (i : Nat) (c : Chip) : Chip :=
  let k := intakeChan c i
  if lineDue c k.dyn.freshTimer then
    let c1 := modIntake i (fun d =>
      { d with fresh := .stale, freshTimer := none, staleTimer := d.freshTimer.map (· + k.cfg.staleTimeout),
               ref := none }) c
    tellFreshness i k.cfg.role .stale (raiseNat .staleInput .channel i c1)
  else c

/-- The stale-hold timer of channel `i` expires (R32). -/
def expireStaleHold (i : Nat) (c : Chip) : Chip :=
  let k := intakeChan c i
  if lineDue c k.dyn.staleTimer then
    tellFreshness i k.cfg.role .staleHeld
      (modIntake i (fun d => { d with fresh := .staleHeld, staleTimer := none }) c)
  else c

end Sys2Proof.Machine
end

