-- ==== Sys2Proof/Machine/Answers.lean ====
section
/-! DEFINITION. Management: answers in parts (R197, R207), assembly of requests (R196), the request queue (R197),
unsent alerts handed again (R203). -/

namespace Sys2Proof.Machine

/-! ## Answers (R197, R207) -/

/-- Parts an answer fills: 15 words to a part, one part for an answer with no words. -/
def partCount (words : List Word) : Nat := max 1 ((words.length + 14) / 15)

/-- Part header of an answer: code, status, part number, last-part mark (R207). -/
def answerHeader (code : Byte) (st : Status) (part : Nat) (last : Bool) : Word :=
  code ++ BitVec.ofNat 8 st.number ++ BitVec.ofNat 8 part ++ (if last then (1 : Byte) else 0)

/-- Part `k` of an answer. -/
def answerPart (req : Request) (st : Status) (words : List Word) (isRestart : Bool) (k : Nat) : OwnFrame :=
  { kind := .mgmtAns, dest := req.origin, source := .answer isRestart,
    items := mkItem req.tag (answerHeader req.code st k (decide (k + 1 = partCount words))) ::
      ((words.drop (15 * k)).take 15).zipIdx.map fun (w, i) => mkItem (BitVec.ofNat 16 (15 * k + i)) w }

/-- Hand an answer to RP in its parts; a part refused or discarded is lost (R197). -/
def handAnswer (req : Request) (st : Status) (words : List Word) (c : Chip) : Chip :=
  (List.range (partCount words)).foldl (fun acc k => (rpHand (answerPart req st words false k) acc).1) c

/-- End the execution of the request at the head of the queue (R197). -/
def endRequest (req : Request) (st : Status) (words : List Word) (c : Chip) : Chip :=
  let c1 := handAnswer req st words c
  { c1 with ma := { c1.ma with queue := c1.ma.queue.tail, phase := .idle } }

/-! ## Requests (R196, R197, R207) -/

/-- A part of a request as its frame carries it. -/
structure Part where
  origin : Byte
  tag : Key
  code : Byte
  number : Nat
  last : Bool
  count : Nat
  words : List Word
deriving DecidableEq, Repr

/-- Read a part from a frame's items (R207); a good frame has at least one. -/
def readPart (origin : Byte) : List Item → Option Part
  | [] => none
  | h :: rest =>
    some { origin := origin, tag := h.key, code := h.value.extractLsb' 24 8, number := (h.value.extractLsb' 16 8).toNat,
           last := decide (h.value.extractLsb' 8 8 ≠ 0), count := (h.value.extractLsb' 0 8).toNat,
           words := rest.map (·.value) }

/-- Answer BAD-FORMAT or FULL to a part or a partial request. -/
def answerOnly (origin : Byte) (tag : Key) (code : Byte) (st : Status) (c : Chip) : Chip :=
  handAnswer { origin := origin, tag := tag, code := code, words := [] } st [] c

def setAssembly (a : Option Assembly) (c : Chip) : Chip := { c with ma := { c.ma with assembly := a } }

/-- A complete request enters the queue, or is answered FULL (R197). -/
def completeRequest (a : Assembly) (c : Chip) : Chip :=
  if c.ma.queue.length < 4 then
    { c with ma := { c.ma with queue := c.ma.queue ++
        [{ origin := a.origin, tag := a.tag, code := a.code, words := a.words }] } }
  else answerOnly a.origin a.tag a.code .full c

/-- An assembly goes on, or is complete at its last part. -/
def continueAssembly (a : Assembly) (last : Bool) (c : Chip) : Chip :=
  if last then completeRequest a (setAssembly none c) else setAssembly (some a) c

/-- Discard an assembly and answer it BAD-FORMAT (R196). -/
def dropAssembly (c : Chip) : Chip :=
  match c.ma.assembly with
  | some a => answerOnly a.origin a.tag a.code .badFormat (setAssembly none c)
  | none => c

/-- A part joins the assembly in progress (R196). -/
def partJoins (a : Assembly) (p : Part) : Bool :=
  a.origin == p.origin && a.tag == p.tag && decide (p.number = a.last + 1) && decide (p.number ≤ 7)

/-- A MGMT-REQ part for the part's node (R196). -/
def takePart (p : Part) (c : Chip) : Chip :=
  if p.count ≠ p.words.length then answerOnly p.origin p.tag p.code .badFormat c
  else if p.number = 0 then
    continueAssembly
      { origin := p.origin, tag := p.tag, code := p.code, words := p.words, last := 0, started := c.clock.ms } p.last
      (dropAssembly c)
  else
    match c.ma.assembly with
    | some a =>
      if partJoins a p then continueAssembly { a with words := a.words ++ p.words, last := p.number } p.last c
      else answerOnly p.origin p.tag p.code .badFormat c
    | none => answerOnly p.origin p.tag p.code .badFormat c

/-- The assembly has lasted 1,000 ms (R196). -/
def assemblyDue (c : Chip) : Bool :=
  match c.ma.assembly with
  | some a => reached c.clock.ms (a.started + 1000)
  | none => false

/-! ## Alerts handed again (R203) -/

/-- A pending kind whose unsent mark is set and whose route names a destination. One whose route has come to name none keeps
its mark, and is neither handed nor due for the retry (the model's choice, log entry 44). -/
def unsentAlert (c : Chip) (k : AlertKind) : Bool :=
  (match pendingAlert c k with | some a => a.unsent | none => false) && (routeOf c k).dest.isSome

/-- Hand one pending kind again, if it is unsent. -/
def handUnsent (k : AlertKind) (c : Chip) : Chip :=
  if unsentAlert c k then
    match handAlert k c with
    | (c1, true) => raiseOverflow c1
    | (c1, false) => c1
  else c

/-- Hand every unsent pending kind again, in kind order (R203). -/
def handAllUnsent (c : Chip) : Chip := AlertKind.all.foldl (fun acc k => handUnsent k acc) c

/-- 10 ds have passed since a handing (R117, R176, R203); where more have passed the retry is due at once (the model's choice,
log entry 33). -/
def retryDue (c : Chip) : Option Nat → Bool
  | some t => decide (t + 10 ≤ c.clock.line)
  | none => false

/-- The retry of R203 is due. -/
def alertRetryDue (c : Chip) : Bool :=
  decide (c.rp.ring ≠ .isolated) && retryDue c c.ma.lastHanding && AlertKind.all.any (unsentAlert c)

end Sys2Proof.Machine
end

