-- ==== Sys2Proof/Machine/Ring.lean ====
section
/-! DEFINITION. The ring port: the transmitter (R8, R11), ring state and its transitions (R14 to R18), headers and receptions
(R3 to R7, R12, R19), return timeouts (R13). -/

namespace Sys2Proof.Machine

/-! ## The transmitter (R8, R11) -/

/-- A frame begins to leave: the originator of a REPORT is told (R11). -/
def reportLeft (src : FrameSource) (c : Chip) : Chip :=
  match src with
  | .lotReport i => retireLot i c
  | .deliveryReport id rev => palletReportLeft id rev c
  | _ => c

/-- The own frame at a place of the transmit queue begins to leave (R11). -/
def sendOwn (i : Nat) (f : OwnFrame) (c : Chip) : Chip :=
  reportLeft f.source (beginOwn f { c with rp := { c.rp with txQueue := c.rp.txQueue.eraseIdx i } })

/-- A buffered frame begins to leave. -/
def sendForward (e : ForwardEntry) (c : Chip) : Chip :=
  { c with rp := { c.rp with forward := c.rp.forward.tail,
                             tx := some { header := e.frame.header, body := some (itemBytes e.frame.items), badCheck := false } } }

/-- The first own frame that may be sent now, with its place in the transmit queue (R8, R9). -/
def ownReady (c : Chip) : Option (OwnFrame × Nat) :=
  if c.rp.returnList.length < 16 then c.rp.txQueue.zipIdx.find? fun (f, _) => sendable c f else none

/-- Grant the Downstream transmitter (R8). -/
def txGrant (c : Chip) : Chip :=
  if c.rp.ring = .isolated ∨ c.rp.tx.isSome then c
  else
    match forwardReady c with
    | some e => sendForward e c
    | none =>
      match ownReady c with
      | some (f, i) => sendOwn i f c
      | none => c

/-- The frame that was leaving has left (R8); a cut-through copy does not end before its reception. -/
def completeTransmit (c : Chip) : Chip :=
  match c.rp.tx with
  | some t => if t.body.isSome then { c with rp := { c.rp with tx := none } } else c
  | none => c

/-! ## Ring state -/

/-- LH and TD: a QUEUED report becomes WAITING at an entry into ISOLATED (R117, R176). -/
def reportsWait (c : Chip) : Chip :=
  let w := fun r : ReportState => if r = .queued then .waiting else r
  { c with lh := { c.lh with lots := c.lh.lots.map fun l => l.map fun e => { e with report := w e.report } },
           ba := { c.ba with pallets := c.ba.pallets.map fun p => { p with report := w p.report } } }

/-- MA at an entry into ISOLATED (R196, R197, R206): no assembly, no request that is not executing, and the wait for
the answer to RESTART ends. -/
def maIsolated (m : Ma) : Ma :=
  { m with assembly := none, queue := if m.phase = .reading then m.queue.take 1 else [],
           phase := if m.phase = .restartWait then .restartReady else m.phase }

/-- Entry into ISOLATED (R15): relay, queues, buffer, a frame that was leaving, then the alert. -/
def isolatedEntry (c : Chip) : Chip :=
  let c1 := { c with
    pins := { c.pins with rly := false },
    rp := { c.rp with ring := .isolated, txQueue := [], returnList := [], forward := [],
                      rx := c.rp.rx.map fun r => { r with fwd := .notForwarded }, tx := none },
    ma := maIsolated c.ma }
  raise .ringIsolated .none 0 (reportsWait c1)

/-- The change of the ring state to ACTIVE (R14, R18): TD, then LH, hand the reports they have kept. -/
def ringActive (c : Chip) : Chip := handWaitingLots (handWaitingDeliveries c)

/-- Exit from ISOLATED (R18); TD then checks its arbitration conditions (R168). -/
def isolatedExit (new : RingState) (c : Chip) : Chip :=
  let c1 := { c with pins := { c.pins with rly := true }, rp := { c.rp with ring := new } }
  let c2 := handAllUnsent (resendAll c1)
  arbitrate (if new = .passive then raise .ringDegraded .none 0 c2 else ringActive c2)

/-- Re-evaluate the ring state (R14) and act on a change. A frame that may be sent in the new state leaves before what the
change hands (R8, R14). -/
def evalRing (c : Chip) : Chip :=
  match c.rp.ring, ringStateOf c.rp.txErr c.rp.rxErr c.pins.byp with
  | .isolated, .isolated => c
  | _, .isolated => isolatedEntry c
  | .isolated, new => isolatedExit new c
  | .active, .passive => raise .ringDegraded .none 0 (txGrant { c with rp := { c.rp with ring := .passive } })
  | .passive, .active => ringActive (txGrant { c with rp := { c.rp with ring := .active } })
  | .active, .active => c
  | .passive, .passive => c

/-- Change the error counts; the recovery timer and the ring state follow (R14, R16). -/
def setErrors (rxErr txErr : Nat) (c : Chip) : Chip :=
  let rp := { c.rp with rxErr := rxErr, txErr := txErr }
  evalRing { c with rp := { rp with recovery := recoveryOf rp c.clock.ms } }

/-- The recovery timer has reached the recovery interval (R16). -/
def recoveryDue (c : Chip) : Bool :=
  match c.rp.recovery with
  | some t => reached c.clock.ms (t + BitVec.ofNat 32 (1000 * c.ma.config.recovery))
  | none => false

/-- The recovery timer completes when due (R16, R201): both error counts become 0. -/
def recover (c : Chip) : Chip := if recoveryDue c then setErrors 0 0 c else c

/-! ## Return check and timeout (R12, R13) -/

/-- An entry has left the return list: MA is told if it was the answer to RESTART (R11, R206). -/
def answerOut (e : ReturnEntry) (c : Chip) : Chip :=
  if e.isRestart ∧ c.ma.phase = .restartWait then { c with ma := { c.ma with phase := .restartReady } } else c

/-- Remove the entry at a place of the return list. -/
def dropEntry (i : Nat) (c : Chip) : Chip := { c with rp := { c.rp with returnList := c.rp.returnList.eraseIdx i } }

/-- A returning own frame (R12). Of two entries with its sequence and kind the one nearer the head leaves (the model's choice, log
entry 45). -/
def returnCheck (kind : FrameKind) (seq : Byte) (c : Chip) : Chip :=
  match c.rp.returnList.findIdx? fun e => e.seq == seq && e.kind == kind with
  | some i =>
    match c.rp.returnList[i]? with
    | some e =>
      let c1 := answerOut e (dropEntry i c)
      setErrors c1.rp.rxErr (c1.rp.txErr - 1) c1
    | none => c
  | none => c

/-- A return list entry's timeout has passed (R13). -/
def returnDue (c : Chip) (e : ReturnEntry) : Bool :=
  reached c.clock.ms (e.sentAt + BitVec.ofNat 32 c.ma.config.returnTimeout)

/-- The expiry of the entry with a sequence (R13): of two that are due, the one nearer the head (the model's choice, log entry
45). -/
def expireReturn (seq : Byte) (c : Chip) : Chip :=
  match c.rp.returnList.findIdx? fun e => e.seq == seq && returnDue c e with
  | some i =>
    match c.rp.returnList[i]? with
    | some e =>
      let c1 := answerOut e (dropEntry i c)
      setErrors c1.rp.rxErr (min (c1.rp.txErr + 8) 263) c1
    | none => c
  | none => c

/-! ## Header (R4 to R6) -/

/-- What becomes of a frame's forwarding at the end of its header. -/
inductive HeaderRoute where
  | none | cutThrough | buffer (kind : FrameKind) | overflow
deriving DecidableEq, Repr

/-- The forwarding decision (R4 to R6): own origin, own destination and bad headers are not forwarded, nor is anything
while ISOLATED. -/
def routeHeader (h : Header) (c : Chip) : HeaderRoute :=
  if c.rp.ring = .isolated ∨ ¬ headerGood h ∨ h.origin = c.pins.node ∨ h.dest = c.pins.node then .none
  else
    match frameKind? h.kind with
    | .none => .none
    | some k =>
      if k ≠ .actuate ∧ c.rp.forward = [] ∧ c.rp.tx = .none then .cutThrough
      else if c.rp.forward.length < 8 then .buffer k
      else .overflow

/-- The header as RP takes it (R2): an Ethernet frame whose payload is not a line frame counts as one of unknown kind. -/
def headerTaken : Option Header → Header
  | some h => h
  | none => { kind := 0, origin := 0, dest := 0, seq := 0, count := 0 }

/-- The end of a received header (R5, R6); a frame already in reception has no second header. -/
def takeHeader (h : Header) (c : Chip) : Chip :=
  match c.rp.rx with
  | some _ => c
  | none =>
    match routeHeader h c with
    | .none => { c with rp := { c.rp with rx := some { header := h, fwd := .notForwarded } } }
    | .cutThrough =>
      { c with rp := { c.rp with rx := some { header := h, fwd := .cutThrough },
                                 tx := some { header := h, body := none, badCheck := false } } }
    | .buffer k =>
      { c with rp := { c.rp with rx := some { header := h, fwd := .buffered },
                                 forward := c.rp.forward ++
                                   [{ frame := { kind := k, origin := h.origin, dest := h.dest, seq := h.seq, items := [] },
                                      receiving := true, unchecked := decide (k = .actuate) }] } }
    | .overflow =>
      { c with rp := { c.rp with rx := some { header := h, fwd := .overflowed },
                                 overflow := inc16 c.rp.overflow } }

/-! ## Reception completing (R3, R4) -/

/-- The items of a frame whose header, length and frame check are good (R3). -/
def goodItems (h : Header) (payload : List Byte) (checkGood : Bool) : Option (List Item) :=
  if headerGood h && checkGood then parseItems h.count.toNat payload else none

/-- The buffered frame that was being received is whole, or leaves the buffer if it was bad (R5, R7). -/
def endBuffered (items : Option (List Item)) (q : List ForwardEntry) : List ForwardEntry :=
  match items with
  | some l => q.map fun e => if e.receiving then { e with receiving := false, frame := { e.frame with items := l } } else e
  | none => q.filter fun e => !e.receiving

/-- The bytes of a line frame after its header: 7 for each item, the rest being padding (R207). -/
def bodyBytes (h : Header) (payload : List Byte) : List Byte := payload.take (7 * h.count.toNat)

/-- The end of the reception for the frame's forwarding (R5, R7). A cut-through copy ends with the bytes received,
unchanged, and for a bad frame with a wrong frame check; a bad frame leaves the buffer. -/
def endForwarding (fwd : RxForward) (body : List Byte) (items : Option (List Item)) (rp : Rp) : Rp :=
  match fwd with
  | .cutThrough => { rp with tx := rp.tx.map fun t => { t with body := some body, badCheck := items.isNone } }
  | .buffered => { rp with forward := endBuffered items rp.forward }
  | .overflowed => rp
  | .notForwarded => rp

/-- The epoch rule (R19). -/
def takeEpoch (items : List Item) (c : Chip) : Chip :=
  match items with
  | i :: _ =>
    { c with rp := { c.rp with epoch := i.value - BitVec.ofNat 32 (c.clock.line / 10), epochPresent := true } }
  | [] => c

/-- The disposition of a good frame (R4), as reception completes: a MGMT-REQ is discarded by the ring state of that moment
(the model's choice, log entry 39). -/
def dispose (h : Header) (items : List Item) (c : Chip) : Chip :=
  match frameKind? h.kind with
  | none => c
  | some k =>
    if h.origin = c.pins.node then returnCheck k h.seq c
    else if h.dest = c.pins.node then
      if k = .mgmtReq ∧ c.rp.ring ≠ .isolated then
        match readPart h.origin items with
        | some p => takePart p c
        | none => c
      else c
    else
      match k with
      | .sample => takeItems items c
      | .time => if h.dest = 255 then takeEpoch items c else c
      | _ => c

/-- The frame check of the frame in reception is known (R3): the count, its forwarding, its disposition. -/
def completeReception (payload : List Byte) (checkGood : Bool) (c : Chip) : Chip :=
  match c.rp.rx with
  | none => c
  | some r =>
    let items := goodItems r.header payload checkGood
    let c1 := { c with rp := endForwarding r.fwd (bodyBytes r.header payload) items { c.rp with rx := none } }
    match items with
    | none => setErrors (min (c1.rp.rxErr + 1) 255) c1.rp.txErr c1
    | some l => dispose r.header l (setErrors (c1.rp.rxErr - 1) c1.rp.txErr c1)

/-! ## AG's check of a held frame (R7) -/

/-- The held frame whose check is next: whole and unchecked. -/
def heldFrame (c : Chip) : Option Nat := c.rp.forward.findIdx? fun e => e.unchecked && !e.receiving

/-- Rebuild a checked frame from the items kept, or remove it (R7). -/
def rebuildFrame (i : Nat) (e : ForwardEntry) (kept : List Item) (q : List ForwardEntry) : List ForwardEntry :=
  if kept = [] then q.eraseIdx i
  else q.set i { e with unchecked := false, frame := { e.frame with items := kept } }

/-- AG rules on the next held frame, and RP rebuilds or removes it (R7, R183). -/
def checkHeldFrame (c : Chip) : Chip :=
  match heldFrame c with
  | some i =>
    match c.rp.forward[i]? with
    | some e =>
      match checkItems e.frame.items c with
      | (c1, kept) =>
        { c1 with rp := { c1.rp with forward := rebuildFrame i e kept c1.rp.forward } }
    | none => c
  | none => c

end Sys2Proof.Machine
end

