-- ==== Sys2Proof/Machine/Operands.lean ====
section
/-! DEFINITION. Operands of requests: words and fields (R207, log entry 10), positions of enumerated values, and the
entries of the nine tables as words (R22, R40, R57, R166, R185, R78, R96, R109, R198, R201, R204). -/

namespace Sys2Proof.Machine

/-! ## Words -/

def wNat (ws : List Word) (i : Nat) : Nat := (ws.getD i 0).toNat
def wInt (ws : List Word) (i : Nat) : Int := (ws.getD i 0).toInt
def wKey (ws : List Word) (i : Nat) : Key := BitVec.setWidth 16 (ws.getD i 0)

/-- An enumerated "on, off" field: on is position 1. -/
def wOn (ws : List Word) (i : Nat) : Bool := decide (wNat ws i = 1)

/-- A mark of 0 or 1. -/
def wMark (ws : List Word) (i : Nat) : Bool := decide (wNat ws i = 1)

def natW (n : Nat) : Word := BitVec.ofNat 32 n
def intW (n : Int) : Word := BitVec.ofInt 32 n
def keyW (k : Key) : Word := BitVec.setWidth 32 k
def onW (b : Bool) : Word := if b then 1 else 2
def markW (b : Bool) : Word := if b then 1 else 0

/-- An optional field: a present mark and the value, 0 while absent (R207). -/
def optW : Option Word → List Word
  | some w => [1, w]
  | none => [0, 0]

/-- An optional field of several values. -/
def optsW (n : Nat) : Option (List Word) → List Word
  | some ws => 1 :: ws
  | none => 0 :: List.replicate n 0

/-- A list: its length, then its members (R207). -/
def listW (members : List (List Word)) : List Word := natW members.length :: members.flatten

/-! ## Fields and their checks (R198, R207) -/

/-- What a word of an entry may be: any, an unsigned or signed range, a position in a list of `n`, or a mark. -/
inductive Field where
  | any | nat (lo hi : Nat) | int (lo hi : Int) | enum (n : Nat) | mark
deriving DecidableEq, Repr

/-- A position of 0 or beyond its list names nothing (R207). -/
def Field.formatOk (f : Field) (w : Word) : Bool :=
  match f with
  | .enum n => decide (1 ≤ w.toNat) && decide (w.toNat ≤ n)
  | _ => true

/-- A value inside its range. A mark word above 1 is out of range (the model's choice, log entry 42). -/
def Field.rangeOk (f : Field) (w : Word) : Bool :=
  match f with
  | .nat lo hi => decide (lo ≤ w.toNat) && decide (w.toNat ≤ hi)
  | .int lo hi => decide (lo ≤ w.toInt) && decide (w.toInt ≤ hi)
  | .mark => decide (w.toNat ≤ 1)
  | .any => true
  | .enum _ => true

def fieldsFormat (fs : List Field) (ws : List Word) : Bool := (fs.zip ws).all fun (f, w) => f.formatOk w
def fieldsRange (fs : List Field) (ws : List Word) : Bool := (fs.zip ws).all fun (f, w) => f.rangeOk w

/-- A 16-bit field. -/
def Field.half : Field := .nat 0 65535

/-- A temperature in 0.1 °C within its meaningful range. -/
def Field.temperature : Field := .int (-500) 1500

/-! ## Positions -/

/-- The member of a list at a position counted from 1. -/
def atPosition {α : Type} (l : List α) (d : α) (n : Nat) : α := l.getD (n - 1) d

/-- The position of a member, counted from 1. -/
def positionOf {α : Type} [BEq α] (l : List α) (x : α) : Word := natW (l.idxOf x + 1)

def Mode.list : List Mode := [.offline, .commission, .production]
def Freshness.list : List Freshness := [.fresh, .stale, .staleHeld]
def ChanMode.list : List ChanMode := [.off, .cut, .delay, .gate, .capture, .interval]
def Edge.list : List Edge := [.rising, .falling, .both]
def Policy.list : List Policy := [.ignore, .restart, .queue]
def FireCond.list : List FireCond := [.always, .bagNotAccepted]
def ChanState.list : List ChanState := [.stopped, .armed, .delaying, .opened, .running]
def Outcome4.list : List Outcome4 := [.notSent, .pending, .confirmed, .failed]
def Condition.list : List Condition := [.always, .poolLow, .noLot, .zoneStale, .traceBacklog, .palletFull, .lotHeld]
def GuardAction.list : List GuardAction := [.pass, .block, .clamp, .clampFreezer, .force]
def RingState.list : List RingState := [.active, .passive, .isolated]
def Stage.list : List Stage := [.blanch, .chill, .freeze, .surge]
def Disposition.list : List Disposition := [.pending, .divert, .diverting, .pass]
def Decision.list : List Decision := [.gathering, .accepted, .rejected]
def PalletState.list : List PalletState := [.building, .closed, .assigned, .inTransfer, .delivered, .faulted]
def Destination.list : List Destination := [.store, .quarantine]
def PlaceState.list : List PlaceState := [.archived, .free, .pending, .stored, .poisoned]
def ShuttleState.list : List ShuttleState := [.offline, .idle, .assigned, .loaded, .inAirlock, .fault]
def Verdict.list : List Verdict := [.block, .clamp, .clampFreezer, .force, .owned, .suppressed]

/-! ## Channel map (R22, R26): 13 words -/

/-- The bindings of ENCODER (R26). -/
def encoderBindings : List (Option Belt) := [some .blanch, some .chill, some .freeze, none]

/-- Role and binding of an entry from their two words. -/
def roleOf (role binding : Nat) : Option Role :=
  match role with
  | 1 => some (.zoneTemp binding) | 2 => some .chillTemp | 3 => some .exitTemp | 4 => some .dockTemp
  | 5 => some .infeedMass | 6 => some (.encoder (atPosition encoderBindings none binding)) | 7 => some .marker
  | 8 => some .bagMade | 9 => some .bagWeight | 10 => some .bagCode | 11 => some .bagMetal
  | 12 => some (.shuttleStatus binding) | 13 => some (.pointEcho binding) | _ => none

/-- The words of role and binding: both 0 before the first write. -/
def roleWords : Option Role → List Word
  | none => [0, 0]
  | some (.zoneTemp z) => [1, natW z]
  | some .chillTemp => [2, 0]
  | some .exitTemp => [3, 0]
  | some .dockTemp => [4, 0]
  | some .infeedMass => [5, 0]
  | some (.encoder b) => [6, positionOf encoderBindings b]
  | some .marker => [7, 0]
  | some .bagMade => [8, 0]
  | some .bagWeight => [9, 0]
  | some .bagCode => [10, 0]
  | some .bagMetal => [11, 0]
  | some (.shuttleStatus n) => [12, natW n]
  | some (.pointEcho n) => [13, natW n]

/-- The binding word a role allows (R26). Binding none is the word 0, any other being out of range (the model's choice, log
entry 10). -/
def bindingField (role : Nat) : Field :=
  match role with
  | 1 => .nat 0 5
  | 6 => .enum 4
  | 12 => .nat 0 3
  | 13 => .nat 0 7
  | _ => .nat 0 0

/-- The partner word of an entry whose partner mark is 0 is not examined (the model's choice, log entry 42). -/
def intakeFields (ws : List Word) : List Field :=
  [.enum 2, .half, .half, .enum 13, bindingField (wNat ws 3), .any, .int (-32768) 32767, .any, .any, .nat 1 600,
   .nat 1 3000, .mark, if wMark ws 11 then .nat 0 47 else .any]

def intakeOf (ws : List Word) : IntakeCfg :=
  { enabled := wOn ws 0, filter := wKey ws 1, mask := wKey ws 2, role := roleOf (wNat ws 3) (wNat ws 4),
    offset := wInt ws 5, gain := wInt ws 6, low := wInt ws 7, high := wInt ws 8, freshTimeout := wNat ws 9,
    staleTimeout := wNat ws 10, partner := if wMark ws 11 then some (wNat ws 12) else none }

def intakeWords (k : IntakeCfg) : List Word :=
  [onW k.enabled, keyW k.filter, keyW k.mask] ++ roleWords k.role ++
    [intW k.offset, intW k.gain, intW k.low, intW k.high, natW k.freshTimeout, natW k.staleTimeout] ++
    optW (k.partner.map natW)

/-! ## Track channels (R40): 18 words -/

/-- The source: its kind and an intake channel index. -/
def sourceOf (kind channel : Nat) : Source :=
  match kind with
  | 1 => .encoder channel
  | 2 => .milliseconds
  | _ => .unset

def sourceWords : Source → List Word
  | .unset => [0, 0]
  | .encoder e => [1, natW e]
  | .milliseconds => [2, 0]

/-- The start trigger: its kind, then MARKER's channel and edge, MASTER's channel, SEGMENT-DECISION's stage. -/
def triggerFrom (kind marker edge master stage : Nat) : Trigger :=
  match kind with
  | 2 => .marker marker (atPosition Edge.list .rising edge)
  | 3 => .master master
  | 4 => .segmentDecision (if stage = 2 then .freeze else .blanch)
  | 5 => .bagMade
  | _ => .command

def triggerWords : Trigger → List Word
  | .command => [1, 0, 0, 0, 0]
  | .marker m e => [2, natW m, positionOf Edge.list e, 0, 0]
  | .master n => [3, 0, 0, natW n, 0]
  | .segmentDecision b => [4, 0, 0, 0, if b = .freeze then 2 else 1]
  | .bagMade => [5, 0, 0, 0, 0]

/-- An output's point key is any 16-bit key, one of node part 0 or 255 too (the model's choice, log entry 41); the words of
an output whose mark is 0 are not examined (the model's choice, log entry 42). -/
def trackFields (ws : List Word) : List Field :=
  let out := wMark ws 13
  [.enum 6, .enum 2, if wNat ws 1 = 1 then .nat 0 47 else .any,
   if wNat ws 0 = 2 ∨ wNat ws 0 = 6 then .nat 1 65535 else .any,
   if wNat ws 0 = 3 ∨ wNat ws 0 = 4 then .nat 0 16777215 else .any,
   if wNat ws 0 = 4 then .nat 1 65535 else .any,
   .enum 5, if wNat ws 6 = 2 then .nat 0 47 else .any, if wNat ws 6 = 2 then .enum 3 else .any, .any,
   if wNat ws 6 = 4 then .enum 2 else .any, .enum 3, .enum 2, .mark,
   if out then .half else .any, .any, .any, if out then .nat 10 5000 else .any]

def trackOf (ws : List Word) : TrackCfg :=
  { mode := atPosition ChanMode.list .off (wNat ws 0), source := sourceOf (wNat ws 1) (wNat ws 2), length := wNat ws 3,
    delay := wNat ws 4, width := wNat ws 5,
    trigger := triggerFrom (wNat ws 6) (wNat ws 7) (wNat ws 8) (wNat ws 9) (wNat ws 10),
    policy := atPosition Policy.list .ignore (wNat ws 11), cond := atPosition FireCond.list .always (wNat ws 12),
    output := if wMark ws 13 then
        some { key := wKey ws 14, onValue := ws.getD 15 0, offValue := ws.getD 16 0, timeout := wNat ws 17 }
      else none }

def outputWords (o : Output) : List Word := [keyW o.key, o.onValue, o.offValue, natW o.timeout]

def trackWords (k : TrackCfg) : List Word :=
  [positionOf ChanMode.list k.mode] ++ sourceWords k.source ++ [natW k.length, natW k.delay, natW k.width] ++
    triggerWords k.trigger ++ [positionOf Policy.list k.policy, positionOf FireCond.list k.cond] ++
    optsW 4 (k.output.map outputWords)

/-! ## Stage geometry (R57): 13, 3 and 7 words -/

def blanchFields : List Field :=
  [.nat 0 47, .nat 1 4294967295, .nat 1 65535, .nat 0 7, .any, .nat 1 6, .any, .any, .any, .any, .any, .any, .nat 0 7]

def blanchOf (ws : List Word) : BlanchGeo :=
  { written := true, encoder := wNat ws 0, length := wNat ws 1, segLen := wNat ws 2, cutChannel := wNat ws 3,
    void := wNat ws 4, zones := wNat ws 5, zoneStarts := [wNat ws 6, wNat ws 7, wNat ws 8, wNat ws 9, wNat ws 10],
    decision := wNat ws 11, gate := wNat ws 12 }

def blanchWords (g : BlanchGeo) : List Word :=
  [natW g.encoder, natW g.length, natW g.segLen, natW g.cutChannel, natW g.void, natW g.zones] ++
    g.zoneStarts.map natW ++ [natW g.decision, natW g.gate]

def chillFields : List Field := [.nat 0 47, .nat 1 4294967295, .any]

def chillOf (ws : List Word) : ChillGeo :=
  { written := true, encoder := wNat ws 0, length := wNat ws 1, entry := wNat ws 2 }

def chillWords (g : ChillGeo) : List Word := [natW g.encoder, natW g.length, natW g.entry]

def freezeFields : List Field := [.nat 0 47, .nat 1 4294967295, .any, .any, .nat 0 7, .any, .any]

def freezeOf (ws : List Word) : FreezeGeo :=
  { written := true, encoder := wNat ws 0, length := wNat ws 1, entry := wNat ws 2, decision := wNat ws 3,
    gate := wNat ws 4, winStart := wNat ws 5, winEnd := wNat ws 6 }

def freezeWords (g : FreezeGeo) : List Word :=
  [natW g.encoder, natW g.length, natW g.entry, natW g.decision, natW g.gate, natW g.winStart, natW g.winEnd]

/-! ## Guard table (R185): 8 words -/

/-- A key filter or key mask above 65,535 is RANGE (the model's choice, log entry 29). -/
def guardFields : List Field := [.enum 2, .half, .half, .enum 7, .enum 5, .any, .any, .any]

def guardOf (ws : List Word) : Guard :=
  { enabled := wOn ws 0, filter := wKey ws 1, mask := wKey ws 2, cond := atPosition Condition.list .always (wNat ws 3),
    action := atPosition GuardAction.list .pass (wNat ws 4), low := ws.getD 5 0, high := ws.getD 6 0,
    force := ws.getD 7 0 }

def guardWords (g : Guard) : List Word :=
  [onW g.enabled, keyW g.filter, keyW g.mask, positionOf Condition.list g.cond, positionOf GuardAction.list g.action,
   g.low, g.high, g.force]

/-! ## Recipes (R78, R96, R109): 85 words -/

def recipeFields (ws : List Word) : List Field :=
  [.half, .mark, .int (-500) 1185] ++ List.replicate 64 (.nat 0 1048575) ++
    [.nat 1 65535, .nat (wNat ws 67) 65535, .nat 1 65535, .temperature, .half, .nat 1 65535, .temperature, .nat 1 65535,
     .half, .nat 0 (wNat ws 74), .half, .nat 0 7, .nat 800 1500, .nat 1 48, .nat 1 120, .nat 1 65535, .temperature,
     .temperature]

def recipeOf (ws : List Word) : Recipe :=
  { product := wNat ws 0, valid := wMark ws 1, tbase := wInt ws 2, table := ((ws.drop 3).take 64).map (·.toNat),
    target := wNat ws 67, maximum := wNat ws 68, chillWindow := wNat ws 69, chillLimit := wInt ws 70,
    warmAllowance := wNat ws 71, dwell := wNat ws 72, exitLimit := wInt ws 73, bagTarget := wNat ws 74,
    tare := wNat ws 75, under := wNat ws 76, overweight := wNat ws 77, needWeight := (ws.getD 78 0).getLsbD 0,
    needCode := (ws.getD 78 0).getLsbD 1, needMetal := (ws.getD 78 0).getLsbD 2, permille := wNat ws 79,
    bagsPerCase := wNat ws 80, casesPerPallet := wNat ws 81, budget := wNat ws 82, expReference := wInt ws 83,
    assumedDock := wInt ws 84 }

def recipeWords (r : Recipe) : List Word :=
  [natW r.product, markW r.valid, intW r.tbase] ++ r.table.map natW ++
    [natW r.target, natW r.maximum, natW r.chillWindow, intW r.chillLimit, natW r.warmAllowance, natW r.dwell,
     intW r.exitLimit, natW r.bagTarget, natW r.tare, natW r.under, natW r.overweight,
     natW (maskBit 0 r.needWeight + maskBit 1 r.needCode + maskBit 2 r.needMetal), natW r.permille, natW r.bagsPerCase,
     natW r.casesPerPallet, natW r.budget, intW r.expReference, intW r.assumedDock]

/-! ## Shuttle table (R166): 4 words -/

def shuttleFields : List Field := [.nat 256 65279, .nat 1 600, .nat 1 600, .nat 1 1800]

/-- A shuttle's table entry from its words; the record beside it stays. -/
def shuttleOf (s : Shuttle) (ws : List Word) : Shuttle :=
  { s with written := true, point := wKey ws 0, load := wNat ws 1, airlock := wNat ws 2, delivery := wNat ws 3 }

def shuttleWords (s : Shuttle) : List Word := [keyW s.point, natW s.load, natW s.airlock, natW s.delivery]

/-! ## Alert routes (R204): 2 words -/

def routeFields : List Field := [.nat 0 255, .mark]

def routeFrom (ws : List Word) : Route :=
  { dest := if wNat ws 0 = 0 then none else some (BitVec.ofNat 8 (wNat ws 0)), stop := wMark ws 1 }

def routeWords (r : Route) : List Word :=
  [match r.dest with | some d => natW d.toNat | none => 0, markW r.stop]

/-! ## Line configuration (R201): 12 words -/

/-- The words of a bagger pause point whose mark is 0 are not examined (the model's choice, log entry 42), and its key is any
16-bit key (the model's choice, log entry 41). -/
def lineFields (ws : List Word) : List Field :=
  let p := wMark ws 5
  [.nat 1 255, .nat 1 600, .nat 1 100, .nat 0 64, .nat 50 5000, .mark, if p then .nat 0 7 else .any,
   if p then .half else .any, .any, .any, if p then .nat 10 5000 else .any, .nat 1 255]

def lineOf (ws : List Word) : LineConfig :=
  { returnTimeout := wNat ws 0, recovery := wNat ws 1, split := wNat ws 2, reserve := wNat ws 3, bagDeadline := wNat ws 4,
    pausePoint := if wMark ws 5 then
        some { index := wNat ws 6, key := wKey ws 7, pause := ws.getD 8 0, resume := ws.getD 9 0, timeout := wNat ws 10 }
      else none,
    reportDest := BitVec.ofNat 8 (wNat ws 11) }

def pauseWords (p : PausePoint) : List Word := [natW p.index, keyW p.key, p.pause, p.resume, natW p.timeout]

def lineWords (k : LineConfig) : List Word :=
  [natW k.returnTimeout, natW k.recovery, natW k.split, natW k.reserve, natW k.bagDeadline] ++
    optsW 5 (k.pausePoint.map pauseWords) ++ [natW k.reportDest.toNat]

/-! ## Authority list (R198): 2 words -/

/-- The node word of an entry whose mark is 0 is not examined (the model's choice, log entry 42). -/
def authorityFields (ws : List Word) : List Field := [.mark, if wMark ws 0 then .nat 1 254 else .any]

def authorityOf (ws : List Word) : Option Byte := if wMark ws 0 then some (BitVec.ofNat 8 (wNat ws 1)) else none

def authorityWords (a : Option Byte) : List Word := optW (a.map fun n => natW n.toNat)

/-! ## The nine tables (R199) -/

inductive Table where
  | channelMap | tracks | geometry | guards | recipes | shuttles | routes | line | authority
deriving DecidableEq, Repr

def Table.list : List Table :=
  [.channelMap, .tracks, .geometry, .guards, .recipes, .shuttles, .routes, .line, .authority]

def Table.size : Table → Nat
  | .channelMap => 48 | .tracks => 8 | .geometry => 3 | .guards => 64 | .recipes => 16 | .shuttles => 4
  | .routes => 19 | .line => 1 | .authority => 4

/-- Words of entry `i`. -/
def Table.width : Table → Nat → Nat
  | .channelMap, _ => 13 | .tracks, _ => 18 | .guards, _ => 8 | .recipes, _ => 85 | .shuttles, _ => 4
  | .routes, _ => 2 | .line, _ => 12 | .authority, _ => 2
  | .geometry, 0 => 13 | .geometry, 1 => 3 | .geometry, 2 => 7 | .geometry, _ => 0

/-- The fields of entry `i`, from its words. -/
def Table.fields (t : Table) (i : Nat) (ws : List Word) : List Field :=
  match t with
  | .channelMap => intakeFields ws
  | .tracks => trackFields ws
  | .geometry => if i = 0 then blanchFields else if i = 1 then chillFields else freezeFields
  | .guards => guardFields
  | .recipes => recipeFields ws
  | .shuttles => shuttleFields
  | .routes => routeFields
  | .line => lineFields ws
  | .authority => authorityFields ws

/-- The table named by a word (R207). -/
def tableOf (w : Word) : Option Table := if w = 0 then none else Table.list[w.toNat - 1]?

/-- The words of entry `i` of a table (R199). -/
def entryWords (t : Table) (i : Nat) (c : Chip) : List Word :=
  match t with
  | .channelMap => intakeWords (intakeChan c i).cfg
  | .tracks => trackWords (trackChan c i).cfg
  | .geometry => if i = 0 then blanchWords c.st.blanch else if i = 1 then chillWords c.st.chill else freezeWords c.st.freeze
  | .guards => guardWords (c.ag.guards.getD i .power)
  | .recipes => recipeWords (c.lh.recipes.getD i .power)
  | .shuttles => shuttleWords (shuttleAt c i)
  | .routes => routeWords (c.ma.routes.getD i { dest := none, stop := false })
  | .line => lineWords c.ma.config
  | .authority => authorityWords (c.ma.authority.getD i none)

end Sys2Proof.Machine
end

