-- ==== Sys2Proof/Machine/Records.lean ====
section
/-! DEFINITION. Records and status figures as answer words (R200, R207, log entry 10). -/

namespace Sys2Proof.Machine

def optNat (o : Option Nat) : List Word := optW (o.map natW)
def optInt (o : Option Int) : List Word := optW (o.map intW)

/-- The word at a place of a list of bytes, most significant first. -/
def bytesWord (bs : List Byte) (k : Nat) : Word := BitVec.ofNat 32 (beNat ((bs.drop (4 * k)).take 4))

/-! ## READ-RECORD -/

/-- A segment (R60, R75), its dose also in reference-deciseconds (R92), with its position in its queue, from 0 at the
front. -/
def segmentWords (g : Segment) (st : Stage) (pos : Nat) : List Word :=
  [natW g.id, natW g.lot, positionOf Stage.list st] ++ optNat g.head ++ [natW g.nominal, natW g.remaining, natW g.cutTime] ++
    optNat g.blanchExit ++ optNat g.freezerEntry ++ optNat g.freezerExit ++ optNat g.zone ++ optNat g.zoneEntry ++
    optNat g.credited ++
    [natW g.dose, natW (g.dose / 4096),
     natW (maskBit 0 g.flags.gap + maskBit 1 g.flags.aboveTable + maskBit 2 g.flags.overblanch + maskBit 3 g.flags.massEst),
     natW g.warmChill] ++ optInt g.warmest ++ [positionOf Disposition.list g.disp, BitVec.setWidth 32 g.hold, natW pos]

/-- The stage and position of a live segment. -/
def findSegment (c : Chip) (id : Nat) : Option (Segment × Stage × Nat) :=
  Stage.list.findSome? fun st =>
    ((queueOf c.st st).zipIdx.find? fun (g, _) => g.id == id).map fun (g, i) => (g, st, i)

/-- An intake channel's dynamic state (R22). A timer is a present mark and its time (the model's choice, log entry 10). -/
def intakeRecord (d : IntakeDyn) : List Word :=
  optsW 4 (d.latest.map fun v =>
      [intW v.value, natW (maskBit 0 v.suspect + maskBit 1 v.clampLow + maskBit 2 v.clampHigh), natW v.line, v.ms]) ++
    [positionOf Freshness.list d.fresh] ++ optNat d.freshTimer ++ optNat d.staleTimer ++
    optW (d.ref.map fun r => BitVec.setWidth 32 r) ++ [natW d.accepted, natW d.bad, natW d.suspects, natW d.clamps]

/-- A served record: 1 a segment, 2 a bag, and its number (R40). -/
def servedWords : Served → List Word
  | .segment id => [1, natW id]
  | .bag seq => [2, natW seq]

/-- A capture: position, line time and millisecond time, each optional (R51). -/
def capturedWords (o : Option Captured) : List Word :=
  optW (o.map (·.point)) ++ optNat (o.map (·.line)) ++ optW (o.map (·.ms))

def levelW (o : Option Bool) : List Word := optW (o.map markW)

/-- A track channel's dynamic part (R40), with the number of pending starts. An empty pulse's outcome, before any pulse has
begun, is NOT-SENT (the model's choice, log entry 31). A served set is a list in order of joining (the model's choice,
log entry 10). -/
def trackRecord (k : TrackChan) : List Word :=
  let d := k.dyn
  let awaited : Word := match k.cfg.output with
    | some o => o.onValue
    | none => 0
  [positionOf ChanState.list d.state] ++
    listW (d.pend.map fun s => s.point :: optsW 2 (s.served.map servedWords)) ++ [d.onEnd] ++
    (match d.pulse with
     | some p => listW (p.served.map servedWords) ++ [positionOf Outcome4.list p.outcome]
     | none => listW [] ++ [positionOf Outcome4.list .notSent]) ++
    listW (d.awaiting.map fun p => listW (p.served.map servedWords) ++ [awaited]) ++
    [natW d.remainder, d.nextFire] ++ levelW d.lastLevel ++ levelW d.filtered ++ capturedWords d.capture.last ++
    capturedWords d.capture.prev ++ optNat d.capture.counts ++ optW d.capture.interval ++
    [markW d.capture.overflow, markW d.capture.span, natW d.fires, natW d.refused, natW d.skipped]

def SlotState.position : SlotState → Word
  | .gathering => 2 | .palletWait => 3 | .decided => 4

/-- OK or PASS is position 1, FAIL position 2 (R133). -/
def resultW (o : Option Bool) : List Word := optW (o.map fun f => if f then 2 else 1)

/-- A slot (R127, R146): a FREE one with its state alone; its reject reasons in the bit order of the trace record (R207; the
model's choice between R135 and R207, log entry 10). -/
def slotWords : Option Slot → List Word
  | none => [1]
  | some s =>
    [s.state.position, natW s.seq, natW s.lot, natW s.madeLine, s.madeMs, s.deadline] ++ optNat s.weight ++
      resultW s.codeFail ++ resultW s.metalFail ++ [BitVec.setWidth 32 s.conflict] ++
      listW (s.draws.map fun d => [natW d.segment, natW d.grams]) ++
      [BitVec.setWidth 32 s.hold, positionOf Decision.list s.decision, BitVec.setWidth 32 s.reasons] ++ optNat s.pallet

/-- The read results in the order of R155. -/
def ReadResult.position : ReadResult → Word
  | .good => 1 | .corrected => 2 | .uncorrectable => 3

/-- A read place (R149, R155, R159): state, index fields where present, the record as 16 words, the read result. -/
def placeWords (e : Place) (mark : Bool) (record : List Byte) (result : ReadResult) : List Word :=
  positionOf PlaceState.list e.state ::
    (match e.fields with
     | some f => [natW f.seq, natW f.lot] ++ optNat f.pallet ++
         [if f.rejected then (2 : Word) else 1, BitVec.setWidth 32 f.hold, markW mark, markW f.freeAtCompletion]
     | none => []) ++
    (List.range 16).map (bytesWord record) ++
    [result.position]

/-- TD's report states in the order of R162. -/
def ReportState.ofPallet : ReportState → Word
  | .none => 1 | .queued => 2 | .waiting => 3

/-- LH's report states in the order of R111. -/
def ReportState.ofLot : ReportState → Word
  | .none => 1 | .waiting => 2 | .queued => 3

/-- A signed value as a word; one that no signed 32-bit word holds is a free value (log entry 13). -/
def signedWord (v : Int) (c : Chip) : Chip × Word :=
  if -2147483648 ≤ v ∧ v ≤ 2147483647 then (c, intW v) else takeFree c

/-- A pallet (R140, R162, R178), with its remaining budget. -/
def palletWords (p : Pallet) (remaining : Word) : List Word :=
  [natW p.id, natW p.lot, positionOf PalletState.list p.state, markW p.short, natW p.bags, natW p.cases] ++
    optNat p.firstPlace ++ optNat p.lastPlace ++ [BitVec.setWidth 32 p.hold] ++ optNat p.closeTime ++
    [natW p.exposure] ++ optW (p.dest.map (positionOf Destination.list)) ++ optNat p.shuttle ++
    [markW p.reportPending, natW p.expTime, intW p.expTemp, markW p.exhausted] ++
    optW (p.delDest.map (positionOf Destination.list)) ++ optNat p.delTime ++
    [p.report.ofPallet, natW p.revision, remaining]

def LotState.position : LotState → Word
  | .opened => 2 | .draining => 3 | .finished => 4

/-- A lot (R111, R124). The word for the drain point, which R111's list of fields does not hold, is the last (the model's
choice, log entry 10). -/
def lotWords (l : Lot) : List Word :=
  [l.number, natW l.recipe, l.state.position, natW l.openTime] ++ optNat l.closeTime ++ optNat l.finishTime ++
    [BitVec.setWidth 32 (if l.manual then HoldReason.manual.only else 0)] ++
    [natW l.counts.segmentsCut, natW l.counts.massCut, natW l.counts.massDiverted, natW l.counts.untrackedMass,
     natW l.counts.tailMass, natW l.counts.overblanch, natW l.counts.bagsAccepted, natW l.counts.bagsRejected,
     natW l.counts.palletsClosed, natW l.counts.palletsDelivered] ++ optNat l.building ++
    [natW l.live, natW l.openBags, natW l.unwritten, natW l.inFlight, l.report.ofLot, markW l.drained]

/-- A shuttle: its record, then its table entry (R166, R178). -/
def shuttleRecord (s : Shuttle) : List Word :=
  [positionOf ShuttleState.list s.state, markW s.enabled] ++ optNat s.pallet ++ optNat s.deadline ++
    [natW s.late, natW s.mismatch, natW s.faults, markW s.written] ++ shuttleWords s

/-- A trap record (R188); its entry is a guard index, OWNED or OWN-SUPPRESSED, sent as a kind 1 to 3 and an index (the
model's choice, log entry 10). -/
def trapWords (t : Trap) : List Word :=
  [natW t.line, keyW t.key, t.received, positionOf Verdict.list t.verdict] ++ optW t.applied ++
    (match t.entry with | .guard i => [1, natW i] | .owned => [2, 0] | .ownSuppressed => [3, 0]) ++
    [positionOf Mode.list t.mode]

/-- A shadow entry (R189). -/
def shadowWords (e : Shadow) : List Word :=
  [keyW e.key, e.received, natW e.receivedAt] ++ optsW 2 (e.forwarded.map fun (v, t) => [v, natW t])

/-! ## READ-STATUS -/

/-- RP (R14). -/
def statusRp (c : Chip) : List Word :=
  [positionOf RingState.list c.rp.ring, natW c.rp.rxErr, natW c.rp.txErr, natW c.rp.overflow, natW c.rp.txQueue.length,
   natW c.rp.returnList.length]

def zoneWords (z : Zone) : List Word := optInt z.temp ++ [positionOf Freshness.list z.state]

/-- SI (R22): the six zones, the temperature and then the state of each, zone by zone (the model's choice, log entry 10). -/
def statusSi (c : Chip) : List Word := c.si.zones.flatMap zoneWords

/-- TC (R200): each channel's state and number of pending starts, then each owned point in use. -/
def statusTc (c : Chip) : List Word :=
  (c.tc.chans.flatMap fun k => [positionOf ChanState.list k.dyn.state, natW k.dyn.pend.length]) ++
    listW ((List.range 8).filterMap fun n =>
      (ownedPoint c n).map fun (key, v) => [keyW key, v, markW (c.tc.unsent.getD n false)])

/-- ST (R75). -/
def statusSt (c : Chip) : List Word :=
  Stage.list.map (fun st => natW (queueOf c.st st).length) ++
    [natW (freeRecords c.st), markW (poolLow c), BitVec.setWidth 32 c.st.gapSet, natW c.st.stray, natW c.st.lastNominal,
     markW c.st.totalRef.isSome, markW (geometryValid c.st)]

/-- DE (R80): each zone's crediting record, beside SI's zone temperature and state, zone by zone (the model's choice, log entry
10). -/
def statusDe (c : Chip) : List Word :=
  (c.de.zones.zip c.si.zones).flatMap fun (d, z) =>
    [positionOf Freshness.list d.state] ++ optNat d.creditTime ++ optInt d.lastTemp ++
      [natW d.credits, natW d.skipped, natW d.gaps, natW d.staleZones] ++ zoneWords z

/-- FV (R97), then the freezer speed limit (R107); the place of the limit and the order of the window set, that of entry, are
the model's choices (log entry 10). -/
def statusFv (c : Chip) : List Word :=
  [positionOf Freshness.list c.fv.chillState] ++ optsW 2 (c.fv.prevChill.map fun (v, t) => [intW v, natW t]) ++
    [positionOf Freshness.list c.fv.exitState] ++ listW (c.fv.window.map fun id => [natW id]) ++
    [natW c.fv.lateChill, natW c.fv.warmChill, natW c.fv.underDwell, natW c.fv.noExit, natW c.fv.warmExit,
     natW c.fv.unapplied] ++ optNat (freezerLimit c)

/-- State of a lot entry: FREE is position 1. -/
def lotStateW : Option Lot → Word
  | none => 1
  | some l => l.state.position

/-- LH (R124). -/
def statusLh (c : Chip) : List Word :=
  optNat (openLot? c) ++ c.lh.lots.map lotStateW ++
    [natW (c.lh.lots.filter (·.isNone)).length, natW (waitingLots c).length]

def slotStateW : Option Slot → Word
  | none => 1
  | some s => s.state.position

/-- BA (R146). -/
def statusBa (c : Chip) : List Word :=
  c.ba.slots.map slotStateW ++ [markW (palletFull c), natW (24 - c.ba.pallets.length)] ++
    (c.lh.lots.flatMap fun l => optNat (l.bind (·.building))) ++ optNat c.ba.lastOverrun ++
    [natW c.ba.overruns, natW c.ba.lostRecords, natW c.ba.lotless, natW c.ba.orphans, natW c.ba.strayGate] ++
    listW (c.ba.decisions.map fun e => [natW e.seq, positionOf Decision.list e.decision])

/-- TM (R159). -/
def statusTm (c : Chip) : List Word :=
  [natW c.tm.pointer, natW c.tm.writeQueue.length, markW (traceBacklog c)] ++
    PlaceState.list.map (fun st => natW (c.tm.places.filter fun e => e.state == st).length) ++
    [natW c.tm.verifyFail, natW c.tm.corrected, natW c.tm.uncorrectable]

/-- TD (R178): the dock temperature in effect while the channel is FRESH, and the channel's state, which is sent in every case
and names STALE-HELD as such (the model's choice, log entry 10). -/
def statusTd (c : Chip) : List Word :=
  let dock : Option Int × Freshness := match findRole c .dockTemp with
    | some k => (if k.dyn.fresh = .fresh then k.dyn.latest.map (·.value) else none, k.dyn.fresh)
    | none => (none, .stale)
  c.td.shuttles.map (fun s => positionOf ShuttleState.list s.state) ++
    [natW c.td.dock.length, natW (waitingDeliveries c).length, natW c.td.lost] ++ optInt dock.1 ++
    [positionOf Freshness.list dock.2]

/-- AG (R194). -/
def statusAg (c : Chip) : List Word :=
  [positionOf Mode.list c.ag.mode, natW c.ag.trapCount, natW c.ag.traps.length, natW c.ag.shadows.length,
   natW c.ag.unshadowed, natW c.ag.confirms.length, natW c.ag.confOverflow] ++ c.ag.faults.map natW ++
    Condition.list.map fun k => markW (conditionHolds c k)

/-- A pending kind: number, count, subject, subject type, line time, unsent mark, in the order of R203. -/
def pendingWords (k : AlertKind) (a : PendingAlert) : List Word :=
  [natW (k.index + 1), natW a.count, a.subject, natW a.subjectType.number, natW a.line, markW a.unsent]

/-- MA (R203). -/
def statusMa (c : Chip) : List Word :=
  listW (AlertKind.all.filterMap fun k => (pendingAlert c k).map (pendingWords k)) ++
    [markW c.pins.stopN, natW c.ma.queue.length]

/-- READ-STATUS of a block at a position of the block table (R200, R207); none for no block. -/
def statusOf (block : Nat) (c : Chip) : Option (List Word) :=
  match block with
  | 1 => some (statusRp c) | 2 => some (statusSi c) | 3 => some (statusTc c) | 4 => some (statusSt c)
  | 5 => some (statusDe c) | 6 => some (statusFv c) | 7 => some (statusLh c) | 8 => some (statusBa c)
  | 9 => some (statusTm c) | 10 => some (statusTd c) | 11 => some (statusAg c) | 12 => some (statusMa c)
  | _ => none

/-! ## LIST -/

/-- Two 16-bit ids to a word, the first in the upper half. -/
def packIds : List Nat → List Word
  | [] => []
  | [a] => [natW (a * 65536)]
  | a :: b :: rest => natW (a * 65536 + b) :: packIds rest

/-- The ids of a queue at a position of LIST (R200); none for no queue. -/
def idsOf (queue : Nat) (c : Chip) : Option (List Nat) :=
  match queue with
  | 1 => some (c.st.qBlanch.map (·.id)) | 2 => some (c.st.qChill.map (·.id)) | 3 => some (c.st.qFreeze.map (·.id))
  | 4 => some (c.st.qSurge.map (·.id)) | 5 => some c.td.dock | _ => none

/-- The answer of LIST: the length, then the packed ids. -/
def listWords (ids : List Nat) : List Word := natW ids.length :: packIds ids

end Sys2Proof.Machine
end

