-- ==== Sys2Proof/Machine/Spi.lean ====
section
/-! DEFINITION. The SPI master: grants (R152, R161), place writes (R153), rewrites (R154), reads (R155). -/

namespace Sys2Proof.Machine

/-- MA answers a place read that has ended (R155, R197). -/
def answerRead (ws : List Word) (c : Chip) : Chip :=
  match c.ma.phase, c.ma.queue with
  | .reading, req :: _ => endRequest req .ok ws c
  | _, _ => c

/-- The record of a PENDING place as it stands in the write queue (R155). -/
def queuedRecord (p : Nat) (c : Chip) : Option BagRecord := (c.tm.writeQueue.find? fun q => q.place == p).map (·.record)

/-- The answer of a read of a PENDING place. -/
def pendingWordsOf (p : Nat) (c : Chip) : Option (List Word) :=
  if (placeAt c p).state = .pending then
    (queuedRecord p c).map fun r => placeWords (placeAt c p) (c.tm.marks.contains p) r.bytes .good
  else none

/-- A waiting read is granted (R152, R155): a PENDING place is answered from the write queue, with no operation. -/
def grantRead (p : Nat) (c : Chip) : Chip :=
  let c1 := { c with tm := { c.tm with readWaiting := none } }
  match pendingWordsOf p c with
  | some ws => answerRead ws c1
  | none => setSpi (some (.read p (placeAt c p))) true c1

/-- The grant during the completion of a warm restart (R161): writes, then rewrites, then the held record, which is
placed at the write pointer. -/
def grantRestart (w : RestartWork) (c : Chip) : Chip :=
  match w.writes, w.rewrites, w.held with
  | q :: _, _, _ => setSpi (some (.write q.place q.record)) false c
  | [], (p, h) :: rest, _ =>
    setSpi (some (.rewrite p h)) false { c with tm := { c.tm with restart := some { w with rewrites := rest } } }
  | [], [], some r =>
    let p := c.tm.pointer
    setSpi (some (.write p r)) false
      { c with tm := { c.tm with pointer := (p + 1) % 1024,
                                 restart := some { w with writes := [{ place := p, record := r }], held := none } } }
  | [], [], none => c

/-- Grant the SPI master if it is free (R152). -/
def spiGrant (c : Chip) : Chip :=
  match c.tm.spi with
  | some _ => c
  | none =>
    match c.tm.restart with
    | some w => grantRestart w c
    | none =>
      match c.tm.readWaiting with
      | some p =>
        if c.tm.lastWasRead = false then
          let c1 := grantRead p c
          if c1.tm.spi.isSome then c1 else grantWork c1
        else
          let c1 := grantWork c
          if c1.tm.spi.isSome then c1 else grantRead p c1
      | none => grantWork c

/-- The grants at the end of an event (R8, R152): to what the event's completion has made ready or set free (log entry 7). -/
def settle (c : Chip) : Chip := txGrant (spiGrant (txGrant c))

/-! ## Completions -/

def countVerifyFail (c : Chip) : Chip := { c with tm := { c.tm with verifyFail := inc16 c.tm.verifyFail } }

def traceFault (p : Nat) (c : Chip) : Chip := raiseNat .traceFault .place p c

/-- A write or rewrite of a place did not verify, or its read was uncorrectable (R153, R154). -/
def failPlace (p : Nat) (c : Chip) : Chip := traceFault p (poisonPlace p (countVerifyFail c))

/-- A place write has completed (R153): `same` says that the read-back equals what was sent. -/
def finishWrite (same : Bool) (p : Nat) (r : BagRecord) (c : Chip) : Chip :=
  let c0 := { c with tm := { c.tm with spi := none } }
  match c.tm.restart with
  | some w =>
    let c1 := { c0 with tm := { c0.tm with restart := some { w with writes := w.writes.tail } } }
    if same then c1 else traceFault p (countVerifyFail c1)
  | none =>
    let c1 := if same then modPlace p (fun e => { e with state := .stored }) c0 else failPlace p c0
    let c2 := reportLot r.lot .recordWritten c1
    let c3 := { c2 with tm := { c2.tm with writeQueue := c2.tm.writeQueue.eraseP fun q => q.place == p } }
    let free := match (placeAt c3 p).fields with
      | some f => f.freeAtCompletion
      | none => false
    checkHolding (if free then freePlace p c3 else c3)

/-- A rewrite has completed (R154): a place that is no longer STORED keeps its state and takes no TRACE-FAULT. -/
def finishRewrite (good : Bool) (p : Nat) (c : Chip) : Chip :=
  let c0 := { c with tm := { c.tm with spi := none } }
  if good then c0
  else if c.tm.restart.isSome then traceFault p (countVerifyFail c0)
  else if (placeAt c p).state = .stored then failPlace p c0
  else countVerifyFail c0

/-- A read has completed (R155); whether its place is poisoned goes by the place's state now (the model's choice, log entry
34). -/
def finishRead (result : ReadResult) (record : List Byte) (p : Nat) (e : Place) (c : Chip) : Chip :=
  let ws := placeWords e (c.tm.marks.contains p) record result
  let c0 := { c with tm := { c.tm with spi := none } }
  match result with
  | .good => answerRead ws c0
  | .corrected => answerRead ws { c0 with tm := { c0.tm with corrected := inc16 c0.tm.corrected } }
  | .uncorrectable =>
    let c1 := { c0 with tm := { c0.tm with uncorrectable := inc16 c0.tm.uncorrectable } }
    let c2 := if (placeAt c1 p).state = .stored then poisonPlace p c1 else c1
    answerRead ws (traceFault p c2)

/-! ## The memory's side of the completions (log entry 6) -/

/-- The 72 bytes of a place: its record, then its check codes. -/
def placeImage (m : Memory) (p : Nat) : List Byte := placeBytes m p ++ placeCodes m p

/-- A record's 72 bytes as sent: the record and its check codes (R153). -/
def sentImage (bs : List Byte) : List Byte := bs ++ recordCodes bs

/-- A place write: what the memory then holds, and whether its read-back equals what was sent. -/
def writeMemory (p : Nat) (bs storeErr readErr : List Byte) (m : Memory) : Memory × Bool :=
  let m1 := storePlace p (xorMask (sentImage bs) storeErr) m
  (m1, decide (xorMask (placeImage m1 p) readErr = sentImage bs))

/-- A read of a place: its result and record. -/
def readMemory (p : Nat) (readErr : List Byte) (m : Memory) : ReadResult × List Byte :=
  let image := xorMask (placeImage m p) readErr
  readRecord (image.take 64) (image.drop 64)

/-- A rewrite: read, correct, put the hold set in, write back and verify; an uncorrectable read writes nothing. -/
def rewriteMemory (p : Nat) (h : HoldSet) (readErr storeErr verifyErr : List Byte) (m : Memory) : Memory × Bool :=
  match readMemory p readErr m with
  | (.uncorrectable, _) => (m, false)
  | (_, bs) => writeMemory p (withHoldBytes h bs) storeErr verifyErr m

end Sys2Proof.Machine
end

