-- ==== Sys2Proof/Machine/Tables.lean ====
section
/-! DEFINITION. Writes of the nine tables (R199): the checks as the table would stand after the write, and the effects. -/

namespace Sys2Proof.Machine

/-! ## Entries of a write -/

/-- Cut `n` entries from index `i` out of the argument words. -/
def cutEntries (t : Table) : Nat → Nat → List Word → List (Nat × List Word)
  | 0, _, _ => []
  | n + 1, i, ws => (i, ws.take (t.width i)) :: cutEntries t n (i + 1) (ws.drop (t.width i))

/-- Words that `n` entries from index `i` take; those of the stage geometry differ. -/
def entriesWidth (t : Table) : Nat → Nat → Nat
  | 0, _ => 0
  | n + 1, i => t.width i + entriesWidth t n (i + 1)

/-- A first index or a count reaches beyond the table (R199). -/
def beyondTable (t : Table) (first count : Nat) : Bool := decide (t.size ≤ first) || decide (t.size < first + count)

/-- The words of a write suit its table (R198): their number, and every enumerated field. The entries of a table have one
width, beyond its end too; but for the geometry, whose three entries differ: there no width is known beyond the end, and
the index answers (log entry 10). -/
def entriesFormat (t : Table) (first count : Nat) (ws : List Word) : Bool :=
  if t = .geometry ∧ beyondTable t first count then true
  else
    decide (ws.length = if t = .geometry then entriesWidth t count first else count * t.width first) &&
      (cutEntries t count first ws).all fun (i, e) => fieldsFormat (t.fields i e) e

/-- Every field of every named entry lies in its range. -/
def entriesRange (t : Table) (es : List (Nat × List Word)) : Bool := es.all fun (i, e) => fieldsRange (t.fields i e) e

/-- Put the named entries into a list. -/
def putEntries {α : Type} (f : α → List Word → α) (es : List (Nat × List Word)) (l : List α) : List α :=
  es.foldl (fun acc (i, ws) => acc.modify i fun x => f x ws) l

/-- Every pair of members, each with its index, satisfies a test. -/
def allPairs {α : Type} (l : List α) (t : Nat → α → Nat → α → Bool) : Bool :=
  l.zipIdx.all fun (x, i) => l.zipIdx.all fun (y, j) => t i x j y

/-! ## Channel map (R23, R33) -/

/-- Clamp limits of a temperature role (R23). -/
def clampsOk (k : IntakeCfg) : Bool :=
  match k.role with
  | some r =>
    !r.isTemperature ||
      (decide (-500 ≤ k.low) && decide (k.low ≤ k.high) && decide (k.high ≤ 1500))
  | none => true

/-- The pair partner of entry `i` (R23). -/
def partnerOk (map : List IntakeCfg) (i : Nat) (k : IntakeCfg) : Bool :=
  match k.partner with
  | none => true
  | some p =>
    match k.role, map[p]? with
    | some (.zoneTemp z), some q => decide (p ≠ i) && q.role == some (.zoneTemp z) && q.partner == some i
    | _, _ => false

/-- Two enabled entries may stand together (R23). -/
def togetherOk (i : Nat) (a : IntakeCfg) (j : Nat) (b : IntakeCfg) : Bool :=
  if i ≠ j ∧ a.enabled ∧ b.enabled ∧ a.role = b.role then
    match a.role with
    | some .marker | some (.encoder none) => true
    | some (.zoneTemp _) => a.partner == some j && b.partner == some i
    | _ => false
  else true

/-- The channel map as it would stand (R23); entries never written have no role and take no part. -/
def mapValid (map : List IntakeCfg) : Bool :=
  map.all clampsOk && (map.zipIdx.all fun (k, i) => partnerOk map i k) && allPairs map togetherOk

/-- The consumer that an entry's role names is told of its write (R33), whether the entry is on or off. FV's input states
are copies of the enabled entry's freshness (R97), so an entry that is off does not reach FV while another serves; TD is
told, and takes the temperature in effect (R164; log entry 19). -/
def toldOfWrite (k : IntakeCfg) (c : Chip) : Bool :=
  match k.role with
  | some .chillTemp => k.enabled || (findRole c .chillTemp).isNone
  | some .exitTemp => k.enabled || (findRole c .exitTemp).isNone
  | _ => true

/-- Tell the consumer of an entry's role that its channel is STALE (R33). -/
def tellWritten (i : Nat) (k : IntakeCfg) (c : Chip) : Chip :=
  if toldOfWrite k c then tellFreshness i k.role .stale c else c

/-- Re-evaluate the zone of a role (R33). -/
def rederiveRole (r : Option Role) (c : Chip) : Chip :=
  match r with
  | some (.zoneTemp z) => rederiveZone z c
  | _ => c

/-- The consumers before and after the write of one entry are told, and its zones are re-evaluated (R33). -/
def afterMapWrite (before : List IntakeChan) (i : Nat) (c : Chip) : Chip :=
  let old := (before.getD i .power).cfg
  let new := (intakeChan c i).cfg
  rederiveRole new.role (rederiveRole old.role (tellWritten i new (tellWritten i old c)))

/-- DE's zone records after a write of the entries `written` (R81, R93): those of the zones that one of the entries served
before or serves after. -/
def doseZonesAfter (written : List Nat) (before after : List IntakeChan) (zones : List DoseZone) : List DoseZone :=
  zones.mapIdx fun z d =>
    if written.any fun i => servesZone z (before.getD i .power).cfg || servesZone z (after.getD i .power).cfg then
      zoneWritten (decide ((servingZone after z).state = .fresh)) d
    else d

/-- A write of the channel map (R23, R33, R93): every written entry starts afresh, then each one's consumers are told. -/
def writeMap (es : List (Nat × List Word)) (c : Chip) : Chip × Status :=
  let chans := putEntries (fun (_ : IntakeChan) ws => { cfg := intakeOf ws, dyn := .clear }) es c.si.chans
  if entriesRange .channelMap es && mapValid (chans.map (·.cfg)) then
    (es.foldl (fun acc (i, _) => afterMapWrite c.si.chans i acc) { c with
      si := { c.si with chans := chans }
      de := { zones := doseZonesAfter (es.map (·.1)) c.si.chans chans c.de.zones } }, .ok)
  else (c, .range)

/-! ## Track channels (R41, R52) -/

/-- Mode, source and trigger of a record agree (R41). -/
def trackKindsOk (k : TrackCfg) : Bool :=
  let sourceOk := match k.mode, k.source with
    | .cut, .milliseconds | .capture, .milliseconds => false
    | .interval, .encoder _ => false
    | _, _ => true
  let triggerOk := match k.mode, k.trigger with
    | .cut, .command | .interval, .command => true
    | .cut, _ | .interval, _ => false
    | .capture, .marker _ _ => true
    | .capture, _ => false
    | _, _ => true
  let condOk := k.cond == .always || (k.mode == .gate && k.trigger == .bagMade)
  let outputOk := k.output.isNone || k.mode == .delay || k.mode == .gate
  sourceOk && triggerOk && condOk && outputOk

/-- A MASTER trigger names a lower channel that is not OFF and has the same source (R41). -/
def masterOk (table : List TrackCfg) (n : Nat) (k : TrackCfg) : Bool :=
  match k.trigger with
  | .master m =>
    match table[m]? with
    | some q => decide (m < n) && q.mode != .off && q.source == k.source
    | none => false
  | _ => true

/-- Output key of a record. -/
def outputKey (k : TrackCfg) : Option Key := k.output.map (·.key)

/-- No two outputs have the same key (R41). -/
def outputsDiffer (n : Nat) (a : TrackCfg) (m : Nat) (b : TrackCfg) : Bool :=
  decide (n = m) || (outputKey a).isNone || outputKey a != outputKey b

/-- A key is the command point of a written shuttle entry. -/
def commandPoint (c : Chip) (key : Key) : Bool := c.td.shuttles.any fun s => s.written && s.point == key

/-- An output stands against the shuttle table and the bagger pause point (R41). -/
def outputOk (c : Chip) (n : Nat) (k : TrackCfg) : Bool :=
  match k.output with
  | none => true
  | some o =>
    !commandPoint c o.key && (match c.ma.config.pausePoint with | some p => decide (p.index ≠ n) | none => true)

/-- The track channel table as it would stand (R41). -/
def tracksValid (c : Chip) (table : List TrackCfg) : Bool :=
  table.all trackKindsOk && (table.zipIdx.all fun (k, n) => masterOk table n k && outputOk c n k) &&
    allPairs table outputsDiffer

/-- An owned point that comes into use, or changes its key, has its unsent mark clear (R52). -/
def refreshUnsent (before : Chip) (c : Chip) : Chip :=
  (List.range 8).foldl (fun acc n =>
    if (ownedPoint before n).map (·.1) = (ownedPoint acc n).map (·.1) then acc else setUnsent n false acc) c

/-- A write of the track table (R41). The written records stop in entry order (the model's choice, log entry 8). -/
def writeTracks (es : List (Nat × List Word)) (c : Chip) : Chip × Status :=
  let put := putEntries (fun (_ : TrackChan) ws => { cfg := trackOf ws, dyn := .clear }) es
  if entriesRange .tracks es && tracksValid c ((put c.tc.chans).map (·.cfg)) then
    let c1 := es.foldl (fun acc (n, _) => stopChannel n acc) c
    (refreshUnsent c { c1 with tc := { c1.tc with chans := put c1.tc.chans } }, .ok)
  else (c, .range)

/-! ## Stage geometry (R58) -/

/-- The zone starts in use rise strictly. -/
def rising : List Nat → Bool
  | [] => true
  | [_] => true
  | a :: b :: rest => decide (a < b) && rising (b :: rest)

/-- BLANCH's own checks (R58), with the CUT channel as the track table stands. -/
def blanchOk (c : Chip) (g : BlanchGeo) : Bool :=
  let starts := 0 :: g.zoneStarts.take (g.zones - 1)
  let cut := (trackChan c g.cutChannel).cfg
  rising starts && (decide (g.zones = 1) || decide (g.segLen < g.zoneStarts.getD 0 0)) &&
    decide (starts.getLastD 0 < g.decision) && decide (g.segLen < g.decision) && decide (g.decision < g.length) &&
    cut.mode == .cut && decide (cut.length = g.segLen)

def chillOk (g : ChillGeo) : Bool := decide (g.entry < g.length)

def freezeOk (g : FreezeGeo) : Bool :=
  decide (g.entry < g.winStart) && decide (g.winStart ≤ g.winEnd) && decide (g.winEnd ≤ g.decision) &&
    decide (g.decision < g.length)

/-- The geometry as it would stand (R58): the checks of every entry with its written mark. -/
def geometryOk (c : Chip) (s : St) : Bool :=
  let encoders := (if s.blanch.written then [s.blanch.encoder] else []) ++ (if s.chill.written then [s.chill.encoder] else [])
    ++ (if s.freeze.written then [s.freeze.encoder] else [])
  decide encoders.Nodup && (!s.blanch.written || blanchOk c s.blanch) && (!s.chill.written || chillOk s.chill) &&
    (!s.freeze.written || freezeOk s.freeze)

/-- Put one geometry entry. -/
def putGeometry (i : Nat) (ws : List Word) (s : St) : St :=
  if i = 0 then { s with blanch := blanchOf ws }
  else if i = 1 then { s with chill := chillOf ws }
  else { s with freeze := freezeOf ws }

def writeGeometry (es : List (Nat × List Word)) (c : Chip) : Chip × Status :=
  let s := es.foldl (fun acc (i, ws) => putGeometry i ws acc) c.st
  if entriesRange .geometry es && geometryOk c s then
    if (liveSegments c.st).isEmpty then ({ c with st := s }, .ok) else (c, .notReady)
  else (c, .range)

/-! ## Guard table (R185) -/

def guardOk (g : Guard) : Bool := g.action != .clamp || decide (g.low.toInt ≤ g.high.toInt)

def writeGuards (es : List (Nat × List Word)) (c : Chip) : Chip × Status :=
  if entriesRange .guards es && es.all fun (_, ws) => guardOk (guardOf ws) then
    ({ c with ag := { c.ag with guards := putEntries (fun _ ws => guardOf ws) es c.ag.guards } }, .ok)
  else (c, .range)

/-! ## Recipes (R110) -/

/-- A recipe is held by a lot that is not FREE (R110). -/
def recipeHeld (c : Chip) (i : Nat) : Bool :=
  c.lh.lots.any fun l => match l with | some e => decide (e.recipe = i) | none => false

/-- Entries that do not fall (R78). -/
def notFalling : List Nat → Bool
  | [] => true
  | [_] => true
  | a :: b :: rest => decide (a ≤ b) && notFalling (b :: rest)

/-- The checks of a recipe beyond its fields' ranges (R78, R109). -/
def recipeOk (r : Recipe) : Bool := notFalling r.table && decide (r.bagsPerCase * r.casesPerPallet ≤ 480)

def writeRecipes (es : List (Nat × List Word)) (c : Chip) : Chip × Status :=
  if es.any fun (i, _) => recipeHeld c i then (c, .lotActive)
  else if entriesRange .recipes es && es.all fun (_, ws) => recipeOk (recipeOf ws) then
    ({ c with lh := { c.lh with recipes := putEntries (fun _ ws => recipeOf ws) es c.lh.recipes } }, .ok)
  else (c, .range)

/-! ## Shuttle table (R166) -/

/-- A shuttle whose entry may be written. -/
def shuttleWritable (s : Shuttle) : Bool := s.state == .offline || s.state == .fault

/-- A command point is no owned point in use (R166). -/
def pointFree (c : Chip) (key : Key) : Bool :=
  (List.range 8).all fun n => match ownedPoint c n with | some (k, _) => decide (k ≠ key) | none => true

def writeShuttles (es : List (Nat × List Word)) (c : Chip) : Chip × Status :=
  if es.any fun (i, _) => !shuttleWritable (shuttleAt c i) then (c, .mode)
  else if entriesRange .shuttles es && es.all fun (_, ws) => pointFree c (wKey ws 0) then
    ({ c with td := { c.td with shuttles := putEntries shuttleOf es c.td.shuttles } }, .ok)
  else (c, .range)

/-! ## Alert routes (R204), line configuration (R201), authority list (R198) -/

def writeRoutes (es : List (Nat × List Word)) (c : Chip) : Chip × Status :=
  if entriesRange .routes es then
    (evalStopN { c with ma := { c.ma with routes := putEntries (fun _ ws => routeFrom ws) es c.ma.routes } }, .ok)
  else (c, .range)

/-- The bagger pause point stands against the track channels and the shuttle table (R201). -/
def pauseOk (c : Chip) (k : LineConfig) : Bool :=
  match k.pausePoint with
  | none => true
  | some p =>
    (trackChan c p.index).cfg.output.isNone && !(c.tc.chans.any fun t => outputKey t.cfg == some p.key) &&
      !commandPoint c p.key

def writeLine (es : List (Nat × List Word)) (c : Chip) : Chip × Status :=
  if entriesRange .line es && es.all fun (_, ws) => pauseOk c (lineOf ws) then
    (recover (refreshUnsent c
      { c with ma := { c.ma with config := es.foldl (fun _ (_, ws) => lineOf ws) c.ma.config } }), .ok)
  else (c, .range)

def writeAuthority (es : List (Nat × List Word)) (c : Chip) : Chip × Status :=
  if c.pins.cfg = false then (c, .denied)
  else if entriesRange .authority es then
    ({ c with ma := { c.ma with authority := putEntries (fun _ ws => authorityOf ws) es c.ma.authority } }, .ok)
  else (c, .range)

/-! ## WRITE-TABLE and READ-TABLE (R199) -/

/-- A table written only in OFFLINE or COMMISSION. -/
def Table.lineTable : Table → Bool
  | .channelMap | .tracks | .geometry | .guards => true
  | _ => false

/-- The table's own checks and its write. -/
def writeEntries (t : Table) (es : List (Nat × List Word)) (c : Chip) : Chip × Status :=
  match t with
  | .channelMap => writeMap es c
  | .tracks => writeTracks es c
  | .geometry => writeGeometry es c
  | .guards => writeGuards es c
  | .recipes => writeRecipes es c
  | .shuttles => writeShuttles es c
  | .routes => writeRoutes es c
  | .line => writeLine es c
  | .authority => writeAuthority es c

/-- WRITE-TABLE after the checks of R198 (R199). -/
def writeTable (t : Table) (first count : Nat) (ws : List Word) (c : Chip) : Chip × Status :=
  if beyondTable t first count then (c, .badIndex)
  else if t.lineTable ∧ c.ag.mode = .production then (c, .mode)
  else writeEntries t (cutEntries t count first ws) c

/-- READ-TABLE (R199): RANGE where the answer would fill more than 32 parts. -/
def readTable (t : Table) (first count : Nat) (c : Chip) : Status × List Word :=
  if beyondTable t first count then (.badIndex, [])
  else
    let ws := (List.range count).flatMap fun i => entryWords t (first + i) c
    if 32 < partCount ws then (.range, []) else (.ok, ws)

end Sys2Proof.Machine
end

