-- ==== Sys2Proof/Machine/Requests.lean ====
section
/-! DEFINITION. Requests: formats and authority (R198), the sixteen codes (R200), line mode (R181, R182), lots (R113,
R114), holds (R121 to R123), records (R200), and the execution of the head of the queue (R197). -/

namespace Sys2Proof.Machine

/-- What a request's own execution gives: the part after it, the status, the answer's words. -/
abbrev Reply := Chip × Status × List Word

/-! ## Line mode (R181, R182) -/

/-- The geometry's encoder entry of a belt is enabled and has role ENCODER (R181). -/
def encoderReady (c : Chip) (b : Belt) : Bool :=
  let k := (intakeChan c (encoderOf c.st b)).cfg
  k.enabled && (match k.role with | some (.encoder _) => true | _ => false)

/-- The readiness conditions for PRODUCTION (R181). -/
def productionReady (c : Chip) : Bool :=
  let cut := (trackChan c c.st.blanch.cutChannel).cfg
  geometryValid c.st && encoderReady c .blanch && encoderReady c .chill && encoderReady c .freeze && cut.mode == .cut &&
    decide (cut.length = c.st.blanch.segLen) && cut.source == .encoder c.st.blanch.encoder &&
    c.lh.recipes.any fun r => r.valid

def withMode (m : Mode) (c : Chip) : Chip := { c with ag := { c.ag with mode := m } }

/-- SET-MODE (R181), with the change into PRODUCTION (R182). -/
def setMode (m : Mode) (c : Chip) : Chip × Status :=
  match m, c.ag.mode with
  | .offline, _ => (c, .mode)
  | .commission, .commission => (c, .ok)
  | .commission, _ => (withMode .commission c, .ok)
  | .production, .offline => (c, .mode)
  | .production, .production => (c, .ok)
  | .production, .commission =>
    if productionReady c then (resendUnsent (arbitrate (withMode .production c)), .ok) else (c, .notReady)

/-! ## Lots (R113, R114) -/

/-- OPEN-LOT (R113). The new lot's entry is chosen before the old lot drains (the model's choice, log entry 40). -/
def openLot (number : Word) (recipe : Nat) (c : Chip) : Reply :=
  if 15 < recipe then (c, .badIndex, [])
  else if (c.lh.recipes.getD recipe .power).valid = false then (c, .range, [])
  else if c.lh.lots.any fun l => match l with | some e => e.number == number | none => false then (c, .lotActive, [])
  else
    match c.lh.lots.findIdx? Option.isNone with
    | none => (c, .noRoom, [])
    | some i =>
      let c1 := match openLot? c with
        | some o => drainLot o c
        | none => c
      ({ c1 with lh := { c1.lh with lots := c1.lh.lots.set i (some (newLot number recipe c1.clock.line)) } }, .ok, [natW i])

/-- CLOSE-LOT (R114). -/
def closeLot (i : Nat) (c : Chip) : Chip × Status :=
  if 7 < i then (c, .badIndex)
  else
    match lotAt c i with
    | none => (c, .notFound)
    | some l => if l.state = .opened then (drainLot i c, .ok) else (c, .ok)

/-! ## Holds (R121 to R123) -/

/-- The four kinds of record a hold names (R121). -/
inductive HoldKind where
  | segment | bag | pallet | lot
deriving DecidableEq, Repr

/-- The kind at a position of the record kinds of READ-RECORD (R200, R207): a bag is named by its place. -/
def holdKind? (n : Nat) : Option HoldKind :=
  match n with
  | 1 => some .segment
  | 5 => some .bag
  | 6 => some .pallet
  | 7 => some .lot
  | _ => none

/-- Change a pallet's hold set on request; a DELIVERED one whose report is QUEUED is reported anew (R175). -/
def holdPallet (id : Nat) (f : HoldSet → HoldSet) (c : Chip) : Chip :=
  match palletAt c id with
  | some p => if f p.hold = p.hold then c else reviseDelivery id (changePalletHold id f c)
  | none => c

/-- Change a lot's hold set (R123): the destinations of its CLOSED pallets follow. -/
def holdLot (i : Nat) (manual : Bool) (c : Chip) : Chip :=
  let c1 := modLot i (fun l => { l with manual := manual }) c
  ((c1.ba.pallets.filter fun p => p.lot == i).map (·.id)).foldl (fun acc id => evalDestination id acc) c1

/-- PLACE-HOLD or RELEASE-HOLD on a record (R121, R122): the change `f`, and the hold set after it. -/
def changeHold (k : HoldKind) (id : Nat) (f : HoldSet → HoldSet) (c : Chip) : Reply :=
  match k with
  | .segment =>
    match segmentAt c id with
    | none => (c, .notFound, [])
    | some g => (modSegment id (fun s => { s with hold := f s.hold }) c, .ok, [BitVec.setWidth 32 (f g.hold)])
  | .bag =>
    if 1023 < id then (c, .badIndex, [])
    else
      match placeLive (placeAt c id), (placeAt c id).fields with
      | true, some g => (amendPlace id f c, .ok, [BitVec.setWidth 32 (f g.hold)])
      | _, _ => (c, .notFound, [])
  | .pallet =>
    match palletAt c id with
    | none => (c, .notFound, [])
    | some p => (holdPallet id f c, .ok, [BitVec.setWidth 32 (f p.hold)])
  | .lot =>
    if 7 < id then (c, .badIndex, [])
    else
      match lotAt c id with
      | none => (c, .notFound, [])
      | some l =>
        if l.state = .finished then (c, .notReady, [])
        else
          let h : HoldSet := f (if l.manual then HoldReason.manual.only else 0)
          (holdLot id (h.has .manual) c, .ok, [BitVec.setWidth 32 (if h.has .manual then HoldReason.manual.only else 0)])

/-- PLACE-HOLD (R121): for a bag the answer carries the hold set (R154), for the others no word. -/
def placeHold (k : HoldKind) (id : Nat) (c : Chip) : Reply :=
  match changeHold k id (fun h => h.place .manual) c with
  | (c1, st, ws) => (c1, st, if k = .bag then ws else [])

/-- RELEASE-HOLD (R122). -/
def releaseHold (k : HoldKind) (id : Nat) (reasons : Word) (c : Chip) : Reply :=
  changeHold k id (fun h => h.release (BitVec.setWidth 14 reasons)) c

/-! ## READ-RECORD (R200) -/

def found (c : Chip) : Option (List Word) → Reply
  | some ws => (c, .ok, ws)
  | none => (c, .notFound, [])

/-- A record of a table of `n`: BAD-INDEX beyond it. -/
def indexed (c : Chip) (n id : Nat) (ws : Option (List Word)) : Reply :=
  if n ≤ id then (c, .badIndex, []) else found c ws

/-- READ-RECORD of the kinds that need no operation on the trace memory. -/
def readRecordOf (kind id : Nat) (c : Chip) : Reply :=
  match kind with
  | 1 => found c ((findSegment c id).map fun (g, st, i) => segmentWords g st i)
  | 2 => indexed c 48 id (some (intakeRecord (intakeChan c id).dyn))
  | 3 => indexed c 8 id (some (trackRecord (trackChan c id)))
  | 4 => indexed c 4 id (some (slotWords (slotAt c id)))
  | 6 =>
    match palletAt c id with
    | some p =>
      match signedWord (remainingBudget c p) c with
      | (c1, w) => (c1, .ok, palletWords p w)
    | none => (c, .notFound, [])
  | 7 => indexed c 8 id ((lotAt c id).map lotWords)
  | 8 => indexed c 4 id (some (shuttleRecord (shuttleAt c id)))
  | 9 => indexed c 32 id (c.ag.traps[id]?.map trapWords)
  | 10 => indexed c 32 id (c.ag.shadows[id]?.map shadowWords)
  | _ => (c, .badFormat, [])

/-! ## Formats and authority (R198) -/

def argNat (r : Request) (i : Nat) : Nat := wNat r.words i

/-- The table a READ-TABLE or WRITE-TABLE names. -/
def tableArg (r : Request) : Option Table := tableOf (r.words.getD 0 0)

/-- The number and the kinds of a request's arguments suit its code (R198). -/
def formatOk (r : Request) : Bool :=
  let n := r.words.length
  match r.code.toNat with
  | 1 => decide (n = 1) && (decide (1 ≤ argNat r 0) && decide (argNat r 0 ≤ 12))
  | 2 => decide (n = 3) && (tableArg r).isSome
  | 3 => decide (3 ≤ n) &&
      (match tableArg r with | some t => entriesFormat t (argNat r 1) (argNat r 2) (r.words.drop 3) | none => false)
  | 4 => decide (n = 1) && (decide (1 ≤ argNat r 0) && decide (argNat r 0 ≤ 3))
  | 5 => decide (n = 2)
  | 7 => decide (n = 2) && (holdKind? (argNat r 0)).isSome
  | 8 => decide (n = 3) && (holdKind? (argNat r 0)).isSome
  | 9 => decide (n = 2) && (decide (1 ≤ argNat r 0) && decide (argNat r 0 ≤ 10))
  | 10 => decide (n = 1) && (decide (1 ≤ argNat r 0) && decide (argNat r 0 ≤ 5))
  | 6 | 11 | 12 | 13 | 14 | 15 => decide (n = 1)
  | 16 => decide (n = 0)
  | _ => false

/-- Write-class: every code except READ-STATUS, READ-TABLE, READ-RECORD and LIST (R198). -/
def writeClass (code : Byte) : Bool := code ≠ 1 && code ≠ 2 && code ≠ 9 && code ≠ 10

/-- The origin may send the request: CFG is high, or its node is in the authority list (R198). -/
def authorised (c : Chip) (r : Request) : Bool :=
  !writeClass r.code || c.pins.cfg || c.ma.authority.contains (some r.origin)

/-- A request that names no row of the table: no code, or WRITE-TABLE of no table (log entry 12). -/
def misnamed (r : Request) : Bool :=
  r.code = 0 || decide (16 < r.code.toNat) || (r.code = 3 && (tableArg r).isNone)

/-! ## Execution (R197) -/

/-- The request at the head of the queue, when no request is executing (R197). -/
def headRequest (c : Chip) : Option Request :=
  match c.ma.phase, c.ma.queue with
  | .idle, r :: _ => some r
  | _, _ => none

def withCfg (b : Bool) (c : Chip) : Chip := { c with pins := { c.pins with cfg := b } }

/-- The checks of R198 before a request's own: none if it passes them. -/
def earlyStatus (c : Chip) (r : Request) : Option Status :=
  if ¬ formatOk r then some .badFormat
  else if ¬ authorised c r then some .denied
  else none

/-- Execute the head of the queue if a row's test finds it there: the checks of R198, then `run`. A request that names
no row is answered BAD-FORMAT whichever row takes it (log entries 1, 12). -/
def executeWith (mine : Request → Bool) (run : Request → Chip → Chip) (c : Chip) : Chip :=
  match headRequest c with
  | some r =>
    if misnamed r || mine r then
      match earlyStatus c r with
      | some st => endRequest r st [] c
      | none => run r c
    else c
  | none => c

/-- End a request with its own reply; an answer other than OK carries no data words (R207). -/
def replyWith (f : Request → Chip → Reply) (r : Request) (c : Chip) : Chip :=
  match f r c with
  | (c1, st, ws) => endRequest r st (if st = .ok then ws else []) c1

/-- A reply with no words. -/
def plain (p : Chip × Status) : Reply := (p.1, p.2, [])

/-- A row whose request has a code. -/
def hasCode (code : Byte) (r : Request) : Bool := r.code == code

/-- A row that writes a table. -/
def writesTable (t : Table) (r : Request) : Bool := r.code == 3 && tableArg r == some t

/-- WRITE-TABLE of a table. -/
def runWriteTable (t : Table) (r : Request) (c : Chip) : Reply :=
  plain (writeTable t (argNat r 1) (argNat r 2) (r.words.drop 3) c)

def runReadStatus (r : Request) (c : Chip) : Reply := (c, .ok, (statusOf (argNat r 0) c).getD [])

def runReadTable (r : Request) (c : Chip) : Reply :=
  match tableArg r with
  | some t => (c, readTable t (argNat r 1) (argNat r 2) c)
  | none => (c, .badFormat, [])

def runSetMode (r : Request) (c : Chip) : Reply := plain (setMode (atPosition Mode.list .offline (argNat r 0)) c)

def runOpenLot (r : Request) (c : Chip) : Reply := openLot (r.words.getD 0 0) (argNat r 1) c

def runCloseLot (r : Request) (c : Chip) : Reply := plain (closeLot (argNat r 0) c)

def runPlaceHold (r : Request) (c : Chip) : Reply :=
  match holdKind? (argNat r 0) with
  | some k => placeHold k (argNat r 1) c
  | none => (c, .badFormat, [])

def runReleaseHold (r : Request) (c : Chip) : Reply :=
  match holdKind? (argNat r 0) with
  | some k => releaseHold k (argNat r 1) (r.words.getD 2 0) c
  | none => (c, .badFormat, [])

/-- LIST (R200). -/
def runList (r : Request) (c : Chip) : Reply :=
  match idsOf (argNat r 0) c with
  | some ids => (c, .ok, listWords ids)
  | none => (c, .badFormat, [])

/-- START-CHANNEL (R43). -/
def runStartChannel (r : Request) (c : Chip) : Reply :=
  if 7 < argNat r 0 then (c, .badIndex, []) else plain (startChannel (argNat r 0) c)

/-- STOP-CHANNEL (R43). -/
def runStopChannel (r : Request) (c : Chip) : Reply :=
  if 7 < argNat r 0 then (c, .badIndex, []) else (stopChannel (argNat r 0) c, .ok, [])

def runEnableShuttle (r : Request) (c : Chip) : Reply :=
  if 3 < argNat r 0 then (c, .badIndex, []) else plain (enableShuttle (argNat r 0) c)

def runRequeuePallet (r : Request) (c : Chip) : Reply := plain (requeuePallet (argNat r 0) c)

/-- Remove the pending kinds of a mask (R204). -/
def clearKinds (mask : Word) (pending : List (Option PendingAlert)) : List (Option PendingAlert) :=
  pending.zipIdx.map fun (a, i) => if mask.getLsbD i then none else a

/-- CLEAR-ALERTS (R204): a bit beyond the 19 kinds is RANGE. -/
def runClearAlerts (r : Request) (c : Chip) : Reply :=
  let mask := r.words.getD 0 0
  if 524288 ≤ mask.toNat then (c, .range, [])
  else (evalStopN { c with ma := { c.ma with pending := clearKinds mask c.ma.pending } }, .ok, [])

/-- READ-RECORD (R200): a place that is not PENDING waits for its read (R155, R197). -/
def runReadRecord (r : Request) (c : Chip) : Chip :=
  let id := argNat r 1
  if argNat r 0 = 5 then
    if 1023 < id then endRequest r .badIndex [] c
    else
      match pendingWordsOf id c with
      | some ws => endRequest r .ok ws c
      | none => { c with ma := { c.ma with phase := .reading }, tm := { c.tm with readWaiting := some id } }
  else replyWith (fun q d => readRecordOf (argNat q 0) (argNat q 1) d) r c

/-- RESTART (R206 steps 1 and 2): the answer is handed and the request leaves the queue; if RP does not take the
answer, the wait ends at that moment. -/
def runRestart (r : Request) (c : Chip) : Chip :=
  match rpHand (answerPart r .ok [] true 0) c with
  | (c1, taken) =>
    { c1 with ma := { c1.ma with queue := c1.ma.queue.tail, phase := if taken then .restartWait else .restartReady } }

end Sys2Proof.Machine
end

