-- ==== Sys2Proof/Machine/Restart.lean ====
section
/-! DEFINITION. The warm restart (R206): every block's share (R21, R39, R56, R77, R95, R108, R125, R148, R161, R179,
R195), and its completion. -/

namespace Sys2Proof.Machine

/-- RP (R21): the buffer, the frames under way, the counters of R21 and the epoch stay. -/
def Rp.restart (r : Rp) : Rp :=
  let q := { r with txQueue := [], returnList := [] }
  if r.ring = .isolated then q else { q with rxErr := 0, txErr := 0, recovery := none, ring := .active }

/-- SI (R39). -/
def Si.restart (s : Si) : Si :=
  { chans := s.chans.map fun k => { k with dyn := .clear }, zones := List.replicate 6 .clear }

/-- TC (R56). -/
def Tc.restart (t : Tc) : Tc :=
  { t with chans := t.chans.map fun k => { k with dyn := .clear }, positions := List.replicate 48 0,
           unsent := List.replicate 8 false }

/-- ST (R77). -/
def St.restart (s : St) : St :=
  { s with qBlanch := [], qChill := [], qFreeze := [], qSurge := [], totalRef := none, lastNominal := 0, gapSet := 0,
           stray := 0 }

/-- LH (R125). -/
def Lh.restart (l : Lh) : Lh := { l with lots := List.replicate 8 none, lastHanding := none }

/-- BA (R148): the pallet id counter stays. -/
def Ba.restart (b : Ba) : Ba := { Ba.power with nextPallet := b.nextPallet }

/-- The rewrites set apart (R161): STORED places whose mark is set, in the order of marking. -/
def markedRewrites (t : Tm) : List (Nat × HoldSet) :=
  t.marks.filterMap fun p =>
    match (t.places.getD p .archived).state, (t.places.getD p .archived).fields with
    | .stored, some f => some (p, f.hold)
    | _, _ => none

/-- TM (R161 step 1): its work is set apart, and every place becomes ARCHIVED. -/
def Tm.restartShare (t : Tm) : Tm :=
  { t with places := List.replicate 1024 .archived, marks := [], writeQueue := [], holding := none, readWaiting := none,
           restart := some { writes := t.writeQueue, rewrites := markedRewrites t, held := t.holding } }

/-- TD (R179): the table entries stay. -/
def Shuttle.restart (s : Shuttle) : Shuttle :=
  { Shuttle.power with written := s.written, point := s.point, load := s.load, airlock := s.airlock,
                       delivery := s.delivery }

def Td.restart (t : Td) : Td := { Td.power with shuttles := t.shuttles.map Shuttle.restart }

/-- AG (R195). -/
def Ag.restart (a : Ag) : Ag := { Ag.power with guards := a.guards }

/-- MA (R206 step 3). -/
def Ma.restart (m : Ma) : Ma :=
  { m with pending := List.replicate 19 none, assembly := none, lastHanding := none, phase := .restartRunning }

/-- The one event in which every block takes its share (R206 step 3). -/
def restartAll (c : Chip) : Chip :=
  { c with pins := { c.pins with stopN := true }, rp := c.rp.restart, si := c.si.restart, tc := c.tc.restart,
           st := c.st.restart, de := .power, fv := .power, lh := c.lh.restart, ba := c.ba.restart,
           tm := c.tm.restartShare, td := c.td.restart, ag := c.ag.restart, ma := c.ma.restart }

/-- TM has finished its completion (R161 step 4). -/
def restartFinished (c : Chip) : Bool :=
  c.tm.spi.isNone &&
    (match c.tm.restart with | some w => w.writes.isEmpty && w.rewrites.isEmpty && w.held.isNone | none => false)

/-- MA starts the warm restart when the answer to RESTART is out or lost (R206). -/
def startRestart (c : Chip) : Chip := if c.ma.phase = .restartReady then restartAll c else c

/-- The warm restart is complete (R206 step 4). -/
def endRestart (c : Chip) : Chip :=
  if c.ma.phase = .restartRunning ∧ restartFinished c then
    { c with tm := { c.tm with restart := none }, ma := { c.ma with phase := .idle } }
  else c

end Sys2Proof.Machine
end

