-- ==== Sys2Proof/Machine/PinCommands.lean ====
section
/-! DEFINITION. Commands at the pins: power-on reset (R20, R205), the rise of RST_N (R20), BYP (R17). -/

namespace Sys2Proof.Machine

/-- An event of the running part, with the grants that follow it; a part in its reset condition takes none (R20). -/
def whileRunning (f : Chip → Chip) (c : Chip) : Chip := if c.pins.running then settle (f c) else c

/-- A command that changes the part alone. -/
def onChip (f : Chip → Chip) (s : State) : Host.Outcome State Fault Refusal := .next { s with chip := f s.chip }

/-- A node address that the part takes (R20). -/
def nodeValid (node : Byte) : Bool := node ≠ 0 && node ≠ 255

/-- The part starts (R20): inline, or ISOLATED with its alert if BYP is high. -/
def startPart (node : Byte) (c : Chip) : Chip :=
  let c1 := { c with pins := { c.pins with rstN := true, running := true, node := node, rly := !c.pins.byp } }
  if c.pins.byp then raise .ringIsolated .none 0 { c1 with rp := { c1.rp with ring := .isolated } } else c1

/-- RST_N rises (R20): with node 0 or 255 the part stays in its reset condition. -/
def riseRstN (node : Byte) (c : Chip) : Chip :=
  if c.pins.rstN then c
  else if nodeValid node then settle (startPart node c)
  else { c with pins := { c.pins with rstN := true } }

/-- BYP takes a level (R17); while the part does not run the level alone is recorded. -/
def driveByp (level : Bool) (c : Chip) : Chip :=
  whileRunning evalRing { c with pins := { c.pins with byp := level } }

/-- POWER_ON_RESET (R20, R205): every block at its power-on state; the trace memory keeps its contents (R160). -/
def execPowerOnReset (s : State) : Host.Outcome State Fault Refusal :=
  onChip (fun c => Chip.power c.pins.byp c.pins.cfg) s

/-- RST_N_RISE (R20, R205). -/
def execRstNRise (node : Byte) (s : State) : Host.Outcome State Fault Refusal := onChip (riseRstN node) s

/-- BYP_ASSERT (R17, R15). -/
def execBypAssert (s : State) : Host.Outcome State Fault Refusal := onChip (driveByp true) s

/-- BYP_DEASSERT (R17, R18). -/
def execBypDeassert (s : State) : Host.Outcome State Fault Refusal := onChip (driveByp false) s

end Sys2Proof.Machine
end

