-- ==== Sys2Proof/Machine/RingCommands.lean ====
section
/-! DEFINITION. Commands of the ring: frames received and sent, AG's check of a held frame, the return timeout and the
recovery timer. -/

namespace Sys2Proof.Machine

/-- DOWNSTREAM_RX_FRAME (R2): a frame on the Downstream receive pair is discarded, whatever its bytes. -/
def execDownstreamRxFrame (_bytes : List Byte) (s : State) : Host.Outcome State Fault Refusal := .next s

/-- HEADER_END (R2, R4 to R6). -/
def execHeaderEnd (h : Option Header) (s : State) : Host.Outcome State Fault Refusal :=
  onChip (whileRunning (takeHeader (headerTaken h))) s

/-- RECEPTION_COMPLETE (R3, R4). -/
def execReceptionComplete (payload : List Byte) (checkGood : Bool) (s : State) : Host.Outcome State Fault Refusal :=
  onChip (whileRunning (completeReception payload checkGood)) s

/-- ACTUATE_FRAME_CHECK (R7, R183). -/
def execActuateFrameCheck (s : State) : Host.Outcome State Fault Refusal := onChip (whileRunning checkHeldFrame) s

/-- TRANSMIT_COMPLETE (R8). -/
def execTransmitComplete (s : State) : Host.Outcome State Fault Refusal := onChip (whileRunning completeTransmit) s

/-- RETURN_TIMEOUT (R13) of the entry with a sequence, if its timeout has passed. -/
def execReturnTimeout (seq : Byte) (s : State) : Host.Outcome State Fault Refusal :=
  onChip (whileRunning (expireReturn seq)) s

/-- RECOVERY_TIMER_EXPIRY (R16). -/
def execRecoveryTimerExpiry (s : State) : Host.Outcome State Fault Refusal := onChip (whileRunning recover) s

end Sys2Proof.Machine
end

