-- ==== Sys2Proof/Machine/TimerCommands.lean ====
section
/-! DEFINITION. Commands of the part's own timers and retries. One whose time has not come changes nothing (log entry
3). -/

namespace Sys2Proof.Machine

/-- FRESHNESS_TIMER_EXPIRY (R31). -/
def execFreshnessTimerExpiry (channel : Nat) (s : State) : Host.Outcome State Fault Refusal :=
  onChip (whileRunning (expireFreshness channel)) s

/-- STALE_HOLD_TIMER_EXPIRY (R32). -/
def execStaleHoldTimerExpiry (channel : Nat) (s : State) : Host.Outcome State Fault Refusal :=
  onChip (whileRunning (expireStaleHold channel)) s

/-- MILLISECOND_POINT_DUE (R42, R47): everything due now on the millisecond-source channels. -/
def execMillisecondPointDue (s : State) : Host.Outcome State Fault Refusal :=
  onChip (whileRunning handleMilliseconds) s

/-- The deadline of a GATHERING slot has been reached (R134). -/
def bagDue (c : Chip) (k : Nat) : Bool :=
  match slotAt c k with
  | some s => s.state == .gathering && reached c.clock.ms s.deadline
  | none => false

/-- BAG_DEADLINE (R134, R135). -/
def execBagDeadline (slot : Nat) (s : State) : Host.Outcome State Fault Refusal :=
  onChip (whileRunning fun c => if bagDue c slot then decideBag slot c else c) s

/-- SHUTTLE_DEADLINE_EXPIRY (R171, R173). -/
def execShuttleDeadlineExpiry (shuttle : Nat) (s : State) : Host.Outcome State Fault Refusal :=
  onChip (whileRunning fun c => if shuttleDue c shuttle then faultTransfer shuttle c else c) s

/-- CONFIRMATION_DEADLINE (R193). -/
def execConfirmationDeadline (entry : Nat) (s : State) : Host.Outcome State Fault Refusal :=
  onChip (whileRunning fun c => if confirmDue c entry then expireConfirm entry c else c) s

/-- ASSEMBLY_TIMEOUT (R196). -/
def execAssemblyTimeout (s : State) : Host.Outcome State Fault Refusal :=
  onChip (whileRunning fun c => if assemblyDue c then dropAssembly c else c) s

/-- The retry of R117 is due. -/
def lotRetryDue (c : Chip) : Bool :=
  decide (c.rp.ring = .active) && retryDue c c.lh.lastHanding && !(waitingLots c).isEmpty

/-- LOT_REPORT_RETRY (R117). -/
def execLotReportRetry (s : State) : Host.Outcome State Fault Refusal :=
  onChip (whileRunning fun c => if lotRetryDue c then handWaitingLots c else c) s

/-- The retry of R176 is due. -/
def deliveryRetryDue (c : Chip) : Bool :=
  decide (c.rp.ring = .active) && retryDue c c.td.lastHanding && !(waitingDeliveries c).isEmpty

/-- DELIVERY_REPORT_RETRY (R176). -/
def execDeliveryReportRetry (s : State) : Host.Outcome State Fault Refusal :=
  onChip (whileRunning fun c => if deliveryRetryDue c then handWaitingDeliveries c else c) s

/-- ALERT_RETRY (R203). -/
def execAlertRetry (s : State) : Host.Outcome State Fault Refusal :=
  onChip (whileRunning fun c => if alertRetryDue c then handAllUnsent c else c) s

end Sys2Proof.Machine
end

