-- ==== Sys2Proof/Machine/TraceCommands.lean ====
section
/-! DEFINITION. Commands of the trace memory's completions and of the warm restart. An error mask turns over bits of
what is stored or read; masks of no bytes are a memory without faults (log entry 6). -/

namespace Sys2Proof.Machine

/-- The end of an operation on place `p`: what it does to memory and part, or the fault of a place that R150 does not
have. -/
def onPlace (p : Nat) (s : State) (after : State) : Host.Outcome State Fault Refusal :=
  if p < 1024 then .next { after with pending := s.pending } else .fault .outsideTraceMemory

/-- A place write ends (R153). -/
def endWrite (p : Nat) (r : BagRecord) (storeErr readErr : List Byte) (s : State) : State :=
  let w := writeMemory p r.bytes storeErr readErr s.mem
  { s with mem := w.1, chip := settle (finishWrite w.2 p r s.chip) }

/-- PLACE_WRITE_COMPLETE (R153). -/
def execPlaceWriteComplete (storeErr readErr : List Byte) (s : State) : Host.Outcome State Fault Refusal :=
  match s.chip.pins.running, s.chip.tm.spi with
  | true, some (.write p r) => onPlace p s (endWrite p r storeErr readErr s)
  | _, _ => .next s

/-- A rewrite ends (R154). -/
def endRewrite (p : Nat) (h : HoldSet) (readErr storeErr verifyErr : List Byte) (s : State) : State :=
  let w := rewriteMemory p h readErr storeErr verifyErr s.mem
  { s with mem := w.1, chip := settle (finishRewrite w.2 p s.chip) }

/-- REWRITE_COMPLETE (R154). -/
def execRewriteComplete (readErr storeErr verifyErr : List Byte) (s : State) : Host.Outcome State Fault Refusal :=
  match s.chip.pins.running, s.chip.tm.spi with
  | true, some (.rewrite p h) => onPlace p s (endRewrite p h readErr storeErr verifyErr s)
  | _, _ => .next s

/-- A read ends (R155). -/
def endRead (p : Nat) (e : Place) (readErr : List Byte) (s : State) : State :=
  let r := readMemory p readErr s.mem
  { s with chip := settle (finishRead r.1 r.2 p e s.chip) }

/-- TRACE_READ_COMPLETE (R155). -/
def execTraceReadComplete (readErr : List Byte) (s : State) : Host.Outcome State Fault Refusal :=
  match s.chip.pins.running, s.chip.tm.spi with
  | true, some (.read p e) => onPlace p s (endRead p e readErr s)
  | _, _ => .next s

/-- WARM_RESTART (R206 step 3). -/
def execWarmRestart (s : State) : Host.Outcome State Fault Refusal := onChip (whileRunning startRestart) s

/-- WARM_RESTART_COMPLETE (R206 step 4, R161 step 4). -/
def execWarmRestartComplete (s : State) : Host.Outcome State Fault Refusal := onChip (whileRunning endRestart) s

end Sys2Proof.Machine
end

