-- ==== Sys2Proof/Machine/RequestCommands.lean ====
section
/-! DEFINITION. Commands that execute the request at the head of MA's queue (R197 to R200). `cfg` is the level of the CFG
pin, read at the authority check (R198). -/

namespace Sys2Proof.Machine

/-- Execute a read-class request. -/
def readClass (mine : Request → Bool) (run : Request → Chip → Chip) (s : State) : Host.Outcome State Fault Refusal :=
  onChip (whileRunning (executeWith mine run)) s

/-- Execute a write-class request, with the level of CFG. -/
def writeClassAt (cfg : Bool) (mine : Request → Bool) (run : Request → Chip → Chip) (s : State) :
    Host.Outcome State Fault Refusal :=
  onChip (whileRunning fun c => executeWith mine run (withCfg cfg c)) s

/-- WRITE-TABLE of one table. -/
def writeTableAt (cfg : Bool) (t : Table) (s : State) : Host.Outcome State Fault Refusal :=
  writeClassAt cfg (writesTable t) (replyWith (runWriteTable t)) s

/-- READ_STATUS (R200). -/
def execReadStatus (s : State) : Host.Outcome State Fault Refusal := readClass (hasCode 1) (replyWith runReadStatus) s

/-- READ_TABLE (R199). -/
def execReadTable (s : State) : Host.Outcome State Fault Refusal := readClass (hasCode 2) (replyWith runReadTable) s

/-- WRITE_CHANNEL_MAP (R23, R33). -/
def execWriteChannelMap (cfg : Bool) (s : State) : Host.Outcome State Fault Refusal := writeTableAt cfg .channelMap s

/-- WRITE_TRACK_CHANNELS (R41). -/
def execWriteTrackChannels (cfg : Bool) (s : State) : Host.Outcome State Fault Refusal := writeTableAt cfg .tracks s

/-- WRITE_STAGE_GEOMETRY (R58). -/
def execWriteStageGeometry (cfg : Bool) (s : State) : Host.Outcome State Fault Refusal := writeTableAt cfg .geometry s

/-- WRITE_GUARD_TABLE (R185). -/
def execWriteGuardTable (cfg : Bool) (s : State) : Host.Outcome State Fault Refusal := writeTableAt cfg .guards s

/-- WRITE_RECIPES (R110). -/
def execWriteRecipes (cfg : Bool) (s : State) : Host.Outcome State Fault Refusal := writeTableAt cfg .recipes s

/-- WRITE_SHUTTLE_TABLE (R166). -/
def execWriteShuttleTable (cfg : Bool) (s : State) : Host.Outcome State Fault Refusal := writeTableAt cfg .shuttles s

/-- WRITE_ALERT_ROUTES (R204). -/
def execWriteAlertRoutes (cfg : Bool) (s : State) : Host.Outcome State Fault Refusal := writeTableAt cfg .routes s

/-- WRITE_LINE_CONFIGURATION (R201). -/
def execWriteLineConfiguration (cfg : Bool) (s : State) : Host.Outcome State Fault Refusal := writeTableAt cfg .line s

/-- WRITE_AUTHORITY_LIST (R198). -/
def execWriteAuthorityList (cfg : Bool) (s : State) : Host.Outcome State Fault Refusal := writeTableAt cfg .authority s

/-- SET_MODE (R181, R182). -/
def execSetMode (cfg : Bool) (s : State) : Host.Outcome State Fault Refusal :=
  writeClassAt cfg (hasCode 4) (replyWith runSetMode) s

/-- OPEN_LOT (R113). -/
def execOpenLot (cfg : Bool) (s : State) : Host.Outcome State Fault Refusal :=
  writeClassAt cfg (hasCode 5) (replyWith runOpenLot) s

/-- CLOSE_LOT (R114). -/
def execCloseLot (cfg : Bool) (s : State) : Host.Outcome State Fault Refusal :=
  writeClassAt cfg (hasCode 6) (replyWith runCloseLot) s

/-- PLACE_HOLD (R121). -/
def execPlaceHold (cfg : Bool) (s : State) : Host.Outcome State Fault Refusal :=
  writeClassAt cfg (hasCode 7) (replyWith runPlaceHold) s

/-- RELEASE_HOLD (R122). -/
def execReleaseHold (cfg : Bool) (s : State) : Host.Outcome State Fault Refusal :=
  writeClassAt cfg (hasCode 8) (replyWith runReleaseHold) s

/-- READ_RECORD (R200). -/
def execReadRecord (s : State) : Host.Outcome State Fault Refusal := readClass (hasCode 9) runReadRecord s

/-- LIST (R200). -/
def execList (s : State) : Host.Outcome State Fault Refusal := readClass (hasCode 10) (replyWith runList) s

/-- START_CHANNEL (R43). -/
def execStartChannel (cfg : Bool) (s : State) : Host.Outcome State Fault Refusal :=
  writeClassAt cfg (hasCode 11) (replyWith runStartChannel) s

/-- STOP_CHANNEL (R43). -/
def execStopChannel (cfg : Bool) (s : State) : Host.Outcome State Fault Refusal :=
  writeClassAt cfg (hasCode 12) (replyWith runStopChannel) s

/-- ENABLE_SHUTTLE (R166). -/
def execEnableShuttle (cfg : Bool) (s : State) : Host.Outcome State Fault Refusal :=
  writeClassAt cfg (hasCode 13) (replyWith runEnableShuttle) s

/-- REQUEUE_PALLET (R174). -/
def execRequeuePallet (cfg : Bool) (s : State) : Host.Outcome State Fault Refusal :=
  writeClassAt cfg (hasCode 14) (replyWith runRequeuePallet) s

/-- CLEAR_ALERTS (R204). -/
def execClearAlerts (cfg : Bool) (s : State) : Host.Outcome State Fault Refusal :=
  writeClassAt cfg (hasCode 15) (replyWith runClearAlerts) s

/-- RESTART (R206 steps 1 and 2). -/
def execRestart (cfg : Bool) (s : State) : Host.Outcome State Fault Refusal := writeClassAt cfg (hasCode 16) runRestart s

end Sys2Proof.Machine
end

