-- ==== Sys2Proof/Machine/Idle.lean ====
section
/-! DEFINITION. What the part does of itself when no command waits (log entries 2, 26): its next due event becomes the
one waiting command, and where none is due a millisecond passes (R1). -/

namespace Sys2Proof.Machine

/-- The row that executes a request (R200); a request that names no row goes to READ_STATUS (log entry 12). -/
def rowOf (r : Request) (cfg : Bool) : Instr :=
  match r.code.toNat with
  | 2 => .readTable
  | 3 =>
    match tableArg r with
    | some .channelMap => .writeChannelMap cfg
    | some .tracks => .writeTrackChannels cfg
    | some .geometry => .writeStageGeometry cfg
    | some .guards => .writeGuardTable cfg
    | some .recipes => .writeRecipes cfg
    | some .shuttles => .writeShuttleTable cfg
    | some .routes => .writeAlertRoutes cfg
    | some .line => .writeLineConfiguration cfg
    | some .authority => .writeAuthorityList cfg
    | none => .readStatus
  | 4 => .setMode cfg
  | 5 => .openLot cfg
  | 6 => .closeLot cfg
  | 7 => .placeHold cfg
  | 8 => .releaseHold cfg
  | 9 => .readRecord
  | 10 => .list
  | 11 => .startChannel cfg
  | 12 => .stopChannel cfg
  | 13 => .enableShuttle cfg
  | 14 => .requeuePallet cfg
  | 15 => .clearAlerts cfg
  | 16 => .restart cfg
  | _ => .readStatus

/-- A command if its condition holds. -/
def dueIf (b : Bool) (i : Instr) : Option Instr := if b then some i else none

/-- The lowest index below `n` that satisfies a test, as a command. -/
def dueIndex (n : Nat) (t : Nat → Bool) (i : Nat → Instr) : Option Instr := ((List.range n).find? t).map i

/-- The part's own events that are due, in the order in which the model takes them (log entry 26). -/
def nextDue (c : Chip) : Option Instr :=
  dueIf (heldFrame c).isSome .actuateFrameCheck
  <|> (headRequest c).map (fun r => rowOf r c.pins.cfg)
  <|> dueIf (decide (c.ma.phase = .restartReady)) .warmRestart
  <|> dueIf (decide (c.ma.phase = .restartRunning) && restartFinished c) .warmRestartComplete
  <|> (c.rp.returnList.find? (returnDue c)).map (fun e => .returnTimeout e.seq)
  <|> dueIf (recoveryDue c) .recoveryTimerExpiry
  <|> dueIndex 48 (fun i => lineDue c (intakeChan c i).dyn.freshTimer) .freshnessTimerExpiry
  <|> dueIndex 48 (fun i => lineDue c (intakeChan c i).dyn.staleTimer) .staleHoldTimerExpiry
  <|> dueIf (millisecondDue c) .millisecondPointDue
  <|> dueIndex 4 (bagDue c) .bagDeadline
  <|> dueIndex 4 (shuttleDue c) .shuttleDeadlineExpiry
  <|> dueIndex 8 (confirmDue c) .confirmationDeadline
  <|> dueIf (assemblyDue c) .assemblyTimeout
  <|> dueIf (lotRetryDue c) .lotReportRetry
  <|> dueIf (deliveryRetryDue c) .deliveryReportRetry
  <|> dueIf (alertRetryDue c) .alertRetry

/-- A millisecond passes (R1); line time stays at its greatest value (log entry 5). -/
def Clock.tick (t : Clock) : Clock :=
  if t.sub = 99 then { ms := t.ms + 1, line := satAdd32 t.line 1, sub := 0 }
  else { ms := t.ms + 1, line := t.line, sub := t.sub + 1 }

/-- No command waits (log entry 2): a part in its reset condition does nothing (R20). -/
def idle (s : State) : State :=
  if s.chip.pins.running then
    match nextDue s.chip with
    | some i => { s with pending := [i] }
    | none => { s with chip := { s.chip with clock := s.chip.clock.tick } }
  else s

end Sys2Proof.Machine
end

