-- ==== Sys2Proof/Machine/Dispatch.lean ====
section
/-! DEFINITION. The meaning of each command: one arm per constructor. -/

namespace Sys2Proof.Machine

def exec (i : Instr) (s : State) : Host.Outcome State Fault Refusal :=
  match i with
  | .powerOnReset => Sys2Proof.Machine.execPowerOnReset s
  | .rstNRise node => Sys2Proof.Machine.execRstNRise node s
  | .bypAssert => Sys2Proof.Machine.execBypAssert s
  | .bypDeassert => Sys2Proof.Machine.execBypDeassert s
  | .downstreamRxFrame bytes => Sys2Proof.Machine.execDownstreamRxFrame bytes s
  | .headerEnd h => Sys2Proof.Machine.execHeaderEnd h s
  | .receptionComplete payload checkGood => Sys2Proof.Machine.execReceptionComplete payload checkGood s
  | .actuateFrameCheck => Sys2Proof.Machine.execActuateFrameCheck s
  | .transmitComplete => Sys2Proof.Machine.execTransmitComplete s
  | .returnTimeout seq => Sys2Proof.Machine.execReturnTimeout seq s
  | .recoveryTimerExpiry => Sys2Proof.Machine.execRecoveryTimerExpiry s
  | .freshnessTimerExpiry channel => Sys2Proof.Machine.execFreshnessTimerExpiry channel s
  | .staleHoldTimerExpiry channel => Sys2Proof.Machine.execStaleHoldTimerExpiry channel s
  | .millisecondPointDue => Sys2Proof.Machine.execMillisecondPointDue s
  | .bagDeadline slot => Sys2Proof.Machine.execBagDeadline slot s
  | .shuttleDeadlineExpiry shuttle => Sys2Proof.Machine.execShuttleDeadlineExpiry shuttle s
  | .confirmationDeadline entry => Sys2Proof.Machine.execConfirmationDeadline entry s
  | .assemblyTimeout => Sys2Proof.Machine.execAssemblyTimeout s
  | .lotReportRetry => Sys2Proof.Machine.execLotReportRetry s
  | .deliveryReportRetry => Sys2Proof.Machine.execDeliveryReportRetry s
  | .alertRetry => Sys2Proof.Machine.execAlertRetry s
  | .placeWriteComplete storeErr readErr => Sys2Proof.Machine.execPlaceWriteComplete storeErr readErr s
  | .rewriteComplete readErr storeErr verifyErr => Sys2Proof.Machine.execRewriteComplete readErr storeErr verifyErr s
  | .traceReadComplete readErr => Sys2Proof.Machine.execTraceReadComplete readErr s
  | .warmRestart => Sys2Proof.Machine.execWarmRestart s
  | .warmRestartComplete => Sys2Proof.Machine.execWarmRestartComplete s
  | .readStatus => Sys2Proof.Machine.execReadStatus s
  | .readTable => Sys2Proof.Machine.execReadTable s
  | .writeChannelMap cfg => Sys2Proof.Machine.execWriteChannelMap cfg s
  | .writeTrackChannels cfg => Sys2Proof.Machine.execWriteTrackChannels cfg s
  | .writeStageGeometry cfg => Sys2Proof.Machine.execWriteStageGeometry cfg s
  | .writeGuardTable cfg => Sys2Proof.Machine.execWriteGuardTable cfg s
  | .writeRecipes cfg => Sys2Proof.Machine.execWriteRecipes cfg s
  | .writeShuttleTable cfg => Sys2Proof.Machine.execWriteShuttleTable cfg s
  | .writeAlertRoutes cfg => Sys2Proof.Machine.execWriteAlertRoutes cfg s
  | .writeLineConfiguration cfg => Sys2Proof.Machine.execWriteLineConfiguration cfg s
  | .writeAuthorityList cfg => Sys2Proof.Machine.execWriteAuthorityList cfg s
  | .setMode cfg => Sys2Proof.Machine.execSetMode cfg s
  | .openLot cfg => Sys2Proof.Machine.execOpenLot cfg s
  | .closeLot cfg => Sys2Proof.Machine.execCloseLot cfg s
  | .placeHold cfg => Sys2Proof.Machine.execPlaceHold cfg s
  | .releaseHold cfg => Sys2Proof.Machine.execReleaseHold cfg s
  | .readRecord => Sys2Proof.Machine.execReadRecord s
  | .list => Sys2Proof.Machine.execList s
  | .startChannel cfg => Sys2Proof.Machine.execStartChannel cfg s
  | .stopChannel cfg => Sys2Proof.Machine.execStopChannel cfg s
  | .enableShuttle cfg => Sys2Proof.Machine.execEnableShuttle cfg s
  | .requeuePallet cfg => Sys2Proof.Machine.execRequeuePallet cfg s
  | .clearAlerts cfg => Sys2Proof.Machine.execClearAlerts cfg s
  | .restart cfg => Sys2Proof.Machine.execRestart cfg s

end Sys2Proof.Machine
end

