-- ==== Sys2Proof/Safety.lean ====
section
/-! DEFINITION. What every run keeps, and the words in which the statements speak. -/

namespace Sys2Proof.Machine

/-! ## What every step keeps -/

/-- The trace memory is in its canonical form. -/
def MemoryWf (s : State) : Prop := Memory.wf s.mem = true

/-- The place of an SPI operation is one of the 1,024 (R149). -/
def SpiOp.inRange : SpiOp → Prop
  | .write p _ => p < 1024
  | .rewrite p _ => p < 1024
  | .read p _ => p < 1024

/-- The work set apart at a warm restart names places of the table (R161). -/
def RestartWork.inRange (w : RestartWork) : Prop :=
  (∀ q ∈ w.writes, q.place < 1024) ∧ ∀ x ∈ w.rewrites, x.1 < 1024

/-- Every place that the trace memory controller or the decision list holds is one of the 1,024 (R149). -/
structure PlacesInTable (c : Chip) : Prop where
  table : c.tm.places.length = 1024
  pointer : c.tm.pointer < 1024
  writes : ∀ q ∈ c.tm.writeQueue, q.place < 1024
  marks : ∀ p ∈ c.tm.marks, p < 1024
  spi : ∀ op, c.tm.spi = some op → op.inRange
  reading : ∀ p, c.tm.readWaiting = some p → p < 1024
  restart : ∀ w, c.tm.restart = some w → w.inRange
  decisions : ∀ e ∈ c.ba.decisions, ∀ p, e.place = some p → p < 1024

/-- The ring state is what the error counts and BYP make it (R14), the counts are in their ranges (R3, R13), and the
recovery timer runs exactly while the transmit error count is 256 or more and the receive error count is 0 (R16). A part
in its reset condition has the power-on counts and state (R20). -/
structure RingAgrees (c : Chip) : Prop where
  rx : c.rp.rxErr ≤ 255
  tx : c.rp.txErr ≤ 263
  recovery : c.rp.recovery.isSome = true ↔ 256 ≤ c.rp.txErr ∧ c.rp.rxErr = 0
  runs : c.pins.running = true → c.rp.ring = ringStateOf c.rp.txErr c.rp.rxErr c.pins.byp
  held : c.pins.running = false → c.rp.ring = .active ∧ c.rp.txErr = 0 ∧ c.rp.rxErr = 0

/-- The sizes of the part's tables and sets: intake channels and zones (R22, R34); track
channels, positions and unsent marks (R40, R52); crediting zones (R80); recipes and lots (R109, R111); slots and carried
gate reasons (R127, R145); shuttles (R166); guards and fault counts (R185, R193); pending kinds, routes and authority
(R198, R203, R204). -/
def tableSizes (c : Chip) : List Nat :=
  [c.si.chans.length, c.si.zones.length, c.tc.chans.length, c.tc.positions.length, c.tc.unsent.length,
   c.de.zones.length, c.lh.recipes.length, c.lh.lots.length, c.ba.slots.length, c.ba.carried.length, c.td.shuttles.length,
   c.ag.guards.length, c.ag.faults.length, c.ma.pending.length, c.ma.routes.length, c.ma.authority.length]

/-- Every table has the size the spec gives it. -/
def TablesSized (c : Chip) : Prop := tableSizes c = [48, 6, 8, 48, 8, 6, 16, 8, 4, 8, 4, 64, 8, 19, 19, 4]

/-- The state in which an event has made the part `c` and the grants at the event's end have been made (R8, R152; log
entry 7). -/
def State.after (s : State) (c : Chip) : State := { s with chip := settle c }

/-- A property that every step keeps. -/
def KeptByStep (inv : State → Prop) : Prop := ∀ s t, inv s → step s = .next t → inv t

/-! ## Requests -/

/-- The row that writes a table (R199). -/
def writeRow (t : Table) (cfg : Bool) : Instr :=
  match t with
  | .channelMap => .writeChannelMap cfg | .tracks => .writeTrackChannels cfg | .geometry => .writeStageGeometry cfg
  | .guards => .writeGuardTable cfg | .recipes => .writeRecipes cfg | .shuttles => .writeShuttleTable cfg
  | .routes => .writeAlertRoutes cfg | .line => .writeLineConfiguration cfg | .authority => .writeAuthorityList cfg

/-- The row that a write-class request code names, but for WRITE-TABLE (R200). -/
def writeCodeRow (code : Nat) (cfg : Bool) : Option Instr :=
  match code with
  | 4 => some (.setMode cfg) | 5 => some (.openLot cfg) | 6 => some (.closeLot cfg) | 7 => some (.placeHold cfg)
  | 8 => some (.releaseHold cfg) | 11 => some (.startChannel cfg) | 12 => some (.stopChannel cfg)
  | 13 => some (.enableShuttle cfg) | 14 => some (.requeuePallet cfg) | 15 => some (.clearAlerts cfg)
  | 16 => some (.restart cfg) | _ => none

/-- The row that a read-class request code names (R200). -/
def readCodeRow (code : Nat) : Option Instr :=
  match code with
  | 1 => some .readStatus | 2 => some .readTable | 9 => some .readRecord | 10 => some .list | _ => none

/-- A running part has `r` at the head of its request queue, and no request is executing (R197). -/
def HasRequest (s : State) (r : Request) : Prop := s.chip.pins.running = true ∧ headRequest s.chip = some r

/-- The head request suits its code (R198, check 1). -/
def Asked (s : State) (r : Request) : Prop := HasRequest s r ∧ formatOk r = true

/-- The head request suits its code, and its origin may write with CFG at a level (R198, checks 1 and 2). -/
def Allowed (cfg : Bool) (s : State) (r : Request) : Prop :=
  Asked s r ∧ (cfg = true ∨ some r.origin ∈ s.chip.ma.authority)

/-- The state in which request `r` has been answered with a status and words, its execution having made the part `c`. -/
def State.answered (s : State) (r : Request) (st : Status) (ws : List Word) (c : Chip) : State :=
  s.after (endRequest r st ws c)

end Sys2Proof.Machine
end

