-- ==== Sys2Proof/Certificates/Slice0/Obligations.lean ====
section
/-! DEFINITION. The statements for the provers. A statement about a command concludes what `exec` answers; `s.after c`
is the state whose part is `c` after the grants of the transmitter and of the SPI master (R8, R152) that are left at the
end of an event (log entry 7); `s.answered r st ws c` is the same after the answer to request `r`. -/

open Sys2Proof Sys2Proof.Machine

/-! ## The step -/

/-- A step runs the command at the front of the queue on the queue's rest. -/
def Obligations.StepRunsFrontCommand : Prop :=
  ∀ (i : Instr) (rest : List Instr) (s : State),
    step { s with pending := i :: rest } = exec i { s with pending := rest }

/-- On an empty queue (the model's choice, log entry 2): a part in its reset condition does nothing; otherwise the
next due event, the first in the order of `nextDue` (the model's choice, log entry 26), becomes the waiting command,
and where none is due a millisecond passes, ten deciseconds to the second (R1). Line time stays at 4,294,967,295 (the
model's choice, log entry 5). -/
def Obligations.IdleStepLetsTimePass : Prop :=
  ∀ s : State, s.pending = [] →
    (s.chip.pins.running = false → step s = .next s) ∧
    (s.chip.pins.running = true → ∀ i, nextDue s.chip = some i → step s = .next { s with pending := [i] }) ∧
    (s.chip.pins.running = true → nextDue s.chip = none →
      step s = .next { s with chip := { s.chip with clock :=
        { ms := s.chip.clock.ms + 1,
          line := if s.chip.clock.sub = 99 then min (s.chip.clock.line + 1) 4294967295 else s.chip.clock.line,
          sub := if s.chip.clock.sub = 99 then 0 else s.chip.clock.sub + 1 } } })

/-! ## Power-on reset -/

/-- Power-on reset puts every block at its power-on state, which is also the state the model starts from, and keeps the
trace memory (R160, R205); the ring port's share is the table of R20. BYP and CFG are the surroundings' levels: low in
the first state (the model's choice, log entry 4). -/
def Obligations.PowerOnRingPort : Prop :=
  (∀ s : State, exec .powerOnReset s = .next { s with chip := Chip.power s.chip.pins.byp s.chip.pins.cfg }) ∧
  State.reset = { pending := [], mem := [], chip := Chip.power false false } ∧
  ∀ byp cfg : Bool, ∀ c : Chip, c = Chip.power byp cfg →
    c.rp.rxErr = 0 ∧ c.rp.txErr = 0 ∧ c.rp.recovery = none ∧ c.rp.txQueue = [] ∧ c.rp.returnList = [] ∧
    c.rp.forward = [] ∧ c.rp.overflow = 0 ∧ c.rp.nextSeq = 0 ∧ c.rp.epoch = 0 ∧ c.rp.epochPresent = false ∧
    c.rp.ring = .active ∧ c.rp.rx = none ∧ c.rp.tx = none ∧ c.pins.rly = false ∧ c.pins.stopN = true ∧
    c.pins.running = false ∧ c.pins.byp = byp ∧ c.pins.cfg = cfg ∧ c.clock.line = 0

/-- R76: at power-on reset every record is free and the queues are empty, the geometry has no written mark and fields
0, the next-id counter, the last nominal mass and the stray count are 0, the totaliser reference is absent and the gap
set is empty. No reset that frees records tells LH anything: after it every lot is FREE, and no report stands in RP's
queue. -/
def Obligations.PowerOnSegments : Prop :=
  (∀ s : State, ∃ t, exec .powerOnReset s = .next t ∧
    t.chip.st =
      { blanch := { written := false, encoder := 0, length := 0, segLen := 0, cutChannel := 0, void := 0, zones := 0,
                    zoneStarts := [0, 0, 0, 0, 0], decision := 0, gate := 0 },
        chill := { written := false, encoder := 0, length := 0, entry := 0 },
        freeze := { written := false, encoder := 0, length := 0, entry := 0, decision := 0, gate := 0, winStart := 0,
                    winEnd := 0 },
        qBlanch := [], qChill := [], qFreeze := [], qSurge := [], nextId := 0, totalRef := none, lastNominal := 0,
        gapSet := 0, stray := 0 } ∧
    freeRecords t.chip.st = 256 ∧ t.chip.lh.lots = List.replicate 8 none ∧ t.chip.rp.txQueue = []) ∧
  ∀ s : State, s.chip.pins.running = true → s.chip.ma.phase = .restartReady →
    ∃ t, exec .warmRestart s = .next t ∧ freeRecords t.chip.st = 256 ∧ t.chip.lh.lots = List.replicate 8 none ∧
      t.chip.rp.txQueue = []

/-- R147: at power-on reset every slot is FREE, the pallet table, the decision list and the carried gate reasons are
empty, the kept item values and the last overrun bag are absent, every count is 0 and PALLET-FULL is false. -/
def Obligations.PowerOnBags : Prop :=
  ∀ s : State, ∃ t, exec .powerOnReset s = .next t ∧
    t.chip.ba.slots = [none, none, none, none] ∧ t.chip.ba.pallets = [] ∧ t.chip.ba.nextPallet = 0 ∧
    t.chip.ba.decisions = [] ∧ t.chip.ba.carried = List.replicate 8 0 ∧
    t.chip.ba.keptMade = none ∧ t.chip.ba.keptWeight = none ∧ t.chip.ba.keptCode = none ∧ t.chip.ba.keptMetal = none ∧
    t.chip.ba.lastOverrun = none ∧ t.chip.ba.overruns = 0 ∧ t.chip.ba.lostRecords = 0 ∧ t.chip.ba.lotless = 0 ∧
    t.chip.ba.orphans = 0 ∧ t.chip.ba.strayGate = 0 ∧ palletFull t.chip = false

/-- What power-on reset leaves in the other blocks, every field and every table at its length: SI (R39), TC (R56), DE
(R94), FV (R108), LH (R125), TM (R160), TD (R179), AG (R195) and MA (R205). The role and the source of an entry never
written, the ON end and the next fire of a channel that never ran are the model's (absent, 0: log entry 27). -/
def Obligations.PowerOnBlocks : Prop :=
  ∀ s : State, ∃ t, exec .powerOnReset s = .next t ∧
    t.chip.si.chans = List.replicate 48
      { cfg := { enabled := false, filter := 0, mask := 0, role := none, offset := 0, gain := 0, low := 0, high := 0,
                 freshTimeout := 0, staleTimeout := 0, partner := none },
        dyn := { latest := none, fresh := .stale, freshTimer := none, staleTimer := none, ref := none, accepted := 0,
                 bad := 0, suspects := 0, clamps := 0 } } ∧
    t.chip.si.zones = List.replicate 6 { temp := none, state := .stale } ∧
    t.chip.tc.chans = List.replicate 8
      { cfg := { mode := .off, source := .unset, length := 0, delay := 0, width := 0, trigger := .command,
                 policy := .ignore, cond := .always, output := none },
        dyn := { state := .stopped, pend := [], onEnd := 0, pulse := none, awaiting := [], remainder := 0, nextFire := 0,
                 lastLevel := none, filtered := none,
                 capture := { last := none, prev := none, counts := none, interval := none, overflow := false,
                              span := false },
                 fires := 0, refused := 0, skipped := 0 } } ∧
    t.chip.tc.positions = List.replicate 48 0 ∧ t.chip.tc.unsent = List.replicate 8 false ∧
    (∀ n, ownedPoint t.chip n = none) ∧
    t.chip.de.zones = List.replicate 6
      { write := .none, state := .stale, creditTime := none, lastTemp := none, credits := 0, skipped := 0, gaps := 0,
        staleZones := 0 } ∧
    t.chip.fv = { chillState := .stale, prevChill := none, exitState := .stale, window := [], lateChill := 0,
                  warmChill := 0, underDwell := 0, noExit := 0, warmExit := 0, unapplied := 0 } ∧
    freezerLimit t.chip = none ∧
    t.chip.lh.recipes = List.replicate 16
      { product := 0, valid := false, tbase := 0, table := List.replicate 64 0, target := 0, maximum := 0,
        chillWindow := 0, chillLimit := 0, warmAllowance := 0, dwell := 0, exitLimit := 0, bagTarget := 0, tare := 0,
        under := 0, overweight := 0, needWeight := false, needCode := false, needMetal := false, permille := 0,
        bagsPerCase := 0, casesPerPallet := 0, budget := 0, expReference := 0, assumedDock := 0 } ∧
    t.chip.lh.lots = List.replicate 8 none ∧ openLot? t.chip = none ∧
    t.chip.tm.places = List.replicate 1024 { state := .archived, fields := none } ∧ t.chip.tm.marks = [] ∧
    t.chip.tm.holding = none ∧ t.chip.tm.readWaiting = none ∧ t.chip.tm.restart = none ∧
    t.chip.tm.pointer = 0 ∧ t.chip.tm.writeQueue = [] ∧ traceBacklog t.chip = false ∧ t.chip.tm.spi = none ∧
    t.chip.tm.verifyFail = 0 ∧ t.chip.tm.corrected = 0 ∧ t.chip.tm.uncorrectable = 0 ∧
    t.chip.td.shuttles = List.replicate 4
      { written := false, point := 0, load := 0, airlock := 0, delivery := 0, state := .offline, enabled := false,
        pallet := none, deadline := none, late := 0, mismatch := 0, faults := 0 } ∧
    t.chip.td.dock = [] ∧ t.chip.td.lost = 0 ∧ t.chip.td.lastHanding = none ∧
    t.chip.ag.mode = .offline ∧
    t.chip.ag.guards = List.replicate 64
      { enabled := false, filter := 0, mask := 0, cond := .always, action := .pass, low := 0, high := 0, force := 0 } ∧
    t.chip.ag.traps = [] ∧ t.chip.ag.trapCount = 0 ∧ t.chip.ag.shadows = [] ∧ t.chip.ag.unshadowed = 0 ∧
    t.chip.ag.confirms = [] ∧ t.chip.ag.confOverflow = 0 ∧ t.chip.ag.faults = List.replicate 8 0 ∧
    t.chip.ma.queue = [] ∧ t.chip.ma.phase = .idle ∧ t.chip.ma.assembly = none ∧
    t.chip.ma.pending = List.replicate 19 none ∧ t.chip.ma.lastHanding = none ∧
    t.chip.ma.routes = List.replicate 19 { dest := none, stop := false } ∧ t.chip.ma.authority = List.replicate 4 none ∧
    t.chip.ma.config = { returnTimeout := 10, recovery := 60, split := 20, reserve := 16, bagDeadline := 2000,
                         pausePoint := none, reportDest := 255 }

/-! ## What every step keeps, and that commands go on -/

/-- Every step keeps the trace memory in its canonical form. -/
def Obligations.MemoryStaysCanonical : Prop := KeptByStep MemoryWf

/-- Every step keeps the trace memory controller's index at 1,024 places, and inside the table every place that TM
holds (write pointer, write queue, rewrite marks, operation under way, waiting read, work set apart at a warm restart)
and every place in the decision list (R149). The first and last bag trace place of a pallet are not among them. -/
def Obligations.PlacesStayInTable : Prop := KeptByStep fun s => PlacesInTable s.chip

/-- Every step keeps the ring state what the error counts and BYP make it, the counts in their ranges, and the recovery
timer running exactly under its conditions (R3, R13, R14, R16). -/
def Obligations.RingStateStaysTrue : Prop := KeptByStep fun s => RingAgrees s.chip

/-- Every step keeps the sizes of the tables. -/
def Obligations.TablesKeepTheirSizes : Prop := KeptByStep fun s => TablesSized s.chip

/-- The state after reset meets the four. -/
def Obligations.ResetMeetsInvariants : Prop :=
  MemoryWf State.reset ∧ PlacesInTable State.reset.chip ∧ RingAgrees State.reset.chip ∧ TablesSized State.reset.chip

/-- Every command answers a next state, in every state whose places are in the table (every state a run reaches). -/
def Obligations.EveryCommandGoesOn : Prop :=
  ∀ (i : Instr) (s : State), PlacesInTable s.chip → ∃ t, exec i s = .next t

/-- The one stop: an operation that ends on a place beyond the 1,024 of R150. No command is refused. -/
def Obligations.StopsOutsideTraceMemory : Prop :=
  (∀ (s : State) (p : Nat), 1024 ≤ p → s.chip.pins.running = true →
    (∀ r a b, s.chip.tm.spi = some (.write p r) → exec (.placeWriteComplete a b) s = .fault .outsideTraceMemory) ∧
    (∀ h a b d, s.chip.tm.spi = some (.rewrite p h) → exec (.rewriteComplete a b d) s = .fault .outsideTraceMemory) ∧
    (∀ e a, s.chip.tm.spi = some (.read p e) → exec (.traceReadComplete a) s = .fault .outsideTraceMemory)) ∧
  ∀ (i : Instr) (s : State) (r : Refusal), exec i s ≠ .refused r

/-- No command changes the queue of waiting commands. -/
def Obligations.CommandsLeaveTheQueue : Prop :=
  ∀ (i : Instr) (s t : State), exec i s = .next t → t.pending = s.pending

/-- Every command but the completions of a place write and of a rewrite leaves every byte of the trace memory: that an
operation stores at its completion alone is the model's choice (log entry 6). Those two, on place `p`, store only to
its 64 bytes at `placeAddr p` and its 8 check codes at `codeAddr p` (R150); with no such operation on the SPI master,
and while the part does not run, they store nothing (log entry 3). -/
def Obligations.StoresStayInTheirPlace : Prop :=
  (∀ (i : Instr) (s t : State), exec i s = .next t → (∀ a b, i ≠ .placeWriteComplete a b) →
    (∀ a b d, i ≠ .rewriteComplete a b d) → ∀ a, Memory.read t.mem a = Memory.read s.mem a) ∧
  (∀ (p : Nat) (r : BagRecord) (a b : List Byte) (s t : State), s.chip.tm.spi = some (.write p r) →
    exec (.placeWriteComplete a b) s = .next t → ∀ x, ¬ (placeAddr p ≤ x ∧ x < placeAddr p + 64) →
      ¬ (codeAddr p ≤ x ∧ x < codeAddr p + 8) → Memory.read t.mem x = Memory.read s.mem x) ∧
  (∀ (p : Nat) (h : HoldSet) (a b d : List Byte) (s t : State), s.chip.tm.spi = some (.rewrite p h) →
    exec (.rewriteComplete a b d) s = .next t → ∀ x, ¬ (placeAddr p ≤ x ∧ x < placeAddr p + 64) →
      ¬ (codeAddr p ≤ x ∧ x < codeAddr p + 8) → Memory.read t.mem x = Memory.read s.mem x) ∧
  (∀ (a b : List Byte) (s t : State),
    (s.chip.pins.running = false ∨ ∀ p r, s.chip.tm.spi ≠ some (.write p r)) →
      exec (.placeWriteComplete a b) s = .next t → t.mem = s.mem) ∧
  ∀ (a b d : List Byte) (s t : State),
    (s.chip.pins.running = false ∨ ∀ p h, s.chip.tm.spi ≠ some (.rewrite p h)) →
      exec (.rewriteComplete a b d) s = .next t → t.mem = s.mem

/-- A part in its reset condition takes no command but those at its pins (R20): the others change nothing. -/
def Obligations.HeldPartIgnoresCommands : Prop :=
  ∀ (i : Instr) (s : State), s.chip.pins.running = false → i ≠ .powerOnReset → (∀ n, i ≠ .rstNRise n) →
    i ≠ .bypAssert → i ≠ .bypDeassert → exec i s = .next s

/-! ## Pins -/

/-- RST_N rises (R20): a valid address is taken, RLY goes high unless BYP is high, and then the part starts ISOLATED
with RING-ISOLATED raised; with address 0 or 255 the part stays in its reset condition. A second rise, without a
power-on reset between, cannot occur and changes nothing (log entry 3). The subject 0 of an alert whose subject is none
is the model's choice (log entry 47). -/
def Obligations.RiseOfResetStartsPart : Prop :=
  ∀ (node : Byte) (s : State),
    (s.chip.pins.rstN = false → node ≠ 0 → node ≠ 255 → s.chip.pins.byp = false →
      exec (.rstNRise node) s = .next (s.after { s.chip with
        pins := { s.chip.pins with rstN := true, running := true, node := node, rly := true } })) ∧
    (s.chip.pins.rstN = false → node ≠ 0 → node ≠ 255 → s.chip.pins.byp = true →
      exec (.rstNRise node) s = .next (s.after (raise .ringIsolated .none 0 { s.chip with
        pins := { s.chip.pins with rstN := true, running := true, node := node, rly := false },
        rp := { s.chip.rp with ring := .isolated } }))) ∧
    (s.chip.pins.rstN = false → (node = 0 ∨ node = 255) →
      exec (.rstNRise node) s = .next { s with chip := { s.chip with pins := { s.chip.pins with rstN := true } } }) ∧
    (s.chip.pins.rstN = true → exec (.rstNRise node) s = .next s)

/-- BYP is read as a level (R17): its assertion isolates the part unless it is isolated; its deassertion lets the
counts decide, and the part then leaves ISOLATED by the steps of R18: relay, owned points, unsent alerts, then
RING-DEGRADED or the kept reports, and TD's arbitration (the order of the last is log entry 8). The owned points in use
are handed again from 0 to 7, each with its intended state and its own timeout (R55; pause point: R52, R201). A part
that does not run records the level alone. The subject 0 of an alert whose subject is none is the model's choice (log
entry 47). -/
def Obligations.BypassFollowsItsPin : Prop :=
  (∀ s : State,
     (s.chip.pins.running = true → s.chip.rp.ring ≠ .isolated →
       exec .bypAssert s = .next (s.after (isolatedEntry { s.chip with pins := { s.chip.pins with byp := true } }))) ∧
     (s.chip.pins.running = true → s.chip.rp.ring = .isolated →
       exec .bypAssert s = .next (s.after { s.chip with pins := { s.chip.pins with byp := true } })) ∧
     (s.chip.pins.running = true → RingAgrees s.chip → s.chip.pins.byp = true → 256 ≤ s.chip.rp.txErr →
       exec .bypDeassert s = .next (s.after { s.chip with pins := { s.chip.pins with byp := false } })) ∧
     (s.chip.pins.running = true → RingAgrees s.chip → s.chip.pins.byp = true → s.chip.rp.txErr < 256 →
       (127 < s.chip.rp.txErr ∨ 127 < s.chip.rp.rxErr) →
       exec .bypDeassert s = .next (s.after (arbitrate (raise .ringDegraded .none 0
         (handAllUnsent (resendAll { s.chip with pins := { s.chip.pins with byp := false, rly := true },
                                                 rp := { s.chip.rp with ring := .passive } })))))) ∧
     (s.chip.pins.running = true → RingAgrees s.chip → s.chip.pins.byp = true → s.chip.rp.txErr ≤ 127 →
       s.chip.rp.rxErr ≤ 127 →
       exec .bypDeassert s = .next (s.after (arbitrate (handWaitingLots (handWaitingDeliveries
         (handAllUnsent (resendAll { s.chip with pins := { s.chip.pins with byp := false, rly := true },
                                                 rp := { s.chip.rp with ring := .active } }))))))) ∧
     (s.chip.pins.running = true → RingAgrees s.chip → s.chip.pins.byp = false →
       exec .bypDeassert s = .next (s.after s.chip)) ∧
     (s.chip.pins.running = false →
       exec .bypAssert s = .next { s with chip := { s.chip with pins := { s.chip.pins with byp := true } } } ∧
       exec .bypDeassert s = .next { s with chip := { s.chip with pins := { s.chip.pins with byp := false } } })) ∧
  -- The owned points are handed again (R55, R182).
  ((∀ c : Chip, resendAll c = (List.range 8).foldl (fun d n => sendIntended n d) c) ∧
   ∀ (n : Nat) (c : Chip),
     (ownedPoint c n = none → sendIntended n c = c) ∧
     ∀ key v, ownedPoint c n = some (key, v) →
       (∀ o, (trackChan c n).cfg.output = some o →
         sendIntended n c = (sendValue n key v (.channel n) none o.timeout c).1) ∧
       ∀ p, (trackChan c n).cfg.output = none → c.ma.config.pausePoint = some p →
         sendIntended n c = (sendValue n key v .pause none p.timeout c).1)

/-- Entry into ISOLATED (R15), whatever its cause: RLY low, the transmit queue, the return list and the forward buffer
empty, nothing leaving, a frame in reception forwarded no further, no report QUEUED any more (R117, R176), no assembly
(R196), of MA's request queue the request that is executing alone (R197), the wait of RESTART for its answer over
(R206; its answer in the return list: log entry 22), then RING-ISOLATED raised, and nothing else changed (the order:
log entry 8). By BYP, what the whole event leaves: besides these, both counts, the recovery timer and the overflow
count as they were, and RING-ISOLATED pending. The subject 0 of an alert whose subject is none is the model's choice
(log entry 47). -/
def Obligations.IsolationEmptiesTheRingPort : Prop :=
  (∀ (c : Chip) (queue : List Request) (phase : MaPhase) (waits : ReportState → ReportState),
     (c.ma.phase = .reading → queue = c.ma.queue.take 1) → (c.ma.phase ≠ .reading → queue = []) →
     (c.ma.phase = .restartWait → phase = .restartReady) → (c.ma.phase ≠ .restartWait → phase = c.ma.phase) →
     waits .queued = .waiting → waits .waiting = .waiting → waits .none = .none →
     isolatedEntry c = raise .ringIsolated .none 0 { c with
       pins := { c.pins with rly := false }
       rp := { c.rp with ring := .isolated, txQueue := [], returnList := [], forward := [],
                         rx := c.rp.rx.map (fun r => { r with fwd := .notForwarded }), tx := none }
       ma := { c.ma with assembly := none, queue := queue, phase := phase }
       lh := { c.lh with lots := c.lh.lots.map fun l => l.map fun e => { e with report := waits e.report } }
       ba := { c.ba with pallets := c.ba.pallets.map fun p => { p with report := waits p.report } } }) ∧
  ∀ s : State, s.chip.pins.running = true → s.chip.rp.ring ≠ .isolated → TablesSized s.chip →
    ∃ t, exec .bypAssert s = .next t ∧
      t.chip.pins.rly = false ∧ t.chip.rp.ring = .isolated ∧ t.chip.rp.txQueue = [] ∧ t.chip.rp.returnList = [] ∧
      t.chip.rp.forward = [] ∧ t.chip.rp.tx = none ∧
      t.chip.rp.rx = s.chip.rp.rx.map (fun r => { r with fwd := .notForwarded }) ∧ t.chip.rp.rxErr = s.chip.rp.rxErr ∧
      t.chip.rp.txErr = s.chip.rp.txErr ∧ t.chip.rp.recovery = s.chip.rp.recovery ∧
      t.chip.rp.overflow = s.chip.rp.overflow ∧ (pendingAlert t.chip .ringIsolated).isSome = true ∧
      (∀ l, some l ∈ t.chip.lh.lots → l.report ≠ .queued) ∧ (∀ p ∈ t.chip.ba.pallets, p.report ≠ .queued) ∧
      t.chip.ma.assembly = none ∧ (s.chip.ma.phase ≠ .reading → t.chip.ma.queue = []) ∧
      (s.chip.ma.phase = .reading → s.chip.tm.readWaiting = none →
        t.chip.ma.queue = s.chip.ma.queue.take 1 ∧ t.chip.ma.phase = .reading) ∧
      (s.chip.ma.phase = .restartWait → t.chip.ma.phase = .restartReady)

/-! ## The ring port -/

/-- A change of the error counts (R14, R16): the recovery timer runs, from its start, while the transmit count is 256
or more and the receive count is 0; the ring state is re-evaluated, and each change of it has the effects of R14, R15
and R18. A frame that may be sent in the new state begins to leave before what the change hands (R8; log entry 7). The
subject 0 of an alert whose subject is none is the model's choice (log entry 47). -/
def Obligations.RingStateFollowsErrorCounts : Prop :=
  ∀ (rx tx : Nat) (c d : Chip) (new : RingState),
    d = { c with rp := { c.rp with rxErr := rx, txErr := tx, recovery :=
            if 256 ≤ tx ∧ rx = 0 then some (c.rp.recovery.getD c.clock.ms) else none } } →
    new = (if c.pins.byp = true ∨ 256 ≤ tx then .isolated else if 127 < tx ∨ 127 < rx then .passive else .active) →
    (c.rp.ring = new → setErrors rx tx c = d) ∧
    (c.rp.ring = .active → new = .passive →
      setErrors rx tx c = raise .ringDegraded .none 0 (txGrant { d with rp := { d.rp with ring := .passive } })) ∧
    (c.rp.ring = .passive → new = .active →
      setErrors rx tx c = handWaitingLots (handWaitingDeliveries (txGrant { d with rp := { d.rp with ring := .active } }))) ∧
    (c.rp.ring ≠ .isolated → new = .isolated → setErrors rx tx c = isolatedEntry d) ∧
    (c.rp.ring = .isolated → new = .passive →
      setErrors rx tx c = arbitrate (raise .ringDegraded .none 0 (handAllUnsent (resendAll
        { d with pins := { d.pins with rly := true }, rp := { d.rp with ring := .passive } })))) ∧
    (c.rp.ring = .isolated → new = .active →
      setErrors rx tx c = arbitrate (handWaitingLots (handWaitingDeliveries (handAllUnsent (resendAll
        { d with pins := { d.pins with rly := true }, rp := { d.rp with ring := .active } })))))

/-- A line frame on the Downstream receive pair is discarded, whatever its bytes (R2). A command of reception with nothing
in reception, or a header while a frame is in reception, cannot occur and changes nothing (the model's choice, log entry
3). -/
def Obligations.FramesOutOfTurnAreDiscarded : Prop :=
  (∀ (bytes : List Byte) (s : State), exec (.downstreamRxFrame bytes) s = .next s) ∧
  ∀ s : State, s.chip.pins.running = true →
    (∀ payload good, s.chip.rp.rx = none → exec (.receptionComplete payload good) s = .next (s.after s.chip)) ∧
    ∀ h r, s.chip.rp.rx = some r → exec (.headerEnd h) s = .next (s.after s.chip)

/-- The end of a header (R2, R4 to R6). An Ethernet frame that is no line frame is taken as one of unknown kind (R2;
log entry 9). Not forwarded: while ISOLATED, a bad header, the part's own origin or destination. Cut-through: not
ACTUATE, an empty forward buffer and an idle transmitter. Otherwise the frame enters the buffer, where 8 frames are
the most; beyond them it is not forwarded and adds 1 to the overflow count. -/
def Obligations.HeaderDecidesForwarding : Prop :=
  (∀ s : State, s.chip.pins.running = true → s.chip.rp.rx = none →
    exec (.headerEnd none) s = .next (s.after { s.chip with rp := { s.chip.rp with
      rx := some { header := { kind := 0, origin := 0, dest := 0, seq := 0, count := 0 }, fwd := .notForwarded } } })) ∧
  ∀ (h : Header) (s : State), s.chip.pins.running = true → s.chip.rp.rx = none →
    ((s.chip.rp.ring = .isolated ∨ h.kind.toNat = 0 ∨ 7 < h.kind.toNat ∨ h.count.toNat = 0 ∨ 16 < h.count.toNat ∨
        h.origin = s.chip.pins.node ∨ h.dest = s.chip.pins.node) →
      exec (.headerEnd (some h)) s = .next (s.after { s.chip with rp := { s.chip.rp with
        rx := some { header := h, fwd := .notForwarded } } })) ∧
    (∀ k, frameKind? h.kind = some k → s.chip.rp.ring ≠ .isolated → 1 ≤ h.count.toNat → h.count.toNat ≤ 16 →
      h.origin ≠ s.chip.pins.node → h.dest ≠ s.chip.pins.node →
      (k ≠ .actuate → s.chip.rp.forward = [] → s.chip.rp.tx = none →
        exec (.headerEnd (some h)) s = .next (s.after { s.chip with rp := { s.chip.rp with
          rx := some { header := h, fwd := .cutThrough },
          tx := some { header := h, body := none, badCheck := false } } })) ∧
      ((k = .actuate ∨ s.chip.rp.forward ≠ [] ∨ s.chip.rp.tx ≠ none) → s.chip.rp.forward.length < 8 →
        exec (.headerEnd (some h)) s = .next (s.after { s.chip with rp := { s.chip.rp with
          rx := some { header := h, fwd := .buffered },
          forward := s.chip.rp.forward ++
            [{ frame := { kind := k, origin := h.origin, dest := h.dest, seq := h.seq, items := [] },
               receiving := true, unchecked := decide (k = .actuate) }] } })) ∧
      ((k = .actuate ∨ s.chip.rp.forward ≠ [] ∨ s.chip.rp.tx ≠ none) → 8 ≤ s.chip.rp.forward.length →
        exec (.headerEnd (some h)) s = .next (s.after { s.chip with rp := { s.chip.rp with
          rx := some { header := h, fwd := .overflowed }, overflow := min (s.chip.rp.overflow + 1) 65535 } })))

/-- A frame is bad exactly where its kind is none of the seven, its item count is 0 or above 16, its length is too short
for its count, or its frame check fails (R3). -/
def Obligations.BadFramesAreTheFourOfTheManual : Prop :=
  ∀ (h : Header) (payload : List Byte) (checkGood : Bool),
    goodItems h payload checkGood = none ↔
      h.kind.toNat = 0 ∨ 7 < h.kind.toNat ∨ h.count.toNat = 0 ∨ 16 < h.count.toNat ∨
        payload.length < 7 * h.count.toNat ∨ checkGood = false

/-- Reception completes (R3 to R5): a bad frame adds 1 to the receive error count, up to 255, is delivered to no
block, and leaves the buffer, or ends cut-through with the items received, unchanged, and a wrong frame check; a good
one subtracts 1 and is disposed of by the first row of R4 that holds. That a MGMT-REQ is delivered by the ring state
that stands when its reception completes is the model's choice (log entry 39). The items of a SAMPLE frame are taken
one at a time in item order (R24). The part header of a MGMT-REQ (R207): tag, code, part number, last-part mark (any
nonzero byte: log entry 28) and word count, then the words. -/
def Obligations.ReceptionCountsAndDisposes : Prop :=
  (∀ (payload : List Byte) (checkGood : Bool) (s : State) (r : Reception), s.chip.pins.running = true →
     s.chip.rp.rx = some r →
     ∀ (items : Option (List Item)) (c : Chip), items = goodItems r.header payload checkGood →
     c = { s.chip with rp := { s.chip.rp with
           rx := none,
           tx := if r.fwd = .cutThrough then
               s.chip.rp.tx.map fun t =>
                 { t with body := some (payload.take (7 * r.header.count.toNat)), badCheck := items.isNone }
             else s.chip.rp.tx,
           forward := if r.fwd = .buffered then
               (match items with
                | some l => s.chip.rp.forward.map fun e =>
                    if e.receiving then { e with receiving := false, frame := { e.frame with items := l } } else e
                | none => s.chip.rp.forward.filter fun e => !e.receiving)
             else s.chip.rp.forward } } →
     (items = none →
       exec (.receptionComplete payload checkGood) s =
         .next (s.after (setErrors (min (c.rp.rxErr + 1) 255) c.rp.txErr c))) ∧
     (∀ l k, items = some l → frameKind? r.header.kind = some k →
       ∀ d, d = setErrors (c.rp.rxErr - 1) c.rp.txErr c →
         exec (.receptionComplete payload checkGood) s = .next (s.after
           (if r.header.origin = d.pins.node then returnCheck k r.header.seq d
            else if r.header.dest = d.pins.node then
              (if k = .mgmtReq ∧ d.rp.ring ≠ .isolated then
                 (match readPart r.header.origin l with
                  | some p => takePart p d
                  | none => d)
               else d)
            else if k = .sample then takeItems l d
            else if k = .time ∧ r.header.dest = 255 then
              { d with rp := { d.rp with
                  epoch := (l.head?.map (·.value)).getD 0 - BitVec.ofNat 32 (d.clock.line / 10), epochPresent := true } }
            else d)))) ∧
  -- The items of a SAMPLE frame in order (R24), and the part header of a MGMT-REQ (R207).
  ((∀ c : Chip, takeItems [] c = c) ∧
   (∀ (it : Item) (rest : List Item) (c : Chip), takeItems (it :: rest) c = takeItems rest (takeItem it c)) ∧
   (∀ origin : Byte, readPart origin [] = none) ∧
   ∀ (origin : Byte) (h : Item) (rest : List Item), ∃ p, readPart origin (h :: rest) = some p ∧
     p.origin = origin ∧ p.tag = h.key ∧ p.code.toNat = h.value.toNat / 16777216 ∧
     p.number = h.value.toNat / 65536 % 256 ∧ (p.last = true ↔ h.value.toNat / 256 % 256 ≠ 0) ∧
     p.count = h.value.toNat % 256 ∧ p.words = rest.map (·.value))

/-- The return check (R12): the entry of the returning frame's sequence and kind is removed, wherever it stands, and the
transmit error count falls by 1, staying at 0; MA is told if the entry was the answer to RESTART (R11). A frame that
matches no entry changes nothing. Of two entries that match, the one nearer the head is removed (the model's choice, log
entry 45). -/
def Obligations.ReturnedFrameLeavesTheList : Prop :=
  (∀ (k : FrameKind) (seq : Byte) (c : Chip) (before after : List ReturnEntry) (e : ReturnEntry),
    c.rp.returnList = before ++ e :: after → (∀ x ∈ before, ¬ (x.seq = seq ∧ x.kind = k)) → e.seq = seq → e.kind = k →
    returnCheck k seq c = setErrors c.rp.rxErr (c.rp.txErr - 1)
      { c with rp := { c.rp with returnList := before ++ after },
               ma := { c.ma with phase :=
                 if e.isRestart ∧ c.ma.phase = .restartWait then .restartReady else c.ma.phase } }) ∧
  ∀ (k : FrameKind) (seq : Byte) (c : Chip), (∀ x ∈ c.rp.returnList, ¬ (x.seq = seq ∧ x.kind = k)) →
    returnCheck k seq c = c

/-- RETURN_TIMEOUT (R13): the first entry of its sequence whose timeout has passed is removed and 8 is added to the
transmit error count, which stops at 263 (that of two entries of one sequence the one nearer the head is taken is the
model's choice, log entry 45). Where no such entry is due nothing changes (log entry 3). -/
def Obligations.ExpiredEntryAddsEight : Prop :=
  (∀ (seq : Byte) (s : State) (before after : List ReturnEntry) (e : ReturnEntry), s.chip.pins.running = true →
    s.chip.rp.returnList = before ++ e :: after →
    (∀ x ∈ before, ¬ (x.seq = seq ∧ reached s.chip.clock.ms (x.sentAt + BitVec.ofNat 32 s.chip.ma.config.returnTimeout))) →
    e.seq = seq → reached s.chip.clock.ms (e.sentAt + BitVec.ofNat 32 s.chip.ma.config.returnTimeout) = true →
    exec (.returnTimeout seq) s = .next (s.after (setErrors s.chip.rp.rxErr (min (s.chip.rp.txErr + 8) 263)
      { s.chip with rp := { s.chip.rp with returnList := before ++ after },
                    ma := { s.chip.ma with phase :=
                      if e.isRestart ∧ s.chip.ma.phase = .restartWait then .restartReady else s.chip.ma.phase } }))) ∧
  ∀ (seq : Byte) (s : State), s.chip.pins.running = true →
    (∀ x ∈ s.chip.rp.returnList,
      ¬ (x.seq = seq ∧ reached s.chip.clock.ms (x.sentAt + BitVec.ofNat 32 s.chip.ma.config.returnTimeout))) →
    exec (.returnTimeout seq) s = .next (s.after s.chip)

/-- The recovery timer reaches its interval (R16): both counts become 0 and the timer stops; with BYP low the state is
ACTIVE and RLY high, with BYP high it stays ISOLATED. Before the interval nothing changes (log entry 3). -/
def Obligations.RecoveryClearsTheCounts : Prop :=
  ∀ s : State, s.chip.pins.running = true →
    (∀ t, s.chip.rp.recovery = some t → RingAgrees s.chip →
      reached s.chip.clock.ms (t + BitVec.ofNat 32 (1000 * s.chip.ma.config.recovery)) = true →
      ∃ u, exec .recoveryTimerExpiry s = .next u ∧ u.chip.rp.rxErr = 0 ∧ u.chip.rp.txErr = 0 ∧
        u.chip.rp.recovery = none ∧
        (s.chip.pins.byp = false → u.chip.rp.ring = .active ∧ u.chip.pins.rly = true) ∧
        (s.chip.pins.byp = true → u.chip.rp.ring = .isolated ∧ u.chip.pins.rly = s.chip.pins.rly)) ∧
    ((∀ t, s.chip.rp.recovery = some t →
        reached s.chip.clock.ms (t + BitVec.ofNat 32 (1000 * s.chip.ma.config.recovery)) = false) →
      exec .recoveryTimerExpiry s = .next (s.after s.chip))

/-- AG's check of a held frame (R7): the first whole, unchecked frame of the forward buffer is rebuilt from the items
AG keeps, in their order and with AG's values, or removed where none is kept. The items are checked in order, each on
the state the items before it left; a kept one has the value AG gives it (R183). With no such frame the command cannot
occur and changes nothing (the model's choice, log entry 3). -/
def Obligations.HeldFrameIsRebuilt : Prop :=
  ((∀ (s : State) (before after : List ForwardEntry) (e : ForwardEntry) (c : Chip) (kept : List Item),
     s.chip.pins.running = true → s.chip.rp.forward = before ++ e :: after →
     (∀ x ∈ before, x.unchecked = false ∨ x.receiving = true) → e.unchecked = true → e.receiving = false →
     checkItems e.frame.items s.chip = (c, kept) →
     exec .actuateFrameCheck s = .next (s.after { c with rp := { c.rp with forward :=
       before ++ (if kept = [] then [] else [{ e with unchecked := false, frame := { e.frame with items := kept } }]) ++
         after } }) ∧
     (kept.map (·.key)).Sublist (e.frame.items.map (·.key))) ∧
   ∀ s : State, s.chip.pins.running = true → (∀ x ∈ s.chip.rp.forward, x.unchecked = false ∨ x.receiving = true) →
     exec .actuateFrameCheck s = .next (s.after s.chip)) ∧
  -- Item by item (R7, R183).
  ((∀ c : Chip, checkItems [] c = (c, [])) ∧
   ∀ (i : Item) (rest : List Item) (c d : Chip),
     (∀ v, checkItem i.key i.value c = (d, some v) →
       checkItems (i :: rest) c = ((checkItems rest d).1, { i with value := v } :: (checkItems rest d).2)) ∧
     (checkItem i.key i.value c = (d, none) → checkItems (i :: rest) c = checkItems rest d))

/-- The Downstream transmitter (R8, R11): the frame that has left frees it, and it is granted to the ready head of the
forward buffer, otherwise to the first frame of the transmit queue that may be sent now, with fewer than 16 out, which
takes the next sequence and enters the return list; while ISOLATED or busy to none. A cut-through copy does not end
before its reception (log entry 3). What a REPORT that begins to leave does: the places of its pallet (R157) or lot
(R158) are freed, together and before the holding slot is checked (log entry 8), the pallet record ends, LH is told and
waiting bags go on; the lot is retired (R118); the records of DECIDED slots are handed again until TM refuses one
(R143). -/
def Obligations.TransmitterIsGranted : Prop :=
  ((∀ (s : State) (t : Leaving) (l : List Byte), s.chip.pins.running = true → s.chip.rp.tx = some t → t.body = some l →
     exec .transmitComplete s = .next (s.after { s.chip with rp := { s.chip.rp with tx := none } })) ∧
   (∀ s : State, s.chip.pins.running = true → (∀ t, s.chip.rp.tx = some t → t.body = none) →
     exec .transmitComplete s = .next (s.after s.chip)) ∧
   (∀ c : Chip, (c.rp.ring = .isolated ∨ c.rp.tx.isSome = true) → txGrant c = c) ∧
   (∀ (c : Chip) (e : ForwardEntry) (q : List ForwardEntry), c.rp.ring ≠ .isolated → c.rp.tx = none →
     c.rp.forward = e :: q → e.receiving = false → e.unchecked = false →
     txGrant c = { c with rp := { c.rp with
       forward := q,
       tx := some { header := e.frame.header, body := some (e.frame.items.flatMap Item.bytes), badCheck := false } } }) ∧
   (∀ (c : Chip) (before after : List OwnFrame) (f : OwnFrame), c.rp.ring ≠ .isolated → c.rp.tx = none →
     (∀ e, c.rp.forward.head? = some e → e.receiving = true ∨ e.unchecked = true) → c.rp.returnList.length < 16 →
     c.rp.txQueue = before ++ f :: after → (∀ g ∈ before, g.kind = .report ∧ c.rp.ring = .passive) →
     ¬ (f.kind = .report ∧ c.rp.ring = .passive) →
     txGrant c = reportLeft f.source { c with rp := { c.rp with
       txQueue := before ++ after,
       returnList := c.rp.returnList ++
         [{ seq := c.rp.nextSeq, kind := f.kind, sentAt := c.clock.ms, isRestart := decide (f.source = .answer true) }],
       nextSeq := c.rp.nextSeq + 1,
       tx := some { header := { kind := f.kind.byte, origin := c.pins.node, dest := f.dest, seq := c.rp.nextSeq,
                                count := BitVec.ofNat 8 f.items.length },
                    body := some (f.items.flatMap Item.bytes), badCheck := false } } }) ∧
   ∀ c : Chip, c.rp.ring ≠ .isolated → c.rp.tx = none →
     (∀ e, c.rp.forward.head? = some e → e.receiving = true ∨ e.unchecked = true) →
     (16 ≤ c.rp.returnList.length ∨ ∀ g ∈ c.rp.txQueue, g.kind = .report ∧ c.rp.ring = .passive) → txGrant c = c) ∧
  -- The freeing of places (R157, R158) and the retirement of a lot (R118).
  ((∀ (p : Nat) (c : Chip),
     (((placeAt c p).state = .stored ∨ (placeAt c p).state = .poisoned) → releasePlace p c = freePlace p c) ∧
     ((placeAt c p).state ≠ .stored → (placeAt c p).state ≠ .poisoned → releasePlace p c = c) ∧
     ((placeAt c p).state = .pending → releasePalletPlace p c =
       modPlace p (fun e => { e with fields := e.fields.map fun f => { f with freeAtCompletion := true } }) c) ∧
     ((placeAt c p).state ≠ .pending → releasePalletPlace p c = releasePlace p c) ∧
     freePlace p c = { c with tm := { c.tm with
       places := c.tm.places.modify p (fun _ => { state := .free, fields := none })
       marks := c.tm.marks.filter (fun x => decide (x ≠ p)) } }) ∧
   (∀ (id rev : Nat) (c : Chip) (p : Pallet), palletAt c id = some p →
     (p.revision = rev → p.reportPending = true → ∀ d,
       d = checkHolding ((placesWhere (fun f => f.pallet == some id)
           (modPallet id (fun q => { q with reportPending := false }) c)).foldl (fun e x => releasePalletPlace x e)
         (modPallet id (fun q => { q with reportPending := false }) c)) →
       reportLeft (.deliveryReport id rev) c = reportLot p.lot .palletReported (resumeWaiting
         { d with ba := { d.ba with pallets := d.ba.pallets.filter fun q => decide (q.id ≠ id) } })) ∧
     ((p.revision ≠ rev ∨ p.reportPending = false) → reportLeft (.deliveryReport id rev) c = c)) ∧
   (∀ (i : Nat) (c d : Chip),
     d = checkHolding ((placesWhere (fun f => f.lot == i) c).foldl (fun e x => releasePlace x e) c) →
     reportLeft (.lotReport i) c = { d with
       lh := { d.lh with lots := d.lh.lots.set i none }
       ba := { d.ba with
         decisions := d.ba.decisions.filter fun e => decide (e.lot ≠ some i)
         carried := d.ba.carried.modify i fun _ => 0 } }) ∧
   (∀ (t : PlaceFields → Bool) (c : Chip) (p : Nat), p ∈ placesWhere t c ↔
     ∃ e f, c.tm.places[p]? = some e ∧ e.fields = some f ∧ t f = true) ∧
   ∀ c : Chip,
     (∀ d, placeHeld c = (d, true) → checkHolding c = handDecided (slotsInOrder .decided d) d) ∧
     (∀ d, placeHeld c = (d, false) → checkHolding c = d)) ∧
  -- BA hands the records of DECIDED slots again until TM refuses one (R143).
  (∀ c : Chip, handDecided [] c = c ∧ ∀ (k : Nat) (ks : List Nat) (d : Chip),
     (handSlot k c = (d, true) → handDecided (k :: ks) c = handDecided ks d) ∧
     (handSlot k c = (d, false) → handDecided (k :: ks) c = d))

/-- A frame handed to RP (R9, R10): refused while ISOLATED, and a REPORT while PASSIVE; entered among up to 32 behind
those of its class and of the classes before it (ACTUATE, ALERT, MGMT-ANS, REPORT); at 32 an ACTUATE or ALERT displaces
the newest REPORT, which is handed back, and any other new frame is discarded. A frame that enters while the
transmitter is idle, no source is ready and fewer than 16 are out begins to leave at once (R8, R11). A discarded frame
raises TX-OVERFLOW; where the alert's own frame is discarded in turn, that raises it once more, and it is pending with
count 2 and its unsent mark. The subject 0 of an alert whose subject is none is the model's choice (log entry 47). -/
def Obligations.TransmitQueueKeepsClassOrder : Prop :=
  ((∀ (f : OwnFrame) (c : Chip),
     (c.rp.ring = .isolated → rpOffer f c = (c, .refused)) ∧
     (c.rp.ring = .passive → f.kind = .report → rpOffer f c = (c, .refused)) ∧
     (c.rp.ring ≠ .isolated → ¬ (c.rp.ring = .passive ∧ f.kind = .report) → c.rp.txQueue.length < 32 →
       rpOffer f c = (acceptFrame f c, .taken)) ∧
     (∀ q g, c.rp.ring ≠ .isolated → c.rp.txQueue = q ++ [g] → 31 ≤ q.length → g.kind = .report →
       (f.kind = .actuate ∨ f.kind = .alert) →
       rpOffer f c = (reportHandedBack g.source (acceptFrame f { c with rp := { c.rp with txQueue := q } }), .taken)) ∧
     (c.rp.ring ≠ .isolated → ¬ (c.rp.ring = .passive ∧ f.kind = .report) → 32 ≤ c.rp.txQueue.length →
       (f.kind = .mgmtAns ∨ f.kind = .report ∨ ∀ g, c.rp.txQueue.getLast? = some g → g.kind ≠ .report) →
       (f.kind = .actuate ∨ f.kind = .alert ∨ f.kind = .mgmtAns ∨ f.kind = .report) →
       rpOffer f c = (c, .overflow))) ∧
   (∀ (f : OwnFrame) (c : Chip),
     ((c.rp.tx ≠ none ∨ (∃ e, c.rp.forward.head? = some e ∧ e.receiving = false ∧ e.unchecked = false) ∨
         16 ≤ c.rp.returnList.length ∨ ∃ g ∈ c.rp.txQueue, g.kind ≠ .report ∨ c.rp.ring = .active) →
       acceptFrame f c = { c with rp := { c.rp with txQueue := enterQueue f c.rp.txQueue } }) ∧
     (c.rp.tx = none → (∀ e, c.rp.forward.head? = some e → e.receiving = true ∨ e.unchecked = true) →
       c.rp.returnList.length < 16 → (∀ g ∈ c.rp.txQueue, g.kind = .report ∧ c.rp.ring ≠ .active) →
       acceptFrame f c = { c with rp := { c.rp with
         returnList := c.rp.returnList ++
           [{ seq := c.rp.nextSeq, kind := f.kind, sentAt := c.clock.ms, isRestart := decide (f.source = .answer true) }],
         nextSeq := c.rp.nextSeq + 1,
         tx := some { header := { kind := f.kind.byte, origin := c.pins.node, dest := f.dest, seq := c.rp.nextSeq,
                                  count := BitVec.ofNat 8 f.items.length },
                      body := some (f.items.flatMap Item.bytes), badCheck := false } } })) ∧
   (∀ (f : OwnFrame) (q : List OwnFrame), q.Pairwise (fun a b => classRank a.kind ≤ classRank b.kind) →
     (enterQueue f q).Pairwise (fun a b => classRank a.kind ≤ classRank b.kind) ∧
     enterQueue f q = q.filter (fun g => decide (classRank g.kind ≤ classRank f.kind)) ++
       f :: q.filter (fun g => decide (classRank f.kind < classRank g.kind))) ∧
   classRank .actuate < classRank .alert ∧ classRank .alert < classRank .mgmtAns ∧ classRank .mgmtAns < classRank .report) ∧
  -- A frame is handed to RP (R9, R10).
  ((∀ (f : OwnFrame) (c d : Chip),
     (rpOffer f c = (d, .taken) → rpHand f c = (d, true)) ∧
     (rpOffer f c = (d, .refused) → rpHand f c = (d, false)) ∧
     (rpOffer f c = (d, .overflow) → rpHand f c = (raiseOverflow d, false))) ∧
   ∀ c : Chip, TablesSized c →
     (∀ a, pendingAlert c .txOverflow = some a → raiseOverflow c = evalStopN { c with ma := { c.ma with
       pending := c.ma.pending.set 18 (some { a with count := min (a.count + 1) 65535 }) } }) ∧
     (pendingAlert c .txOverflow = none → (routeOf c .txOverflow).dest = none → raiseOverflow c =
       evalStopN { c with ma := { c.ma with
         pending := c.ma.pending.set 18 (some { count := 1, subjectType := .none, subject := 0, line := c.clock.line, unsent := false }) } }) ∧
     ∀ b e o, pendingAlert c .txOverflow = none → (routeOf c .txOverflow).dest = some b →
       rpOffer { kind := .alert, dest := b, source := .alert .txOverflow,
                 items := [mkItem 19 0, mkItem 1 (BitVec.ofNat 32 c.clock.line),
                           mkItem (if c.rp.epochPresent then 1 else 0) c.rp.epoch] }
         (evalStopN { c with ma := { c.ma with
           pending := c.ma.pending.set 18 (some { count := 1, subjectType := .none, subject := 0, line := c.clock.line, unsent := false }) } })
         = (e, o) →
       raiseOverflow c = evalStopN { e with ma := { e.ma with
         lastHanding := some e.clock.line
         pending := e.ma.pending.set 18
           (some { count := if o = .overflow then 2 else 1, subjectType := .none, subject := 0, line := c.clock.line,
                   unsent := decide (o ≠ .taken) }) } })

/-- The grants at the end of an event keep the pins but STOP_N, the clock, the sample intake, the segments, the zones,
the freeze verifier, the track channels and positions, the error counts, the guard table, the recipes and the tables of
management; and they do nothing while the transmitter and the SPI master are busy. -/
def Obligations.GrantsLeaveTheLineAlone : Prop :=
  (∀ c : Chip, (settle c).pins = { c.pins with stopN := (settle c).pins.stopN } ∧ (settle c).clock = c.clock ∧
    (settle c).si = c.si ∧ (settle c).st = c.st ∧ (settle c).de = c.de ∧ (settle c).fv = c.fv ∧
    (settle c).tc.chans = c.tc.chans ∧ (settle c).tc.positions = c.tc.positions ∧
    (settle c).rp.rxErr = c.rp.rxErr ∧ (settle c).rp.txErr = c.rp.txErr ∧ (settle c).rp.ring = c.rp.ring ∧
    (settle c).rp.recovery = c.rp.recovery ∧ (settle c).rp.rx = c.rp.rx ∧ (settle c).rp.overflow = c.rp.overflow ∧
    (settle c).lh.recipes = c.lh.recipes ∧ (settle c).ag.mode = c.ag.mode ∧ (settle c).ag.guards = c.ag.guards ∧
    (settle c).ma.routes = c.ma.routes ∧ (settle c).ma.config = c.ma.config ∧
    (settle c).ma.authority = c.ma.authority ∧ (settle c).ma.assembly = c.ma.assembly) ∧
  ∀ c : Chip, (c.rp.ring = .isolated ∨ c.rp.tx.isSome = true) → c.tm.spi.isSome = true → settle c = c

/-- Raising an alert (R203, R204). A pending kind only counts, up to 65,535. A kind that is not pending joins the set
with count 1, its subject and the line time; where its route names a destination its frame is handed to RP, and the
unsent mark says that RP did not take it. A frame that RP discards raises TX-OVERFLOW (R10), after the mark. STOP_N is
re-evaluated. -/
def Obligations.RaisedAlertIsPending : Prop :=
  ∀ (k : AlertKind) (st : SubjectType) (w : Word) (c : Chip), TablesSized c →
    (∀ a, pendingAlert c k = some a →
      raise k st w c = evalStopN { c with ma := { c.ma with
        pending := c.ma.pending.set k.index (some { a with count := min (a.count + 1) 65535 }) } }) ∧
    (pendingAlert c k = none → (routeOf c k).dest = none →
      raise k st w c = evalStopN { c with ma := { c.ma with
        pending := c.ma.pending.set k.index
          (some { count := 1, subjectType := st, subject := w, line := c.clock.line, unsent := false }) } }) ∧
    (∀ d e o, pendingAlert c k = none → (routeOf c k).dest = some d →
      rpOffer
        { kind := .alert, dest := d, source := .alert k,
          items := [mkItem (BitVec.ofNat 16 (k.index + 1 + 256 * st.number)) w,
                    mkItem 1 (BitVec.ofNat 32 c.clock.line),
                    mkItem (if c.rp.epochPresent then 1 else 0) c.rp.epoch] }
        (evalStopN { c with ma := { c.ma with
          pending := c.ma.pending.set k.index
            (some { count := 1, subjectType := st, subject := w, line := c.clock.line, unsent := false }) } }) = (e, o) →
      o ≠ .overflow →
      raise k st w c = evalStopN { e with ma := { e.ma with
        lastHanding := some e.clock.line,
        pending := e.ma.pending.set k.index
          (some { count := 1, subjectType := st, subject := w, line := c.clock.line,
                  unsent := decide (o = .refused) }) } }) ∧
    (∀ d e, pendingAlert c k = none → (routeOf c k).dest = some d →
      rpOffer
        { kind := .alert, dest := d, source := .alert k,
          items := [mkItem (BitVec.ofNat 16 (k.index + 1 + 256 * st.number)) w,
                    mkItem 1 (BitVec.ofNat 32 c.clock.line),
                    mkItem (if c.rp.epochPresent then 1 else 0) c.rp.epoch] }
        (evalStopN { c with ma := { c.ma with
          pending := c.ma.pending.set k.index
            (some { count := 1, subjectType := st, subject := w, line := c.clock.line, unsent := false }) } }) =
        (e, .overflow) →
      raise k st w c = raiseOverflow (evalStopN { e with ma := { e.ma with
        lastHanding := some e.clock.line,
        pending := e.ma.pending.set k.index
          (some { count := 1, subjectType := st, subject := w, line := c.clock.line, unsent := true }) } })) ∧
    (evalStopN c).pins.stopN = decide (∀ j ∈ AlertKind.all, ¬ ((pendingAlert c j).isSome = true ∧ (routeOf c j).stop = true))

/-! ## Sample intake -/

/-- Taking an item (R24, R25, R31): the lowest enabled entry whose mask and filter match takes it; GOOD and SUSPECT (0
and 1, R207) are accepted, any other quality only adds to the entry's bad count; an item that no entry matches changes
nothing. What an accepted item writes beside its value: the mark, the times, FRESH, the timers and the counts. The
order of it: OVER-RANGE for a ZONE-TEMP or EXIT-TEMP value clamped high (R28), the channel's new state, its consumer
told of FRESH where it was not (R32), and the item handed on (R30), a ZONE-TEMP item with the zone's temperature before
it (R35; what DE does with it after a write, R81, is in CreditAddsRateTimesInterval). -/
def Obligations.LowestMatchingEntryTakesItem : Prop :=
  (∀ (it : Item) (c : Chip) (i : Nat) (k : IntakeChan), c.si.chans[i]? = some k → k.cfg.enabled = true →
    (it.key ^^^ k.cfg.filter) &&& k.cfg.mask = 0 →
    (∀ j m, j < i → c.si.chans[j]? = some m → m.cfg.enabled = true → (it.key ^^^ m.cfg.filter) &&& m.cfg.mask ≠ 0) →
    (it.quality = 0 → takeItem it c = acceptItem i false it.value c) ∧
    (it.quality = 1 → takeItem it c = acceptItem i true it.value c) ∧
    (it.quality ≠ 0 → it.quality ≠ 1 →
      takeItem it c = { c with si := { c.si with
        chans := c.si.chans.set i { k with dyn := { k.dyn with bad := min (k.dyn.bad + 1) 65535 } } } })) ∧
  (∀ (it : Item) (c : Chip),
    (∀ m ∈ c.si.chans, m.cfg.enabled = true → (it.key ^^^ m.cfg.filter) &&& m.cfg.mask ≠ 0) → takeItem it c = c) ∧
  (∀ (k : IntakeCfg) (w : Word) (suspect : Bool) (t : Clock) (d : IntakeDyn),
    acceptDyn k (takeValue k w) suspect t d =
      { d with
        latest := some { value := (takeValue k w).value, suspect := suspect, clampLow := (takeValue k w).low,
                         clampHigh := (takeValue k w).high, line := t.line, ms := t.ms },
        fresh := .fresh, freshTimer := some (t.line + k.freshTimeout), staleTimer := none,
        accepted := (d.accepted + 1) % 65536,
        suspects := if suspect then min (d.suspects + 1) 65535 else d.suspects,
        clamps := if (takeValue k w).low = true ∨ (takeValue k w).high = true then min (d.clamps + 1) 65535
          else d.clamps }) ∧
  -- The order of an acceptance (R25, R28, R30 to R32, R35).
  (∀ (i : Nat) (suspect : Bool) (w : Word) (c c0 c1 : Chip) (k : IntakeChan) (t : Taken) (before : Option Int),
     k = intakeChan c i → t = takeValue k.cfg w →
     (∀ z, k.cfg.role = some (.zoneTemp z) → before = (c.si.zones.getD z .clear).temp) →
     ((∀ z, k.cfg.role ≠ some (.zoneTemp z)) → before = none) →
     (t.high = true → ((∃ z, k.cfg.role = some (.zoneTemp z)) ∨ k.cfg.role = some .exitTemp) →
       c0 = raiseNat .overRange .channel i c) →
     ((t.high = false ∨ ((∀ z, k.cfg.role ≠ some (.zoneTemp z)) ∧ k.cfg.role ≠ some .exitTemp)) → c0 = c) →
     c1 = modIntake i (acceptDyn k.cfg t suspect c.clock) c0 →
     (k.dyn.fresh = .fresh → acceptItem i suspect w c = handOn i k.cfg.role before t.value w c1) ∧
     (k.dyn.fresh ≠ .fresh → acceptItem i suspect w c =
       handOn i k.cfg.role before t.value w (tellFreshness i k.cfg.role .fresh c1))) ∧
  -- The temperature roles are handed on (R30).
  (∀ (i : Nat) (before : Option Int) (v : Int) (w : Word) (c : Chip),
     (∀ z, handOn i (some (.zoneTemp z)) before v w c = zoneItem z i before c) ∧
     handOn i (some .chillTemp) before v w c = chillItem v c ∧
     handOn i (some .exitTemp) before v w c = exitItem v c ∧
     handOn i (some .dockTemp) before v w c = exposeAll c)

/-- R27: the engineering value of a temperature item is (raw − offset) × gain div 1024 of the signed raw value, exact and
truncated toward zero, and is then limited; a gain of 1024 with offset 0 passes the raw value through, a gain of 0 makes
it 0 and a negative gain inverts the scale. -/
def Obligations.TemperatureIsConverted : Prop :=
  ∀ (k : IntakeCfg) (w : Word) (v : Int),
    ((∃ z, k.role = some (.zoneTemp z)) ∨ k.role = some .chillTemp ∨ k.role = some .exitTemp ∨
      k.role = some .dockTemp) →
    v = ((w.toInt - k.offset) * k.gain).tdiv 1024 →
    takeValue k w = clampValue k v ∧
    (k.gain = 1024 → k.offset = 0 → v = w.toInt) ∧ (k.gain = 0 → v = 0) ∧
    (k.gain < 0 → v = -(((w.toInt - k.offset) * (-k.gain)).tdiv 1024)) ∧
    clampValue k v = (if v < k.low then { value := k.low, low := true, high := false }
      else if k.high < v then { value := k.high, low := false, high := true }
      else { value := v, low := false, high := false })

/-- R29: the nine other roles are taken without conversion or limiting, and the consumer is given what R29 says. -/
def Obligations.OtherRolesPassUnconverted : Prop :=
  ∀ (k : IntakeCfg) (w : Word),
    (k.role = some .infeedMass → takeValue k w = { value := w.toNat, low := false, high := false }) ∧
    (∀ b, k.role = some (.encoder b) →
      takeValue k w = { value := (w.toNat % 65536 : Nat), low := false, high := false }) ∧
    (k.role = some .marker → takeValue k w = { value := if w = 0 then 0 else 1, low := false, high := false }) ∧
    ((k.role = some .bagMade ∨ k.role = some .bagWeight ∨ k.role = some .bagCode ∨ k.role = some .bagMetal ∨
        (∃ n, k.role = some (.shuttleStatus n)) ∨ ∃ n, k.role = some (.pointEcho n)) →
      takeValue k w = { value := w.toNat, low := false, high := false }) ∧
    ∀ (i : Nat) (before : Option Int) (v : Int) (c : Chip),
      handOn i (some .infeedMass) before v w c = c ∧
      (∀ b, handOn i (some (.encoder b)) before v w c = encoderItem i b (BitVec.ofNat 16 (w.toNat % 65536)) c) ∧
      handOn i (some .marker) before v w c = markerItem i (decide (w ≠ 0)) c ∧
      handOn i (some .bagMade) before v w c = bagMade w c ∧
      handOn i (some .bagWeight) before v w c = bagField .weight w c ∧
      handOn i (some .bagCode) before v w c = bagField .code w c ∧
      handOn i (some .bagMetal) before v w c = bagField .metal w c ∧
      (∀ n, handOn i (some (.shuttleStatus n)) before v w c = shuttleStatus n w c) ∧
      ∀ n, handOn i (some (.pointEcho n)) before v w c = pointEcho n w c

/-- The freshness and stale-hold timers (R31, R32): at its expiry the channel is STALE, its stale-hold timer runs from
the expiry time, the encoder reference is absent, STALE-INPUT is raised and the consumer is told; at the stale-hold
timer's it is STALE-HELD and the consumer is told. A timer that is not due changes nothing (log entry 3). The zone
that its channels give (R34), the rereading of a zone and what a ZONE-TEMP item does (R34 to R36). Who is told of a
freshness state (R32): the zone; FV; TD at STALE alone; the track channels, whose captures on an encoder lose their
span and whose marker filters are forgotten at STALE (R42, R45, R51); the segments of a stage, which receive
UNTRACKED-GAP at STALE-HELD (R73; the stage: log entry 30). DE is told of a zone's new state and keeps it in the
zone's crediting record, with STALE-ZONE on its segments, counted where new, at STALE-HELD (R87, R88); after a write
that made the zone STALE the record stays STALE at STALE-HELD until a new item (R93; log entry 32); and
PROBE-SPLIT (R36). -/
def Obligations.SilentChannelBecomesStale : Prop :=
  (∀ (i : Nat) (s : State), s.chip.pins.running = true →
     (∀ k t, s.chip.si.chans[i]? = some k → k.dyn.freshTimer = some t → t ≤ s.chip.clock.line →
       exec (.freshnessTimerExpiry i) s = .next (s.after (tellFreshness i k.cfg.role .stale
         (raiseNat .staleInput .channel i { s.chip with si := { s.chip.si with
           chans := s.chip.si.chans.set i { k with dyn := { k.dyn with
             fresh := .stale, freshTimer := none, staleTimer := some (t + k.cfg.staleTimeout), ref := none } } } })))) ∧
     (∀ k t, s.chip.si.chans[i]? = some k → k.dyn.staleTimer = some t → t ≤ s.chip.clock.line →
       exec (.staleHoldTimerExpiry i) s = .next (s.after (tellFreshness i k.cfg.role .staleHeld
         { s.chip with si := { s.chip.si with
           chans := s.chip.si.chans.set i { k with dyn := { k.dyn with fresh := .staleHeld, staleTimer := none } } } }))) ∧
     ((∀ k t, s.chip.si.chans[i]? = some k → k.dyn.freshTimer = some t → s.chip.clock.line < t) →
       exec (.freshnessTimerExpiry i) s = .next (s.after s.chip)) ∧
     ((∀ k t, s.chip.si.chans[i]? = some k → k.dyn.staleTimer = some t → s.chip.clock.line < t) →
       exec (.staleHoldTimerExpiry i) s = .next (s.after s.chip))) ∧
  -- The derivation of a zone (R34) and the taking of a ZONE-TEMP item (R34 to R36).
  ((∀ (z : Nat) (chans : List IntakeChan) (serve : List IntakeChan),
     serve = chans.filter (fun k => k.cfg.enabled && k.cfg.role == some (.zoneTemp z) && k.dyn.latest.isSome) →
     (serve = [] → servingZone chans z = { temp := none, state := .stale }) ∧
     (∀ a, serve = [a] → servingZone chans z =
       { state := a.dyn.fresh, temp := if a.dyn.fresh = .fresh then a.dyn.latest.map (·.value) else none }) ∧
     ∀ a b va vb rest, serve = a :: b :: rest → a.dyn.latest = some va → b.dyn.latest = some vb →
       (a.dyn.fresh = .fresh → b.dyn.fresh = .fresh →
         servingZone chans z = { state := .fresh, temp := some (min va.value vb.value) }) ∧
       (a.dyn.fresh = .fresh → b.dyn.fresh ≠ .fresh → servingZone chans z = { state := .fresh, temp := some va.value }) ∧
       (a.dyn.fresh ≠ .fresh → b.dyn.fresh = .fresh → servingZone chans z = { state := .fresh, temp := some vb.value }) ∧
       (a.dyn.fresh = .staleHeld → b.dyn.fresh = .staleHeld →
         servingZone chans z = { state := .staleHeld, temp := none }) ∧
       (a.dyn.fresh ≠ .fresh → b.dyn.fresh ≠ .fresh → (a.dyn.fresh = .stale ∨ b.dyn.fresh = .stale) →
         servingZone chans z = { state := .stale, temp := none })) ∧
   (∀ (z : Nat) (c d : Chip) (new : Zone), new = servingZone c.si.chans z →
     d = { c with si := { c.si with zones := c.si.zones.set z new } } →
     (new.state = (c.si.zones.getD z .clear).state → rederiveZone z c = d) ∧
     (new.state ≠ (c.si.zones.getD z .clear).state → rederiveZone z c = tellZone z new.state d)) ∧
   ∀ (z i : Nat) (before : Option Int) (c d : Chip), d = rederiveZone z c →
     ((d.si.zones.getD z .clear).temp = none → zoneItem z i before c = checkSplit z i d) ∧
     ∀ after, (d.si.zones.getD z .clear).temp = some after →
       zoneItem z i before c = checkSplit z i (zoneUpdate z before after d)) ∧
  -- Who is told of a freshness state, and what follows (R32, R36, R42, R45, R51, R73, R88).
  ((∀ (i : Nat) (st : Freshness) (c : Chip),
     (∀ z, tellFreshness i (some (.zoneTemp z)) st c = rederiveZone z c) ∧
     tellFreshness i (some .chillTemp) st c = tellChill st (intakeChan c i).dyn.latest.isSome c ∧
     tellFreshness i (some .exitTemp) st c = { c with fv := { c.fv with exitState := st } } ∧
     tellFreshness i (some .dockTemp) st c = (if st = .stale then exposeAll c else c) ∧
     tellFreshness i (some .marker) st c = (if st = .stale then markerStale i c else c) ∧
     (∀ belt, tellFreshness i (some (.encoder belt)) .stale c = encoderStale i c ∧
       tellFreshness i (some (.encoder belt)) .fresh c = c) ∧
     tellFreshness i (some (.encoder none)) .staleHeld c = c ∧
     (∀ b, (encoderOf c.st b ≠ i → tellFreshness i (some (.encoder (some b))) .staleHeld c = c) ∧
       (encoderOf c.st b = i → tellFreshness i (some (.encoder (some b))) .staleHeld c =
         ((queueOf c.st b.stage).map (·.id)).foldl (fun d id =>
           modSegment id (fun s => { s with hold := s.hold ||| HoldReason.untrackedGap.only }) d) c)) ∧
     (∀ n, tellFreshness i (some (.shuttleStatus n)) st c = c ∧ tellFreshness i (some (.pointEcho n)) st c = c) ∧
     ∀ r, (r = .infeedMass ∨ r = .bagMade ∨ r = .bagWeight ∨ r = .bagCode ∨ r = .bagMetal) →
       tellFreshness i (some r) st c = c) ∧
   (∀ (e : Nat) (c : Chip), encoderStale e c = (List.range 8).foldl (fun d n =>
     if (trackChan d n).cfg.source = .encoder e
     then modTrack n (fun x => { x with capture := { x.capture with span := false } }) d else d) c) ∧
   (∀ (m : Nat) (c : Chip) (forget : Nat → Chip → Chip),
     (∀ n d, (∀ e, triggerOf (trackChan d n) = some (.marker m e) →
         forget n d = modTrack n (fun x => { x with lastLevel := none, filtered := none }) d) ∧
       ((∀ e, triggerOf (trackChan d n) ≠ some (.marker m e)) → forget n d = d)) →
     markerStale m c = (List.range 8).foldl (fun d n => forget n d) c) ∧
   (∀ (z : Nat) (st told : Freshness) (c d : Chip) (silent : Nat → Chip → Chip),
     (told = .staleHeld → (c.de.zones.getD z .clear).write = .silenced → st = .stale) →
     ((told ≠ .staleHeld ∨ (c.de.zones.getD z .clear).write ≠ .silenced) → st = told) →
     d = modDose z (fun x => { x with state := st }) c →
     (∀ id e, (segmentIn e .blanch id = none → silent id e = e) ∧
       ∀ g, segmentIn e .blanch id = some g →
         (g.hold.has .staleZone = true → silent id e = e) ∧
         (g.hold.has .staleZone = false → silent id e =
           modDose z (fun x => { x with staleZones := min (x.staleZones + 1) 65535 })
             (modSegment id (fun s => { s with hold := s.hold ||| HoldReason.staleZone.only }) e))) →
     (st ≠ .staleHeld → tellZone z told c = d) ∧
     (st = .staleHeld → tellZone z told c =
       ((c.st.qBlanch.filter (fun g => g.zone == some z)).map (·.id)).foldl (fun e id => silent id e) d)) ∧
   ∀ (z i p : Nat) (c : Chip) (k q : IntakeChan), k = intakeChan c i → q = intakeChan c p →
     (k.cfg.partner = none → checkSplit z i c = c) ∧
     (k.cfg.partner = some p → (k.dyn.fresh ≠ .fresh ∨ q.dyn.fresh ≠ .fresh ∨ q.cfg.enabled = false) →
       checkSplit z i c = c) ∧
     ∀ v w, k.cfg.partner = some p → k.dyn.fresh = .fresh → q.dyn.fresh = .fresh → q.cfg.enabled = true →
       k.dyn.latest = some v → q.dyn.latest = some w →
       (c.ma.config.split < (v.value - w.value).natAbs → checkSplit z i c = raiseNat .probeSplit .zone z c) ∧
       ((v.value - w.value).natAbs ≤ c.ma.config.split → checkSplit z i c = c))

/-- An accepted encoder item (R37, R38): without a reference it sets the reference; a difference of 0 changes nothing;
one of 1 to 32,767 sets the reference and goes to the bound stage and then to the track channels; one of 32,768 or more
is a reversal, which only raises REVERSE. What a delta does to the segments: the mass of a cut (R62), the cut and the
new record with its id, holds and flags (R63, R64), the advance of a stage's segments in queue order (R66), the points
crossed in their order (R66, R67, R102), and the ends of the three stages with the join of the next queue (R71 to R74),
which frees a segment of which nothing remains (R59, R74) and keeps FV's set of the segments in the window (R102; in
order of entry: log entry 10). What it does to the track channels: the running position of the intake channel grows by
it, and the channels on that source take it in number order, a CUT channel's fires and then its reached points (R42).
That an encoder counts as a stage's where the geometry names its channel and the entry's binding is that belt is a
reading (DEDUCED, log entry 30). -/
def Obligations.EncoderHandsPositiveDeltas : Prop :=
  (∀ (i : Nat) (belt : Option Belt) (count : BitVec 16) (c : Chip) (k : IntakeChan), c.si.chans[i]? = some k →
     (k.dyn.ref = none →
       encoderItem i belt count c = { c with si := { c.si with
         chans := c.si.chans.set i { k with dyn := { k.dyn with ref := some count } } } }) ∧
     ∀ (ref : BitVec 16) (d : Nat), k.dyn.ref = some ref → d = (count.toNat + 65536 - ref.toNat) % 65536 →
       (d = 0 → encoderItem i belt count c = c) ∧
       (0 < d → d < 32768 → ∀ e, e = { c with si := { c.si with
           chans := c.si.chans.set i { k with dyn := { k.dyn with ref := some count } } } } →
         encoderItem i none count c = advanceSource i d e ∧
         ∀ b, encoderItem i (some b) count c = advanceSource i d (advanceStage b i d e)) ∧
       (32768 ≤ d → encoderItem i belt count c = raiseNat .reverse .channel i c)) ∧
  -- The mass of a cut (R62).
  (∀ c : Chip,
     (∀ k v, findRole c .infeedMass = some k → k.dyn.fresh = .fresh → k.dyn.latest = some v →
       (∀ ref, c.st.totalRef = some ref →
         cutMass c = (((v.value - ref) % 4294967296).toNat, false, some v.value.toNat)) ∧
       (c.st.totalRef = none → cutMass c = (c.st.lastNominal, true, some v.value.toNat))) ∧
     ((∀ k, findRole c .infeedMass = some k → k.dyn.fresh ≠ .fresh) → cutMass c = (c.st.lastNominal, true, none))) ∧
  -- A cut (R63, R64).
  ((∀ (n beyond mass : Nat) (estimated : Bool) (ref : Option Nat) (c d : Chip), cutMass c = (mass, estimated, ref) →
     d = { c with st := { c.st with totalRef := ref } } →
     (mass < c.st.blanch.void → cut n beyond c = d) ∧
     (c.st.blanch.void ≤ mass → openLot? c = none → cut n beyond c = raise .untracked .stage 0 d) ∧
     (∀ lot, c.st.blanch.void ≤ mass → openLot? c = some lot → 256 ≤ (liveSegments c.st).length →
       ∀ e, e = raiseNat .untracked .lot lot (reportLot lot (.untracked mass) d) →
       cut n beyond c = { e with st := { e.st with gapSet := e.st.gapSet ||| BitVec.ofNat 8 (2 ^ lot) } }) ∧
     (∀ lot, c.st.blanch.void ≤ mass → openLot? c = some lot → (liveSegments c.st).length < 256 →
       cut n beyond c = createSegment n lot mass estimated beyond d)) ∧
   (∀ (n lot mass beyond id : Nat) (estimated : Bool) (c d : Chip) (g : Segment),
     id = freshId ((liveSegments c.st).map (·.id)) 256 c.st.nextId →
     g = { id := id, lot := lot, head := some c.st.blanch.segLen, nominal := mass, remaining := mass,
           cutTime := c.clock.line, blanchExit := none, freezerEntry := none, freezerExit := none, zone := some 0,
           zoneEntry := some c.clock.line, credited := some c.clock.line, dose := 0,
           flags := { gap := false, aboveTable := false, overblanch := false, massEst := estimated }, warmChill := 0,
           warmest := none, disp := .pending,
           hold := (if c.ag.mode = .production then 0 else HoldReason.unverified.only) |||
             (if c.st.gapSet.getLsbD lot = true then HoldReason.untrackedGap.only else 0) } →
     d = { c with st := { c.st with
       qBlanch := c.st.qBlanch ++ [g], nextId := (id + 1) % 65536, lastNominal := mass,
       gapSet := c.st.gapSet &&& ~~~ BitVec.ofNat 8 (2 ^ lot) } } →
     createSegment n lot mass estimated beyond c = advanceSegment .blanch beyond (.sweeping n) id
       (zoneEntered 0 id (joinSilent .blanch id (reportLot lot (.segmentCreated mass) d)))) ∧
   ∀ (used : List Nat) (next i k : Nat), next < 65536 → i ≤ k → (∀ j, j < i → (next + j) % 65536 ∈ used) →
     (next + i) % 65536 ∉ used → freshId used k next = (next + i) % 65536) ∧
  -- A delta reaches a belt (R66).
  ((∀ (b : Belt) (channel delta : Nat) (c : Chip),
     (c.st.blanch.written = true → c.st.chill.written = true → c.st.freeze.written = true → encoderOf c.st b = channel →
       advanceStage b channel delta c = ((queueOf c.st b.stage).map (·.id)).foldl
         (fun d id => advanceSegment b delta (.beforeSweep delta) id d) c) ∧
     ((c.st.blanch.written = false ∨ c.st.chill.written = false ∨ c.st.freeze.written = false ∨
       encoderOf c.st b ≠ channel) → advanceStage b channel delta c = c)) ∧
   ∀ (b : Belt) (delta id : Nat) (moment : Moment) (c : Chip),
     (segmentIn c b.stage id = none → advanceSegment b delta moment id c = c) ∧
     ∀ g before after d, segmentIn c b.stage id = some g → before = g.head.getD 0 → after = before + delta →
       d = crossAll b id moment before after (modSegment id (fun s => { s with head := some after }) c) →
       (stageLength c.st b ≤ after → advanceSegment b delta moment id c = stageEnd b id d) ∧
       (after < stageLength c.st b → advanceSegment b delta moment id c = d)) ∧
  -- The crossings of a step (R66, R67, R102).
  (∀ (id before after : Nat) (moment : Moment) (c : Chip),
     crossAll .chill id moment before after c = c ∧
     (∀ d, d = (List.range 6).foldl (fun d z =>
         if 0 < z ∧ z < c.st.blanch.zones ∧ before < c.st.blanch.zoneStarts.getD (z - 1) 0 ∧
           c.st.blanch.zoneStarts.getD (z - 1) 0 ≤ after
         then zoneEntered z id (modSegment id (fun s => { s with
           zone := some z, zoneEntry := some d.clock.line, credited := some d.clock.line }) d)
         else d) c →
       crossAll .blanch id moment before after c =
         if before < c.st.blanch.decision ∧ c.st.blanch.decision ≤ after
         then decideSegment .blanch id moment (after - c.st.blanch.decision) d else d) ∧
     (∀ d e, d = (if before < c.st.freeze.winStart ∧ c.st.freeze.winStart ≤ after then enterWindow id c else c) →
       e = (if before ≤ c.st.freeze.winEnd ∧ c.st.freeze.winEnd < after then leaveWindow id d else d) →
       crossAll .freeze id moment before after c =
         if before < c.st.freeze.decision ∧ c.st.freeze.decision ≤ after
         then decideSegment .freeze id moment (after - c.st.freeze.decision) e else e) ∧
     enterWindow id c = { c with fv := { c.fv with
       window := if id ∈ c.fv.window then c.fv.window else c.fv.window ++ [id] } } ∧
     leaveWindow id c = { c with fv := { c.fv with window := c.fv.window.filter (fun x => decide (x ≠ id)) } }) ∧
  -- Stage ends (R71, R72, R74, R73).
  (∀ (id : Nat) (c : Chip),
     (∀ (g h : Segment), h = (if g.disp = .diverting
         then { g with disp := .pass, hold := g.hold ||| HoldReason.gateUnconfirmed.only } else g) →
       (∀ d, d = checkOverblanch id c → segmentIn d .blanch id = some g →
         stageEnd .blanch id c = chillArrival id (joinSilent .chill id (joinQueue .chill
           { h with head := some d.st.chill.entry, blanchExit := some c.clock.line, zone := none, zoneEntry := none,
                    credited := none }
           (removeSegment id d)))) ∧
       (segmentIn c .chill id = some g →
         stageEnd .chill id c = checkChillWindow id (joinSilent .freeze id (joinQueue .freeze
           { h with head := some c.st.freeze.entry, freezerEntry := some c.clock.line } (removeSegment id c)))) ∧
       (segmentIn c .freeze id = some g → ∀ d, d = checkDwell id (leaveWindow id (joinQueue .surge
           { h with head := none, freezerExit := some c.clock.line } (removeSegment id c))) →
         ∀ s, segmentAt d id = some s →
         (s.remaining = 0 → stageEnd .freeze id c = freeSegment id false d) ∧
         (s.remaining ≠ 0 → stageEnd .freeze id c = d))) ∧
     (∀ b, (encoderHeld c b = true ↔ (intakeChan c (encoderOf c.st b)).cfg.enabled = true ∧
         (intakeChan c (encoderOf c.st b)).cfg.role = some (.encoder (some b)) ∧
         (intakeChan c (encoderOf c.st b)).dyn.fresh = .staleHeld) ∧
       (encoderHeld c b = true → joinSilent b id c =
         modSegment id (fun s => { s with hold := s.hold ||| HoldReason.untrackedGap.only }) c) ∧
       (encoderHeld c b = false → joinSilent b id c = c))) ∧
  -- A delta reaches the track channels (R42): the position, then the channels on it in number order.
  (∀ (e delta n : Nat) (c : Chip),
     advanceSource e delta c = (List.range 8).foldl (fun d n =>
       if (trackChan d n).cfg.source = .encoder e then handleChannel n (advanceCut n delta d) else d)
       { c with tc := { c.tc with positions := c.tc.positions.modify e fun p => p + BitVec.ofNat 32 delta } } ∧
     handleChannel n c = handlePoints n 18 c) ∧
  -- A segment joins a queue at its tail, leaves the queues, and leaves the pool (R59, R102, R112).
  (∀ (id : Nat) (g : Segment) (c : Chip),
     joinQueue .chill g c = { c with st := { c.st with qChill := c.st.qChill ++ [g] } } ∧
     joinQueue .freeze g c = { c with st := { c.st with qFreeze := c.st.qFreeze ++ [g] } } ∧
     joinQueue .surge g c = { c with st := { c.st with qSurge := c.st.qSurge ++ [g] } } ∧
     (∀ keep : Segment → Bool, (∀ x, keep x = true ↔ x.id ≠ id) → removeSegment id c = { c with st := { c.st with
       qBlanch := c.st.qBlanch.filter keep, qChill := c.st.qChill.filter keep, qFreeze := c.st.qFreeze.filter keep,
       qSurge := c.st.qSurge.filter keep } }) ∧
     (segmentAt c id = none → freeSegment id false c = c) ∧
     (segmentAt c id = some g → freeSegment id false c =
       reportLot g.lot .segmentDrawn (leaveWindow id (removeSegment id c))))

/-! ## Track channels -/

/-- A value handed for sending (R53): withheld while ISOLATED; outside PRODUCTION suppressed, with a trap record; not
taken by RP; or taken, and then CONFIRMED at once without an echo channel, PENDING with one and room among the 8
confirmations, FAILED with none, where the confirmation overflow count and the point's fault count rise and GATE-FAULT
is raised (R191, R193). The unsent mark is set unless RP takes the value (R52; log entry 17). -/
def Obligations.SentValueHasItsOutcome : Prop :=
  ∀ (n : Nat) (key : Key) (v : Word) (src : ConfSource) (serves : Option Nat) (timeout : Nat) (c : Chip),
    (c.rp.ring = .isolated → sendValue n key v src serves timeout c = (setUnsent n true c, .notSent)) ∧
    (c.rp.ring ≠ .isolated → c.ag.mode ≠ .production →
      sendValue n key v src serves timeout c = (setUnsent n true { c with ag := { c.ag with
        traps := ({ line := c.clock.line, key := key, received := v, verdict := .suppressed, applied := none,
                    entry := .ownSuppressed, mode := c.ag.mode } :: c.ag.traps).take 32,
        trapCount := min (c.ag.trapCount + 1) 65535 } }, .notSent)) ∧
    ∀ d taken, c.rp.ring ≠ .isolated → c.ag.mode = .production →
      rpHand { kind := .actuate, dest := BitVec.ofNat 8 (key.toNat / 256), items := [mkItem key v],
               source := .ownActuation } c = (d, taken) →
      (taken = false → sendValue n key v src serves timeout c = (setUnsent n true d, .notSent)) ∧
      (taken = true → findRole (setUnsent n false d) (.pointEcho n) = none →
        sendValue n key v src serves timeout c = (setUnsent n false d, .confirmed)) ∧
      (taken = true → (findRole (setUnsent n false d) (.pointEcho n)).isSome = true → d.ag.confirms.length < 8 →
        sendValue n key v src serves timeout c = ({ setUnsent n false d with ag := { d.ag with
          confirms := d.ag.confirms ++ [{ point := n, value := v, source := src, serves := serves,
                                          deadline := d.clock.ms + BitVec.ofNat 32 timeout }] } }, .pending)) ∧
      (taken = true → (findRole (setUnsent n false d) (.pointEcho n)).isSome = true → 8 ≤ d.ag.confirms.length →
        sendValue n key v src serves timeout c = (raiseNat .gateFault .point n { setUnsent n false d with ag := { d.ag with
          confOverflow := min (d.ag.confOverflow + 1) 65535
          faults := d.ag.faults.modify n (fun x => min (x + 1) 65535) } }, .failed))

/-- What is due on a millisecond source (R42, R47): every channel on it in number order, an INTERVAL channel with as
many fires as its next fire time lies back, each advancing it by L, then the reached points; where nothing is due
nothing changes (log entry 3). Alone on the source and due once, it fires once. The other channels: starts under the
three policies (R44, R48; the starts that RESTART displaces leave the refused-start count, log entry 16), a taken
start that is due at once (R44), the fire event and its slaves (R46; a channel in mode OFF takes no starts: R40, log
entry 30), due fire and close points and their order (R42), the fire of a DELAY start and of a GATE start with its
condition (R48 to R50; without an output a DELAY reports nothing and a GATE's pulse is NOT-SENT, log entry 14), the
pulse and its 16 served records (R49, R54; a member that fires again while they are 16 stays one, log entry 35), its
outcome (R53), the reports (R54; in the order of joining, log entry 8), the close (R49), marker items and the channels
that take them (R45; in number order, log entry 15), captures (R51), CUT channels (R47; a cut before its fire count
and slaves, log entry 8), and the fire check, which decides a bag that is still GATHERING (R50, R137). -/
def Obligations.MillisecondPointFiresInterval : Prop :=
  ((∀ s : State, s.chip.pins.running = true → millisecondDue s.chip = false →
     exec .millisecondPointDue s = .next (s.after s.chip)) ∧
   (∀ s : State, s.chip.pins.running = true → millisecondDue s.chip = true →
     exec .millisecondPointDue s = .next (s.after (handleMilliseconds s.chip))) ∧
   ∀ (n : Nat) (s : State) (k : TrackChan), s.chip.pins.running = true → n < 8 → s.chip.tc.chans[n]? = some k →
     (∀ m, m < 8 → m ≠ n → (trackChan s.chip m).cfg.source ≠ .milliseconds) →
     (∀ m, m < 8 → triggerOf (trackChan s.chip m) ≠ some (.master n)) →
     k.cfg.mode = .interval → k.cfg.source = .milliseconds → k.dyn.state = .running →
     reached s.chip.clock.ms k.dyn.nextFire = true → (s.chip.clock.ms - k.dyn.nextFire).toNat < k.cfg.length →
     exec .millisecondPointDue s = .next (s.after { s.chip with tc := { s.chip.tc with
       chans := s.chip.tc.chans.set n { k with dyn := { k.dyn with
         nextFire := k.dyn.nextFire + BitVec.ofNat 32 k.cfg.length, fires := (k.dyn.fires + 1) % 65536 } } } })) ∧
  -- Starts (R44, R48).
  (∀ (n : Nat) (st : Start) (c : Chip) (k : TrackChan), k = trackChan c n →
     ∀ (takes : Prop) (taken refused : Chip),
     (takes ↔ (k.cfg.mode = .delay ∨ k.cfg.mode = .gate) ∧
       (k.dyn.state = .armed ∨ k.dyn.state = .delaying ∨ k.dyn.state = .opened)) →
     taken = modTrack n (fun d => { d with
       pend := d.pend ++ [st], state := if d.state = .armed then .delaying else d.state }) c →
     refused = modTrack n (fun d => { d with refused := min (d.refused + 1) 65535 }) c →
     (¬ takes → enterStart n st c = (refused, false)) ∧
     (takes → k.cfg.policy = .ignore → k.dyn.state = .armed → enterStart n st c = (taken, true)) ∧
     (takes → k.cfg.policy = .ignore → k.dyn.state ≠ .armed → enterStart n st c = (refused, false)) ∧
     (takes → k.cfg.policy = .restart → enterStart n st c =
       (reportAll .refused (k.dyn.pend.filterMap (·.served)) (modTrack n (fun d => { d with
         pend := [st], state := if d.state = .armed then .delaying else d.state }) c), true)) ∧
     (takes → k.cfg.policy = .queue → k.dyn.pend.length < 8 → enterStart n st c = (taken, true)) ∧
     (takes → k.cfg.policy = .queue → 8 ≤ k.dyn.pend.length → enterStart n st c = (refused, false))) ∧
  -- A start that is taken and whose fire point is reached at once is handled in the same event (R44).
  (∀ (n : Nat) (st : Start) (c d : Chip), n < 8 →
     (enterStart n st c = (d, false) → startNow n st c = (d, false)) ∧
     (enterStart n st c = (d, true) →
       (reached (channelPos d n) (st.point + BitVec.ofNat 32 (trackChan d n).cfg.delay) = true →
         startNow n st c = (handleSlaves 8 n (handleChannel n d), true)) ∧
       (reached (channelPos d n) (st.point + BitVec.ofNat 32 (trackChan d n).cfg.delay) = false →
         startNow n st c = (d, true)))) ∧
  -- The fire event (R46).
  (∀ (n : Nat) (point : Word) (c : Chip),
     fireEvent n point c = (List.range 8).foldl (fun d m =>
       if triggerOf (trackChan d m) = some (.master n) then (enterStart m { point := point, served := none } d).1 else d)
       (modTrack n (fun d => { d with fires := (d.fires + 1) % 65536 }) c)) ∧
  -- The due points of a channel (R42, R48, R49).
  (∀ (n : Nat) (c : Chip) (k : TrackChan), k = trackChan c n →
     (∀ st fp, dueFire c n = some (st, fp) ↔
       (k.cfg.mode = .delay ∨ k.cfg.mode = .gate) ∧
       (k.dyn.state = .armed ∨ k.dyn.state = .delaying ∨ k.dyn.state = .opened) ∧ k.dyn.pend.head? = some st ∧
       fp = st.point + BitVec.ofNat 32 k.cfg.delay ∧ reached (channelPos c n) fp = true) ∧
     (∀ ce, dueClose c n = some ce ↔
       k.cfg.mode = .gate ∧ k.dyn.state = .opened ∧ ce = k.dyn.onEnd ∧ reached (channelPos c n) ce = true) ∧
     ∀ fuel,
       (dueFire c n = none → dueClose c n = none → handlePoints n (fuel + 1) c = c) ∧
       (∀ st fp, dueFire c n = some (st, fp) →
         (∀ ce, dueClose c n = some ce → (channelPos c n - ce).toNat ≤ (channelPos c n - fp).toNat) →
         handlePoints n (fuel + 1) c = handlePoints n fuel (fireStart n st fp c)) ∧
       (∀ ce, dueClose c n = some ce →
         (∀ st fp, dueFire c n = some (st, fp) → (channelPos c n - fp).toNat < (channelPos c n - ce).toNat) →
         handlePoints n (fuel + 1) c = handlePoints n fuel (closeGate n c))) ∧
  -- The fire of a start (R48 to R50).
  (∀ (n : Nat) (st : Start) (point : Word) (c c0 : Chip) (k : TrackChan),
     c0 = modTrack n (fun d => { d with
       pend := d.pend.tail
       state := if d.state = .opened then .opened else if d.pend.tail.isEmpty then .armed else .delaying }) c →
     k = trackChan c n →
     (k.cfg.mode = .delay → ∀ d, d = fireEvent n point c0 →
       ((trackChan d n).cfg.output = none → fireStart n st point c = d) ∧
       ∀ o e out, (trackChan d n).cfg.output = some o →
         sendValue n o.key o.onValue (.channel n) (some d.tc.nextToken) o.timeout
           { d with tc := { d.tc with nextToken := d.tc.nextToken + 1 } } = (e, out) →
         (∀ r, out.report? = some r → fireStart n st point c = reportAll r st.served.toList e) ∧
         (out = .pending → fireStart n st point c = modTrack n (fun x => { x with awaiting := x.awaiting ++
           [{ served := st.served.toList, outcome := .pending, token := d.tc.nextToken }] }) e)) ∧
     (k.cfg.mode = .gate → (k.cfg.cond = .always ∨ ∀ seq, st.served ≠ some (.bag seq)) →
       fireStart n st point c = fireGate n st point (fireEvent n point c0)) ∧
     (k.cfg.mode = .gate → k.cfg.cond = .bagNotAccepted → ∀ seq d, st.served = some (.bag seq) →
       (fireCheck seq c0 = (d, true) →
         fireStart n st point c = modTrack n (fun x => { x with skipped := min (x.skipped + 1) 65535 }) d) ∧
       (fireCheck seq c0 = (d, false) → fireStart n st point c = fireGate n st point (fireEvent n point d)))) ∧
  -- The gate (R49, R54).
  (∀ (n : Nat) (st : Start) (point : Word) (c : Chip) (k : TrackChan) (close : Word), k = trackChan c n →
     close = point + BitVec.ofNat 32 k.cfg.width →
     (k.dyn.state = .opened → ∀ d, d = modTrack n (fun x => { x with
         onEnd := if reached close x.onEnd = true then close else x.onEnd }) c →
       (st.served = none → fireGate n st point c = d) ∧
       ∀ s p, st.served = some s → k.dyn.pulse = some p →
         (∀ r, p.outcome.report? = some r → fireGate n st point c = reportServed r d s) ∧
         (p.outcome = .pending → s ∈ p.served → fireGate n st point c = d) ∧
         (p.outcome = .pending → s ∉ p.served → p.served.length < 16 → fireGate n st point c =
           modTrack n (fun x => { x with pulse := some { p with served := p.served ++ [s] } }) d) ∧
         (p.outcome = .pending → s ∉ p.served → 16 ≤ p.served.length →
           fireGate n st point c = reportServed .failed d s)) ∧
     (k.dyn.state ≠ .opened → ∀ earlier d e out,
       (∀ p, k.dyn.pulse = some p → p.outcome = .pending → earlier = [p]) →
       ((∀ p, k.dyn.pulse = some p → p.outcome ≠ .pending) → earlier = []) →
       d = modTrack n (fun x => { x with
           state := .opened, onEnd := close, awaiting := x.awaiting ++ earlier,
           pulse := some { served := st.served.toList, outcome := .pending, token := c.tc.nextToken } })
         { c with tc := { c.tc with nextToken := c.tc.nextToken + 1 } } →
       sendOutput n true (some c.tc.nextToken) d = (e, out) → fireGate n st point c = settlePulse n out e)) ∧
  -- The outcome of the value a gate pulse serves (R53, R54).
  (∀ (n : Nat) (o : Outcome4) (c : Chip) (p : Pulse), (trackChan c n).dyn.pulse = some p →
     (∀ r, o.report? = some r → settlePulse n o c =
       reportAll r p.served (modTrack n (fun d => { d with pulse := some { p with outcome := o, served := [] } }) c)) ∧
     (o = .pending → settlePulse n o c =
       modTrack n (fun d => { d with pulse := some { p with outcome := .pending } }) c)) ∧
  -- A report goes to the issuer of each served record (R54); an output's value is handed for sending (R53).
  ((∀ (r : Report) (l : List Served) (c : Chip), reportAll r l c = l.foldl (fun d s => match s with
     | .segment id => segmentOutcome id r d
     | .bag seq => bagOutcome seq r d) c) ∧
   ∀ (n : Nat) (on : Bool) (serves : Option Nat) (c : Chip) (o : Output), (trackChan c n).cfg.output = some o →
     sendOutput n on serves c =
       sendValue n o.key (if on = true then o.onValue else o.offValue) (.channel n) serves o.timeout c) ∧
  -- Without an output nothing is sent (log entry 14).
  (∀ (n : Nat) (on : Bool) (serves : Option Nat) (c : Chip), (trackChan c n).cfg.output = none →
     sendOutput n on serves c = (c, .notSent)) ∧
  -- The close of a gate (R49).
  (∀ (n : Nat) (c d : Chip), d = modTrack n (fun e => { e with state := if e.pend.isEmpty then .armed else .delaying }) c →
     (∀ o, (trackChan c n).cfg.output = some o →
       closeGate n c = (sendValue n o.key o.offValue (.channel n) none o.timeout d).1) ∧
     ((trackChan c n).cfg.output = none → closeGate n c = d)) ∧
  -- Marker items (R45).
  (∀ (n : Nat) (edge : Edge) (level : Bool) (c c1 : Chip) (d : TrackDyn), d = (trackChan c n).dyn →
     c1 = modTrack n (fun e => { e with
       lastLevel := some level, filtered := if d.lastLevel = some level then some level else e.filtered }) c →
     ∀ (recognised : Prop),
     (recognised ↔ d.lastLevel = some level ∧ d.filtered = some (!level) ∧ d.state ≠ .stopped ∧
       (level = true → edge ≠ .falling) ∧ (level = false → edge ≠ .rising)) →
     (¬ recognised → markerChannel n edge level c = c1) ∧
     (recognised → (trackChan c n).cfg.mode = .capture → markerChannel n edge level c = captureAt n c1) ∧
     (recognised → (trackChan c n).cfg.mode ≠ .capture →
       markerChannel n edge level c = (startNow n { point := channelPos c1 n, served := none } c1).1)) ∧
  -- Captures (R51).
  (∀ (n : Nat) (c : Chip) (r : Capture) (pos : Word) (now : Captured), r = (trackChan c n).dyn.capture →
     pos = channelPos c n → now = { point := pos, line := c.clock.line, ms := c.clock.ms } →
     (∀ l, r.span = true → r.last = some l → captureAt n c = handleSlaves 8 n (fireEvent n pos
       (modTrack n (fun d => { d with capture :=
         { last := some now, prev := some l, counts := some (min (pos - l.point).toNat 65535),
           interval := some (c.clock.ms - l.ms), overflow := decide (65535 < (pos - l.point).toNat), span := true } })
         c))) ∧
     ((r.span = false ∨ r.last = none) → captureAt n c = handleSlaves 8 n (fireEvent n pos
       (modTrack n (fun d => { d with capture :=
         { last := some now, prev := r.last, counts := none, interval := none, overflow := false, span := true } })
         c)))) ∧
  -- CUT channels (R47).
  ((∀ (n delta : Nat) (c : Chip) (k : TrackChan), k = trackChan c n →
     (k.cfg.mode ≠ .cut ∨ k.dyn.state ≠ .running → advanceCut n delta c = c) ∧
     (k.cfg.mode = .cut → k.dyn.state = .running → 0 < k.cfg.length → ∀ total, total = k.dyn.remainder + delta →
       advanceCut n delta c = fireCuts n k.cfg.length (total / k.cfg.length) (total - k.cfg.length)
         (modTrack n (fun d => { d with remainder := total % k.cfg.length }) c))) ∧
   (∀ (n length left : Nat) (c : Chip), fireCuts n length 0 left c = c) ∧
   ∀ (n length fires left : Nat) (c d : Chip),
     (c.st.blanch.written = true → c.st.chill.written = true → c.st.freeze.written = true →
       c.st.blanch.cutChannel = n → d = cut n left c) →
     (c.st.blanch.written = false ∨ c.st.chill.written = false ∨ c.st.freeze.written = false ∨
       c.st.blanch.cutChannel ≠ n → d = c) →
     fireCuts n length (fires + 1) left c =
       fireCuts n length fires (left - length) (fireEvent n (channelPos c n - BitVec.ofNat 32 left) d)) ∧
  -- What is due on the millisecond sources, in channel order (R42, R47).
  ((∀ c : Chip, millisecondDue c = true ↔ ∃ n, n < 8 ∧ (trackChan c n).cfg.source = .milliseconds ∧
     (0 < dueIntervals c n ∨ dueFire c n ≠ none ∨ dueClose c n ≠ none)) ∧
   (∀ c : Chip, handleMilliseconds c = (List.range 8).foldl (fun d n =>
     if (trackChan d n).cfg.source = .milliseconds
     then handlePoints n 18 (fireIntervals n (dueIntervals d n) d) else d) c) ∧
   (∀ (n : Nat) (c : Chip) (k : TrackChan) (due : Prop), k = trackChan c n →
     (due ↔ k.cfg.mode = .interval ∧ k.dyn.state = .running ∧ 0 < k.cfg.length ∧
       reached c.clock.ms k.dyn.nextFire = true) →
     (¬ due → dueIntervals c n = 0) ∧
     (due → dueIntervals c n = (c.clock.ms - k.dyn.nextFire).toNat / k.cfg.length + 1)) ∧
   ∀ (n fires : Nat) (c : Chip),
     fireIntervals n 0 c = c ∧
     fireIntervals n (fires + 1) c = fireIntervals n fires (fireEvent n (trackChan c n).dyn.nextFire
       (modTrack n (fun d => { d with nextFire := d.nextFire + BitVec.ofNat 32 (trackChan c n).cfg.length }) c))) ∧
  -- Slaves (R46).
  ((∀ (limit n : Nat) (c : Chip), handleSlaves limit n c = (List.range limit).foldl (fun d m =>
     if n < m ∧ isSlave (trackChan d m) = true ∧ (trackChan d m).cfg.source = (trackChan d n).cfg.source
     then handlePoints m 18 d else d) c) ∧
   (∀ k : TrackChan, isSlave k = true ↔ ∃ m, triggerOf k = some (.master m)) ∧
   ∀ k : TrackChan, triggerOf k = if k.cfg.mode = .off then none else some k.cfg.trigger) ∧
  -- A MARKER item reaches the channels that name its intake channel (R45).
  (∀ (m : Nat) (level : Bool) (c : Chip) (take : Nat → Chip → Chip),
     (∀ n d, (∀ e, triggerOf (trackChan d n) = some (.marker m e) → take n d = markerChannel n e level d) ∧
       ((∀ e, triggerOf (trackChan d n) ≠ some (.marker m e)) → take n d = d)) →
     markerItem m level c = (List.range 8).foldl (fun d n => take n d) c) ∧
  -- The fire check (R50, R137).
  ((∀ (seq : Nat) (c : Chip),
     ((∀ e ∈ c.ba.decisions, e.seq ≠ seq) → newestDecision c seq = none) ∧
     ∀ before after e, c.ba.decisions = before ++ e :: after → e.seq = seq → (∀ x ∈ after, x.seq ≠ seq) →
       newestDecision c seq = some e) ∧
   ∀ (seq : Nat) (c : Chip),
     (newestDecision c seq = none → fireCheck seq c = (c, false)) ∧
     ∀ e, newestDecision c seq = some e →
       (e.decision = .accepted → fireCheck seq c = (c, true)) ∧
       (e.decision = .rejected → fireCheck seq c = (c, false)) ∧
       ∀ k, e.decision = .gathering → e.slot = some k →
         ((∃ x, newestDecision (decideBag k c) seq = some x ∧ x.decision = .accepted) →
           fireCheck seq c = (decideBag k c, true)) ∧
         ((∀ x, newestDecision (decideBag k c) seq = some x → x.decision ≠ .accepted) →
           fireCheck seq c = (decideBag k c, false)))

/-! ## Segments, dose and freeze -/

/-- Crediting a segment (R79, R83, R84): the rate of the interval temperature under its recipe, times the interval
from the later of the zone's credit time and its own, at most 50 ds, is added to the accumulator, which stays at its
greatest value; a longer interval sets GAP and counts, a temperature above the table sets ABOVE-TABLE. A zone's update
credits its segments with the lower of two temperatures, or with no before temperature, or as the first after a write
of the zone's channels (log entry 32), only restarts their intervals (R81, R82). Entering a STALE-HELD zone places
STALE-ZONE and counts (R86; at every such entry: log entry 20). -/
def Obligations.CreditAddsRateTimesInterval : Prop :=
  (∀ (z id : Nat) (temp : Int) (ct : Option Nat) (c : Chip) (g : Segment) (r : Recipe) (rate interval : Nat),
     segmentIn c .blanch id = some g → r = recipeOfLot c g.lot →
     interval = c.clock.line - max (ct.getD 0) (g.credited.getD 0) →
     (temp < r.tbase → rate = 0) →
     (r.tbase ≤ temp → temp - r.tbase ≤ 315 →
       ∃ i f : Nat, temp - r.tbase = (5 * i + f : Nat) ∧ f < 5 ∧
         rate = r.table.getD i 0 + (r.table.getD (i + 1) 0 - r.table.getD i 0) * f / 5) →
     (315 < temp - r.tbase → rate = r.table.getD 63 0) →
     ∀ d, d = modSegment id (fun x => { x with
           dose := min (x.dose + rate * min interval 50) 4294967295, credited := some c.clock.line,
           flags := { x.flags with gap := x.flags.gap || decide (50 < interval),
                                   aboveTable := x.flags.aboveTable || decide (315 < temp - r.tbase) } }) c →
       (interval ≤ 50 → creditSegment z temp ct id c = d) ∧
       (50 < interval →
         creditSegment z temp ct id c = modDose z (fun x => { x with gaps := min (x.gaps + 1) 65535 }) d)) ∧
  -- Zone updates (R81, R82) and the entry of a zone (R86).
  ((∀ (z : Nat) (before : Option Int) (after : Int) (c : Chip) (ids : List Nat),
     ids = (c.st.qBlanch.filter (fun g => g.zone == some z)).map (·.id) →
     ((before = none ∨ (c.de.zones.getD z .clear).write ≠ .none) →
       zoneUpdate z before after c = modDose z (fun d => { d with
           write := .none, creditTime := some c.clock.line, skipped := min (d.skipped + 1) 65535 })
         (ids.foldl (fun d id => modSegment id (fun s => { s with credited := some c.clock.line }) d) c)) ∧
     ∀ x temp, before = some x → (c.de.zones.getD z .clear).write = .none → temp = min x after →
       zoneUpdate z before after c = modDose z (fun d => { d with
           write := .none, creditTime := some c.clock.line, lastTemp := some temp, credits := (d.credits + 1) % 65536 })
         (ids.foldl (fun d id => creditSegment z temp (c.de.zones.getD z .clear).creditTime id d) c)) ∧
   ∀ (z id : Nat) (c : Chip),
     ((c.de.zones.getD z .clear).state = .staleHeld → zoneEntered z id c =
       modDose z (fun d => { d with staleZones := min (d.staleZones + 1) 65535 })
         (modSegment id (fun s => { s with hold := s.hold ||| HoldReason.staleZone.only }) c)) ∧
     ((c.de.zones.getD z .clear).state ≠ .staleHeld → zoneEntered z id c = c))

/-- The two decisions (R89, R104, R105). BLANCH: PASS exactly where the accumulator is at least the target times 4096.
FREEZE: without an exit temperature PASS, with NO-EXIT-TEMP placed and counted if it is new; warmer than the limit
DIVERT, with WARM-EXIT raised and counted; otherwise PASS and nothing else. What follows: the divert start and its
start point, handled at once where it is due, DIVERT-MISSED where it is refused (R69, R44), the outcome of a divert
(R70), the freezer's checks of chill window and dwell (R98, R106), warm chill time and its allowance (R99, R100), the
chill input's freshness: at STALE the previous chill item goes with the latest value, at STALE-HELD every segment in
CHILL and every one that joins it receives WARM-CHILL, counted where it is new (R101), exit temperatures (R103) and
the freezer speed limit (R107). -/
def Obligations.DecisionPointsJudgeSegments : Prop :=
  ((∀ (c : Chip) (g : Segment), blanchVerdict c g = true ↔ (recipeOfLot c g.lot).target * 4096 ≤ g.dose) ∧
   ∀ (c : Chip) (g : Segment), segmentAt c g.id = some g →
     (g.warmest = none → g.hold.has .noExitTemp = false →
       freezeVerdict g c = (modFv (fun f => { f with noExit := min (f.noExit + 1) 65535 })
         (modSegment g.id (fun x => { x with hold := x.hold ||| HoldReason.noExitTemp.only }) c), true)) ∧
     (g.warmest = none → g.hold.has .noExitTemp = true → freezeVerdict g c = (c, true)) ∧
     (∀ w, g.warmest = some w → (recipeOfLot c g.lot).exitLimit < w →
       freezeVerdict g c = (modFv (fun f => { f with warmExit := min (f.warmExit + 1) 65535 })
         (raiseNat .warmExit .segment g.id c), false)) ∧
     (∀ w, g.warmest = some w → w ≤ (recipeOfLot c g.lot).exitLimit → freezeVerdict g c = (c, true))) ∧
  -- A decision and a divert (R69, R44).
  ((∀ (b : Belt) (gate id overshoot : Nat) (moment : Moment) (c : Chip) (st : Start) (c0 missed : Chip) (serves : Prop),
     c0 = modSegment id (fun s => { s with disp := .divert }) c →
     st = { point := decisionPoint c gate moment overshoot, served := some (.segment id) } →
     (serves ↔ ((trackChan c gate).cfg.mode = .delay ∨ (trackChan c gate).cfg.mode = .gate) ∧
       (trackChan c gate).cfg.trigger = .segmentDecision b ∧
       ((trackChan c gate).cfg.source = .encoder (encoderOf c.st b) ∨ (trackChan c gate).cfg.source = .milliseconds)) →
     (∀ d, serves → enterStart gate st c0 = (d, true) →
       divertSegment b gate id moment overshoot c = settleStart (sweepLimit c gate moment) gate st.point
         (modSegment id (fun s => { s with disp := .diverting }) d)) ∧
     (∀ d, (serves → enterStart gate st c0 = (d, false)) → (¬ serves → d = modTrack gate (fun k => { k with
       refused := min (k.refused + 1) 65535 }) c0) →
       missed = modSegment id (fun s => { s with disp := .pass, hold := s.hold ||| HoldReason.divertMissed.only }) d →
       divertSegment b gate id moment overshoot c = raiseNat .divertMissed .segment id missed)) ∧
   (∀ (c : Chip) (n overshoot : Nat) (moment : Moment),
     ((trackChan c n).cfg.source = .milliseconds → decisionPoint c n moment overshoot = c.clock.ms) ∧
     (∀ e delta, (trackChan c n).cfg.source = .encoder e → moment = .beforeSweep delta →
       decisionPoint c n moment overshoot =
         c.tc.positions.getD e 0 + BitVec.ofNat 32 delta - BitVec.ofNat 32 overshoot) ∧
     (∀ e m, (trackChan c n).cfg.source = .encoder e → moment = .sweeping m →
       decisionPoint c n moment overshoot = c.tc.positions.getD e 0 - BitVec.ofNat 32 overshoot)) ∧
   ∀ (id overshoot : Nat) (moment : Moment) (c : Chip) (g : Segment), segmentAt c id = some g →
     (blanchVerdict c g = true → decideSegment .blanch id moment overshoot c =
       modSegment id (fun s => { s with disp := .pass }) (checkOverblanch id c)) ∧
     (blanchVerdict c g = false → decideSegment .blanch id moment overshoot c =
       divertSegment .blanch c.st.blanch.gate id moment overshoot (checkOverblanch id c)) ∧
     (∀ d, freezeVerdict g c = (d, true) → decideSegment .freeze id moment overshoot c =
       modSegment id (fun s => { s with disp := .pass }) d) ∧
     (∀ d, freezeVerdict g c = (d, false) → decideSegment .freeze id moment overshoot c =
       divertSegment .freeze c.st.freeze.gate id moment overshoot d) ∧
     ((recipeOfLot c g.lot).maximum * 4096 < g.dose → g.flags.overblanch = false → checkOverblanch id c =
       reportLot g.lot .overblanched
         (modSegment id (fun s => { s with flags := { s.flags with overblanch := true } }) c)) ∧
     ((g.dose ≤ (recipeOfLot c g.lot).maximum * 4096 ∨ g.flags.overblanch = true) → checkOverblanch id c = c)) ∧
  -- The outcome of a divert (R70).
  (∀ (id : Nat) (r : Report) (c : Chip),
     ((∀ g, segmentAt c id = some g → g.disp ≠ .diverting) →
       segmentOutcome id r c = { c with st := { c.st with stray := min (c.st.stray + 1) 65535 } }) ∧
     ∀ g, segmentAt c id = some g → g.disp = .diverting →
       segmentOutcome id .confirmed c = reportLot g.lot (.divertConfirmed g.remaining)
         (leaveWindow id (removeSegment id c)) ∧
       segmentOutcome id .failed c = modSegment id (fun s => { s with
         disp := .pass, hold := s.hold ||| HoldReason.gateUnconfirmed.only }) c ∧
       segmentOutcome id .notSent c = modSegment id (fun s => { s with
         disp := .pass, hold := s.hold ||| HoldReason.unverified.only }) c ∧
       segmentOutcome id .refused c = raiseNat .divertMissed .segment id (modSegment id (fun s => { s with
         disp := .pass, hold := s.hold ||| HoldReason.divertMissed.only }) c)) ∧
  -- The freezer checks (R98, R106) and a placed reason that is counted where it is new (R97).
  (∀ (id : Nat) (c : Chip) (g : Segment), segmentAt c id = some g →
     (∀ late, late = g.freezerEntry.getD 0 - g.blanchExit.getD 0 →
       ((recipeOfLot c g.lot).chillWindow < late → g.hold.has .lateChill = false → checkChillWindow id c =
         modFv (fun f => { f with lateChill := min (f.lateChill + 1) 65535 })
           (modSegment id (fun s => { s with hold := s.hold ||| HoldReason.lateChill.only }) c)) ∧
       ((late ≤ (recipeOfLot c g.lot).chillWindow ∨ g.hold.has .lateChill = true) → checkChillWindow id c = c)) ∧
     ∀ dwell, dwell = g.freezerExit.getD 0 - g.freezerEntry.getD 0 →
       (dwell < (recipeOfLot c g.lot).dwell → g.hold.has .underDwell = false → checkDwell id c =
         modFv (fun f => { f with underDwell := min (f.underDwell + 1) 65535 })
           (modSegment id (fun s => { s with hold := s.hold ||| HoldReason.underDwell.only }) c)) ∧
       (((recipeOfLot c g.lot).dwell ≤ dwell ∨ g.hold.has .underDwell = true) → checkDwell id c = c)) ∧
  -- Warm chill (R99 to R101) and exit temperatures (R103).
  ((∀ (v : Int) (c : Chip),
     (c.fv.prevChill = none → chillItem v c = modFv (fun f => { f with prevChill := some (v, c.clock.line) }) c) ∧
     ∀ p t, c.fv.prevChill = some (p, t) → chillItem v c =
       modFv (fun f => { f with prevChill := some (v, c.clock.line) })
         ((c.st.qChill.map (·.id)).foldl (fun d id => chargeWarm v p (min (c.clock.line - t) 50) id d) c)) ∧
   (∀ (v p : Int) (interval id : Nat) (c : Chip) (g : Segment) (r : Recipe) (warm : Nat) (d : Chip),
     segmentIn c .chill id = some g → r = recipeOfLot c g.lot → warm = min (g.warmChill + interval) 65535 →
     d = modSegment id (fun s => { s with warmChill := warm }) c →
     ((v ≤ r.chillLimit ∨ p ≤ r.chillLimit) → chargeWarm v p interval id c = c) ∧
     (r.chillLimit < v → r.chillLimit < p → warm ≤ r.warmAllowance → chargeWarm v p interval id c = d) ∧
     (r.chillLimit < v → r.chillLimit < p → r.warmAllowance < warm → chargeWarm v p interval id c = holdWarmChill id d)) ∧
   (∀ (id : Nat) (c : Chip) (g : Segment), segmentAt c id = some g →
     (g.hold.has .warmChill = true → holdWarmChill id c = c) ∧
     (g.hold.has .warmChill = false → holdWarmChill id c =
       modFv (fun f => { f with warmChill := min (f.warmChill + 1) 65535 })
         (modSegment id (fun s => { s with hold := s.hold ||| HoldReason.warmChill.only }) c))) ∧
   ∀ (v : Int) (c : Chip),
     (c.fv.window = [] → exitItem v c = modFv (fun f => { f with unapplied := min (f.unapplied + 1) 65535 }) c) ∧
     (c.fv.window ≠ [] → exitItem v c = c.fv.window.foldl (fun d id => modSegment id (fun s => { s with
       warmest := some (match s.warmest with | some w => max w v | none => v) }) d) c)) ∧
  -- The freezer speed limit (R107).
  (∀ (c : Chip) (limits : List Nat),
     limits = (c.st.qFreeze.map (·.lot) ++ (openLot? c).toList).map (fun lot =>
       min ((c.st.freeze.length - c.st.freeze.entry) * 100 / (recipeOfLot c lot).dwell) 2147483647) →
     ((c.st.blanch.written = false ∨ c.st.chill.written = false ∨ c.st.freeze.written = false) →
       freezerLimit c = none) ∧
     (c.st.blanch.written = true → c.st.chill.written = true → c.st.freeze.written = true →
       (limits = [] → freezerLimit c = none) ∧
       ∀ m, freezerLimit c = some m ↔ m ∈ limits ∧ ∀ n ∈ limits, m ≤ n)) ∧
  -- The chill input (R101): its freshness, and a segment that joins CHILL.
  ((∀ (hasValue : Bool) (c : Chip),
     tellChill .fresh hasValue c = { c with fv := { c.fv with chillState := .fresh } } ∧
     tellChill .stale true c = { c with fv := { c.fv with chillState := .stale } } ∧
     tellChill .stale false c = { c with fv := { c.fv with chillState := .stale, prevChill := none } } ∧
     tellChill .staleHeld hasValue c = (c.st.qChill.map (·.id)).foldl (fun d id => holdWarmChill id d)
       { c with fv := { c.fv with chillState := .staleHeld } }) ∧
   ∀ (id : Nat) (c : Chip),
     (c.fv.chillState = .staleHeld → chillArrival id c = holdWarmChill id c) ∧
     (c.fv.chillState ≠ .staleHeld → chillArrival id c = c)) ∧
  -- A divert start that is due at once (R44).
  ((∀ (limit n : Nat) (point : Word) (c : Chip) (due : Prop),
     (due ↔ n < limit ∧ reached (channelPos c n) (point + BitVec.ofNat 32 (trackChan c n).cfg.delay) = true) →
     (due → settleStart limit n point c = handleSlaves limit n (handleChannel n c)) ∧
     (¬ due → settleStart limit n point c = c)) ∧
   ∀ (c : Chip) (n delta m : Nat),
     sweepLimit c n (.beforeSweep delta) = 8 ∧
     sweepLimit c n (.sweeping m) = (if (trackChan c n).cfg.source = (trackChan c m).cfg.source then m else 8))

/-- R65: POOL-LOW is true while the free records, 256 less the live segments, are below the pool reserve, at every moment;
a reserve of 0 keeps it false and one above 64 is out of its range; AG reads it, and READ-STATUS returns it with the
number of free records. -/
def Obligations.PoolLowComparesReserve : Prop :=
  (∀ c : Chip, poolLow c = true ↔ 256 - (liveSegments c.st).length < c.ma.config.reserve) ∧
  (∀ c : Chip, c.ma.config.reserve = 0 → poolLow c = false) ∧
  (∀ ws : List Word, ws.length = 12 → 64 < (ws.getD 3 0).toNat → entriesRange .line [(0, ws)] = false) ∧
  (∀ c : Chip, conditionHolds c .poolLow = poolLow c) ∧
  ∀ c : Chip, ∃ before after : List Word, before.length = 4 ∧
    statusSt c = before ++
      [BitVec.ofNat 32 (256 - (liveSegments c.st).length), if poolLow c = true then 1 else 0] ++ after

/-! ## Bags -/

/-- A bag's deadline (R134, R135): the bag is REJECTED exactly where some check fails, with every reason whose check
fails; its record is made, its decision list entry follows, and it is settled (R138, R139). A slot that is not
gathering or not due is left alone (log entry 3). How a bag comes and goes: its lot and slot, or its overrun (R128,
R129), its content and decision list entry, BAG-MADE starts (their order: log entry 8), the draw from the surge queue
(R131, R132), contributions, conflicts and orphans (R126, R133). Settlement: of a REJECTED bag, the two reports to LH
in their order, the gate reasons that waited, the slot DECIDED and the record handed to TM (R138, R143); of an
ACCEPTED one, the pallet joined, created or waited for, its cases and its close (R139 to R141). A new pallet record
with its id, the lot's carried gate reasons and the report to LH (R140; exposure time and temperature 0: log entry
27); PALLET-FULL, and the waiting bags taken oldest decision first when an entry is free (R142). A gate's report
(R145): counted as stray, nothing, a reason that waits for the decision, or the reason in the record and on the lot's
pallet or among its carried reasons. The record of a bag as its slot, lot and recipe give it (R143), and a start at each
channel of trigger BAG-MADE in channel order, each completed before the next, a refused one being GATE-UNCONFIRMED (R44,
R128, R145; log entry 8). The record of an overrun bag: its lot, its made time, REJECTED with OVERRUN alone, no fields,
draws or holds (R129). That a later waiting bag still joins a pallet just created, once the freed entry is used up, is
log entry 43. -/
def Obligations.BagIsDecidedAtItsDeadline : Prop :=
  ((∀ (k : Nat) (s : State) (b : Slot), s.chip.pins.running = true → slotAt s.chip k = some b → b.state = .gathering →
     reached s.chip.clock.ms b.deadline = true →
     ∀ (reasons : Byte) (d : Chip), reasons = rejectReasons (recipeOfLot s.chip b.lot) b →
       d = modDecisions (fun e => e.slot == some k)
         (fun e => { e with decision := if reasons = 0 then .accepted else .rejected })
         (modSlot k (fun x => { x with
             decision := if reasons = 0 then .accepted else .rejected, reasons := reasons, order := s.chip.ba.serial,
             record := some (makeRecord b (decide (reasons ≠ 0)) reasons s.chip) })
           { s.chip with ba := { s.chip.ba with serial := s.chip.ba.serial + 1 } }) →
       exec (.bagDeadline k) s = .next (s.after (if reasons = 0 then settleAccepted k d else settleRejected k d))) ∧
   (∀ (k : Nat) (s : State), s.chip.pins.running = true →
     (∀ b, slotAt s.chip k = some b → b.state ≠ .gathering ∨ reached s.chip.clock.ms b.deadline = false) →
     exec (.bagDeadline k) s = .next (s.after s.chip)) ∧
   ∀ (r : Recipe) (b : Slot),
     ((rejectReasons r b).getLsbD 0 = true ↔ (r.needWeight = true ∧ b.weight = none) ∨
       (r.needCode = true ∧ b.codeFail = none) ∨ (r.needMetal = true ∧ b.metalFail = none)) ∧
     ((rejectReasons r b).getLsbD 1 = true ↔ ∃ w, b.weight = some w ∧ (w : Int) - r.tare < (r.bagTarget : Int) - r.under) ∧
     ((rejectReasons r b).getLsbD 2 = true ↔ ∃ w, b.weight = some w ∧ (r.bagTarget : Int) + r.overweight < (w : Int) - r.tare) ∧
     ((rejectReasons r b).getLsbD 3 = true ↔ b.codeFail = some true) ∧
     ((rejectReasons r b).getLsbD 4 = true ↔ b.metalFail = some true) ∧
     ((rejectReasons r b).getLsbD 5 = true ↔ b.conflict ≠ 0) ∧
     ((rejectReasons r b).getLsbD 7 = true ↔ b.tail = true) ∧
     (rejectReasons r b).getLsbD 6 = false) ∧
  -- A bag is made (R128 to R130).
  (∀ (seq : Nat) (c : Chip),
     (∀ g rest, c.st.qSurge = g :: rest → bagLot c = some g.lot) ∧
     (c.st.qSurge = [] → bagLot c = openLot? c) ∧
     (bagLot c = none → newBag seq c = lotlessBag seq c) ∧
     (∀ lot, bagLot c = some lot → (∃ b, some b ∈ c.ba.slots ∧ b.seq = seq) → newBag seq c = overrunBag seq lot c) ∧
     (∀ lot, bagLot c = some lot → (∀ b ∈ c.ba.slots, b ≠ none) → newBag seq c = overrunBag seq lot c) ∧
     (∀ lot before after, bagLot c = some lot → (∀ b, some b ∈ c.ba.slots → b.seq ≠ seq) →
       c.ba.slots = before ++ none :: after → (∀ b ∈ before, b ≠ none) →
       newBag seq c = gatherBag seq lot before.length c)) ∧
  -- A bag takes a slot (R128), and an overrun bag takes none (R129).
  ((∀ (seq lot k : Nat) (c c1 c2 c3 : Chip),
     c1 = reportLot lot .bagTaken { c with ba := { c.ba with slots := c.ba.slots.set k (some
       { state := .gathering, seq := seq, lot := lot, madeLine := c.clock.line, madeMs := c.clock.ms,
         deadline := c.clock.ms + BitVec.ofNat 32 c.ma.config.bagDeadline, weight := none, codeFail := none,
         metalFail := none, conflict := 0, draws := [], hold := 0, tail := false, decision := .gathering, reasons := 0,
         pallet := none, record := none, order := 0 }) } } →
     c2 = addDecision
       { seq := seq, lot := some lot, slot := some k, decision := .gathering, place := none, gateReasons := 0 }
       (drawBag k c1) →
     c3 = issueBagStarts seq c2 →
     ((recipeOfLot c lot).needWeight = false → (recipeOfLot c lot).needCode = false →
       (recipeOfLot c lot).needMetal = false → gatherBag seq lot k c = decideBag k c3) ∧
     (((recipeOfLot c lot).needWeight = true ∨ (recipeOfLot c lot).needCode = true ∨
       (recipeOfLot c lot).needMetal = true) → gatherBag seq lot k c = c3)) ∧
   (∀ (e : DecisionEntry) (c : Chip),
     (c.ba.decisions.length < 16 → addDecision e c = { c with ba := { c.ba with decisions := c.ba.decisions ++ [e] } }) ∧
     ∀ before after x, 16 ≤ c.ba.decisions.length → c.ba.decisions = before ++ x :: after → x.decision ≠ .gathering →
       (∀ y ∈ before, y.decision = .gathering) →
       addDecision e c = { c with ba := { c.ba with decisions := before ++ after ++ [e] } }) ∧
   ∀ (seq lot : Nat) (c c3 : Chip) (number : Word) (r : BagRecord),
     (∀ l, lotAt c lot = some l → number = l.number) → (lotAt c lot = none → number = 0) →
     -- Its record: REJECTED with OVERRUN, bit 6 of the reasons (R207), no fields, no draws, no holds, no pallet id.
     r = { seq := seq, lot := lot, lotNumber := number, made := c.clock.line, epoch := c.rp.epoch,
           epochPresent := c.rp.epochPresent, net := none, codeFail := none, metalFail := none, rejected := true,
           reasons := 0x40, draws := [], hold := 0, pallet := none } →
     c3 = issueBagStarts seq (addDecision
       { seq := seq, lot := some lot, slot := none, decision := .rejected, place := none, gateReasons := 0 }
       (raiseNat .bagOverrun .bag seq { c with ba := { c.ba with
         lastOverrun := some seq, overruns := min (c.ba.overruns + 1) 65535 } })) →
     (∀ d, takeRecord r c3 = (d, true) → overrunBag seq lot c =
       reportLot lot (.bagSettled false) (reportLot lot .recordMade (reportLot lot .bagTaken d))) ∧
     (∀ d, takeRecord r c3 = (d, false) → overrunBag seq lot c =
       { d with ba := { d.ba with lostRecords := min (d.ba.lostRecords + 1) 65535 } })) ∧
  -- The draw (R131, R132).
  ((∀ (k fuel need : Nat) (c : Chip) (s : Slot), slotAt c k = some s →
     drawLoop k (fuel + 1) 0 c = (c, .met) ∧
     (0 < need → c.st.qSurge = [] → drawLoop k (fuel + 1) need c = (c, .short)) ∧
     ∀ g rest, 0 < need → c.st.qSurge = g :: rest →
       (g.lot ≠ s.lot → drawLoop k (fuel + 1) need c = (c, .boundary)) ∧
       (g.lot = s.lot → 8 ≤ s.draws.length → drawLoop k (fuel + 1) need c = (c, .short)) ∧
       (g.lot = s.lot → s.draws.length < 8 → ∀ grams d, grams = min g.remaining need →
         d = modSegment g.id (fun x => { x with remaining := x.remaining - grams }) (modSlot k (fun b => { b with
           draws := b.draws ++ [{ segment := g.id, grams := grams }], hold := b.hold ||| g.hold }) c) →
         (g.remaining = grams → drawLoop k (fuel + 1) need c =
           drawLoop k fuel (need - grams) (freeSegment g.id false d)) ∧
         (g.remaining ≠ grams → drawLoop k (fuel + 1) need c = drawLoop k fuel (need - grams) d))) ∧
   (∀ (r : Recipe), drawAmount r = (r.bagTarget * r.permille + 500) / 1000) ∧
   ∀ (k : Nat) (c d : Chip) (s : Slot), slotAt c k = some s →
     (drawLoop k 9 (drawAmount (recipeOfLot c s.lot)) c = (d, .met) → drawBag k c = d) ∧
     (∀ b, drawLoop k 9 (drawAmount (recipeOfLot c s.lot)) c = (d, .boundary) → slotAt d k = some b → drawBag k c =
       reportLot s.lot (.tail ((b.draws.map (·.grams)).foldl (· + ·) 0)) (modSlot k (fun x => { x with tail := true }) d)) ∧
     (drawLoop k 9 (drawAmount (recipeOfLot c s.lot)) c = (d, .short) → drawBag k c =
       modSlot k (fun x => { x with hold := x.hold ||| HoldReason.traceShort.only }) d)) ∧
  -- Contributions (R126, R133).
  ((∀ (f : BagField) (seq value : Nat) (c : Chip),
     ((∀ b, some b ∈ c.ba.slots → b.state = .gathering → b.seq ≠ seq) → contribute f seq value c =
       { raiseNat .orphan .bag seq c with ba := { (raiseNat .orphan .bag seq c).ba with
         orphans := min ((raiseNat .orphan .bag seq c).ba.orphans + 1) 65535 } }) ∧
     ∀ before after s, c.ba.slots = before ++ some s :: after → s.state = .gathering → s.seq = seq →
       (∀ b, some b ∈ before → b.state = .gathering → b.seq ≠ seq) →
       ∀ s1 set d, contributeField f value s = (s1, set) →
         d = { c with ba := { c.ba with slots := c.ba.slots.set before.length (some s1) } } →
         (set = true → (fieldsComplete (recipeOfLot c s.lot) s1 = true →
             contribute f seq value c = decideBag before.length d) ∧
           (fieldsComplete (recipeOfLot c s.lot) s1 = false → contribute f seq value c = d)) ∧
         (set = false → contribute f seq value c = d)) ∧
   (∀ (value : Nat) (s : Slot),
     (s.weight = none → contributeField .weight value s = ({ s with weight := some value }, true)) ∧
     (s.weight = some value → contributeField .weight value s = (s, false)) ∧
     (∀ w, s.weight = some w → w ≠ value →
       contributeField .weight value s = ({ s with conflict := s.conflict ||| 1 }, false)) ∧
     (s.codeFail = none → contributeField .code value s = ({ s with codeFail := some (decide (value ≠ 0)) }, true)) ∧
     (s.codeFail = some (decide (value ≠ 0)) → contributeField .code value s = (s, false)) ∧
     (s.codeFail = some (decide (value = 0)) →
       contributeField .code value s = ({ s with conflict := s.conflict ||| 2 }, false)) ∧
     (s.metalFail = none → contributeField .metal value s = ({ s with metalFail := some (decide (value ≠ 0)) }, true)) ∧
     (s.metalFail = some (decide (value ≠ 0)) → contributeField .metal value s = (s, false)) ∧
     (s.metalFail = some (decide (value = 0)) →
       contributeField .metal value s = ({ s with conflict := s.conflict ||| 4 }, false))) ∧
   (∀ (r : Recipe) (s : Slot), fieldsComplete r s = true ↔ (r.needWeight = true → s.weight ≠ none) ∧
     (r.needCode = true → s.codeFail ≠ none) ∧ (r.needMetal = true → s.metalFail ≠ none)) ∧
   ∀ (w : Word) (c : Chip),
     (c.ba.keptMade = some w → bagMade w c = c) ∧
     (c.ba.keptMade ≠ some w → bagMade w c =
       newBag (w.toNat / 65536) { c with ba := { c.ba with keptMade := some w } }) ∧
     (c.ba.keptWeight = some w → bagField .weight w c = c) ∧
     (c.ba.keptWeight ≠ some w → bagField .weight w c =
       contribute .weight (w.toNat / 65536) (w.toNat % 65536) { c with ba := { c.ba with keptWeight := some w } }) ∧
     (c.ba.keptCode = some w → bagField .code w c = c) ∧
     (c.ba.keptCode ≠ some w → bagField .code w c =
       contribute .code (w.toNat / 65536) (w.toNat % 65536) { c with ba := { c.ba with keptCode := some w } }) ∧
     (c.ba.keptMetal = some w → bagField .metal w c = c) ∧
     (c.ba.keptMetal ≠ some w → bagField .metal w c =
       contribute .metal (w.toNat / 65536) (w.toNat % 65536) { c with ba := { c.ba with keptMetal := some w } })) ∧
  -- Settlement (R138, R139) and the pallet (R140 to R142).
  ((∀ (k : Nat) (c : Chip) (s : Slot), slotAt c k = some s →
     (∀ id, (lotAt c s.lot).bind (·.building) = some id → settleAccepted k c = joinPallet k id c) ∧
     ((lotAt c s.lot).bind (·.building) = none → c.ba.pallets.length < 24 →
       settleAccepted k c = joinPallet k (createPallet s.lot c).2 (createPallet s.lot c).1) ∧
     ((lotAt c s.lot).bind (·.building) = none → 24 ≤ c.ba.pallets.length → settleAccepted k c =
       modSlot k (fun b => { b with state := .palletWait }) (raiseNat .palletFull .lot s.lot c)) ∧
     (∀ id d, d = reportLot s.lot (.bagSettled true) (reportLot s.lot .recordMade
         (modSlot k (fun b => { b with pallet := some id, record := b.record.map fun r => { r with pallet := some id } })
           (modPallet id (fun p => { p with hold := p.hold ||| s.hold, bags := p.bags + 1 }) c))) →
       joinPallet k id c = (handSlot k (modSlot k (fun b => { b with state := .decided }) (countCase id d))).1)) ∧
   (∀ (id : Nat) (c : Chip) (p : Pallet) (r : Recipe) (cases : Nat) (d : Chip), palletAt c id = some p →
     r = recipeOfLot c p.lot →
     cases = (if p.bags % r.bagsPerCase = 0 then p.cases + 1 else p.cases) →
     d = modPallet id (fun q => { q with cases := cases }) c →
     (p.state = .building → cases = r.casesPerPallet → countCase id c = closePallet id d) ∧
     ((p.state ≠ .building ∨ cases ≠ r.casesPerPallet) → countCase id c = d)) ∧
   ∀ (k : Nat) (c : Chip) (s : Slot) (r : BagRecord), slotAt c k = some s → s.record = some r →
     (∀ d, takeRecord r c = (d, true) → handSlot k c = ({ d with ba := { d.ba with
       slots := d.ba.slots.set k none,
       decisions := d.ba.decisions.map fun e => if e.slot = some k then { e with slot := none } else e } }, true)) ∧
     (∀ d, takeRecord r c = (d, false) → handSlot k c = (d, false))) ∧
  -- The settlement of a REJECTED bag (R138) and the gate reasons that waited for it (R145).
  ((∀ (k : Nat) (c d : Chip) (s : Slot) (waiting : HoldSet), slotAt c k = some s →
     d = reportLot s.lot (.bagSettled false) (reportLot s.lot .recordMade c) →
     (∀ before after e, d.ba.decisions = before ++ e :: after → e.slot = some k → (∀ x ∈ before, x.slot ≠ some k) →
       waiting = e.gateReasons) →
     ((∀ x ∈ d.ba.decisions, x.slot ≠ some k) → waiting = 0) →
     (waiting = 0 → settleRejected k c = (handSlot k (modSlot k (fun b => { b with state := .decided }) d)).1) ∧
     (waiting ≠ 0 → settleRejected k c = (handSlot k (modSlot k (fun b => { b with state := .decided })
       (gateReasonToPallet s.lot waiting (gateReasonToSlot k waiting d)))).1)) ∧
   (∀ (k : Nat) (h : HoldSet) (c : Chip), gateReasonToSlot k h c = modSlot k (fun s =>
     { s with hold := s.hold ||| h, record := s.record.map fun r => { r with hold := r.hold ||| h } }) c) ∧
   (∀ (lot : Nat) (h : HoldSet) (c : Chip),
     (∀ id, (lotAt c lot).bind (·.building) = some id → gateReasonToPallet lot h c =
       evalDestination id (modPallet id (fun p => { p with hold := p.hold ||| h }) c)) ∧
     ((lotAt c lot).bind (·.building) = none → gateReasonToPallet lot h c =
       { c with ba := { c.ba with carried := c.ba.carried.modify lot fun g => g ||| h } }))) ∧
  -- A pallet record is created (R140), and the bags that wait for one (R142).
  ((∀ (lot id : Nat) (c : Chip) (p : Pallet), id = freshId (c.ba.pallets.map (·.id)) 24 c.ba.nextPallet →
     p = { id := id, lot := lot, state := .building, short := false, bags := 0, cases := 0, firstPlace := none,
           lastPlace := none, hold := c.ba.carried.getD lot 0, closeTime := none, exposure := 0, dest := none,
           shuttle := none, reportPending := false, expTime := 0, expTemp := 0, exhausted := false, delDest := none,
           delTime := none, report := .none, revision := 0, serial := 0 } →
     createPallet lot c = (reportLot lot .palletCreated (modLot lot (fun l => { l with building := some id })
       { c with ba := { c.ba with pallets := c.ba.pallets ++ [p], nextPallet := (id + 1) % 65536,
                                  carried := c.ba.carried.modify lot fun _ => 0 } }), id)) ∧
   (∀ c : Chip, palletFull c = true ↔ ∃ b, some b ∈ c.ba.slots ∧ b.state = .palletWait) ∧
   (∀ c : Chip, resumeWaiting c = (slotsInOrder .palletWait c).foldl (fun d k => (tryJoin k d).1) c) ∧
   ∀ (k : Nat) (c : Chip) (s : Slot), slotAt c k = some s →
     (∀ id, (lotAt c s.lot).bind (·.building) = some id → tryJoin k c = (joinPallet k id c, true)) ∧
     ((lotAt c s.lot).bind (·.building) = none → c.ba.pallets.length < 24 →
       tryJoin k c = (joinPallet k (createPallet s.lot c).2 (createPallet s.lot c).1, true)) ∧
     ((lotAt c s.lot).bind (·.building) = none → 24 ≤ c.ba.pallets.length → tryJoin k c = (c, false))) ∧
  -- Slots in a state, oldest decision first (R142, R143).
  (∀ (st : SlotState) (c : Chip),
     (∀ k, k ∈ slotsInOrder st c ↔ k < 4 ∧ ∃ b, slotAt c k = some b ∧ b.state = st) ∧ (slotsInOrder st c).Nodup ∧
     (slotsInOrder st c).Pairwise (fun j k =>
       ∀ a b, slotAt c j = some a → slotAt c k = some b → a.order ≤ b.order)) ∧
  -- The outcome of a reject gate's start or pulse (R145).
  (∀ (seq : Nat) (r : Report) (h : HoldSet) (c : Chip),
     (r = .confirmed → h = 0) → (r = .failed → h = HoldReason.gateUnconfirmed.only) →
     (r = .refused → h = HoldReason.gateUnconfirmed.only) → (r = .notSent → h = HoldReason.unverified.only) →
     (newestDecision c seq = none → bagOutcome seq r c =
       { c with ba := { c.ba with strayGate := min (c.ba.strayGate + 1) 65535 } }) ∧
     ∀ e, newestDecision c seq = some e →
       ((r = .confirmed ∨ e.decision = .accepted) → bagOutcome seq r c = c) ∧
       (∀ k, r ≠ .confirmed → e.decision = .gathering → e.slot = some k → bagOutcome seq r c =
         modDecisions (fun d => d.slot == some k) (fun d => { d with gateReasons := d.gateReasons ||| h }) c) ∧
       (e.decision = .rejected → e.lot = none → bagOutcome seq r c = c) ∧
       ∀ lot d, r ≠ .confirmed → e.decision = .rejected → e.lot = some lot →
         (∀ k, e.slot = some k → d = gateReasonToSlot k h c) →
         (∀ p, e.slot = none → e.place = some p → d = amendPlace p (fun g => g ||| h) c) →
         (e.slot = none → e.place = none → d = amendBag lot seq (fun g => g ||| h) c) →
         bagOutcome seq r c = gateReasonToPallet lot h d) ∧
  -- The record of a bag (R143), and the BAG-MADE starts (R44, R128).
  ((∀ (s : Slot) (rejected : Bool) (reasons : Byte) (c : Chip) (number : Word),
     (∀ l, lotAt c s.lot = some l → number = l.number) → (lotAt c s.lot = none → number = 0) →
     makeRecord s rejected reasons c =
       { seq := s.seq, lot := s.lot, lotNumber := number, made := s.madeLine, epoch := c.rp.epoch,
         epochPresent := c.rp.epochPresent,
         net := s.weight.map fun w => (w : Int) - ((recipeOfLot c s.lot).tare : Nat),
         codeFail := s.codeFail, metalFail := s.metalFail, rejected := rejected, reasons := reasons, draws := s.draws,
         hold := s.hold, pallet := none }) ∧
   ∀ (seq : Nat) (c : Chip) (start : Nat → Chip → Chip),
     (∀ n d, (triggerOf (trackChan d n) ≠ some .bagMade → start n d = d) ∧
       (triggerOf (trackChan d n) = some .bagMade → ∀ e,
         (startNow n { point := channelPos d n, served := some (.bag seq) } d = (e, true) → start n d = e) ∧
         (startNow n { point := channelPos d n, served := some (.bag seq) } d = (e, false) →
           start n d = bagOutcome seq .refused e))) →
     issueBagStarts seq c = (List.range 8).foldl (fun d n => start n d) c) ∧
  -- A gathering bag is decided (R134, R135), whatever brings its decision: deadline, last field, or fire check.
  (∀ (k : Nat) (c : Chip),
     ((∀ b, slotAt c k = some b → b.state ≠ .gathering) → decideBag k c = c) ∧
     ∀ (b : Slot) (reasons : Byte) (d : Chip), slotAt c k = some b → b.state = .gathering →
       reasons = rejectReasons (recipeOfLot c b.lot) b →
       d = modDecisions (fun e => e.slot == some k)
         (fun e => { e with decision := if reasons = 0 then .accepted else .rejected })
         (modSlot k (fun x => { x with
             decision := if reasons = 0 then .accepted else .rejected, reasons := reasons, order := c.ba.serial,
             record := some (makeRecord b (decide (reasons ≠ 0)) reasons c) })
           { c with ba := { c.ba with serial := c.ba.serial + 1 } }) →
       decideBag k c = if reasons = 0 then settleAccepted k d else settleRejected k d)

/-- R130: a bag made with no lot takes no slot and draws nothing: UNTRACKED is raised with its number, the lotless count
increases, the decision list gets it as REJECTED with no lot, and the BAG-MADE starts are issued. No record is made. -/
def Obligations.LotlessBagIsRejected : Prop :=
  ∀ (seq : Nat) (c d : Chip), c.st.qSurge = [] → openLot? c = none → d = raiseNat .untracked .bag seq c →
    newBag seq c = issueBagStarts seq (addDecision
      { seq := seq, lot := none, slot := none, decision := .rejected, place := none, gateReasons := 0 }
      { d with ba := { d.ba with lotless := min (d.ba.lotless + 1) 65535 } }) ∧
    (raiseNat .untracked .bag seq c).ba = { c.ba with pallets := (raiseNat .untracked .bag seq c).ba.pallets } ∧
    (raiseNat .untracked .bag seq c).st = c.st ∧ (raiseNat .untracked .bag seq c).tm = c.tm

/-! ## Trace memory -/

/-- The SPI master (R152): a read that waits where the last operation was no read; else the write of the queue's head;
else the rewrite of the first marked STORED place, whose mark is cleared (R154); else the waiting read; else it stays
free, and one that is busy is granted nothing; an operation that becomes waiting while it is free and nothing else
waits is granted at once (log entry 7). A read of a PENDING place is answered from the write queue, with no operation
(R155). During the completion of a warm restart (R161): the writes set apart in order, then the rewrites, then the
record of the holding slot at the write pointer, which moves on. -/
def Obligations.SpiMasterGranted : Prop :=
  ((∀ (c : Chip) (op : SpiOp), c.tm.spi = some op → spiGrant c = c) ∧
   ∀ c : Chip, c.tm.spi = none → c.tm.restart = none →
     (∀ p, c.tm.readWaiting = some p → c.tm.lastWasRead = false → (placeAt c p).state ≠ .pending →
       spiGrant c = { c with tm := { c.tm with readWaiting := none, spi := some (.read p (placeAt c p)), lastWasRead := true } }) ∧
     (∀ p ws r q, c.tm.readWaiting = some p → c.tm.lastWasRead = false → pendingWordsOf p c = some ws →
       c.ma.phase = .reading → c.ma.queue = r :: q →
       spiGrant c = spiGrant (endRequest r .ok ws { c with tm := { c.tm with readWaiting := none } })) ∧
     (∀ q rest, (c.tm.readWaiting = none ∨ c.tm.lastWasRead = true) → c.tm.writeQueue = q :: rest →
       spiGrant c = { c with tm := { c.tm with spi := some (.write q.place q.record), lastWasRead := false } }) ∧
     (∀ (before after : List Nat) (p : Nat) (f : PlaceFields), (c.tm.readWaiting = none ∨ c.tm.lastWasRead = true) →
       c.tm.writeQueue = [] → c.tm.marks = before ++ p :: after → (∀ x ∈ before, (placeAt c x).state ≠ .stored) →
       placeAt c p = { state := .stored, fields := some f } →
       spiGrant c = { c with tm := { c.tm with
         marks := c.tm.marks.filter (fun x => decide (x ≠ p)), spi := some (.rewrite p f.hold), lastWasRead := false } }) ∧
     (∀ p, c.tm.readWaiting = some p → c.tm.lastWasRead = true → c.tm.writeQueue = [] →
       (∀ x ∈ c.tm.marks, (placeAt c x).state ≠ .stored) → (placeAt c p).state ≠ .pending →
       spiGrant c = { c with tm := { c.tm with readWaiting := none, spi := some (.read p (placeAt c p)), lastWasRead := true } }) ∧
     (c.tm.readWaiting = none → c.tm.writeQueue = [] → (∀ x ∈ c.tm.marks, (placeAt c x).state ≠ .stored) →
       spiGrant c = c)) ∧
  -- An operation that becomes waiting while the master is free (R152), `c` before it and `d` with it.
  (∀ c d : Chip,
     (c.tm.spi = none → c.tm.restart = none → c.tm.readWaiting = none → c.tm.writeQueue = [] →
       (∀ x ∈ c.tm.marks, (placeAt c x).state ≠ .stored) → d.tm.spi = none → d.tm.restart = none →
       d.tm.readWaiting = none → whenWaiting c d = spiGrant d) ∧
     ((c.tm.spi ≠ none ∨ c.tm.restart ≠ none ∨ c.tm.readWaiting ≠ none ∨ c.tm.writeQueue ≠ [] ∨
         ∃ x ∈ c.tm.marks, ∃ f, placeAt c x = { state := .stored, fields := some f }) → whenWaiting c d = d)) ∧
  -- The grants of a warm restart's completion (R161).
  (∀ (c : Chip) (w : RestartWork), c.tm.spi = none → c.tm.restart = some w →
     (∀ q rest, w.writes = q :: rest →
       spiGrant c = { c with tm := { c.tm with spi := some (.write q.place q.record), lastWasRead := false } }) ∧
     (∀ p h rest, w.writes = [] → w.rewrites = (p, h) :: rest → spiGrant c = { c with tm := { c.tm with
       spi := some (.rewrite p h), lastWasRead := false, restart := some { w with rewrites := rest } } }) ∧
     (∀ r, w.writes = [] → w.rewrites = [] → w.held = some r → spiGrant c = { c with tm := { c.tm with
       spi := some (.write c.tm.pointer r), lastWasRead := false, pointer := (c.tm.pointer + 1) % 1024,
       restart := some { writes := [{ place := c.tm.pointer, record := r }], rewrites := [], held := none } } }) ∧
     (w = { writes := [], rewrites := [], held := none } → spiGrant c = c))

/-- The check code of a word (R150): a word read with its code is GOOD; with one bit of word or code turned over it is
corrected to what was stored; with two it is uncorrectable. -/
def Obligations.CheckCodeCorrects : Prop :=
  ∀ bs : List Byte, bs.length = 8 →
    checkWord bs (checkCode bs) = .good bs ∧
    (∀ i, i < 64 → checkWord (flipBit i bs) (checkCode bs) = .corrected bs) ∧
    (∀ j, j < 8 → checkWord bs (checkCode bs ^^^ BitVec.ofNat 8 (2 ^ j)) = .corrected bs) ∧
    (∀ i j, i < j → j < 64 →
      checkWord (flipBit j (flipBit i bs)) (checkCode bs) = .uncorrectable (flipBit j (flipBit i bs))) ∧
    (∀ i j, i < 64 → j < 8 →
      checkWord (flipBit i bs) (checkCode bs ^^^ BitVec.ofNat 8 (2 ^ j)) = .uncorrectable (flipBit i bs)) ∧
    ∀ i j, i < j → j < 8 →
      checkWord bs (checkCode bs ^^^ BitVec.ofNat 8 (2 ^ i) ^^^ BitVec.ofNat 8 (2 ^ j)) = .uncorrectable bs

/-- A place write completes (R153): the memory holds what was sent, as the error mask of the store leaves it; the
read-back is compared without correction. STORED where it is equal; otherwise POISONED, with the count, TRACE-FAULT
and the alert; then LH is told, the record leaves the queue, a free-at-completion place is freed and the holding slot
is checked. What POISONED is: the state, the rewrite mark cleared, TRACE-FAULT in the index and in the hold set of a
pallet that is in the table and not DELIVERED, whose destination follows (R153 to R155, R163). The bytes of an absent
field are those of log entry 36. A memory without faults (empty masks, log entry 6) verifies, and the record then
reads back. With no write on the SPI master the command changes nothing (the model's choice, log entry 3). How a
record comes to its place (R151, R156): taken at the write pointer, which skips rejected records, or held with
TRACE-BACKLOG (its subject free where no place is at the pointer: log entry 13), and BA's place report (R144; to the
oldest entry of that bag: log entry 30). A write or rewrite that ends during a warm restart only counts and raises
where it fails (R161; log entry 30). The 64 bytes of a record as R207 lays them out, most significant byte first. -/
def Obligations.PlaceWriteCompletes : Prop :=
  ((∀ (s : State) (p : Nat) (r : BagRecord) (storeErr readErr : List Byte), s.chip.pins.running = true → p < 1024 →
     s.chip.tm.spi = some (.write p r) → s.chip.tm.restart = none →
     ∀ (sent : List Byte) (m : Memory) (c0 c1 c2 c3 : Chip), sent = r.bytes ++ recordCodes r.bytes →
     m = storePlace p (xorMask sent storeErr) s.mem → c0 = { s.chip with tm := { s.chip.tm with spi := none } } →
     (xorMask (placeBytes m p ++ placeCodes m p) readErr = sent →
       c1 = modPlace p (fun e => { e with state := .stored }) c0) →
     (xorMask (placeBytes m p ++ placeCodes m p) readErr ≠ sent →
       c1 = raiseNat .traceFault .place p (poisonPlace p
         { c0 with tm := { c0.tm with verifyFail := min (c0.tm.verifyFail + 1) 65535 } })) →
     c2 = reportLot r.lot .recordWritten c1 →
     c3 = { c2 with tm := { c2.tm with writeQueue := c2.tm.writeQueue.eraseP (fun q => q.place == p) } } →
     exec (.placeWriteComplete storeErr readErr) s = .next { s.after (checkHolding
         (if (placeAt c3 p).fields.map (·.freeAtCompletion) = some true then freePlace p c3 else c3)) with mem := m }) ∧
   (∀ (p : Nat) (r : BagRecord) (m : Memory), p < 1024 → Memory.wf m = true →
     ∀ n, n = storePlace p (xorMask (r.bytes ++ recordCodes r.bytes) []) m →
       placeBytes n p = r.bytes ∧ placeCodes n p = recordCodes r.bytes ∧ r.bytes.length = 64) ∧
   ∀ (s : State) (storeErr readErr : List Byte), s.chip.pins.running = true →
     (∀ p r, s.chip.tm.spi ≠ some (.write p r)) → exec (.placeWriteComplete storeErr readErr) s = .next s) ∧
  -- Taking a record (R151, R156, R161).
  ((∀ (r : BagRecord) (c : Chip),
     ((c.tm.restart ≠ none ∨ c.tm.holding ≠ none) → takeRecord r c = (c, false)) ∧
     (c.tm.restart = none → c.tm.holding = none →
       (∀ p, openPlace c = some p → takeRecord r c = (placeRecord p r c, true)) ∧
       (openPlace c = none → ∀ d, d = { c with tm := { c.tm with holding := some r } } →
         (∀ p, pointerPlace d = some p →
           takeRecord r c = (sendPause (raiseNat .traceBacklog .place p d), true)) ∧
         (pointerPlace d = none → ∃ w : Word, takeRecord r c =
           (sendPause (raise .traceBacklog .place w { d with freeCount := d.freeCount + 1 }), true))))) ∧
   (∀ (c : Chip) (p : Nat), openPlace c = some p ↔ c.tm.writeQueue.length < 4 ∧ pointerPlace c = some p ∧
     ((placeAt c p).state = .free ∨ (placeAt c p).state = .archived)) ∧
   (∀ (c : Chip) (p i : Nat), i < 1024 → p = (c.tm.pointer + i) % 1024 →
     (∀ j, j < i → ∃ f, (placeAt c ((c.tm.pointer + j) % 1024)).fields = some f ∧ f.rejected = true ∧
       ((placeAt c ((c.tm.pointer + j) % 1024)).state = .stored ∨
         (placeAt c ((c.tm.pointer + j) % 1024)).state = .poisoned)) →
     (((placeAt c p).state ≠ .stored ∧ (placeAt c p).state ≠ .poisoned) ∨
       ∀ f, (placeAt c p).fields = some f → f.rejected = false) →
     pointerPlace c = some p) ∧
   (∀ (p : Nat) (r : BagRecord) (c : Chip) (f : PlaceFields),
     f = { seq := r.seq, lot := r.lot, pallet := r.pallet, rejected := r.rejected, hold := r.hold,
           freeAtCompletion := false, placed := c.tm.placed } →
     placeRecord p r c = placeReport r p (whenWaiting c { c with tm := { c.tm with
       places := c.tm.places.modify p (fun _ => { state := .pending, fields := some f }),
       writeQueue := c.tm.writeQueue ++ [{ place := p, record := r }],
       pointer := (p + 1) % 1024, placed := c.tm.placed + 1 } })) ∧
   ∀ c : Chip,
     (∀ r p, c.tm.holding = some r → openPlace c = some p →
       placeHeld c = (sendPause (placeRecord p r { c with tm := { c.tm with holding := none } }), true)) ∧
     ((c.tm.holding = none ∨ openPlace c = none) → placeHeld c = (c, false)) ∧
     (∀ q, c.ma.config.pausePoint = some q → sendPause c =
       (sendValue q.index q.key (if c.tm.holding ≠ none then q.pause else q.resume) .pause none q.timeout c).1) ∧
     (c.ma.config.pausePoint = none → sendPause c = c)) ∧
  -- BA's place report (R144).
  (∀ (r : BagRecord) (p : Nat) (c : Chip), ∃ ds : List DecisionEntry,
     (∀ before after e, c.ba.decisions = before ++ e :: after → entryOfRecord r e = true →
       (∀ x ∈ before, entryOfRecord r x = false) → ds = before ++ { e with place := some p } :: after) ∧
     ((∀ x ∈ c.ba.decisions, entryOfRecord r x = false) → ds = c.ba.decisions) ∧
     (r.pallet = none → placeReport r p c = { c with ba := { c.ba with decisions := ds } }) ∧
     (∀ id, r.pallet = some id → placeReport r p c = modPallet id (fun q => if q.lot = r.lot
       then { q with firstPlace := some (q.firstPlace.getD p), lastPlace := some p } else q)
         { c with ba := { c.ba with decisions := ds } }) ∧
     ∀ e, entryOfRecord r e = true ↔ e.seq = r.seq ∧ e.lot = some r.lot ∧ e.place = none ∧
       e.decision = (if r.rejected = true then .rejected else .accepted)) ∧
  -- A write and a rewrite that end during a warm restart's completion (R161).
  (∀ (c : Chip) (w : RestartWork), c.tm.restart = some w →
     (∀ (p : Nat) (r : BagRecord) (d : Chip),
       d = { c with tm := { c.tm with spi := none, restart := some { w with writes := w.writes.tail } } } →
       finishWrite true p r c = d ∧
       finishWrite false p r c = raiseNat .traceFault .place p
         { d with tm := { d.tm with verifyFail := min (d.tm.verifyFail + 1) 65535 } }) ∧
     ∀ (p : Nat) (d : Chip), d = { c with tm := { c.tm with spi := none } } →
       finishRewrite true p c = d ∧
       finishRewrite false p c = raiseNat .traceFault .place p
         { d with tm := { d.tm with verifyFail := min (d.tm.verifyFail + 1) 65535 } }) ∧
  -- A place becomes POISONED (R153 to R155).
  (∀ (p : Nat) (c d : Chip) (pallet : Option Nat), pallet = (placeAt c p).fields.bind (·.pallet) →
     d = { c with tm := { c.tm with
       places := c.tm.places.modify p (fun e => { state := .poisoned, fields := e.fields.map fun f =>
         { f with hold := f.hold ||| HoldReason.traceFault.only } })
       marks := c.tm.marks.filter (fun x => decide (x ≠ p)) } } →
     (pallet = none → poisonPlace p c = d) ∧
     ∀ id, pallet = some id →
       (palletAt c id = none → poisonPlace p c = d) ∧
       ∀ q, palletAt c id = some q →
         (q.state = .delivered → poisonPlace p c = d) ∧
         (q.state ≠ .delivered → poisonPlace p c = evalDestination id
           (modPallet id (fun x => { x with hold := x.hold ||| HoldReason.traceFault.only }) d))) ∧
  -- The 64 bytes of a record (R207).
  ((∀ n : Nat, beBytes n 0 = [] ∧ ∀ k, beBytes n (k + 1) = BitVec.ofNat 8 (n / 256 ^ k) :: beBytes n k) ∧
   ∀ (r : BagRecord) (flag : Nat → Bool → Nat) (flags net : Nat) (draw : Nat → List Byte),
     (∀ k, flag k true = 2 ^ k ∧ flag k false = 0) →
     flags = flag 0 r.rejected + flag 1 r.net.isSome + flag 2 r.codeFail.isSome + flag 3 r.metalFail.isSome +
       flag 4 r.pallet.isSome + flag 5 r.epochPresent + flag 6 (r.codeFail.getD false) +
       flag 7 (r.metalFail.getD false) →
     (r.net.getD 0 % 16777216 = net) →
     (∀ i d, r.draws[i]? = some d → draw i = beBytes d.segment 2 ++ beBytes d.grams 3) →
     (∀ i, r.draws[i]? = none → draw i = [0, 0, 0, 0, 0]) →
     r.bytes = beBytes r.seq 2 ++ beBytes r.lotNumber.toNat 4 ++ [BitVec.ofNat 8 flags, r.reasons] ++
       (beBytes r.made 4 ++ beBytes r.epoch.toNat 4) ++
       (beBytes net 3 ++ beBytes r.hold.toNat 2 ++ beBytes (r.pallet.getD 0) 2 ++ beBytes r.draws.length 1) ++
       (draw 0 ++ draw 1 ++ draw 2 ++ draw 3 ++ draw 4 ++ draw 5 ++ draw 6 ++ draw 7))

/-- A rewrite of a STORED place completes (R154): where the read is not uncorrectable the corrected record goes back
with the hold set in bytes 19 and 20 and new check codes, and the part only frees the master; an uncorrectable read,
which writes nothing (log entry 6), or a read-back that differs makes a STORED place POISONED with the consequences of
R153 (stated in PlaceWriteCompletes), and is only counted where the place is STORED no longer. With no rewrite on the
SPI master the command changes nothing (the model's choice, log entry 3). During a warm restart's completion a failure
counts and raises TRACE-FAULT and the place stays ARCHIVED (R161; log entry 30). The amendment that asks for a rewrite:
by the place's state (R154); one that changes no reason sets the mark as any other (the model's choice, log entry 46).
-/
def Obligations.PlaceRewriteCompletes : Prop :=
  ((∀ (s : State) (p : Nat) (h : HoldSet) (readErr storeErr verifyErr : List Byte), s.chip.pins.running = true → p < 1024 →
     s.chip.tm.spi = some (.rewrite p h) → s.chip.tm.restart = none →
     ∀ (c0 failed : Chip) (res : ReadResult) (bs new : List Byte), c0 = { s.chip with tm := { s.chip.tm with spi := none } } →
     failed = { c0 with tm := { c0.tm with verifyFail := min (c0.tm.verifyFail + 1) 65535 } } →
     readMemory p readErr s.mem = (res, bs) → new = bs.take 19 ++ beBytes h.toNat 2 ++ bs.drop 21 →
     (∀ m, m = storePlace p (xorMask (new ++ recordCodes new) storeErr) s.mem → res ≠ .uncorrectable →
       (xorMask (placeBytes m p ++ placeCodes m p) verifyErr = new ++ recordCodes new →
         exec (.rewriteComplete readErr storeErr verifyErr) s = .next { s.after c0 with mem := m }) ∧
       (xorMask (placeBytes m p ++ placeCodes m p) verifyErr ≠ new ++ recordCodes new →
         ((placeAt s.chip p).state = .stored → exec (.rewriteComplete readErr storeErr verifyErr) s =
           .next { s.after (raiseNat .traceFault .place p (poisonPlace p failed)) with mem := m }) ∧
         ((placeAt s.chip p).state ≠ .stored → exec (.rewriteComplete readErr storeErr verifyErr) s =
           .next { s.after failed with mem := m }))) ∧
     (res = .uncorrectable →
       ((placeAt s.chip p).state = .stored → exec (.rewriteComplete readErr storeErr verifyErr) s =
         .next (s.after (raiseNat .traceFault .place p (poisonPlace p failed)))) ∧
       ((placeAt s.chip p).state ≠ .stored → exec (.rewriteComplete readErr storeErr verifyErr) s = .next (s.after failed)))) ∧
   ∀ (s : State) (a b d : List Byte), s.chip.pins.running = true → (∀ p h, s.chip.tm.spi ≠ some (.rewrite p h)) →
     exec (.rewriteComplete a b d) s = .next s) ∧
  (∀ (c : Chip) (w : RestartWork) (p : Nat) (d : Chip), c.tm.restart = some w →
     d = { c with tm := { c.tm with spi := none } } →
     finishRewrite true p c = d ∧
     finishRewrite false p c = raiseNat .traceFault .place p
       { d with tm := { d.tm with verifyFail := min (d.tm.verifyFail + 1) 65535 } }) ∧
  -- Amendments (R154).
  ((∀ (p : Nat) (f : HoldSet → HoldSet) (c d : Chip),
     d = modPlace p (fun e => { e with fields := e.fields.map fun g => { g with hold := f g.hold } }) c →
     (∀ marked, marked = { d with tm := { d.tm with
         marks := if p ∈ d.tm.marks then d.tm.marks else d.tm.marks ++ [p] } } →
       ((placeAt c p).state = .stored → amendPlace p f c = whenWaiting c marked) ∧
       (∀ r, (placeAt c p).state = .pending → c.tm.spi = some (.write p r) → amendPlace p f c = marked)) ∧
     ((placeAt c p).state = .pending → (∀ r, c.tm.spi ≠ some (.write p r)) → amendPlace p f c =
       { d with tm := { d.tm with writeQueue := d.tm.writeQueue.map fun q =>
         if q.place = p then { q with record := { q.record with hold := f q.record.hold } } else q } }) ∧
     ((placeAt c p).state = .poisoned → amendPlace p f c = d) ∧
     (((placeAt c p).state = .free ∨ (placeAt c p).state = .archived) → amendPlace p f c = c)) ∧
   ∀ (lot seq : Nat) (f : HoldSet → HoldSet) (c : Chip),
     (∀ r, c.tm.holding = some r → r.lot = lot → r.seq = seq → amendBag lot seq f c =
       { c with tm := { c.tm with holding := some { r with hold := f r.hold } } }) ∧
     ((∀ r, c.tm.holding = some r → r.lot ≠ lot ∨ r.seq ≠ seq) →
       (placeOfBag c lot seq = none → amendBag lot seq f c = c) ∧
       ∀ p, placeOfBag c lot seq = some p → amendBag lot seq f c = amendPlace p f c))

/-- A read of a place completes (R155): GOOD and CORRECTED answer the request, the second with its count;
UNCORRECTABLE counts, poisons a place that is STORED at the completion (log entry 34; what that is stands in
PlaceWriteCompletes), raises TRACE-FAULT with the
place as subject and answers the record as read. The memory is not changed. The answer's words are those of log entry
10, the rewrite mark in it is the one that stands when the read ends (log entry 30), and with no read on the SPI
master the command changes nothing (the model's choices, log entry 3). -/
def Obligations.PlaceReadCompletes : Prop :=
  (∀ (s : State) (p : Nat) (e : Place) (readErr : List Byte) (r : Request) (rest : List Request),
    s.chip.pins.running = true → p < 1024 → s.chip.tm.spi = some (.read p e) → s.chip.ma.phase = .reading →
    s.chip.ma.queue = r :: rest →
    ∀ (c0 c1 : Chip) (res : ReadResult) (bs ws : List Byte) (answer : List Word),
    c0 = { s.chip with tm := { s.chip.tm with spi := none } } →
    ws = xorMask (placeBytes s.mem p ++ placeCodes s.mem p) readErr → readRecord (ws.take 64) (ws.drop 64) = (res, bs) →
    answer = placeWords e (s.chip.tm.marks.contains p) bs res →
    c1 = { c0 with tm := { c0.tm with uncorrectable := min (c0.tm.uncorrectable + 1) 65535 } } →
    (res = .good → exec (.traceReadComplete readErr) s = .next (s.answered r .ok answer c0)) ∧
    (res = .corrected → exec (.traceReadComplete readErr) s = .next (s.answered r .ok answer
      { c0 with tm := { c0.tm with corrected := min (c0.tm.corrected + 1) 65535 } })) ∧
    (res = .uncorrectable → (placeAt s.chip p).state = .stored → exec (.traceReadComplete readErr) s =
      .next (s.answered r .ok answer (raiseNat .traceFault .place p (poisonPlace p c1)))) ∧
    (res = .uncorrectable → (placeAt s.chip p).state ≠ .stored → exec (.traceReadComplete readErr) s =
      .next (s.answered r .ok answer (raiseNat .traceFault .place p c1)))) ∧
  ∀ (s : State) (readErr : List Byte), s.chip.pins.running = true → (∀ p e, s.chip.tm.spi ≠ some (.read p e)) →
    exec (.traceReadComplete readErr) s = .next s

/-! ## Transfer -/

/-- A shuttle's deadline (R171, R173): reached, its pallet becomes FAULTED with TRANSFER-FAULT, the shuttle becomes
FAULT with pallet id, deadline and enabled mark cleared and one more fault, and TRANSFER-FAULT is raised. Before it,
or with no deadline, nothing changes (log entry 3). A shuttle's status by its code in each of its states: the phases
of a transfer, mismatch, late and fault (R167, R170, R173), and the delivery, with MISROUTE where it is not the
pallet's destination (R172). A FAULT status in ASSIGNED, LOADED or IN-AIRLOCK faults the transfer as the deadline does
(R173). -/
def Obligations.ShuttleDeadlineFaultsTransfer : Prop :=
  ((∀ (n id t : Nat) (s : State) (u : Shuttle), s.chip.pins.running = true → s.chip.td.shuttles[n]? = some u →
     u.pallet = some id → u.deadline = some t → t ≤ s.chip.clock.line →
     exec (.shuttleDeadlineExpiry n) s = .next (s.after (raiseNat .transferFault .pallet id { s.chip with
       ba := { s.chip.ba with pallets := s.chip.ba.pallets.map fun p =>
         if p.id = id then { p with state := .faulted, hold := p.hold ||| HoldReason.transferFault.only } else p }
       td := { s.chip.td with
         shuttles := s.chip.td.shuttles.set n
           { u with state := .fault, pallet := none, deadline := none, enabled := false,
                    faults := min (u.faults + 1) 65535 } } }))) ∧
   ∀ (n : Nat) (s : State), s.chip.pins.running = true →
     (∀ u t, s.chip.td.shuttles[n]? = some u → u.deadline = some t → s.chip.clock.line < t) →
     exec (.shuttleDeadlineExpiry n) s = .next (s.after s.chip)) ∧
  -- A shuttle's status by its code (R167, R170, R173).
  (∀ (n : Nat) (w : Word) (c : Chip) (s : Shuttle) (code : Nat), s = shuttleAt c n → code = w.toNat % 65536 →
     ((code = 0 ∨ 6 < code) → shuttleStatus n w c = c) ∧
     (s.state = .offline → code ≠ 1 → shuttleStatus n w c = c) ∧
     (s.state = .offline → code = 1 → s.enabled = false → shuttleStatus n w c = c) ∧
     (s.state = .offline → code = 1 → s.enabled = true →
       shuttleStatus n w c = arbitrate (modShuttle n (fun t => { t with state := .idle }) c)) ∧
     (s.state = .idle → code = 1 → shuttleStatus n w c = arbitrate c) ∧
     (s.state = .idle → 2 ≤ code → code ≤ 5 → shuttleStatus n w c = c) ∧
     (s.state = .idle → code = 6 → shuttleStatus n w c = raiseNat .transferFault .shuttle n
       (modShuttle n (fun t => { t with state := .fault, faults := min (t.faults + 1) 65535 }) c)) ∧
     (s.state = .fault → 1 ≤ code → code ≤ 5 →
       shuttleStatus n w c = modShuttle n (fun t => { t with late := min (t.late + 1) 65535 }) c) ∧
     (s.state = .fault → code = 6 → shuttleStatus n w c = c) ∧
     (s.state = .assigned ∨ s.state = .loaded ∨ s.state = .inAirlock →
       (code = 1 → shuttleStatus n w c = c) ∧
       (code = 6 → shuttleStatus n w c = faultTransfer n c) ∧
       ∀ id, s.pallet = some id →
         (2 ≤ code → code ≤ 5 → w.toNat / 65536 ≠ id →
           shuttleStatus n w c = modShuttle n (fun t => { t with mismatch := min (t.mismatch + 1) 65535 }) c) ∧
         (w.toNat / 65536 = id →
           (code = 2 → s.state = .assigned → shuttleStatus n w c = modShuttle n (fun t => { t with
             state := .loaded, deadline := some (c.clock.line + 10 * t.airlock) }) c) ∧
           (code = 2 → s.state ≠ .assigned → shuttleStatus n w c = c) ∧
           (code = 3 → s.state = .inAirlock → shuttleStatus n w c = c) ∧
           (code = 3 → s.state ≠ .inAirlock → shuttleStatus n w c = modShuttle n (fun t => { t with
               state := .inAirlock, deadline := some (c.clock.line + 10 * t.delivery) })
             (modPallet id (fun p => { p with state := .inTransfer }) (exposePallet id c))) ∧
           (code = 4 → shuttleStatus n w c = deliver n id .store c) ∧
           (code = 5 → shuttleStatus n w c = deliver n id .quarantine c)))) ∧
  -- A delivery (R172).
  (∀ (n id : Nat) (dest : Destination) (c c1 c2 c3 : Chip) (p : Pallet), palletAt c id = some p →
     (p.state = .assigned → c1 = exposePallet id c) → (p.state ≠ .assigned → c1 = c) →
     c2 = modShuttle n (fun s => { s with state := .idle, pallet := none, deadline := none })
       (modPallet id (fun q => { q with
         state := .delivered, delTime := some c.clock.line, delDest := some dest, reportPending := true, revision := 0 })
         c1) →
     (p.dest = some dest → c3 = c2) →
     (p.dest ≠ some dest → c3 = raiseNat .misroute .pallet id
       (changePalletHold id (fun h => h ||| HoldReason.transferFault.only) c2)) →
     deliver n id dest c = handDelivery id (reportLot p.lot .palletDelivered c3)) ∧
  -- A transfer is faulted (R173), by a FAULT status or by the deadline, in ASSIGNED, LOADED or IN-AIRLOCK.
  (∀ (n id : Nat) (w : Word) (c d : Chip) (u : Shuttle), c.td.shuttles[n]? = some u → u.pallet = some id →
     d = raiseNat .transferFault .pallet id { c with
       ba := { c.ba with pallets := c.ba.pallets.map fun p =>
         if p.id = id then { p with state := .faulted, hold := p.hold ||| HoldReason.transferFault.only } else p }
       td := { c.td with
         shuttles := c.td.shuttles.set n
           { u with state := .fault, pallet := none, deadline := none, enabled := false,
                    faults := min (u.faults + 1) 65535 } } } →
     faultTransfer n c = d ∧
     ((u.state = .assigned ∨ u.state = .loaded ∨ u.state = .inAirlock) → w.toNat % 65536 = 6 → shuttleStatus n w c = d))

/-- Exposure (R163 to R165): the dock temperature in effect is the fresh value, otherwise the recipe's assumed one; an
update adds the excess of the warmer end over the reference times the interval, up to the greatest 32-bit value, and
makes this moment and this temperature the interval's new start; at the budget times 6,000 a pallet is exhausted once,
with EXPOSURE placed and raised. A CLOSED pallet's destination follows its effective hold, its own hold set together
with its lot's (R119). Arbitration (R168): in PRODUCTION, not ISOLATED, the lowest IDLE shuttle takes the pallet of
the smallest remaining budget, the first of the dock among equals (equal close times: log entry 23), after every
CLOSED or ASSIGNED pallet, and no other, is updated (R164), one after the other in the order of the pallet table (the
model's choice, log entry 8); a pallet enters the dock behind those closed before it and the dock stays in order of
close (R162, R174; log entry 23); assignment (R169): the command's value, and the return to the dock where RP does not
take it, which ends the arbitration (the lost count's range: log entry 21). -/
def Obligations.ExposureFollowsTheWarmerEnd : Prop :=
  ((∀ (c : Chip) (lot : Nat) (k : IntakeChan) (v : Latest), findRole c .dockTemp = some k → k.dyn.fresh = .fresh →
     k.dyn.latest = some v → dockTemp c lot = v.value) ∧
   (∀ (c : Chip) (lot : Nat), (∀ k, findRole c .dockTemp = some k → k.dyn.fresh ≠ .fresh) →
     dockTemp c lot = (recipeOfLot c lot).assumedDock) ∧
   (∀ (id : Nat) (c d : Chip) (p : Pallet) (e : Nat), palletAt c id = some p →
     e = min (p.exposure + (max p.expTemp (dockTemp c p.lot) - (recipeOfLot c p.lot).expReference).toNat *
       (c.clock.line - p.expTime)) 4294967295 →
     d = { c with ba := { c.ba with pallets := c.ba.pallets.map fun q =>
       if q.id = id then
         { q with
           exposure := min (q.exposure + (max p.expTemp (dockTemp c p.lot) - (recipeOfLot c p.lot).expReference).toNat *
             (c.clock.line - p.expTime)) 4294967295
           expTime := c.clock.line
           expTemp := dockTemp c p.lot }
       else q } } →
     ((recipeOfLot c p.lot).budget * 6000 ≤ e → p.exhausted = false →
       exposePallet id c = raiseNat .exposure .pallet id
         (changePalletHold id (fun h => h ||| HoldReason.exposure.only) (modPallet id (fun q => { q with exhausted := true }) d))) ∧
     ((e < (recipeOfLot c p.lot).budget * 6000 ∨ p.exhausted = true) → exposePallet id c = d)) ∧
   ∀ (id : Nat) (f : HoldSet → HoldSet) (c : Chip),
     evalDestination id c = { c with ba := { c.ba with pallets := c.ba.pallets.map fun p =>
       if p.id = id ∧ p.state = .closed
       then { p with dest := some (if effectiveHold c p.lot p.hold = 0 then .store else .quarantine) } else p } } ∧
     changePalletHold id f c = evalDestination id { c with ba := { c.ba with pallets := c.ba.pallets.map fun p =>
       if p.id = id then { p with hold := f p.hold } else p } }) ∧
  -- The effective hold (R119).
  (∀ (c : Chip) (lot : Nat) (own : HoldSet),
     (lotAt c lot = none → effectiveHold c lot own = own) ∧
     ∀ l, lotAt c lot = some l →
       (l.manual = true → effectiveHold c lot own = own ||| HoldReason.manual.only) ∧
       (l.manual = false → effectiveHold c lot own = own)) ∧
  -- Arbitration (R168) and assignment (R169).
  ((∀ c : Chip,
     (c.ag.mode = .production → c.rp.ring ≠ .isolated → (∃ s ∈ c.td.shuttles, s.state = .idle) → c.td.dock ≠ [] →
       arbitrate c = arbitrationLoop 4 (exposeAll c)) ∧
     ((c.ag.mode ≠ .production ∨ c.rp.ring = .isolated ∨ (∀ s ∈ c.td.shuttles, s.state ≠ .idle) ∨ c.td.dock = []) →
       arbitrate c = c) ∧
     (∀ before after s, c.td.shuttles = before ++ s :: after → s.state = .idle → (∀ x ∈ before, x.state ≠ .idle) →
       idleShuttle c = some before.length) ∧
     (∀ before after p, c.td.dock.filterMap (palletAt c) = before ++ p :: after →
       (∀ x ∈ before, remainingBudget c p < remainingBudget c x) →
       (∀ x ∈ after, remainingBudget c p ≤ remainingBudget c x) → arbitrationWinner c = some p) ∧
     (∀ p, remainingBudget c p = (recipeOfLot c p.lot).budget * 6000 - p.exposure) ∧
     ∀ k, arbitrationLoop 0 c = c ∧
       ((idleShuttle c = none ∨ arbitrationWinner c = none) → arbitrationLoop (k + 1) c = c) ∧
       ∀ n p d, idleShuttle c = some n → arbitrationWinner c = some p →
         (assignPallet p n c = (d, true) → arbitrationLoop (k + 1) c = arbitrationLoop k d) ∧
         (assignPallet p n c = (d, false) → arbitrationLoop (k + 1) c = d)) ∧
   ∀ (p : Pallet) (n : Nat) (c assigned : Chip) (s : Shuttle), s = shuttleAt c n → c.ag.mode = .production →
     assigned = modShuttle n (fun t => { t with
         state := .assigned, pallet := some p.id, deadline := some (c.clock.line + 10 * s.load) })
       (modPallet p.id (fun q => { q with state := .assigned, shuttle := some n })
         { c with td := { c.td with dock := c.td.dock.erase p.id } }) →
     ∀ d taken value, value = p.id * 65536 + (if p.dest = some .quarantine then 2 else 1) →
       rpHand { kind := .actuate, dest := BitVec.ofNat 8 (s.point.toNat / 256), source := .ownActuation,
                items := [mkItem s.point (BitVec.ofNat 32 value)] } assigned = (d, taken) →
       (taken = true → assignPallet p n c = (d, true)) ∧
       (taken = false → ∀ e, e = evalDestination p.id (enterDock p.id
           (modShuttle n (fun t => { t with state := .idle, pallet := none, deadline := none })
             (modPallet p.id (fun q => { q with state := .closed, shuttle := none }) d))) →
         assignPallet p n c = ({ e with td := { e.td with lost := min (e.td.lost + 1) 65535 } }, false))) ∧
  -- Every CLOSED or ASSIGNED pallet (R164), and the dock in order of close time (R162, R174).
  (∀ c : Chip, exposeAll c = ((c.ba.pallets.filter fun p =>
     decide (p.state = .closed ∨ p.state = .assigned)).map (·.id)).foldl (fun d id => exposePallet id d) c) ∧
  ((∀ (c : Chip) (id : Nat), (∀ p, palletAt c id = some p → closeOrder c id = p.serial) ∧
     (palletAt c id = none → closeOrder c id = 0)) ∧
   ∀ (id : Nat) (c : Chip), c.td.dock.Pairwise (fun a b => closeOrder c a ≤ closeOrder c b) →
     (∀ dock, dock = c.td.dock.filter (fun j => decide (closeOrder c j ≤ closeOrder c id)) ++
         id :: c.td.dock.filter (fun j => decide (closeOrder c id < closeOrder c j)) →
       enterDock id c = { c with td := { c.td with dock := dock } }) ∧
     (enterDock id c).td.dock.Pairwise (fun a b => closeOrder c a ≤ closeOrder c b))

/-! ## The actuation guard -/

/-- AG's rules on one item (R183, R184, R187): OFFLINE forwards it; an owned point carries the intended state in
PRODUCTION and the received value in COMMISSION, with a trap record where they differ, which counts (R188), and does
not enter the shadow table by it, though a point that is in the table is updated (R189); any other item takes the
verdict of the first enabled, matching entry whose condition holds, applied in PRODUCTION alone, with a trap record
unless it passes; one that no entry decides is forwarded. The seven conditions as they stand at the check (R186). The
owned point of a key and its intended state (R52, R184; of two with one key the lower-numbered: log entry 37). The
shadow table (R189): an item of a point in it sets the received value and, where it is forwarded, the forwarded one; a
new point that a guard entry matches by key enters behind the others, and with 32 shadowed each of its items adds 1 to
the unshadowed count (log entry 38). -/
def Obligations.GuardDecidesItems : Prop :=
  (∀ (key : Key) (v : Word) (c : Chip),
    (c.ag.mode = .offline → checkItem key v c = (shadowItem false key v (some v) c, some v)) ∧
    (∀ w d result, c.ag.mode ≠ .offline → ownedByKey c key = some w →
      (c.ag.mode = .production → result = w) → (c.ag.mode = .commission → result = v) →
      (v = w → d = c) →
      (v ≠ w → d = { c with ag := { c.ag with
        traps := ({ line := c.clock.line, key := key, received := v, verdict := .owned, applied := some w, entry := .owned,
                    mode := c.ag.mode } :: c.ag.traps).take 32,
        trapCount := min (c.ag.trapCount + 1) 65535 } }) →
      checkItem key v c = (shadowItem false key v (some result) d, some result)) ∧
    (c.ag.mode ≠ .offline → ownedByKey c key = none → decidingGuard c key = none →
      checkItem key v c = (shadowItem (guarded c key) key v (some v) c, some v)) ∧
    (∀ (g : Guard) (i : Nat) (value : Option Word) (verdict : Option Verdict), c.ag.mode ≠ .offline →
      ownedByKey c key = none → decidingGuard c key = some (g, i) →
      (g.action = .pass → (value, verdict) = (some v, none)) →
      (g.action = .block → (value, verdict) = (none, some .block)) →
      (g.action = .clamp → (value, verdict) =
        if v.toInt < g.low.toInt then (some g.low, some .clamp)
        else if g.high.toInt < v.toInt then (some g.high, some .clamp) else (some v, none)) →
      (g.action = .clampFreezer → (value, verdict) = match freezerLimit c with
        | some l => if (l : Int) < v.toInt then (some (BitVec.ofNat 32 l), some .clampFreezer) else (some v, none)
        | none => (some v, none)) →
      (g.action = .force → (value, verdict) = (some g.force, some .force)) →
      ∀ result, result = (if c.ag.mode = .production then value else some v) →
      checkItem key v c = (shadowItem true key v result (match verdict with
        | some d => { c with ag := { c.ag with
            traps := ({ line := c.clock.line, key := key, received := v, verdict := d, applied := value, entry := .guard i,
                        mode := c.ag.mode } :: c.ag.traps).take 32,
            trapCount := min (c.ag.trapCount + 1) 65535 } }
        | none => c), result)) ∧
    (∀ (before after : List Guard) (g : Guard), c.ag.guards = before ++ g :: after →
      (∀ x ∈ before, ¬ (x.enabled = true ∧ keyMatches x.filter x.mask key = true ∧ conditionHolds c x.cond = true)) →
      g.enabled = true → (key ^^^ g.filter) &&& g.mask = 0 → conditionHolds c g.cond = true →
      decidingGuard c key = some (g, before.length))) ∧
  -- The conditions (R186).
  (∀ c : Chip,
     conditionHolds c .always = true ∧
     (conditionHolds c .poolLow = true ↔ 256 - (liveSegments c.st).length < c.ma.config.reserve) ∧
     (conditionHolds c .noLot = true ↔ ∀ l, some l ∈ c.lh.lots → l.state ≠ .opened) ∧
     (conditionHolds c .zoneStale = true ↔ ∃ z v, z < (if c.st.blanch.written = true then c.st.blanch.zones else 6) ∧
       c.si.zones[z]? = some v ∧ v.state ≠ .fresh) ∧
     (conditionHolds c .traceBacklog = true ↔ c.tm.holding ≠ none) ∧
     (conditionHolds c .palletFull = true ↔ ∃ b, some b ∈ c.ba.slots ∧ b.state = .palletWait) ∧
     (conditionHolds c .lotHeld = true ↔ ∃ l, some l ∈ c.lh.lots ∧ l.manual = true)) ∧
  -- Owned points (R52, R184).
  ((∀ (c : Chip) (key : Key),
     (∀ w, ownedByKey c key = some w ↔ ∃ n, n < 8 ∧ ownedPoint c n = some (key, w) ∧
       ∀ m, m < n → ∀ v, ownedPoint c m ≠ some (key, v)) ∧
     (ownedByKey c key = none ↔ ∀ n, n < 8 → ∀ v, ownedPoint c n ≠ some (key, v))) ∧
   ∀ (c : Chip) (n : Nat) (k : TrackChan), k = trackChan c n →
     (∀ o, k.cfg.output = some o → k.cfg.mode = .gate → k.dyn.state = .opened →
       ownedPoint c n = some (o.key, o.onValue)) ∧
     (∀ o, k.cfg.output = some o → (k.cfg.mode ≠ .gate ∨ k.dyn.state ≠ .opened) →
       ownedPoint c n = some (o.key, o.offValue)) ∧
     (∀ p, k.cfg.output = none → c.ma.config.pausePoint = some p → p.index = n →
       ownedPoint c n = some (p.key, if c.tm.holding ≠ none then p.pause else p.resume)) ∧
     (k.cfg.output = none → (∀ p, c.ma.config.pausePoint = some p → p.index ≠ n) → ownedPoint c n = none)) ∧
  -- The shadow table (R189).
  ((∀ (mayEnter : Bool) (key : Key) (received : Word) (result : Option Word) (c : Chip)
       (forwarded : Option (Word × Nat) → Option (Word × Nat)),
     (∀ v old, result = some v → forwarded old = some (v, c.clock.line)) →
     (∀ old, result = none → forwarded old = old) →
     ((∃ e ∈ c.ag.shadows, e.key = key) → shadowItem mayEnter key received result c =
       { c with ag := { c.ag with shadows := c.ag.shadows.map fun e => if e.key = key
         then { e with received := received, receivedAt := c.clock.line, forwarded := forwarded e.forwarded } else e } }) ∧
     ((∀ e ∈ c.ag.shadows, e.key ≠ key) →
       (mayEnter = false → shadowItem mayEnter key received result c = c) ∧
       (mayEnter = true → c.ag.shadows.length < 32 → shadowItem mayEnter key received result c =
         { c with ag := { c.ag with shadows := c.ag.shadows ++
           [{ key := key, received := received, receivedAt := c.clock.line, forwarded := forwarded none }] } }) ∧
       (mayEnter = true → 32 ≤ c.ag.shadows.length → shadowItem mayEnter key received result c =
         { c with ag := { c.ag with unshadowed := min (c.ag.unshadowed + 1) 65535 } }))) ∧
   ∀ (c : Chip) (key : Key), guarded c key = true ↔
     ∃ g ∈ c.ag.guards, g.enabled = true ∧ (key ^^^ g.filter) &&& g.mask = 0)

/-- Pending confirmations (R192, R193): an entry whose deadline is reached is removed, GATE-FAULT is raised, its
point's fault count rises, and its source is told FAILED; an equal echo removes the oldest entry of its point and
confirms it, any other echo changes nothing. An entry not due is left (log entry 3). What its source does (R54): the
channel's current pulse takes the outcome, or the entry of its awaiting list leaves the list and its records are
reported; the pause point, a value that serves nothing, and a channel that has forgotten the pulse do nothing. -/
def Obligations.ConfirmationIsSettled : Prop :=
  (∀ (s : State) (before after : List Confirm) (e : Confirm), s.chip.pins.running = true →
    s.chip.ag.confirms = before ++ e :: after → reached s.chip.clock.ms e.deadline = true →
    exec (.confirmationDeadline before.length) s = .next (s.after (tellSource e .failed (raiseNat .gateFault .point e.point
      { s.chip with ag := { s.chip.ag with
          confirms := before ++ after
          faults := s.chip.ag.faults.modify e.point (fun n => min (n + 1) 65535) } })))) ∧
  (∀ (s : State) (i : Nat), s.chip.pins.running = true →
    (∀ e, s.chip.ag.confirms[i]? = some e → reached s.chip.clock.ms e.deadline = false) →
    exec (.confirmationDeadline i) s = .next (s.after s.chip)) ∧
  (∀ (n : Nat) (w : Word) (c : Chip),
    (∀ (before after : List Confirm) (e : Confirm), c.ag.confirms = before ++ e :: after → (∀ x ∈ before, x.point ≠ n) →
      e.point = n →
      (e.value = w → pointEcho n w c =
        tellSource e .confirmed { c with ag := { c.ag with confirms := before ++ after } }) ∧
      (e.value ≠ w → pointEcho n w c = c)) ∧
    ((∀ x ∈ c.ag.confirms, x.point ≠ n) → pointEcho n w c = c)) ∧
  -- The source of a settled value is told (R54, R192, R193).
  ((∀ (e : Confirm) (o : Outcome4) (c : Chip),
     (∀ n token, e.source = .channel n → e.serves = some token → tellSource e o c = settleToken n token o c) ∧
     ((e.source = .pause ∨ e.serves = none) → tellSource e o c = c)) ∧
   ∀ (n token : Nat) (o : Outcome4) (c : Chip) (k : TrackChan), k = trackChan c n →
     (∀ p, k.dyn.pulse = some p → p.token = token → p.outcome = .pending →
       settleToken n token o c = settlePulse n o c) ∧
     ((∀ p, k.dyn.pulse = some p → p.token ≠ token ∨ p.outcome ≠ .pending) →
       (∀ before after p r, k.dyn.awaiting = before ++ p :: after → p.token = token → (∀ q ∈ before, q.token ≠ token) →
         o.report? = some r → settleToken n token o c = reportAll r p.served
           (modTrack n (fun d => { d with awaiting := d.awaiting.filter fun q => q.token != token }) c)) ∧
       ((∀ q ∈ k.dyn.awaiting, q.token ≠ token) → settleToken n token o c = c)))

/-- Assembly and retries (R196, R117, R176, R203): an assembly of 1,000 ms is discarded and answered BAD-FORMAT to its
origin in one part; WAITING reports and unsent alerts are handed again 10 ds after the last handing, the reports while
ACTIVE, the alerts unless ISOLATED (at once where more have passed: log entry 33). What is not due changes nothing (log
entry 3). A part of a request (R196): part 0 begins an assembly and discards one under way, part n joins only its own,
the last part enters the request among four, or is answered FULL (R197), any other is answered BAD-FORMAT (details: log
entry 28). A report's handing makes it QUEUED or WAITING (R117, R176), and one that finds the transmitter idle, no
source ready, room in the return list and no frame queued leaves at once and tells its originator there (R8, R11; log
entry 7); one handed back waits, and a hold change behind a QUEUED delivery report hands a new revision (R175). Waiting
lots are taken in order of finish, waiting deliveries in order of delivery (R117, R176; equal times in table order: log
entry 24), unsent alerts in kind order (R203; a kind whose route names no destination is passed over and keeps its
mark: log entry 44). The frames of the lot report and the delivery report (R116, R175, R207; a place, a close time or
an epoch offset that is absent is sent as 0: the model's choice, log entry 47). -/
def Obligations.AssemblyAndRetriesComeDue : Prop :=
  (∀ s : State, s.chip.pins.running = true →
     (∀ a, s.chip.ma.assembly = some a → reached s.chip.clock.ms (a.started + 1000) = true →
       exec .assemblyTimeout s = .next (s.after (rpHand
         { kind := .mgmtAns, dest := a.origin, source := .answer false,
           items := [mkItem a.tag (BitVec.ofNat 32 (a.code.toNat * 16777216 + 65536 + 1))] }
         { s.chip with ma := { s.chip.ma with assembly := none } }).1)) ∧
     ((∀ a, s.chip.ma.assembly = some a → reached s.chip.clock.ms (a.started + 1000) = false) →
       exec .assemblyTimeout s = .next (s.after s.chip)) ∧
     (∀ t, s.chip.lh.lastHanding = some t → s.chip.rp.ring = .active → t + 10 ≤ s.chip.clock.line →
       exec .lotReportRetry s = .next (s.after ((waitingLots s.chip).foldl (fun c i => handLot i c) s.chip))) ∧
     ((s.chip.rp.ring ≠ .active ∨ (∀ t, s.chip.lh.lastHanding = some t → s.chip.clock.line < t + 10)) →
       exec .lotReportRetry s = .next (s.after s.chip)) ∧
     (∀ t, s.chip.td.lastHanding = some t → s.chip.rp.ring = .active → t + 10 ≤ s.chip.clock.line →
       exec .deliveryReportRetry s = .next (s.after ((waitingDeliveries s.chip).foldl (fun c i => handDelivery i c) s.chip))) ∧
     ((s.chip.rp.ring ≠ .active ∨ (∀ t, s.chip.td.lastHanding = some t → s.chip.clock.line < t + 10)) →
       exec .deliveryReportRetry s = .next (s.after s.chip)) ∧
     (∀ t, s.chip.ma.lastHanding = some t → s.chip.rp.ring ≠ .isolated → t + 10 ≤ s.chip.clock.line →
       exec .alertRetry s = .next (s.after (handAllUnsent s.chip))) ∧
     ((s.chip.rp.ring = .isolated ∨ (∀ t, s.chip.ma.lastHanding = some t → s.chip.clock.line < t + 10)) →
       exec .alertRetry s = .next (s.after s.chip))) ∧
  -- Assembly of a request (R196) and its entry into the queue (R197).
  (∀ (p : Part) (c : Chip) (answer : Byte → Key → Byte → Nat → Chip → Chip) (enter : Assembly → Chip → Chip),
     (∀ origin tag code st d, answer origin tag code st d = (rpHand
       { kind := .mgmtAns, dest := origin, source := .answer false,
         items := [mkItem tag (BitVec.ofNat 32 (code.toNat * 16777216 + st * 65536 + 1))] } d).1) →
     (∀ a d, (d.ma.queue.length < 4 → enter a d = { d with ma := { d.ma with
         queue := d.ma.queue ++ [{ origin := a.origin, tag := a.tag, code := a.code, words := a.words }] } }) ∧
       (4 ≤ d.ma.queue.length → enter a d = answer a.origin a.tag a.code 10 d)) →
     (p.count ≠ p.words.length → takePart p c = answer p.origin p.tag p.code 1 c) ∧
     (p.count = p.words.length → p.number = 0 → ∀ a d,
       a = { origin := p.origin, tag := p.tag, code := p.code, words := p.words, last := 0, started := c.clock.ms } →
       (c.ma.assembly = none → d = c) →
       (∀ b, c.ma.assembly = some b →
         d = answer b.origin b.tag b.code 1 { c with ma := { c.ma with assembly := none } }) →
       (p.last = false → takePart p c = { d with ma := { d.ma with assembly := some a } }) ∧
       (p.last = true → takePart p c = enter a { d with ma := { d.ma with assembly := none } })) ∧
     (p.count = p.words.length → p.number ≠ 0 → ∀ a b, c.ma.assembly = some a → a.origin = p.origin → a.tag = p.tag →
       p.number = a.last + 1 → p.number ≤ 7 → b = { a with words := a.words ++ p.words, last := p.number } →
       (p.last = false → takePart p c = { c with ma := { c.ma with assembly := some b } }) ∧
       (p.last = true → takePart p c = enter b { c with ma := { c.ma with assembly := none } })) ∧
     (p.count = p.words.length → p.number ≠ 0 →
       (∀ a, c.ma.assembly = some a →
         ¬ (a.origin = p.origin ∧ a.tag = p.tag ∧ p.number = a.last + 1 ∧ p.number ≤ 7)) →
       takePart p c = answer p.origin p.tag p.code 1 c)) ∧
  -- A report's handing to RP and what follows (R117, R175, R176).
  ((∀ (i : Nat) (c d : Chip) (l : Lot) (taken : Bool), lotAt c i = some l → rpHand (lotReport i l c) c = (d, taken) →
     ∀ e, e = modLot i (fun e => { e with report := if taken = true then .queued else .waiting })
       { d with lh := { d.lh with lastHanding := some d.clock.line } } →
     (reportBegins c = false → handLot i c = e) ∧ (reportBegins c = true → handLot i c = reportLeft (.lotReport i) e)) ∧
   (∀ (id : Nat) (c d : Chip) (p : Pallet) (taken : Bool), palletAt c id = some p →
     rpHand (deliveryReport p c) c = (d, taken) →
     ∀ e, e = modPallet id (fun q => { q with report := if taken = true then .queued else .waiting })
       { d with td := { d.td with lastHanding := some d.clock.line } } →
     (reportBegins c = false → handDelivery id c = e) ∧
     (reportBegins c = true → handDelivery id c = reportLeft (.deliveryReport id p.revision) e)) ∧
   (∀ c : Chip, reportBegins c = true ↔ c.rp.ring = .active ∧ c.rp.tx = none ∧
     (∀ e, c.rp.forward.head? = some e → e.receiving = true ∨ e.unchecked = true) ∧ c.rp.returnList.length < 16 ∧
     c.rp.txQueue = []) ∧
   (∀ (id : Nat) (c : Chip) (p : Pallet), palletAt c id = some p →
     (p.state = .delivered → p.report = .queued → reviseDelivery id c =
       handDelivery id (modPallet id (fun q => { q with revision := (q.revision + 1) % 256 }) c)) ∧
     ((p.state ≠ .delivered ∨ p.report ≠ .queued) → reviseDelivery id c = c)) ∧
   ∀ (i rev : Nat) (c : Chip),
     reportHandedBack (.lotReport i) c =
       modLot i (fun e => if e.report = .queued then { e with report := .waiting } else e) c ∧
     reportHandedBack (.deliveryReport i rev) c = modPallet i (fun p =>
       if p.revision = rev ∧ p.report = .queued then { p with report := .waiting } else p) c) ∧
  -- What waits, in order (R117, R176).
  ((∀ (c : Chip) (fin : Nat → Nat), (∀ i l, lotAt c i = some l → fin i = l.finishTime.getD 0) →
     (∀ i, i ∈ waitingLots c ↔ i < 8 ∧ ∃ l, lotAt c i = some l ∧ l.report = .waiting) ∧
     (waitingLots c).Nodup ∧ (waitingLots c).Pairwise (fun i j => fin i < fin j ∨ (fin i = fin j ∧ i < j))) ∧
   ∀ c : Chip, ∃ ps : List Pallet, waitingDeliveries c = ps.map (·.id) ∧
     ps.Perm (c.ba.pallets.filter fun p => decide (p.report = .waiting)) ∧
     ps.Pairwise (fun p q => p.delTime.getD 0 ≤ q.delTime.getD 0) ∧
     ∀ t, ps.filter (fun p => decide (p.delTime.getD 0 = t)) =
       c.ba.pallets.filter fun p => decide (p.report = .waiting ∧ p.delTime.getD 0 = t)) ∧
  -- The unsent alerts in kind order (R203).
  (AlertKind.all.map (·.index) = List.range 19 ∧
   (∀ c : Chip, handAllUnsent c = AlertKind.all.foldl (fun d k => handUnsent k d) c) ∧
   ∀ (k : AlertKind) (c : Chip),
     ((∀ a, pendingAlert c k = some a → a.unsent = false ∨ (routeOf c k).dest = none) → handUnsent k c = c) ∧
     ∀ a dest d o e, pendingAlert c k = some a → a.unsent = true → (routeOf c k).dest = some dest →
       rpOffer { kind := .alert, dest := dest, source := .alert k,
                 items := [mkItem (BitVec.ofNat 16 (k.index + 1 + 256 * a.subjectType.number)) a.subject,
                           mkItem (BitVec.ofNat 16 a.count) (BitVec.ofNat 32 a.line),
                           mkItem (if c.rp.epochPresent then 1 else 0) c.rp.epoch] } c = (d, o) →
       e = evalStopN { d with ma := { d.ma with lastHanding := some d.clock.line
                                                pending := d.ma.pending.set k.index
                                                  (some { a with unsent := decide (o ≠ .taken) }) } } →
       (o ≠ .overflow → handUnsent k c = e) ∧ (o = .overflow → handUnsent k c = raiseOverflow e)) ∧
  -- The frames of the reports (R116, R175, R207).
  ((∀ (key : Key) (w : Word), mkItem key w = { key := key, value := w, quality := 0 }) ∧
   (∀ (i : Nat) (l : Lot) (c : Chip) (marks : Nat),
     marks = (if l.closeTime.isSome = true then 1 else 0) + (if c.rp.epochPresent = true then 16 else 0) →
     lotReport i l c = { kind := .report, dest := c.ma.config.reportDest, source := .lotReport i, items :=
       [mkItem 2 l.number, mkItem (BitVec.ofNat 16 l.recipe) (BitVec.ofNat 32 (recipeOfLot c i).product),
        mkItem (BitVec.setWidth 16 (lotHold c i)) (BitVec.ofNat 32 l.openTime),
        mkItem (BitVec.ofNat 16 marks) (BitVec.ofNat 32 (l.closeTime.getD 0)),
        mkItem 0 (BitVec.ofNat 32 (l.finishTime.getD 0)), mkItem 0 c.rp.epoch,
        mkItem 0 (BitVec.ofNat 32 l.counts.segmentsCut), mkItem 1 (BitVec.ofNat 32 l.counts.massCut),
        mkItem 2 (BitVec.ofNat 32 l.counts.massDiverted), mkItem 3 (BitVec.ofNat 32 l.counts.untrackedMass),
        mkItem 4 (BitVec.ofNat 32 l.counts.tailMass), mkItem 5 (BitVec.ofNat 32 l.counts.overblanch),
        mkItem 6 (BitVec.ofNat 32 l.counts.bagsAccepted), mkItem 7 (BitVec.ofNat 32 l.counts.bagsRejected),
        mkItem 8 (BitVec.ofNat 32 l.counts.palletsClosed), mkItem 9 (BitVec.ofNat 32 l.counts.palletsDelivered)] }) ∧
   (∀ (i : Nat) (c : Chip), (lotAt c i = none → lotHold c i = 0) ∧ ∀ l, lotAt c i = some l →
     lotHold c i = if l.manual = true then HoldReason.manual.only else 0) ∧
   ∀ (p : Pallet) (c : Chip) (marks : Nat) (number : Word) (code : Option Destination → Nat),
     marks = (if p.short = true then 1 else 0) + (if p.exhausted = true then 2 else 0) +
       (if p.firstPlace.isSome = true then 4 else 0) + (if p.lastPlace.isSome = true then 8 else 0) +
       (if c.rp.epochPresent = true then 16 else 0) →
     (∀ l, lotAt c p.lot = some l → number = l.number) → (lotAt c p.lot = none → number = 0) →
     code none = 0 → code (some .store) = 1 → code (some .quarantine) = 2 →
     deliveryReport p c = { kind := .report, dest := c.ma.config.reportDest, source := .deliveryReport p.id p.revision,
                            items :=
       [mkItem 1 number, mkItem (BitVec.ofNat 16 p.id) (BitVec.ofNat 32 p.revision),
        mkItem (BitVec.ofNat 16 marks) (BitVec.setWidth 32 p.hold),
        mkItem (BitVec.ofNat 16 p.bags) (BitVec.ofNat 32 p.cases),
        mkItem (BitVec.ofNat 16 (p.firstPlace.getD 0)) (BitVec.ofNat 32 (p.lastPlace.getD 0)),
        mkItem 0 (BitVec.ofNat 32 (p.closeTime.getD 0)), mkItem 0 (BitVec.ofNat 32 (p.delTime.getD 0)),
        mkItem 0 (BitVec.ofNat 32 c.clock.line), mkItem 0 c.rp.epoch, mkItem 0 (BitVec.ofNat 32 p.exposure),
        mkItem (BitVec.ofNat 16 (code p.dest)) (BitVec.ofNat 32 (code p.delDest))] })

/-! ## Requests -/

/-- The checks before a request's own (R198, R207): with no request to execute, or one of another row (log entry 1), a
request row changes nothing but the level of CFG it reads; a request of no row (log entry 12) or of a wrong form is
answered BAD-FORMAT, and a write-class one whose origin is not in the authority list while CFG is low DENIED. An
answer of at most 15 words is one MGMT-ANS part to the origin, and the request leaves the queue. That the item keys of
an answer's words count from 0 is log entry 10, and that a hold on another kind of record than 1, 5, 6 and 7 is
BAD-FORMAT is log entry 30 (the model's choices). A WRITE-TABLE has the words its count of entries takes, and in each a
known position for every enumerated field, a role, condition or action outside its list being BAD-FORMAT (R198, R207;
log entry 11; the geometry beyond its end: log entry 10). A longer answer goes in parts of 15 words, numbered from 0, the
last marked (R197). -/
def Obligations.RequestsAreCheckedFirst : Prop :=
  ((∀ (s : State) (cfg : Bool) (i : Instr) (c : Chip) (mine : Request → Prop), s.chip.pins.running = true →
     ((∃ k, readCodeRow k = some i ∧ c = s.chip ∧ mine = fun r => r.code.toNat = k) ∨
      (∃ k, writeCodeRow k cfg = some i ∧ c = withCfg cfg s.chip ∧ mine = fun r => r.code.toNat = k) ∨
      (∃ t, i = writeRow t cfg ∧ c = withCfg cfg s.chip ∧ mine = fun r => r.code = 3 ∧ tableArg r = some t)) →
     (headRequest s.chip = none → exec i s = .next (s.after c)) ∧
     ∀ r, headRequest s.chip = some r →
       (¬ mine r → misnamed r = false → exec i s = .next (s.after c)) ∧
       (misnamed r = true → exec i s = .next (s.answered r .badFormat [] c)) ∧
       (mine r → formatOk r = false → exec i s = .next (s.answered r .badFormat [] c)) ∧
       (mine r → formatOk r = true → r.code ≠ 1 → r.code ≠ 2 → r.code ≠ 9 → r.code ≠ 10 → cfg = false →
         some r.origin ∉ s.chip.ma.authority → exec i s = .next (s.answered r .denied [] c))) ∧
   (∀ r : Request, r.code ≠ 3 → (formatOk r = true ↔
     (r.code = 1 ∧ r.words.length = 1 ∧ 1 ≤ argNat r 0 ∧ argNat r 0 ≤ 12) ∨
     (r.code = 2 ∧ r.words.length = 3 ∧ 1 ≤ argNat r 0 ∧ argNat r 0 ≤ 9) ∨
     (r.code = 4 ∧ r.words.length = 1 ∧ 1 ≤ argNat r 0 ∧ argNat r 0 ≤ 3) ∨
     (r.code = 5 ∧ r.words.length = 2) ∨
     (r.code = 7 ∧ r.words.length = 2 ∧ argNat r 0 ∈ [1, 5, 6, 7]) ∨
     (r.code = 8 ∧ r.words.length = 3 ∧ argNat r 0 ∈ [1, 5, 6, 7]) ∨
     (r.code = 9 ∧ r.words.length = 2 ∧ 1 ≤ argNat r 0 ∧ argNat r 0 ≤ 10) ∨
     (r.code = 10 ∧ r.words.length = 1 ∧ 1 ≤ argNat r 0 ∧ argNat r 0 ≤ 5) ∨
     ((r.code = 6 ∨ (11 ≤ r.code.toNat ∧ r.code.toNat ≤ 15)) ∧ r.words.length = 1) ∨
     (r.code = 16 ∧ r.words = []))) ∧
   ∀ (r : Request) (st : Status) (ws : List Word) (c d : Chip), ws.length ≤ 15 →
     d = (rpHand { kind := .mgmtAns, dest := r.origin, source := .answer false,
                   items := mkItem r.tag (BitVec.ofNat 32 (r.code.toNat * 16777216 + st.number * 65536 + 1)) ::
                     ws.zipIdx.map (fun x => mkItem (BitVec.ofNat 16 x.2) x.1) } c).1 →
     endRequest r st ws c = { d with ma := { d.ma with queue := d.ma.queue.tail, phase := .idle } }) ∧
  -- The form of a WRITE-TABLE (R198, R207).
  ((∀ r : Request, r.code = 3 → (formatOk r = true ↔ 3 ≤ r.words.length ∧
     ∃ t, tableArg r = some t ∧ entriesFormat t (argNat r 1) (argNat r 2) (r.words.drop 3) = true)) ∧
   (∀ (t : Table) (first count : Nat) (ws : List Word) (width : Nat) (named : List Word → Prop),
     ((t = .channelMap ∧ width = 13 ∧ named = fun e => 1 ≤ wNat e 0 ∧ wNat e 0 ≤ 2 ∧ 1 ≤ wNat e 3 ∧
         wNat e 3 ≤ 13 ∧ (wNat e 3 = 6 → 1 ≤ wNat e 4 ∧ wNat e 4 ≤ 4)) ∨
       (t = .tracks ∧ width = 18 ∧ named = fun e => 1 ≤ wNat e 0 ∧ wNat e 0 ≤ 6 ∧ 1 ≤ wNat e 1 ∧
         wNat e 1 ≤ 2 ∧ 1 ≤ wNat e 6 ∧ wNat e 6 ≤ 5 ∧ (wNat e 6 = 2 → 1 ≤ wNat e 8 ∧ wNat e 8 ≤ 3) ∧
         (wNat e 6 = 4 → 1 ≤ wNat e 10 ∧ wNat e 10 ≤ 2) ∧ 1 ≤ wNat e 11 ∧ wNat e 11 ≤ 3 ∧
         1 ≤ wNat e 12 ∧ wNat e 12 ≤ 2) ∨
       (t = .guards ∧ width = 8 ∧ named = fun e => 1 ≤ wNat e 0 ∧ wNat e 0 ≤ 2 ∧ 1 ≤ wNat e 3 ∧
         wNat e 3 ≤ 7 ∧ 1 ≤ wNat e 4 ∧ wNat e 4 ≤ 5) ∨
       ((t, width) ∈ [(Table.recipes, 85), (.shuttles, 4), (.routes, 2), (.line, 12), (.authority, 2)] ∧
         named = fun _ => True)) →
     (entriesFormat t first count ws = true ↔ ws.length = count * width ∧
       ∀ k, k < count → named ((ws.drop (k * width)).take width))) ∧
   ∀ (first count : Nat) (ws : List Word),
     ((3 ≤ first ∨ 3 < first + count) → entriesFormat .geometry first count ws = true) ∧
     (first < 3 → first + count ≤ 3 →
       (entriesFormat .geometry first count ws = true ↔ ws.length = (([13, 3, 7].drop first).take count).sum))) ∧
  -- An answer in its parts (R197, R207).
  (∀ (r : Request) (st : Status) (ws : List Word) (c d : Chip) (parts : Nat),
     parts = max 1 ((ws.length + 14) / 15) →
     d = (List.range parts).foldl (fun e k => (rpHand
       { kind := .mgmtAns, dest := r.origin, source := .answer false,
         items := mkItem r.tag (BitVec.ofNat 32 (r.code.toNat * 16777216 + st.number * 65536 + k % 256 * 256 +
             if k + 1 = parts then 1 else 0)) ::
           ((ws.drop (15 * k)).take 15).zipIdx.map (fun x => mkItem (BitVec.ofNat 16 (15 * k + x.2)) x.1) } e).1) c →
     endRequest r st ws c = { d with ma := { d.ma with queue := d.ma.queue.tail, phase := .idle } })

/-- The read-class requests (R199, R200) complete in every state: READ-STATUS answers the block's figures, READ-TABLE
the named entries (BAD-INDEX beyond the table, RANGE above 32 parts of 15 words), LIST the ids of a queue, READ-RECORD
a record, with BAD-INDEX beyond a table, NOT-FOUND where it does not exist (a segment, a pallet, a lot, a trap and a
shadow entry: R188, R189), and for a place that is not PENDING a read that waits (R155). What the answers hold: the
words of a field (R207), the figures of each of the twelve blocks, the words of each record and of each table's entry,
in the orders of their rules (layouts the rules leave open, such as the drain point as a lot's last word, or each
zone's temperature and state together in SI's status: log entry 10; an empty pulse's outcome: log entry 31). READ-TABLE
gives back the words WRITE-TABLE put, where the words that carry nothing are 0 (log entries 10 and 42). -/
def Obligations.ReadsAreAnswered : Prop :=
  (∀ (s : State) (r : Request), Asked s r →
     (r.code = 1 → ∃ ws, statusOf (argNat r 0) s.chip = some ws ∧ exec .readStatus s = .next (s.answered r .ok ws s.chip)) ∧
     (r.code = 2 → ∀ t first count ws, tableArg r = some t → first = argNat r 1 → count = argNat r 2 →
       ws = (List.range count).flatMap (fun i => entryWords t (first + i) s.chip) →
       ((t.size ≤ first ∨ t.size < first + count) → exec .readTable s = .next (s.answered r .badIndex [] s.chip)) ∧
       (first < t.size → first + count ≤ t.size → 480 < ws.length →
         exec .readTable s = .next (s.answered r .range [] s.chip)) ∧
       (first < t.size → first + count ≤ t.size → ws.length ≤ 480 →
         exec .readTable s = .next (s.answered r .ok ws s.chip))) ∧
     (r.code = 10 → ∀ ids, [s.chip.st.qBlanch.map (·.id), s.chip.st.qChill.map (·.id), s.chip.st.qFreeze.map (·.id),
         s.chip.st.qSurge.map (·.id), s.chip.td.dock][argNat r 0 - 1]? = some ids →
       exec .list s = .next (s.answered r .ok (BitVec.ofNat 32 ids.length :: packIds ids) s.chip)) ∧
     (r.code = 9 → ∀ id, id = argNat r 1 →
       (argNat r 0 = 1 → (∀ st, ∀ g ∈ queueOf s.chip.st st, g.id ≠ id) →
         exec .readRecord s = .next (s.answered r .notFound [] s.chip)) ∧
       (argNat r 0 = 1 → ∀ st before after g, queueOf s.chip.st st = before ++ g :: after → (∀ x ∈ before, x.id ≠ id) →
         g.id = id → (∀ st', st' ≠ st → ∀ x ∈ queueOf s.chip.st st', x.id ≠ id) →
         exec .readRecord s = .next (s.answered r .ok (segmentWords g st before.length) s.chip)) ∧
       (∀ n, (argNat r 0, n) ∈ [(2, 48), (3, 8), (4, 4), (7, 8), (8, 4), (9, 32), (10, 32), (5, 1024)] → n ≤ id →
         exec .readRecord s = .next (s.answered r .badIndex [] s.chip)) ∧
       (argNat r 0 = 2 → id < 48 →
         exec .readRecord s = .next (s.answered r .ok (intakeRecord (intakeChan s.chip id).dyn) s.chip)) ∧
       (argNat r 0 = 3 → id < 8 → exec .readRecord s = .next (s.answered r .ok (trackRecord (trackChan s.chip id)) s.chip)) ∧
       (argNat r 0 = 4 → id < 4 → exec .readRecord s = .next (s.answered r .ok (slotWords (slotAt s.chip id)) s.chip)) ∧
       (argNat r 0 = 6 → palletAt s.chip id = none → exec .readRecord s = .next (s.answered r .notFound [] s.chip)) ∧
       (argNat r 0 = 6 → ∀ p, palletAt s.chip id = some p → -2147483648 ≤ remainingBudget s.chip p →
         remainingBudget s.chip p ≤ 2147483647 → exec .readRecord s = .next (s.answered r .ok
           (palletWords p (BitVec.ofInt 32 ((recipeOfLot s.chip p.lot).budget * 6000 - p.exposure))) s.chip)) ∧
       (argNat r 0 = 6 → ∀ p, palletAt s.chip id = some p →
         (remainingBudget s.chip p < -2147483648 ∨ 2147483647 < remainingBudget s.chip p) →
         ∃ w : Word, exec .readRecord s = .next (s.answered r .ok (palletWords p w)
           { s.chip with freeCount := s.chip.freeCount + 1 })) ∧
       (argNat r 0 = 7 → id < 8 → lotAt s.chip id = none →
         exec .readRecord s = .next (s.answered r .notFound [] s.chip)) ∧
       (argNat r 0 = 7 → id < 8 → ∀ l, lotAt s.chip id = some l →
         exec .readRecord s = .next (s.answered r .ok (lotWords l) s.chip)) ∧
       (argNat r 0 = 8 → id < 4 →
         exec .readRecord s = .next (s.answered r .ok (shuttleRecord (shuttleAt s.chip id)) s.chip)) ∧
       (argNat r 0 = 9 → id < 32 → ∀ t, s.chip.ag.traps[id]? = some t →
         exec .readRecord s = .next (s.answered r .ok (trapWords t) s.chip)) ∧
       (argNat r 0 = 9 → id < 32 → s.chip.ag.traps[id]? = none →
         exec .readRecord s = .next (s.answered r .notFound [] s.chip)) ∧
       (argNat r 0 = 10 → id < 32 → s.chip.ag.shadows[id]? = none →
         exec .readRecord s = .next (s.answered r .notFound [] s.chip)) ∧
       (argNat r 0 = 10 → id < 32 → ∀ e, s.chip.ag.shadows[id]? = some e →
         exec .readRecord s = .next (s.answered r .ok (shadowWords e) s.chip)) ∧
       (argNat r 0 = 5 → id < 1024 → ∀ ws, pendingWordsOf id s.chip = some ws →
         exec .readRecord s = .next (s.answered r .ok ws s.chip)) ∧
       (argNat r 0 = 5 → id < 1024 → (placeAt s.chip id).state ≠ .pending →
         exec .readRecord s = .next (s.after { s.chip with
           ma := { s.chip.ma with phase := .reading }
           tm := { s.chip.tm with readWaiting := some id } })))) ∧
  -- The words of one field (R207).
  ((∀ n : Nat, natW n = BitVec.ofNat 32 n) ∧ (∀ v : Int, intW v = BitVec.ofInt 32 v) ∧
   (∀ k : Key, keyW k = BitVec.setWidth 32 k) ∧ (markW true = 1 ∧ markW false = 0 ∧ onW true = 1 ∧ onW false = 2) ∧
   (optNat none = [0, 0] ∧ ∀ n, optNat (some n) = [1, natW n]) ∧
   (optInt none = [0, 0] ∧ ∀ v, optInt (some v) = [1, intW v]) ∧ (optW none = [0, 0] ∧ ∀ w, optW (some w) = [1, w]) ∧
   (∀ n, optsW n none = 0 :: List.replicate n 0) ∧ (∀ n ws, optsW n (some ws) = 1 :: ws) ∧
   (∀ ms, listW ms = natW ms.length :: ms.flatten) ∧
   (∀ (α : Type) [BEq α] [LawfulBEq α] (l : List α) (k : Nat) (x : α), l.Nodup → l[k]? = some x →
     positionOf l x = BitVec.ofNat 32 (k + 1)) ∧
   Mode.list = [.offline, .commission, .production] ∧ Freshness.list = [.fresh, .stale, .staleHeld] ∧
   ChanMode.list = [.off, .cut, .delay, .gate, .capture, .interval] ∧ Edge.list = [.rising, .falling, .both] ∧
   Policy.list = [.ignore, .restart, .queue] ∧ FireCond.list = [.always, .bagNotAccepted] ∧
   ChanState.list = [.stopped, .armed, .delaying, .opened, .running] ∧
   Outcome4.list = [.notSent, .pending, .confirmed, .failed] ∧
   Condition.list = [.always, .poolLow, .noLot, .zoneStale, .traceBacklog, .palletFull, .lotHeld] ∧
   GuardAction.list = [.pass, .block, .clamp, .clampFreezer, .force] ∧
   RingState.list = [.active, .passive, .isolated] ∧ Stage.list = [.blanch, .chill, .freeze, .surge] ∧
   Disposition.list = [.pending, .divert, .diverting, .pass] ∧ Decision.list = [.gathering, .accepted, .rejected] ∧
   PalletState.list = [.building, .closed, .assigned, .inTransfer, .delivered, .faulted] ∧
   Destination.list = [.store, .quarantine] ∧
   PlaceState.list = [.archived, .free, .pending, .stored, .poisoned] ∧
   ShuttleState.list = [.offline, .idle, .assigned, .loaded, .inAirlock, .fault] ∧
   Verdict.list = [.block, .clamp, .clampFreezer, .force, .owned, .suppressed] ∧
   encoderBindings = [some .blanch, some .chill, some .freeze, none] ∧
   (packIds [] = [] ∧ (∀ a, packIds [a] = [natW (a * 65536)]) ∧
     ∀ a b rest, packIds (a :: b :: rest) = natW (a * 65536 + b) :: packIds rest) ∧
   ∀ (bs rest : List Byte) (k : Nat) (a b c d : Byte), bs.drop (4 * k) = a :: b :: c :: d :: rest →
     (bytesWord bs k).toNat = ((a.toNat * 256 + b.toNat) * 256 + c.toNat) * 256 + d.toNat) ∧
  -- The figures of each block (R14, R22, R75, R80, R97, R124, R146, R159, R178, R194, R200, R203).
  (∀ c : Chip,
    statusOf 1 c = some [positionOf RingState.list c.rp.ring, natW c.rp.rxErr, natW c.rp.txErr, natW c.rp.overflow,
      natW c.rp.txQueue.length, natW c.rp.returnList.length] ∧
    statusOf 2 c = some (c.si.zones.flatMap fun z => optInt z.temp ++ [positionOf Freshness.list z.state]) ∧
    statusOf 3 c = some ((c.tc.chans.flatMap fun k => [positionOf ChanState.list k.dyn.state, natW k.dyn.pend.length]) ++
      listW ((List.range 8).filterMap fun n =>
        (ownedPoint c n).map fun p => [keyW p.1, p.2, markW (c.tc.unsent.getD n false)])) ∧
    statusOf 4 c = some [natW c.st.qBlanch.length, natW c.st.qChill.length, natW c.st.qFreeze.length,
      natW c.st.qSurge.length, natW (freeRecords c.st), markW (poolLow c), BitVec.setWidth 32 c.st.gapSet,
      natW c.st.stray, natW c.st.lastNominal, markW c.st.totalRef.isSome, markW (geometryValid c.st)] ∧
    statusOf 5 c = some ((c.de.zones.zip c.si.zones).flatMap fun x => [positionOf Freshness.list x.1.state] ++
      optNat x.1.creditTime ++ optInt x.1.lastTemp ++
      [natW x.1.credits, natW x.1.skipped, natW x.1.gaps, natW x.1.staleZones] ++
      (optInt x.2.temp ++ [positionOf Freshness.list x.2.state])) ∧
    statusOf 6 c = some ([positionOf Freshness.list c.fv.chillState] ++
      optsW 2 (c.fv.prevChill.map fun x => [intW x.1, natW x.2]) ++ [positionOf Freshness.list c.fv.exitState] ++
      listW (c.fv.window.map fun id => [natW id]) ++ [natW c.fv.lateChill, natW c.fv.warmChill, natW c.fv.underDwell,
        natW c.fv.noExit, natW c.fv.warmExit, natW c.fv.unapplied] ++ optNat (freezerLimit c)) ∧
    (∀ lotState : Option Lot → Word, lotState none = 1 → (∀ l : Lot, (l.state = .opened → lotState (some l) = 2) ∧
        (l.state = .draining → lotState (some l) = 3) ∧ (l.state = .finished → lotState (some l) = 4)) →
      statusOf 7 c = some (optNat (openLot? c) ++ c.lh.lots.map lotState ++
        [natW (c.lh.lots.filter (·.isNone)).length, natW (waitingLots c).length])) ∧
    (∀ slotState : Option Slot → Word, slotState none = 1 → (∀ s : Slot, (s.state = .gathering → slotState (some s) = 2) ∧
        (s.state = .palletWait → slotState (some s) = 3) ∧ (s.state = .decided → slotState (some s) = 4)) →
      statusOf 8 c = some (c.ba.slots.map slotState ++ [markW (palletFull c), natW (24 - c.ba.pallets.length)] ++
        (c.lh.lots.flatMap fun l => optNat (l.bind (·.building))) ++ optNat c.ba.lastOverrun ++
        [natW c.ba.overruns, natW c.ba.lostRecords, natW c.ba.lotless, natW c.ba.orphans, natW c.ba.strayGate] ++
        listW (c.ba.decisions.map fun e => [natW e.seq, positionOf Decision.list e.decision]))) ∧
    statusOf 9 c = some ([natW c.tm.pointer, natW c.tm.writeQueue.length, markW (traceBacklog c)] ++
      ([.archived, .free, .pending, .stored, .poisoned] : List PlaceState).map
        (fun st => natW (c.tm.places.filter fun e => e.state == st).length) ++
      [natW c.tm.verifyFail, natW c.tm.corrected, natW c.tm.uncorrectable]) ∧
    (∀ (temp : Option Int) (state : Freshness), (findRole c .dockTemp = none → temp = none ∧ state = .stale) →
      (∀ k, findRole c .dockTemp = some k → state = k.dyn.fresh ∧
        (k.dyn.fresh = .fresh → temp = k.dyn.latest.map (·.value)) ∧ (k.dyn.fresh ≠ .fresh → temp = none)) →
      statusOf 10 c = some (c.td.shuttles.map (fun s => positionOf ShuttleState.list s.state) ++
        [natW c.td.dock.length, natW (waitingDeliveries c).length, natW c.td.lost] ++ optInt temp ++
        [positionOf Freshness.list state])) ∧
    statusOf 11 c = some ([positionOf Mode.list c.ag.mode, natW c.ag.trapCount, natW c.ag.traps.length,
      natW c.ag.shadows.length, natW c.ag.unshadowed, natW c.ag.confirms.length, natW c.ag.confOverflow] ++
      c.ag.faults.map natW ++
      ([.always, .poolLow, .noLot, .zoneStale, .traceBacklog, .palletFull, .lotHeld] : List Condition).map
        (fun k => markW (conditionHolds c k))) ∧
    statusOf 12 c = some (listW (AlertKind.all.filterMap fun k => (pendingAlert c k).map fun a =>
        [natW (k.index + 1), natW a.count, a.subject, natW a.subjectType.number, natW a.line, markW a.unsent]) ++
      [markW c.pins.stopN, natW c.ma.queue.length])) ∧
  -- The records (R22, R40, R75, R111, R124, R127, R140, R146, R155, R162, R166, R178, R188, R189).
  ((∀ (g : Segment) (st : Stage) (pos : Nat) (flags : Nat) (flag : Nat → Bool → Nat),
     (∀ k, flag k true = 2 ^ k ∧ flag k false = 0) →
     flags = flag 0 g.flags.gap + flag 1 g.flags.aboveTable + flag 2 g.flags.overblanch + flag 3 g.flags.massEst →
     segmentWords g st pos = [natW g.id, natW g.lot, positionOf Stage.list st] ++ optNat g.head ++
       [natW g.nominal, natW g.remaining, natW g.cutTime] ++ optNat g.blanchExit ++ optNat g.freezerEntry ++
       optNat g.freezerExit ++ optNat g.zone ++ optNat g.zoneEntry ++ optNat g.credited ++
       [natW g.dose, natW (g.dose / 4096), natW flags, natW g.warmChill] ++ optInt g.warmest ++
       [positionOf Disposition.list g.disp, BitVec.setWidth 32 g.hold, natW pos]) ∧
   (∀ (d : IntakeDyn) (latest : List Word), (d.latest = none → latest = [0, 0, 0, 0, 0]) →
     (∀ v, d.latest = some v → latest = [1, intW v.value, natW ((if v.suspect = true then 1 else 0) +
       (if v.clampLow = true then 2 else 0) + (if v.clampHigh = true then 4 else 0)), natW v.line, v.ms]) →
     intakeRecord d = latest ++ [positionOf Freshness.list d.fresh] ++ optNat d.freshTimer ++ optNat d.staleTimer ++
       optW (d.ref.map fun r => BitVec.setWidth 32 r) ++
       [natW d.accepted, natW d.bad, natW d.suspects, natW d.clamps]) ∧
   (∀ (k : TrackChan) (served : Served → List Word) (captured : Option Captured → List Word) (level : Option Bool → List Word),
     (∀ id, served (.segment id) = [1, natW id] ∧ served (.bag id) = [2, natW id]) →
     captured none = [0, 0, 0, 0, 0, 0] →
     (∀ p, captured (some p) = [1, p.point] ++ [1, natW p.line] ++ [1, p.ms]) →
     (level none = [0, 0] ∧ level (some true) = [1, 1] ∧ level (some false) = [1, 0]) →
     trackRecord k = [positionOf ChanState.list k.dyn.state] ++
       listW (k.dyn.pend.map fun s => s.point :: optsW 2 (s.served.map served)) ++ [k.dyn.onEnd] ++
       listW (((k.dyn.pulse.map (·.served)).getD []).map served) ++
       [positionOf Outcome4.list ((k.dyn.pulse.map (·.outcome)).getD .notSent)] ++
       listW (k.dyn.awaiting.map fun p => listW (p.served.map served) ++ [(k.cfg.output.map (·.onValue)).getD 0]) ++
       [natW k.dyn.remainder, k.dyn.nextFire] ++ level k.dyn.lastLevel ++ level k.dyn.filtered ++
       captured k.dyn.capture.last ++ captured k.dyn.capture.prev ++ optNat k.dyn.capture.counts ++
       optW k.dyn.capture.interval ++ [markW k.dyn.capture.overflow, markW k.dyn.capture.span, natW k.dyn.fires,
         natW k.dyn.refused, natW k.dyn.skipped]) ∧
   (slotWords none = [1] ∧ ∀ (s : Slot) (state : Word) (result : Option Bool → List Word),
     (s.state = .gathering → state = 2) → (s.state = .palletWait → state = 3) → (s.state = .decided → state = 4) →
     (result none = [0, 0] ∧ result (some false) = [1, 1] ∧ result (some true) = [1, 2]) →
     slotWords (some s) = [state, natW s.seq, natW s.lot, natW s.madeLine, s.madeMs, s.deadline] ++ optNat s.weight ++
       result s.codeFail ++ result s.metalFail ++ [BitVec.setWidth 32 s.conflict] ++
       listW (s.draws.map fun d => [natW d.segment, natW d.grams]) ++
       [BitVec.setWidth 32 s.hold, positionOf Decision.list s.decision, BitVec.setWidth 32 s.reasons] ++
       optNat s.pallet) ∧
   (∀ (e : Place) (mark : Bool) (record : List Byte) (result : ReadResult) (fields : List Word) (read : Word),
     (e.fields = none → fields = []) →
     (∀ f, e.fields = some f → fields = [natW f.seq, natW f.lot] ++ optNat f.pallet ++
       [if f.rejected = true then 2 else 1, BitVec.setWidth 32 f.hold, markW mark, markW f.freeAtCompletion]) →
     (result = .good → read = 1) → (result = .corrected → read = 2) → (result = .uncorrectable → read = 3) →
     placeWords e mark record result =
       positionOf PlaceState.list e.state :: fields ++ (List.range 16).map (bytesWord record) ++ [read]) ∧
   (∀ (p : Pallet) (remaining report : Word), (p.report = .none → report = 1) → (p.report = .queued → report = 2) →
     (p.report = .waiting → report = 3) →
     palletWords p remaining = [natW p.id, natW p.lot, positionOf PalletState.list p.state, markW p.short, natW p.bags,
       natW p.cases] ++ optNat p.firstPlace ++ optNat p.lastPlace ++ [BitVec.setWidth 32 p.hold] ++
       optNat p.closeTime ++ [natW p.exposure] ++ optW (p.dest.map (positionOf Destination.list)) ++
       optNat p.shuttle ++ [markW p.reportPending, natW p.expTime, intW p.expTemp, markW p.exhausted] ++
       optW (p.delDest.map (positionOf Destination.list)) ++ optNat p.delTime ++
       [report, natW p.revision, remaining]) ∧
   (∀ (l : Lot) (state report : Word), (l.state = .opened → state = 2) → (l.state = .draining → state = 3) →
     (l.state = .finished → state = 4) → (l.report = .none → report = 1) → (l.report = .waiting → report = 2) →
     (l.report = .queued → report = 3) →
     lotWords l = [l.number, natW l.recipe, state, natW l.openTime] ++ optNat l.closeTime ++ optNat l.finishTime ++
       [BitVec.setWidth 32 (if l.manual = true then HoldReason.manual.only else 0), natW l.counts.segmentsCut,
        natW l.counts.massCut, natW l.counts.massDiverted, natW l.counts.untrackedMass, natW l.counts.tailMass,
        natW l.counts.overblanch, natW l.counts.bagsAccepted, natW l.counts.bagsRejected, natW l.counts.palletsClosed,
        natW l.counts.palletsDelivered] ++ optNat l.building ++
       [natW l.live, natW l.openBags, natW l.unwritten, natW l.inFlight, report, markW l.drained]) ∧
   (∀ s : Shuttle, shuttleRecord s = [positionOf ShuttleState.list s.state, markW s.enabled] ++ optNat s.pallet ++
     optNat s.deadline ++ [natW s.late, natW s.mismatch, natW s.faults, markW s.written, keyW s.point, natW s.load,
       natW s.airlock, natW s.delivery]) ∧
   (∀ (t : Trap) (entry : List Word), (∀ i, t.entry = .guard i → entry = [1, natW i]) →
     (t.entry = .owned → entry = [2, 0]) → (t.entry = .ownSuppressed → entry = [3, 0]) →
     trapWords t = [natW t.line, keyW t.key, t.received, positionOf Verdict.list t.verdict] ++ optW t.applied ++ entry ++
       [positionOf Mode.list t.mode]) ∧
   ∀ e : Shadow, shadowWords e = [keyW e.key, e.received, natW e.receivedAt] ++
     optsW 2 (e.forwarded.map fun x => [x.1, natW x.2])) ∧
  -- The entries of the nine tables (R199).
  ((∀ (k : IntakeCfg) (role : List Word),
     (k.role = none → role = [0, 0]) → (∀ z, k.role = some (.zoneTemp z) → role = [1, natW z]) →
     (∀ r n, (r, n) ∈ [(Role.chillTemp, 2), (.exitTemp, 3), (.dockTemp, 4), (.infeedMass, 5), (.marker, 7), (.bagMade, 8),
       (.bagWeight, 9), (.bagCode, 10), (.bagMetal, 11)] → k.role = some r → role = [n, 0]) →
     (∀ b, k.role = some (.encoder b) → role = [6, positionOf encoderBindings b]) →
     (∀ n, k.role = some (.shuttleStatus n) → role = [12, natW n]) →
     (∀ n, k.role = some (.pointEcho n) → role = [13, natW n]) →
     intakeWords k = [onW k.enabled, keyW k.filter, keyW k.mask] ++ role ++ [intW k.offset, intW k.gain, intW k.low,
       intW k.high, natW k.freshTimeout, natW k.staleTimeout] ++ optNat k.partner) ∧
   (∀ (k : TrackCfg) (source trigger : List Word),
     (k.source = .unset → source = [0, 0]) → (∀ e, k.source = .encoder e → source = [1, natW e]) →
     (k.source = .milliseconds → source = [2, 0]) → (k.trigger = .command → trigger = [1, 0, 0, 0, 0]) →
     (∀ m e, k.trigger = .marker m e → trigger = [2, natW m, positionOf Edge.list e, 0, 0]) →
     (∀ n, k.trigger = .master n → trigger = [3, 0, 0, natW n, 0]) →
     (∀ b, k.trigger = .segmentDecision b → trigger = [4, 0, 0, 0, if b = .freeze then 2 else 1]) →
     (k.trigger = .bagMade → trigger = [5, 0, 0, 0, 0]) →
     trackWords k = [positionOf ChanMode.list k.mode] ++ source ++ [natW k.length, natW k.delay, natW k.width] ++ trigger ++
       [positionOf Policy.list k.policy, positionOf FireCond.list k.cond] ++
       optsW 4 (k.output.map fun o => [keyW o.key, o.onValue, o.offValue, natW o.timeout])) ∧
   (∀ g : BlanchGeo, blanchWords g = [natW g.encoder, natW g.length, natW g.segLen, natW g.cutChannel, natW g.void,
     natW g.zones] ++ g.zoneStarts.map natW ++ [natW g.decision, natW g.gate]) ∧
   (∀ g : ChillGeo, chillWords g = [natW g.encoder, natW g.length, natW g.entry]) ∧
   (∀ g : FreezeGeo, freezeWords g = [natW g.encoder, natW g.length, natW g.entry, natW g.decision, natW g.gate,
     natW g.winStart, natW g.winEnd]) ∧
   (∀ g : Guard, guardWords g = [onW g.enabled, keyW g.filter, keyW g.mask, positionOf Condition.list g.cond,
     positionOf GuardAction.list g.action, g.low, g.high, g.force]) ∧
   (∀ r : Recipe, recipeWords r = [natW r.product, markW r.valid, intW r.tbase] ++ r.table.map natW ++
     [natW r.target, natW r.maximum, natW r.chillWindow, intW r.chillLimit, natW r.warmAllowance, natW r.dwell,
      intW r.exitLimit, natW r.bagTarget, natW r.tare, natW r.under, natW r.overweight,
      natW ((if r.needWeight = true then 1 else 0) + (if r.needCode = true then 2 else 0) +
        (if r.needMetal = true then 4 else 0)), natW r.permille, natW r.bagsPerCase, natW r.casesPerPallet,
      natW r.budget, intW r.expReference, intW r.assumedDock]) ∧
   (∀ s : Shuttle, shuttleWords s = [keyW s.point, natW s.load, natW s.airlock, natW s.delivery]) ∧
   (∀ (stop : Bool) (d : Byte), routeWords { dest := none, stop := stop } = [0, markW stop] ∧
     routeWords { dest := some d, stop := stop } = [natW d.toNat, markW stop]) ∧
   (∀ k : LineConfig, lineWords k = [natW k.returnTimeout, natW k.recovery, natW k.split, natW k.reserve,
     natW k.bagDeadline] ++ optsW 5 (k.pausePoint.map fun p =>
       [natW p.index, keyW p.key, p.pause, p.resume, natW p.timeout]) ++ [natW k.reportDest.toNat]) ∧
   (∀ a : Option Byte, authorityWords a = optNat (a.map (·.toNat))) ∧
   ∀ (i : Nat) (c : Chip), entryWords .channelMap i c = intakeWords (intakeChan c i).cfg ∧
     entryWords .tracks i c = trackWords (trackChan c i).cfg ∧ entryWords .geometry 0 c = blanchWords c.st.blanch ∧
     entryWords .geometry 1 c = chillWords c.st.chill ∧ entryWords .geometry 2 c = freezeWords c.st.freeze ∧
     entryWords .guards i c = guardWords (c.ag.guards.getD i .power) ∧
     entryWords .recipes i c = recipeWords (c.lh.recipes.getD i .power) ∧
     entryWords .shuttles i c = shuttleWords (shuttleAt c i) ∧
     (∀ r, c.ma.routes[i]? = some r → entryWords .routes i c = routeWords r) ∧
     entryWords .line i c = lineWords c.ma.config ∧ entryWords .authority i c = authorityWords (c.ma.authority.getD i none)) ∧
  -- What WRITE-TABLE put is read (R199): the words that carry nothing are read as 0.
  (∀ (t : Table) (i : Nat) (ws : List Word), ws.length = t.width i → fieldsFormat (t.fields i ws) ws = true →
    fieldsRange (t.fields i ws) ws = true →
    (t = .channelMap → (wNat ws 11 = 0 → ws.getD 12 0 = 0) → intakeWords (intakeOf ws) = ws) ∧
    (t = .tracks → (wNat ws 1 = 2 → ws.getD 2 0 = 0) →
      (wNat ws 6 ≠ 2 → ws.getD 7 0 = 0 ∧ ws.getD 8 0 = 0) → (wNat ws 6 ≠ 3 → ws.getD 9 0 = 0) →
      (wNat ws 6 ≠ 4 → ws.getD 10 0 = 0) →
      (wNat ws 13 = 0 → ws.getD 14 0 = 0 ∧ ws.getD 15 0 = 0 ∧ ws.getD 16 0 = 0 ∧ ws.getD 17 0 = 0) →
      trackWords (trackOf ws) = ws) ∧
    (t = .geometry → (i = 0 → blanchWords (blanchOf ws) = ws) ∧ (i = 1 → chillWords (chillOf ws) = ws) ∧
      (i = 2 → freezeWords (freezeOf ws) = ws)) ∧
    (t = .guards → guardWords (guardOf ws) = ws) ∧ (t = .recipes → recipeWords (recipeOf ws) = ws) ∧
    (t = .shuttles → ∀ s, shuttleWords (shuttleOf s ws) = ws) ∧ (t = .routes → routeWords (routeFrom ws) = ws) ∧
    (t = .line → (wNat ws 5 = 0 → ws.getD 6 0 = 0 ∧ ws.getD 7 0 = 0 ∧ ws.getD 8 0 = 0 ∧ ws.getD 9 0 = 0 ∧
      ws.getD 10 0 = 0) → lineWords (lineOf ws) = ws) ∧
    (t = .authority → (wNat ws 0 = 0 → ws.getD 1 0 = 0) → authorityWords (authorityOf ws) = ws))

/-- WRITE-TABLE of the nine tables (R199): BAD-INDEX beyond the table, then MODE in PRODUCTION for the four line
tables, then the table's own checks; a refused write changes nothing, an accepted one puts every named entry and
answers OK. The recipes check LOT-ACTIVE first (R110), the shuttle table MODE (R166), the authority list DENIED while
CFG is low (R198), the geometry NOT-READY last (R58). A map write marks DE's records of the zones that a written entry
served or serves (R81, R93; log entry 32), then tells the consumers of the roles before and after STALE and
re-evaluates the zones (R33; FV where it serves, and the dock temperature TD charges at: log entry 19); the track
channels of a write are stopped in the order of its entries (R41; log entry 8); a point that keeps its key keeps its
unsent mark (log entry 17). The tables' own checks are opened: the map (R23), the track channels (R41), the geometry
(R58), guards (R185), recipes (R78, R109), shuttles (R166) and line configuration (R201), and every field's range (R22,
R26, R40, R57, R78, R96, R109, R185, R166, R204, R201, R198). A role, condition or action outside its list is answered
BAD-FORMAT by the format check that comes first, not RANGE (log entry 11; stated in RequestsAreCheckedFirst). A
recovery interval that has become shorter may be reached at once (R16, R201). The words of the entries, binding none as
word 0 among them, are log entry 10; that map fields and guard keys outside their ranges are RANGE and entries never
written are not checked is log entry 29; that unused zone starts are not checked is log entry 30; that any 16-bit
output key is in range is log entry 41; that a value whose mark is 0 is not examined and a mark above 1 is RANGE is log
entry 42. -/
def Obligations.TablesAreWritten : Prop :=
  ((∀ (cfg : Bool) (s : State) (r : Request) (t : Table) (first count : Nat) (es : List (Nat × List Word)) (c : Chip),
     Allowed cfg s r → r.code = 3 → tableArg r = some t → first = argNat r 1 → count = argNat r 2 →
     es = cutEntries t count first (r.words.drop 3) → c = withCfg cfg s.chip →
     ((t.size ≤ first ∨ t.size < first + count) →
       exec (writeRow t cfg) s = .next (s.answered r .badIndex [] c)) ∧
     (first < t.size → first + count ≤ t.size → t ∈ [Table.channelMap, .tracks, .geometry, .guards] →
       s.chip.ag.mode = .production → exec (writeRow t cfg) s = .next (s.answered r .mode [] c)) ∧
     (first < t.size → first + count ≤ t.size →
       (t ∈ [Table.channelMap, .tracks, .geometry, .guards] → s.chip.ag.mode ≠ .production) →
       (t = .channelMap → ∀ chans zones, chans = putEntries (fun _ ws => { cfg := intakeOf ws, dyn := .clear }) es c.si.chans →
         zones.length = c.de.zones.length →
         (∀ z m, c.de.zones[z]? = some m → ∀ touched : Prop,
           (touched ↔ ∃ i ∈ es.map (·.1), ∃ k, (k = c.si.chans.getD i .power ∨ k = chans.getD i .power) ∧
             k.cfg.enabled = true ∧ k.cfg.role = some (.zoneTemp z)) →
           (¬ touched → zones[z]? = some m) ∧
           (touched → (servingZone chans z).state = .fresh → zones[z]? = some { m with write := .written }) ∧
           (touched → (servingZone chans z).state ≠ .fresh → (m.state = .fresh ∨ m.write = .silenced) →
             zones[z]? = some { m with write := .silenced }) ∧
           (touched → (servingZone chans z).state ≠ .fresh → m.state ≠ .fresh → m.write ≠ .silenced →
             zones[z]? = some { m with write := .written })) →
         (entriesRange t es = true → mapValid (chans.map (·.cfg)) = true → exec (.writeChannelMap cfg) s = .next (s.answered r
           .ok [] (es.foldl (fun d x => afterMapWrite c.si.chans x.1 d)
             { c with si := { c.si with chans := chans }, de := { zones := zones } }))) ∧
         ((entriesRange t es = false ∨ mapValid (chans.map (·.cfg)) = false) →
           exec (.writeChannelMap cfg) s = .next (s.answered r .range [] c))) ∧
       (t = .tracks → ∀ put, put = putEntries (fun (_ : TrackChan) ws => { cfg := trackOf ws, dyn := .clear }) es →
         (entriesRange t es = true → tracksValid c ((put c.tc.chans).map (·.cfg)) = true →
           ∀ d, d = es.foldl (fun e x => stopChannel x.1 e) c → exec (.writeTrackChannels cfg) s =
             .next (s.answered r .ok [] (refreshUnsent c { d with tc := { d.tc with chans := put d.tc.chans } }))) ∧
         ((entriesRange t es = false ∨ tracksValid c ((put c.tc.chans).map (·.cfg)) = false) →
           exec (.writeTrackChannels cfg) s = .next (s.answered r .range [] c))) ∧
       (t = .geometry → ∀ st, st = es.foldl (fun g x => putGeometry x.1 x.2 g) c.st →
         (entriesRange t es = true → geometryOk c st = true → liveSegments c.st = [] →
           exec (.writeStageGeometry cfg) s = .next (s.answered r .ok [] { c with st := st })) ∧
         (entriesRange t es = true → geometryOk c st = true → liveSegments c.st ≠ [] →
           exec (.writeStageGeometry cfg) s = .next (s.answered r .notReady [] c)) ∧
         ((entriesRange t es = false ∨ geometryOk c st = false) →
           exec (.writeStageGeometry cfg) s = .next (s.answered r .range [] c))) ∧
       (t = .guards → ∀ ok, ok = (entriesRange t es && es.all (fun x => guardOk (guardOf x.2))) →
         (ok = true → exec (.writeGuardTable cfg) s = .next (s.answered r .ok []
           { c with ag := { c.ag with guards := putEntries (fun _ ws => guardOf ws) es c.ag.guards } })) ∧
         (ok = false → exec (.writeGuardTable cfg) s = .next (s.answered r .range [] c))) ∧
       (t = .recipes → ∀ ok, ok = (entriesRange t es && es.all (fun x => recipeOk (recipeOf x.2))) →
         ((∃ x ∈ es, ∃ l, some l ∈ c.lh.lots ∧ l.recipe = x.1) →
           exec (.writeRecipes cfg) s = .next (s.answered r .lotActive [] c)) ∧
         ((∀ x ∈ es, ∀ l, some l ∈ c.lh.lots → l.recipe ≠ x.1) → ok = true →
           exec (.writeRecipes cfg) s = .next (s.answered r .ok []
             { c with lh := { c.lh with recipes := putEntries (fun _ ws => recipeOf ws) es c.lh.recipes } })) ∧
         ((∀ x ∈ es, ∀ l, some l ∈ c.lh.lots → l.recipe ≠ x.1) → ok = false →
           exec (.writeRecipes cfg) s = .next (s.answered r .range [] c))) ∧
       (t = .shuttles → ∀ ok, ok = (entriesRange t es && es.all (fun x => pointFree c (wKey x.2 0))) →
         ((∃ x ∈ es, (shuttleAt c x.1).state ≠ .offline ∧ (shuttleAt c x.1).state ≠ .fault) →
           exec (.writeShuttleTable cfg) s = .next (s.answered r .mode [] c)) ∧
         ((∀ x ∈ es, (shuttleAt c x.1).state = .offline ∨ (shuttleAt c x.1).state = .fault) → ok = true →
           exec (.writeShuttleTable cfg) s = .next (s.answered r .ok []
             { c with td := { c.td with shuttles := putEntries shuttleOf es c.td.shuttles } })) ∧
         ((∀ x ∈ es, (shuttleAt c x.1).state = .offline ∨ (shuttleAt c x.1).state = .fault) → ok = false →
           exec (.writeShuttleTable cfg) s = .next (s.answered r .range [] c))) ∧
       (t = .routes →
         (entriesRange t es = true → exec (.writeAlertRoutes cfg) s = .next (s.answered r .ok []
           (evalStopN { c with ma := { c.ma with routes := putEntries (fun _ ws => routeFrom ws) es c.ma.routes } }))) ∧
         (entriesRange t es = false → exec (.writeAlertRoutes cfg) s = .next (s.answered r .range [] c))) ∧
       (t = .line → ∀ ok, ok = (entriesRange t es && es.all (fun x => pauseOk c (lineOf x.2))) →
         (ok = true → exec (.writeLineConfiguration cfg) s = .next (s.answered r .ok [] (recover (refreshUnsent c
           { c with ma := { c.ma with config := es.foldl (fun _ x => lineOf x.2) c.ma.config } })))) ∧
         (ok = false → exec (.writeLineConfiguration cfg) s = .next (s.answered r .range [] c))) ∧
       (t = .authority →
         (cfg = false → exec (.writeAuthorityList cfg) s = .next (s.answered r .denied [] c)) ∧
         (cfg = true → entriesRange t es = true → exec (.writeAuthorityList cfg) s = .next (s.answered r .ok []
           { c with ma := { c.ma with authority := putEntries (fun _ ws => authorityOf ws) es c.ma.authority } })) ∧
         (cfg = true → entriesRange t es = false →
           exec (.writeAuthorityList cfg) s = .next (s.answered r .range [] c))))) ∧
   ∀ (α : Type) (f : α → List Word → α) (es : List (Nat × List Word)) (l : List α) (i : Nat),
     ((∀ x ∈ es, x.1 ≠ i) → (putEntries f es l)[i]? = l[i]?) ∧ (putEntries f es l).length = l.length ∧
     ∀ before ws after, es = before ++ (i, ws) :: after → (∀ x ∈ before ++ after, x.1 ≠ i) →
       (putEntries f es l)[i]? = l[i]?.map (fun x => f x ws)) ∧
  -- What follows the write of one map entry (R33).
  ((∀ (before : List IntakeChan) (i : Nat) (c : Chip) (old new : IntakeCfg), old = (before.getD i .power).cfg →
     new = (intakeChan c i).cfg → afterMapWrite before i c =
       rederiveRole new.role (rederiveRole old.role (tellWritten i new (tellWritten i old c)))) ∧
   (∀ (r : Option Role) (c : Chip),
     (∀ z, r = some (.zoneTemp z) → rederiveRole r c = rederiveZone z c) ∧
     ((∀ z, r ≠ some (.zoneTemp z)) → rederiveRole r c = c)) ∧
   ∀ (i : Nat) (k : IntakeCfg) (c : Chip),
     (k.role ≠ some .chillTemp → k.role ≠ some .exitTemp → tellWritten i k c = tellFreshness i k.role .stale c) ∧
     ∀ r, (r = .chillTemp ∨ r = .exitTemp) → k.role = some r →
       ((k.enabled = true ∨ ∀ q ∈ c.si.chans, q.cfg.enabled = true → q.cfg.role ≠ some r) →
         tellWritten i k c = tellFreshness i k.role .stale c) ∧
       (k.enabled = false → (∃ q ∈ c.si.chans, q.cfg.enabled = true ∧ q.cfg.role = some r) →
         tellWritten i k c = c)) ∧
  -- The channel map as it would stand (R23).
  (∀ map : List IntakeCfg, mapValid map = true ↔
     (∀ k ∈ map, ((∃ z, k.role = some (.zoneTemp z)) ∨ k.role = some .chillTemp ∨ k.role = some .exitTemp ∨
         k.role = some .dockTemp) → -500 ≤ k.low ∧ k.low ≤ k.high ∧ k.high ≤ 1500) ∧
     (∀ (i : Nat) (k : IntakeCfg) (p : Nat), map[i]? = some k → k.partner = some p → ∃ (z : Nat) (q : IntakeCfg), k.role = some (.zoneTemp z) ∧ map[p]? = some q ∧ p ≠ i ∧
       q.role = some (.zoneTemp z) ∧ q.partner = some i) ∧
     ∀ (i j : Nat) (a b : IntakeCfg), map[i]? = some a → map[j]? = some b → i ≠ j → a.enabled = true → b.enabled = true → a.role = b.role →
       a.role = some .marker ∨ a.role = some (.encoder none) ∨
         ((∃ z, a.role = some (.zoneTemp z)) ∧ a.partner = some j ∧ b.partner = some i)) ∧
  -- The track channel table as it would stand (R41).
  (∀ (c : Chip) (table : List TrackCfg), tracksValid c table = true ↔ ∀ (n : Nat) (k : TrackCfg), table[n]? = some k →
     ((k.mode = .cut ∨ k.mode = .capture) → k.source ≠ .milliseconds) ∧
     (k.mode = .interval → ∀ e, k.source ≠ .encoder e) ∧
     ((k.mode = .cut ∨ k.mode = .interval) → k.trigger = .command) ∧
     (k.mode = .capture → ∃ m e, k.trigger = .marker m e) ∧
     (k.cond = .bagNotAccepted → k.mode = .gate ∧ k.trigger = .bagMade) ∧
     (∀ m, k.trigger = .master m → m < n ∧ ∃ q : TrackCfg, table[m]? = some q ∧ q.mode ≠ .off ∧ q.source = k.source) ∧
     ∀ o, k.output = some o →
       (k.mode = .delay ∨ k.mode = .gate) ∧
       (∀ s ∈ c.td.shuttles, s.written = true → s.point ≠ o.key) ∧
       (∀ p, c.ma.config.pausePoint = some p → p.index ≠ n) ∧
       ∀ (m : Nat) (q : TrackCfg), table[m]? = some q → m ≠ n → ∀ p, q.output = some p → p.key ≠ o.key) ∧
  -- The geometry as it would stand (R58).
  (∀ (c : Chip) (s : St) (starts : List Nat), starts = 0 :: s.blanch.zoneStarts.take (s.blanch.zones - 1) →
     (geometryOk c s = true ↔
       (s.blanch.written = true → s.chill.written = true → s.blanch.encoder ≠ s.chill.encoder) ∧
       (s.blanch.written = true → s.freeze.written = true → s.blanch.encoder ≠ s.freeze.encoder) ∧
       (s.chill.written = true → s.freeze.written = true → s.chill.encoder ≠ s.freeze.encoder) ∧
       (s.blanch.written = true →
         starts.Pairwise (· < ·) ∧ (s.blanch.zones = 1 ∨ s.blanch.segLen < s.blanch.zoneStarts.getD 0 0) ∧
         starts.getLastD 0 < s.blanch.decision ∧ s.blanch.segLen < s.blanch.decision ∧
         s.blanch.decision < s.blanch.length ∧ (trackChan c s.blanch.cutChannel).cfg.mode = .cut ∧
         (trackChan c s.blanch.cutChannel).cfg.length = s.blanch.segLen) ∧
       (s.chill.written = true → s.chill.entry < s.chill.length) ∧
       (s.freeze.written = true → s.freeze.entry < s.freeze.winStart ∧ s.freeze.winStart ≤ s.freeze.winEnd ∧
         s.freeze.winEnd ≤ s.freeze.decision ∧ s.freeze.decision < s.freeze.length))) ∧
  -- The checks of guards, recipes, shuttles and the line configuration (R185, R78, R109, R166, R201).
  ((∀ g : Guard, guardOk g = true ↔ (g.action = .clamp → g.low.toInt ≤ g.high.toInt)) ∧
   (∀ r : Recipe, recipeOk r = true ↔ r.table.Pairwise (· ≤ ·) ∧ r.bagsPerCase * r.casesPerPallet ≤ 480) ∧
   (∀ (c : Chip) (key : Key), pointFree c key = true ↔
     ∀ n k v, n < 8 → ownedPoint c n = some (k, v) → k ≠ key) ∧
   ∀ (c : Chip) (k : LineConfig), pauseOk c k = true ↔ ∀ p, k.pausePoint = some p →
     (trackChan c p.index).cfg.output = none ∧ (∀ t ∈ c.tc.chans, ∀ o, t.cfg.output = some o → o.key ≠ p.key) ∧
     ∀ s ∈ c.td.shuttles, s.written = true → s.point ≠ p.key) ∧
  -- The ranges of the entries of the tables (R22, R26, R40, R57, R78, R96, R109, R185, R166, R204, R201, R198).
  ((∀ (t : Table) (es : List (Nat × List Word)), entriesRange t es = true ↔ ∀ x ∈ es, entriesRange t [x] = true) ∧
   (∀ (i : Nat) (on filter mask role binding offset gain low high fresh stale mark partner : Word),
     entriesRange .channelMap
       [(i, [on, filter, mask, role, binding, offset, gain, low, high, fresh, stale, mark, partner])] = true ↔
     filter.toNat ≤ 65535 ∧ mask.toNat ≤ 65535 ∧
     (role.toNat = 1 → binding.toNat ≤ 5) ∧ (role.toNat = 12 → binding.toNat ≤ 3) ∧
     (role.toNat = 13 → binding.toNat ≤ 7) ∧
     (role.toNat ≠ 1 → role.toNat ≠ 6 → role.toNat ≠ 12 → role.toNat ≠ 13 → binding.toNat = 0) ∧
     (-32768 ≤ gain.toInt ∧ gain.toInt ≤ 32767) ∧ (1 ≤ fresh.toNat ∧ fresh.toNat ≤ 600) ∧
     (1 ≤ stale.toNat ∧ stale.toNat ≤ 3000) ∧ mark.toNat ≤ 1 ∧ (mark.toNat = 1 → partner.toNat ≤ 47)) ∧
   (∀ (i : Nat) (mode source channel length delay width trigger marker edge master stage policy cond mark key on off
       timeout : Word),
     entriesRange .tracks [(i, [mode, source, channel, length, delay, width, trigger, marker, edge, master, stage, policy,
       cond, mark, key, on, off, timeout])] = true ↔
     (source.toNat = 1 → channel.toNat ≤ 47) ∧
     (mode.toNat = 2 ∨ mode.toNat = 6 → 1 ≤ length.toNat ∧ length.toNat ≤ 65535) ∧
     (mode.toNat = 3 ∨ mode.toNat = 4 → delay.toNat ≤ 16777215) ∧
     (mode.toNat = 4 → 1 ≤ width.toNat ∧ width.toNat ≤ 65535) ∧ (trigger.toNat = 2 → marker.toNat ≤ 47) ∧
     mark.toNat ≤ 1 ∧
     (mark.toNat = 1 → key.toNat ≤ 65535 ∧ 10 ≤ timeout.toNat ∧ timeout.toNat ≤ 5000)) ∧
   (∀ encoder length segLen cut void zones z1 z2 z3 z4 z5 decision gate : Word,
     entriesRange .geometry
       [(0, [encoder, length, segLen, cut, void, zones, z1, z2, z3, z4, z5, decision, gate])] = true ↔
     encoder.toNat ≤ 47 ∧ 1 ≤ length.toNat ∧ (1 ≤ segLen.toNat ∧ segLen.toNat ≤ 65535) ∧ cut.toNat ≤ 7 ∧
     (1 ≤ zones.toNat ∧ zones.toNat ≤ 6) ∧ gate.toNat ≤ 7) ∧
   (∀ encoder length entry : Word, entriesRange .geometry [(1, [encoder, length, entry])] = true ↔
     encoder.toNat ≤ 47 ∧ 1 ≤ length.toNat) ∧
   (∀ encoder length entry decision gate first last : Word,
     entriesRange .geometry [(2, [encoder, length, entry, decision, gate, first, last])] = true ↔
     encoder.toNat ≤ 47 ∧ 1 ≤ length.toNat ∧ gate.toNat ≤ 7) ∧
   (∀ (i : Nat) (on filter mask cond action low high force : Word),
     entriesRange .guards [(i, [on, filter, mask, cond, action, low, high, force])] = true ↔
     filter.toNat ≤ 65535 ∧ mask.toNat ≤ 65535) ∧
   (∀ (i : Nat) (point load airlock delivery : Word),
     entriesRange .shuttles [(i, [point, load, airlock, delivery])] = true ↔
     (256 ≤ point.toNat ∧ point.toNat ≤ 65279) ∧ (1 ≤ load.toNat ∧ load.toNat ≤ 600) ∧
     (1 ≤ airlock.toNat ∧ airlock.toNat ≤ 600) ∧ (1 ≤ delivery.toNat ∧ delivery.toNat ≤ 1800)) ∧
   (∀ (i : Nat) (a b : Word), (entriesRange .routes [(i, [a, b])] = true ↔ a.toNat ≤ 255 ∧ b.toNat ≤ 1) ∧
     (entriesRange .authority [(i, [a, b])] = true ↔ a.toNat ≤ 1 ∧ (a.toNat = 1 → 1 ≤ b.toNat ∧ b.toNat ≤ 254))) ∧
   (∀ (i : Nat) (returns recovery split reserve bag mark point key pause resume timeout dest : Word),
     entriesRange .line
       [(i, [returns, recovery, split, reserve, bag, mark, point, key, pause, resume, timeout, dest])] = true ↔
     (1 ≤ returns.toNat ∧ returns.toNat ≤ 255) ∧ (1 ≤ recovery.toNat ∧ recovery.toNat ≤ 600) ∧
     (1 ≤ split.toNat ∧ split.toNat ≤ 100) ∧ reserve.toNat ≤ 64 ∧ (50 ≤ bag.toNat ∧ bag.toNat ≤ 5000) ∧
     mark.toNat ≤ 1 ∧
     (mark.toNat = 1 →
       point.toNat ≤ 7 ∧ key.toNat ≤ 65535 ∧ 10 ≤ timeout.toNat ∧ timeout.toNat ≤ 5000) ∧
     (1 ≤ dest.toNat ∧ dest.toNat ≤ 255)) ∧
   ∀ (i : Nat) (product valid tbase target maximum window limit allowance dwell exit bag tare under overweight required
       permille bags cases budget reference dock : Word) (table : List Word), table.length = 64 →
     (entriesRange .recipes [(i, [product, valid, tbase] ++ table ++ [target, maximum, window, limit, allowance, dwell,
       exit, bag, tare, under, overweight, required, permille, bags, cases, budget, reference, dock])] = true ↔
     product.toNat ≤ 65535 ∧ valid.toNat ≤ 1 ∧ (-500 ≤ tbase.toInt ∧ tbase.toInt ≤ 1185) ∧
     (∀ e ∈ table, e.toNat ≤ 1048575) ∧ (1 ≤ target.toNat ∧ target.toNat ≤ 65535) ∧
     (target.toNat ≤ maximum.toNat ∧ maximum.toNat ≤ 65535) ∧ (1 ≤ window.toNat ∧ window.toNat ≤ 65535) ∧
     (-500 ≤ limit.toInt ∧ limit.toInt ≤ 1500) ∧ allowance.toNat ≤ 65535 ∧ (1 ≤ dwell.toNat ∧ dwell.toNat ≤ 65535) ∧
     (-500 ≤ exit.toInt ∧ exit.toInt ≤ 1500) ∧ (1 ≤ bag.toNat ∧ bag.toNat ≤ 65535) ∧ tare.toNat ≤ 65535 ∧
     under.toNat ≤ bag.toNat ∧ overweight.toNat ≤ 65535 ∧ required.toNat ≤ 7 ∧
     (800 ≤ permille.toNat ∧ permille.toNat ≤ 1500) ∧ (1 ≤ bags.toNat ∧ bags.toNat ≤ 48) ∧
     (1 ≤ cases.toNat ∧ cases.toNat ≤ 120) ∧ (1 ≤ budget.toNat ∧ budget.toNat ≤ 65535) ∧
     (-500 ≤ reference.toInt ∧ reference.toInt ≤ 1500) ∧ (-500 ≤ dock.toInt ∧ dock.toInt ≤ 1500))) ∧
  -- Points that keep their key keep their unsent mark (R52, R55; log entry 17), and a recovery timer whose interval has
  -- become shorter may have reached it (R16, R201).
  (∀ before c : Chip, refreshUnsent before c = (List.range 8).foldl (fun d n =>
     if (ownedPoint before n).map (·.1) = (ownedPoint d n).map (·.1) then d
     else { d with tc := { d.tc with unsent := d.tc.unsent.set n false } }) c) ∧
  (∀ c : Chip,
     (∀ t, c.rp.recovery = some t → reached c.clock.ms (t + BitVec.ofNat 32 (1000 * c.ma.config.recovery)) = true →
       recover c = setErrors 0 0 c) ∧
     ((∀ t, c.rp.recovery = some t → reached c.clock.ms (t + BitVec.ofNat 32 (1000 * c.ma.config.recovery)) = false) →
       recover c = c))

/-- Modes, lots and holds: SET-MODE (R181, R182; the owned points with an unsent mark, 0 to 7, are handed again at the
entry into PRODUCTION), OPEN-LOT (R113; that the new lot's entry is the one free before the old lot drains is the model's
choice, log entry 40), CLOSE-LOT (R114, with ST's gap set: R63), PLACE-HOLD and RELEASE-HOLD (R121 to R123, R154; the
answer of PLACE-HOLD and the bits above the fourteen reasons: log entry 30). A lot's counts by the
reports to LH (R112), its drain point, which closes the BUILDING pallet short (R115, R141, R162), and its finish
(R116). -/
def Obligations.ModesLotsAndHoldsAreAnswered : Prop :=
  ((∀ (cfg : Bool) (s : State) (r : Request) (c : Chip), Allowed cfg s r → c = withCfg cfg s.chip →
     (r.code = 4 →
       (argNat r 0 = 1 → exec (.setMode cfg) s = .next (s.answered r .mode [] c)) ∧
       (argNat r 0 = 2 → exec (.setMode cfg) s =
         .next (s.answered r .ok [] { c with ag := { c.ag with mode := .commission } })) ∧
       (argNat r 0 = 3 → c.ag.mode = .offline → exec (.setMode cfg) s = .next (s.answered r .mode [] c)) ∧
       (argNat r 0 = 3 → c.ag.mode = .production → exec (.setMode cfg) s = .next (s.answered r .ok [] c)) ∧
       (argNat r 0 = 3 → c.ag.mode = .commission → productionReady c = false →
         exec (.setMode cfg) s = .next (s.answered r .notReady [] c)) ∧
       (argNat r 0 = 3 → c.ag.mode = .commission → productionReady c = true → exec (.setMode cfg) s =
         .next (s.answered r .ok [] (resendUnsent (arbitrate { c with ag := { c.ag with mode := .production } }))))) ∧
     (r.code = 5 → ∀ number recipe, number = r.words.getD 0 0 → recipe = argNat r 1 →
       (15 < recipe → exec (.openLot cfg) s = .next (s.answered r .badIndex [] c)) ∧
       (recipe ≤ 15 → (c.lh.recipes.getD recipe .power).valid = false →
         exec (.openLot cfg) s = .next (s.answered r .range [] c)) ∧
       (recipe ≤ 15 → (c.lh.recipes.getD recipe .power).valid = true →
         ((∃ l, some l ∈ c.lh.lots ∧ l.number = number) → exec (.openLot cfg) s = .next (s.answered r .lotActive [] c)) ∧
         ((∀ l, some l ∈ c.lh.lots → l.number ≠ number) → (∀ l ∈ c.lh.lots, l ≠ none) →
           exec (.openLot cfg) s = .next (s.answered r .noRoom [] c)) ∧
         ((∀ l, some l ∈ c.lh.lots → l.number ≠ number) → ∀ before after, c.lh.lots = before ++ none :: after →
           (∀ l ∈ before, l ≠ none) → ∀ d, (∀ o, openLot? c = some o → d = checkFinish o (checkDrain o
             (leaveGap o (modLot o (fun x => { x with state := .draining, closeTime := some c.clock.line }) c)))) →
           (openLot? c = none → d = c) →
           exec (.openLot cfg) s = .next (s.answered r .ok [BitVec.ofNat 32 before.length] { d with lh := { d.lh with
             lots := d.lh.lots.set before.length (some
               { number := number, recipe := recipe, state := .opened, openTime := c.clock.line, closeTime := none,
                 finishTime := none, manual := false, counts := ⟨0, 0, 0, 0, 0, 0, 0, 0, 0, 0⟩, building := none, live := 0, openBags := 0,
                 unwritten := 0, inFlight := 0, drained := false, report := .none }) } })))) ∧
     (r.code = 6 → ∀ i, i = argNat r 0 →
       (7 < i → exec (.closeLot cfg) s = .next (s.answered r .badIndex [] c)) ∧
       (i ≤ 7 → lotAt c i = none → exec (.closeLot cfg) s = .next (s.answered r .notFound [] c)) ∧
       (i ≤ 7 → ∀ l, lotAt c i = some l → l.state ≠ .opened →
         exec (.closeLot cfg) s = .next (s.answered r .ok [] c)) ∧
       (i ≤ 7 → ∀ l, lotAt c i = some l → l.state = .opened → exec (.closeLot cfg) s = .next (s.answered r .ok []
         (checkFinish i (checkDrain i (leaveGap i
           (modLot i (fun x => { x with state := .draining, closeTime := some c.clock.line }) c))))))) ∧
     (∀ (i : Instr) (f : HoldSet → HoldSet) (ans : HoldSet → List Word) (kind id : Nat), kind = argNat r 0 →
       id = argNat r 1 →
       (r.code = 7 ∧ i = .placeHold cfg ∧ (f = fun h => h ||| HoldReason.manual.only) ∧
           (ans = fun h => if kind = 5 then [BitVec.setWidth 32 h] else [])) ∨
         (r.code = 8 ∧ i = .releaseHold cfg ∧ (f = fun h => h &&& ~~~ BitVec.setWidth 14 (r.words.getD 2 0)) ∧
           (ans = fun h => [BitVec.setWidth 32 h])) →
       (kind = 1 → segmentAt c id = none → exec i s = .next (s.answered r .notFound [] c)) ∧
       (kind = 1 → ∀ g, segmentAt c id = some g → exec i s =
         .next (s.answered r .ok (ans (f g.hold)) (modSegment id (fun x => { x with hold := f x.hold }) c))) ∧
       (kind = 5 → 1023 < id → exec i s = .next (s.answered r .badIndex [] c)) ∧
       (kind = 5 → id ≤ 1023 → placeLive (placeAt c id) = false → exec i s = .next (s.answered r .notFound [] c)) ∧
       (kind = 5 → id ≤ 1023 → placeLive (placeAt c id) = true → ∀ g, (placeAt c id).fields = some g →
         exec i s = .next (s.answered r .ok (ans (f g.hold)) (amendPlace id f c))) ∧
       (kind = 6 → palletAt c id = none → exec i s = .next (s.answered r .notFound [] c)) ∧
       (kind = 6 → ∀ p, palletAt c id = some p → f p.hold = p.hold →
         exec i s = .next (s.answered r .ok (ans (f p.hold)) c)) ∧
       (kind = 6 → ∀ p, palletAt c id = some p → f p.hold ≠ p.hold →
         exec i s = .next (s.answered r .ok (ans (f p.hold)) (reviseDelivery id (changePalletHold id f c)))) ∧
       (kind = 7 → 7 < id → exec i s = .next (s.answered r .badIndex [] c)) ∧
       (kind = 7 → id ≤ 7 → lotAt c id = none → exec i s = .next (s.answered r .notFound [] c)) ∧
       (kind = 7 → id ≤ 7 → ∀ l, lotAt c id = some l → l.state = .finished →
         exec i s = .next (s.answered r .notReady [] c)) ∧
       (kind = 7 → id ≤ 7 → ∀ l h, lotAt c id = some l → l.state ≠ .finished →
         h = f (if l.manual = true then HoldReason.manual.only else 0) → ∀ d,
         d = modLot id (fun x => { x with manual := h.has .manual }) c → exec i s = .next (s.answered r .ok
           (ans (if h.has .manual = true then HoldReason.manual.only else 0))
           (((d.ba.pallets.filter (fun p => p.lot == id)).map (·.id)).foldl (fun acc p => evalDestination p acc) d))))) ∧
   ∀ c : Chip, productionReady c = true ↔
     c.st.blanch.written = true ∧ c.st.chill.written = true ∧ c.st.freeze.written = true ∧
     (∀ e ∈ [c.st.blanch.encoder, c.st.chill.encoder, c.st.freeze.encoder],
       (intakeChan c e).cfg.enabled = true ∧ ∃ b, (intakeChan c e).cfg.role = some (.encoder b)) ∧
     (trackChan c c.st.blanch.cutChannel).cfg.mode = .cut ∧
     (trackChan c c.st.blanch.cutChannel).cfg.length = c.st.blanch.segLen ∧
     (trackChan c c.st.blanch.cutChannel).cfg.source = .encoder c.st.blanch.encoder ∧ ∃ r ∈ c.lh.recipes, r.valid = true) ∧
  -- What the reports to LH count (R112).
  (∀ (l : Lot) (m : Nat),
     countLot (.segmentCreated m) l = { l with live := l.live + 1, counts := { l.counts with
       segmentsCut := min (l.counts.segmentsCut + 1) 4294967295, massCut := min (l.counts.massCut + m) 4294967295 } } ∧
     countLot (.divertConfirmed m) l = { l with live := l.live - 1, counts := { l.counts with
       massDiverted := min (l.counts.massDiverted + m) 4294967295 } } ∧
     countLot .segmentDrawn l = { l with live := l.live - 1 } ∧
     countLot (.untracked m) l = { l with counts := { l.counts with
       untrackedMass := min (l.counts.untrackedMass + m) 4294967295 } } ∧
     countLot .overblanched l = { l with counts := { l.counts with
       overblanch := min (l.counts.overblanch + 1) 4294967295 } } ∧
     countLot .bagTaken l = { l with openBags := l.openBags + 1 } ∧
     countLot (.bagSettled true) l = { l with openBags := l.openBags - 1, counts := { l.counts with
       bagsAccepted := min (l.counts.bagsAccepted + 1) 4294967295 } } ∧
     countLot (.bagSettled false) l = { l with openBags := l.openBags - 1, counts := { l.counts with
       bagsRejected := min (l.counts.bagsRejected + 1) 4294967295 } } ∧
     countLot (.tail m) l = { l with counts := { l.counts with tailMass := min (l.counts.tailMass + m) 4294967295 } } ∧
     countLot .recordMade l = { l with unwritten := l.unwritten + 1 } ∧
     countLot .recordWritten l = { l with unwritten := l.unwritten - 1 } ∧
     countLot .palletCreated l = { l with inFlight := l.inFlight + 1 } ∧
     countLot .palletClosed l = { l with counts := { l.counts with
       palletsClosed := min (l.counts.palletsClosed + 1) 4294967295 } } ∧
     countLot .palletDelivered l = { l with counts := { l.counts with
       palletsDelivered := min (l.counts.palletsDelivered + 1) 4294967295 } } ∧
     countLot .palletReported l = { l with inFlight := l.inFlight - 1 }) ∧
  -- A report to LH: counts, drain point, finish (R112, R115, R116), and a pallet's closing (R141, R162).
  ((∀ (i : Nat) (r : LotReport) (c : Chip), reportLot i r c = checkFinish i (checkDrain i (modLot i (countLot r) c))) ∧
   (∀ (i : Nat) (c : Chip),
     (lotAt c i = none → checkDrain i c = c ∧ checkFinish i c = c) ∧
     ∀ l, lotAt c i = some l →
       (l.state = .draining → l.drained = false → l.live = 0 → l.openBags = 0 → ∀ d,
         d = modLot i (fun e => { e with drained := true }) c →
         (l.building = none → checkDrain i c = d) ∧ ∀ id, l.building = some id → checkDrain i c = closeShort id d) ∧
       ((l.state ≠ .draining ∨ l.drained = true ∨ l.live ≠ 0 ∨ l.openBags ≠ 0) → checkDrain i c = c) ∧
       (l.state = .draining → l.drained = true → l.live = 0 → l.openBags = 0 → l.unwritten = 0 → l.inFlight = 0 →
         checkFinish i c =
           handLot i (modLot i (fun e => { e with state := .finished, finishTime := some c.clock.line }) c)) ∧
       ((l.state ≠ .draining ∨ l.drained = false ∨ l.live ≠ 0 ∨ l.openBags ≠ 0 ∨ l.unwritten ≠ 0 ∨ l.inFlight ≠ 0) →
         checkFinish i c = c)) ∧
   ∀ (id : Nat) (c : Chip) (p : Pallet), palletAt c id = some p →
     (∀ part, part = (if p.bags % (recipeOfLot c p.lot).bagsPerCase ≠ 0 then 1 else 0) →
       closeShort id c = closePallet id (modPallet id (fun q => { q with short := true, cases := q.cases + part }) c)) ∧
     closePallet id c = takePallet id (modLot p.lot (fun l => { l with building := none, counts := { l.counts with
         palletsClosed := min (l.counts.palletsClosed + 1) 4294967295 } })
       (modPallet id (fun q => { q with state := .closed, closeTime := some c.clock.line, serial := c.ba.serial })
         { c with ba := { c.ba with serial := c.ba.serial + 1 } })) ∧
     takePallet id c = arbitrate (modPallet id (fun q => { q with
       expTime := q.closeTime.getD 0, expTemp := dockTemp c q.lot }) (evalDestination id (enterDock id c)))) ∧
  -- ST's gap set (R63), and the points handed again (R182).
  (∀ (i : Nat) (c : Chip) (gap : BitVec 8), i < 8 →
     (∀ j, j < 8 → gap.getLsbD j = (c.st.gapSet.getLsbD j && decide (j ≠ i))) →
     leaveGap i c = { c with st := { c.st with gapSet := gap } }) ∧
  (∀ c : Chip, resendUnsent c = (List.range 8).foldl (fun d n =>
     if d.tc.unsent.getD n false = true then sendIntended n d else d) c)

/-- START-CHANNEL and STOP-CHANNEL (R43), ENABLE-SHUTTLE (R166), REQUEUE-PALLET (R174), CLEAR-ALERTS (R204).
START-CHANNEL on a DELAY or GATE channel that runs with trigger COMMAND is a start: OK where it is taken, with what it
reaches at once, and NO-ROOM where the retrigger policy refuses it (R43, R44). That the starts STOP-CHANNEL discards
leave the refused-start count as it was is a reading (DEDUCED, log entry 16). -/
def Obligations.OperationsAreAnswered : Prop :=
  (∀ (cfg : Bool) (s : State) (r : Request) (c : Chip), Allowed cfg s r → c = withCfg cfg s.chip →
    (r.code = 11 →
      (7 < argNat r 0 → exec (.startChannel cfg) s = .next (s.answered r .badIndex [] c)) ∧
      ∀ n k, n = argNat r 0 → n ≤ 7 → k = trackChan c n →
        (k.cfg.mode = .off → exec (.startChannel cfg) s = .next (s.answered r .notReady [] c)) ∧
        (k.cfg.mode = .cut → k.dyn.state = .stopped → exec (.startChannel cfg) s = .next (s.answered r .ok []
          (modTrack n (fun d => { d with state := .running, remainder := 0 }) c))) ∧
        (k.cfg.mode = .interval → k.dyn.state = .stopped → exec (.startChannel cfg) s = .next (s.answered r .ok []
          (modTrack n (fun d => { d with state := .running, nextFire := c.clock.ms + BitVec.ofNat 32 k.cfg.length }) c))) ∧
        (k.cfg.mode = .capture → k.dyn.state = .stopped → exec (.startChannel cfg) s = .next (s.answered r .ok []
          (modTrack n (fun d => { d with state := .armed, pend := [], capture := { d.capture with span := false } }) c))) ∧
        (k.cfg.mode = .delay ∨ k.cfg.mode = .gate → k.dyn.state = .stopped → k.cfg.trigger ≠ .command →
          exec (.startChannel cfg) s = .next (s.answered r .ok []
            (modTrack n (fun d => { d with state := .armed, pend := [] }) c))) ∧
        (k.cfg.mode = .delay ∨ k.cfg.mode = .gate → k.dyn.state = .stopped → k.cfg.trigger = .command →
          exec (.startChannel cfg) s = .next (s.answered r .ok []
            (commandStart n (modTrack n (fun d => { d with state := .armed, pend := [] }) c)).1)) ∧
        (k.cfg.mode = .delay ∨ k.cfg.mode = .gate → k.dyn.state ≠ .stopped → k.cfg.trigger = .command →
          ∀ d st, commandStart n c = (d, st) → exec (.startChannel cfg) s = .next (s.answered r st [] d)) ∧
        (k.cfg.mode ≠ .off → k.dyn.state ≠ .stopped →
          (k.cfg.trigger ≠ .command ∨ (k.cfg.mode ≠ .delay ∧ k.cfg.mode ≠ .gate)) →
          exec (.startChannel cfg) s = .next (s.answered r .ok [] c))) ∧
    (r.code = 12 →
      (7 < argNat r 0 → exec (.stopChannel cfg) s = .next (s.answered r .badIndex [] c)) ∧
      ∀ n k d, n = argNat r 0 → n ≤ 7 → k = trackChan c n →
        d = modTrack n (fun e => { e with state := .stopped, pend := [] }) c →
        (k.dyn.state = .stopped → exec (.stopChannel cfg) s = .next (s.answered r .ok [] c)) ∧
        (k.dyn.state = .opened → exec (.stopChannel cfg) s = .next (s.answered r .ok []
          (reportAll .refused (k.dyn.pend.filterMap (·.served)) (sendOutput n false none d).1))) ∧
        (k.dyn.state ≠ .stopped → k.dyn.state ≠ .opened → exec (.stopChannel cfg) s = .next (s.answered r .ok []
          (reportAll .refused (k.dyn.pend.filterMap (·.served)) d)))) ∧
    (r.code = 13 → ∀ n u, n = argNat r 0 → u = shuttleAt c n →
      (3 < n → exec (.enableShuttle cfg) s = .next (s.answered r .badIndex [] c)) ∧
      (n ≤ 3 → u.written = false → exec (.enableShuttle cfg) s = .next (s.answered r .notReady [] c)) ∧
      (n ≤ 3 → u.written = true → u.state ≠ .offline → u.state ≠ .fault →
        exec (.enableShuttle cfg) s = .next (s.answered r .mode [] c)) ∧
      (n ≤ 3 → u.written = true → (u.state = .offline ∨ u.state = .fault) → exec (.enableShuttle cfg) s =
        .next (s.answered r .ok [] (modShuttle n (fun t => { t with state := .offline, enabled := true }) c)))) ∧
    (r.code = 14 → ∀ id, id = argNat r 0 →
      (palletAt c id = none → exec (.requeuePallet cfg) s = .next (s.answered r .notFound [] c)) ∧
      (∀ p, palletAt c id = some p → p.state ≠ .faulted →
        exec (.requeuePallet cfg) s = .next (s.answered r .notReady [] c)) ∧
      (∀ p, palletAt c id = some p → p.state = .faulted → exec (.requeuePallet cfg) s = .next (s.answered r .ok []
        (arbitrate (evalDestination id (modPallet id (fun q => { q with expTime := c.clock.line, expTemp := dockTemp c p.lot })
          (enterDock id (modPallet id (fun q => { q with state := .closed, shuttle := none }) c)))))))) ∧
    (r.code = 15 → ∀ mask, mask = r.words.getD 0 0 →
      (524288 ≤ mask.toNat → exec (.clearAlerts cfg) s = .next (s.answered r .range [] c)) ∧
      (mask.toNat < 524288 → ∀ pending, pending.length = c.ma.pending.length →
        (∀ i, i < c.ma.pending.length → mask.getLsbD i = true → pending[i]? = some none) →
        (∀ i, i < c.ma.pending.length → mask.getLsbD i = false → pending[i]? = c.ma.pending[i]?) →
        exec (.clearAlerts cfg) s = .next (s.answered r .ok []
          { c with ma := { c.ma with pending := pending }, pins := { c.pins with
              stopN := stopLevel pending c.ma.routes } })))) ∧
  -- A command start (R43, R44).
  (∀ (n : Nat) (c d : Chip) (st : Start), n < 8 → st = { point := channelPos c n, served := none } →
     (enterStart n st c = (d, false) → commandStart n c = (d, .noRoom)) ∧
     (enterStart n st c = (d, true) →
       (reached (channelPos d n) (st.point + BitVec.ofNat 32 (trackChan d n).cfg.delay) = true →
         commandStart n c = (handleSlaves 8 n (handleChannel n d), .ok)) ∧
       (reached (channelPos d n) (st.point + BitVec.ofNat 32 (trackChan d n).cfg.delay) = false →
         commandStart n c = (d, .ok))))

/-! ## Warm restart -/

/-- RESTART (R206): the request is answered OK and leaves the queue, and MA waits for the answer's return unless RP
did not take it; the warm restart is one event in which every block takes its share (R21, R39, R56, R77, R95, R108,
R125, R148, R161, R179, R195), tables, clock, epoch, read and verify counts and trace memory being kept, every other
count 0, and TM's writes, its rewrites in the order of their marks with the hold set of each place, and its held
record set apart; the frame leaving, the frame in reception and the operation on the SPI master stand, and the
restart is under way (R21, R161); it is complete when TM has no work left. What is not due changes nothing (log entry
3). -/
def Obligations.WarmRestartClearsThePart : Prop :=
  (∀ (cfg : Bool) (s : State) (r : Request), Allowed cfg s r → r.code = 16 →
    ∀ f d taken, f = { kind := .mgmtAns, dest := r.origin, source := .answer true,
                       items := [mkItem r.tag (BitVec.ofNat 32 (16 * 16777216 + 1))] } →
      rpHand f (withCfg cfg s.chip) = (d, taken) →
      exec (.restart cfg) s = .next (s.after { d with ma := { d.ma with
        queue := d.ma.queue.tail, phase := if taken = true then .restartWait else .restartReady } })) ∧
  (∀ s : State, s.chip.pins.running = true → s.chip.ma.phase = .restartReady →
    ∀ c d, c = s.chip → d = restartAll c →
      exec .warmRestart s = .next (s.after d) ∧
      d.clock = c.clock ∧ d.pins = { c.pins with stopN := true } ∧ d.freeCount = c.freeCount ∧
      -- RP (R21): the frame leaving, the frame in reception and the forward buffer stand.
      (c.rp.ring = .isolated → d.rp = { c.rp with txQueue := [], returnList := [] }) ∧
      (c.rp.ring ≠ .isolated → d.rp = { c.rp with
        txQueue := [], returnList := [], ring := .active, txErr := 0, rxErr := 0, recovery := none }) ∧
      d.rp.tx = c.rp.tx ∧ d.rp.rx = c.rp.rx ∧ d.rp.forward = c.rp.forward ∧ d.rp.epoch = c.rp.epoch ∧
      d.rp.epochPresent = c.rp.epochPresent ∧
      d.si.chans.map (·.cfg) = c.si.chans.map (·.cfg) ∧ (∀ k ∈ d.si.chans, k.dyn = IntakeDyn.clear) ∧
      d.si.zones = List.replicate 6 { temp := none, state := .stale } ∧
      d.tc.chans.map (·.cfg) = c.tc.chans.map (·.cfg) ∧ (∀ k ∈ d.tc.chans, k.dyn = TrackDyn.clear) ∧
      d.tc.unsent = List.replicate 8 false ∧ d.tc.positions = List.replicate 48 0 ∧ d.tc.nextToken = c.tc.nextToken ∧
      d.st = { c.st with qBlanch := [], qChill := [], qFreeze := [], qSurge := [], totalRef := none, gapSet := 0,
                         lastNominal := 0, stray := 0 } ∧
      d.de.zones = List.replicate 6
        { write := .none, state := .stale, creditTime := none, lastTemp := none, credits := 0, skipped := 0, gaps := 0,
          staleZones := 0 } ∧
      d.fv = { chillState := .stale, prevChill := none, exitState := .stale, window := [], lateChill := 0, warmChill := 0,
               underDwell := 0, noExit := 0, warmExit := 0, unapplied := 0 } ∧
      d.lh = { recipes := c.lh.recipes, lots := List.replicate 8 none, lastHanding := none } ∧
      d.ba = { slots := [none, none, none, none], pallets := [], nextPallet := c.ba.nextPallet, decisions := [],
               carried := List.replicate 8 0, keptMade := none, keptWeight := none, keptCode := none, keptMetal := none,
               lastOverrun := none, overruns := 0, lostRecords := 0, lotless := 0, orphans := 0, strayGate := 0,
               serial := 0 } ∧
      -- TM (R161): the operation on the SPI master goes on, the write pointer and the three counts stay.
      (∃ w, d.tm = { c.tm with places := List.replicate 1024 { state := .archived, fields := none }, marks := [],
                               writeQueue := [], holding := none, readWaiting := none, restart := some w } ∧
        w.writes = c.tm.writeQueue ∧ w.held = c.tm.holding ∧
        w.rewrites.map (·.1) = c.tm.marks.filter (fun p =>
          decide ((placeAt c p).state = .stored) && (placeAt c p).fields.isSome) ∧
        ∀ x ∈ w.rewrites, (placeAt c x.1).fields.map (·.hold) = some x.2) ∧
      d.tm.spi = c.tm.spi ∧ d.tm.pointer = c.tm.pointer ∧ d.tm.verifyFail = c.tm.verifyFail ∧
      d.tm.corrected = c.tm.corrected ∧ d.tm.uncorrectable = c.tm.uncorrectable ∧
      d.td.shuttles.map shuttleWords = c.td.shuttles.map shuttleWords ∧
      d.td.shuttles.map (·.written) = c.td.shuttles.map (·.written) ∧
      (∀ u ∈ d.td.shuttles, u.state = .offline ∧ u.enabled = false ∧ u.pallet = none ∧ u.deadline = none ∧ u.late = 0 ∧
        u.mismatch = 0 ∧ u.faults = 0) ∧
      d.td.dock = [] ∧ d.td.lost = 0 ∧ d.td.lastHanding = none ∧
      d.ag = { mode := .offline, guards := c.ag.guards, traps := [], trapCount := 0, shadows := [], unshadowed := 0,
               confirms := [], confOverflow := 0, faults := List.replicate 8 0 } ∧
      -- MA (R206): the warm restart is under way until TM has finished; the queue and the tables stand.
      d.ma = { c.ma with pending := List.replicate 19 none, lastHanding := none, assembly := none,
                         phase := .restartRunning }) ∧
  (∀ s : State, s.chip.pins.running = true → s.chip.ma.phase ≠ .restartReady →
    exec .warmRestart s = .next (s.after s.chip)) ∧
  (∀ (s : State) (w : RestartWork), s.chip.pins.running = true → s.chip.ma.phase = .restartRunning →
    s.chip.tm.restart = some w →
    (s.chip.tm.spi = none → w = { writes := [], rewrites := [], held := none } →
      exec .warmRestartComplete s = .next (s.after { s.chip with
        tm := { s.chip.tm with restart := none }
        ma := { s.chip.ma with phase := .idle } })) ∧
    ((s.chip.tm.spi ≠ none ∨ w ≠ { writes := [], rewrites := [], held := none }) →
      exec .warmRestartComplete s = .next (s.after s.chip))) ∧
  ∀ s : State, s.chip.pins.running = true → s.chip.ma.phase ≠ .restartRunning →
    exec .warmRestartComplete s = .next (s.after s.chip)
end

