-- ==== Sys2Proof/Laws/BagSpecs.lean ====
section
/-! SUPPORT. What the operations on bags, records, places and the SPI master do, case by case: one lemma for each clause of
the statements on bags and on the trace memory. -/

namespace Sys2Proof.Machine

/-- A bag is made (R128 to R130). -/
theorem spec_newBag :
    ∀ (seq : Nat) (c : Chip),
      (∀ g rest, c.st.qSurge = g :: rest → bagLot c = some g.lot) ∧
      (c.st.qSurge = [] → bagLot c = openLot? c) ∧
      (bagLot c = none → newBag seq c = lotlessBag seq c) ∧
      (∀ lot, bagLot c = some lot → (∃ b, some b ∈ c.ba.slots ∧ b.seq = seq) → newBag seq c = overrunBag seq lot c) ∧
      (∀ lot, bagLot c = some lot → (∀ b ∈ c.ba.slots, b ≠ none) → newBag seq c = overrunBag seq lot c) ∧
      (∀ lot before after, bagLot c = some lot → (∀ b, some b ∈ c.ba.slots → b.seq ≠ seq) →
        c.ba.slots = before ++ none :: after → (∀ b ∈ before, b ≠ none) →
        newBag seq c = gatherBag seq lot before.length c) := by
  intro seq c
  refine ⟨?_, ?_, ?_, ?_, ?_, ?_⟩
  · intro g rest h; simp only [bagLot, h]
  · intro h; simp only [bagLot, h]
  · intro h; simp only [newBag, h]
  · rintro lot h ⟨b, hb, he⟩
    have e : bagSlot c seq = none := by
      unfold bagSlot
      split
      · rfl
      · rename_i hn
        exact (hn (List.any_eq_true.2 ⟨some b, hb, by simpa using he⟩)).elim
    simp only [newBag, h, e]
  · intro lot h hx
    have e : bagSlot c seq = none := by
      unfold bagSlot
      split
      · rfl
      · rw [List.findIdx?_eq_none_iff]
        intro x hm
        cases x with
        | none => exact absurd rfl (hx _ hm)
        | some b => rfl
    simp only [newBag, h, e]
  · intro lot before after h hn hs hb
    have e : bagSlot c seq = some before.length := by
      unfold bagSlot
      split
      · rename_i h'
        obtain ⟨x, hx, he⟩ := List.any_eq_true.1 h'
        cases x with
        | none => simp at he
        | some b => exact absurd (by simpa using he) (hn b hx)
      rw [hs, List.findIdx?_append]
      have : before.findIdx? (fun s => s.isNone) = none := by
        rw [List.findIdx?_eq_none_iff]
        intro x hm
        cases x with
        | none => exact absurd rfl (hb _ hm)
        | some b => rfl
      simp [this, List.findIdx?_cons]
    simp only [newBag, h, e]

/-- A bag takes a slot (R128), and an overrun bag takes none (R129). -/
theorem spec_bagSteps :
    (∀ (seq lot k : Nat) (c c1 c2 c3 : Chip),
      c1 = reportLot lot .bagTaken { c with ba := { c.ba with slots := c.ba.slots.set k (some
        { state := .gathering, seq := seq, lot := lot, madeLine := c.clock.line, madeMs := c.clock.ms,
          deadline := c.clock.ms + BitVec.ofNat 32 c.ma.config.bagDeadline, weight := none, codeFail := none,
          metalFail := none, conflict := 0, draws := [], hold := 0, tail := false, decision := .gathering, reasons := 0,
          pallet := none, record := none, order := 0 }) } } →
      c2 = addDecision
        { seq := seq, lot := some lot, slot := some k, decision := .gathering, place := none, gateReasons := 0 }
        (drawBag k c1) →
      c3 = issueBagStarts seq c2 →
      ((recipeOfLot c lot).needWeight = false → (recipeOfLot c lot).needCode = false →
        (recipeOfLot c lot).needMetal = false → gatherBag seq lot k c = decideBag k c3) ∧
      (((recipeOfLot c lot).needWeight = true ∨ (recipeOfLot c lot).needCode = true ∨
        (recipeOfLot c lot).needMetal = true) → gatherBag seq lot k c = c3)) ∧
    (∀ (e : DecisionEntry) (c : Chip),
      (c.ba.decisions.length < 16 → addDecision e c = { c with ba := { c.ba with decisions := c.ba.decisions ++ [e] } }) ∧
      ∀ before after x, 16 ≤ c.ba.decisions.length → c.ba.decisions = before ++ x :: after → x.decision ≠ .gathering →
        (∀ y ∈ before, y.decision = .gathering) →
        addDecision e c = { c with ba := { c.ba with decisions := before ++ after ++ [e] } }) ∧
    ∀ (seq lot : Nat) (c c3 : Chip) (number : Word) (r : BagRecord),
      (∀ l, lotAt c lot = some l → number = l.number) → (lotAt c lot = none → number = 0) →
      r = { seq := seq, lot := lot, lotNumber := number, made := c.clock.line, epoch := c.rp.epoch,
            epochPresent := c.rp.epochPresent, net := none, codeFail := none, metalFail := none, rejected := true,
            reasons := 0x40, draws := [], hold := 0, pallet := none } →
      c3 = issueBagStarts seq (addDecision
        { seq := seq, lot := some lot, slot := none, decision := .rejected, place := none, gateReasons := 0 }
        (raiseNat .bagOverrun .bag seq { c with ba := { c.ba with
          lastOverrun := some seq, overruns := min (c.ba.overruns + 1) 65535 } })) →
      (∀ d, takeRecord r c3 = (d, true) → overrunBag seq lot c =
        reportLot lot (.bagSettled false) (reportLot lot .recordMade (reportLot lot .bagTaken d))) ∧
      (∀ d, takeRecord r c3 = (d, false) → overrunBag seq lot c =
        { d with ba := { d.ba with lostRecords := min (d.ba.lostRecords + 1) 65535 } }) := by
  refine ⟨?_, ?_, ?_⟩
  · intro seq lot k c c1 c2 c3 h1 h2 h3
    have e : gatherBag seq lot k c =
        if nothingRequired (recipeOfLot c lot) = true then decideBag k c3 else c3 := by
      simp only [gatherBag, setSlot, newSlot, h1, h2, h3]
    refine ⟨?_, ?_⟩
    · intro a b d; rw [e, if_pos]; simp [nothingRequired, a, b, d]
    · intro h; rw [e, if_neg]; simp only [nothingRequired]; rcases h with h | h | h <;> simp [h]
  · intro e c
    refine ⟨?_, ?_⟩
    · intro h; simp only [addDecision, if_pos h]
    · intro before after x hl hs hx hb
      have f : c.ba.decisions.findIdx? (fun d => d.decision != .gathering) = some before.length := by
        rw [hs, List.findIdx?_append]
        have : before.findIdx? (fun d => d.decision != .gathering) = none := by
          rw [List.findIdx?_eq_none_iff]; intro y hy; simp [hb y hy]
        simp [this, List.findIdx?_cons, hx]
      simp only [addDecision, if_neg (Nat.not_lt.mpr hl), f]
      have g : c.ba.decisions.eraseIdx before.length = before ++ after := by
        rw [hs, List.eraseIdx_append_of_length_le (le_refl _)]; simp
      rw [g]
  · intro seq lot c c3 number r hn h0 hr h3
    have e : overrunRecord seq lot c = r := by
      rw [hr]
      cases h : lotAt c lot with
      | none => rw [h0 h]; simp only [overrunRecord, h]; rfl
      | some l => rw [hn l h]; simp only [overrunRecord, h]; rfl
    refine ⟨?_, ?_⟩ <;> intro d h <;> unfold overrunBag <;> dsimp only [inc16] <;> rw [← h3, e, h]

/-- A gathering bag is decided (R134, R135). -/
theorem spec_decideBag :
    ∀ (k : Nat) (c : Chip),
      ((∀ b, slotAt c k = some b → b.state ≠ .gathering) → decideBag k c = c) ∧
      ∀ (b : Slot) (reasons : Byte) (d : Chip), slotAt c k = some b → b.state = .gathering →
        reasons = rejectReasons (recipeOfLot c b.lot) b →
        d = modDecisions (fun e => e.slot == some k)
          (fun e => { e with decision := if reasons = 0 then .accepted else .rejected })
          (modSlot k (fun x => { x with
              decision := if reasons = 0 then .accepted else .rejected, reasons := reasons, order := c.ba.serial,
              record := some (makeRecord b (decide (reasons ≠ 0)) reasons c) })
            { c with ba := { c.ba with serial := c.ba.serial + 1 } }) →
        decideBag k c = if reasons = 0 then settleAccepted k d else settleRejected k d := by
  intro k c
  refine ⟨?_, ?_⟩
  · intro h
    unfold decideBag
    cases hs : slotAt c k with
    | none => rfl
    | some b => exact if_neg (h b hs)
  · intro b reasons d hb hg hr hd
    subst hr hd
    unfold decideBag
    rw [hb]
    dsimp only
    rw [if_pos hg]
    by_cases z : rejectReasons (recipeOfLot c b.lot) b = 0
    · simp [z]; rfl
    · simp [z]; rfl

/-- The draw (R131, R132). -/
theorem spec_draw :
    (∀ (k fuel need : Nat) (c : Chip) (s : Slot), slotAt c k = some s →
      drawLoop k (fuel + 1) 0 c = (c, .met) ∧
      (0 < need → c.st.qSurge = [] → drawLoop k (fuel + 1) need c = (c, .short)) ∧
      ∀ g rest, 0 < need → c.st.qSurge = g :: rest →
        (g.lot ≠ s.lot → drawLoop k (fuel + 1) need c = (c, .boundary)) ∧
        (g.lot = s.lot → 8 ≤ s.draws.length → drawLoop k (fuel + 1) need c = (c, .short)) ∧
        (g.lot = s.lot → s.draws.length < 8 → ∀ grams d, grams = min g.remaining need →
          d = modSegment g.id (fun x => { x with remaining := x.remaining - grams }) (modSlot k (fun b => { b with
            draws := b.draws ++ [{ segment := g.id, grams := grams }], hold := b.hold ||| g.hold }) c) →
          (g.remaining = grams → drawLoop k (fuel + 1) need c =
            drawLoop k fuel (need - grams) (freeSegment g.id false d)) ∧
          (g.remaining ≠ grams → drawLoop k (fuel + 1) need c = drawLoop k fuel (need - grams) d))) ∧
    (∀ (r : Recipe), drawAmount r = (r.bagTarget * r.permille + 500) / 1000) ∧
    ∀ (k : Nat) (c d : Chip) (s : Slot), slotAt c k = some s →
      (drawLoop k 9 (drawAmount (recipeOfLot c s.lot)) c = (d, .met) → drawBag k c = d) ∧
      (∀ b, drawLoop k 9 (drawAmount (recipeOfLot c s.lot)) c = (d, .boundary) → slotAt d k = some b → drawBag k c =
        reportLot s.lot (.tail ((b.draws.map (·.grams)).foldl (· + ·) 0)) (modSlot k (fun x => { x with tail := true }) d)) ∧
      (drawLoop k 9 (drawAmount (recipeOfLot c s.lot)) c = (d, .short) → drawBag k c =
        modSlot k (fun x => { x with hold := x.hold ||| HoldReason.traceShort.only }) d) := by
  refine ⟨?_, fun _ => rfl, ?_⟩
  · intro k fuel need c s hs
    refine ⟨?_, ?_, ?_⟩
    · simp only [drawLoop, if_true]
    · intro h hq; simp only [drawLoop, if_neg (Nat.pos_iff_ne_zero.mp h), hq]
    · intro g rest h hq
      refine ⟨?_, ?_, ?_⟩
      · intro hl; simp only [drawLoop, if_neg (Nat.pos_iff_ne_zero.mp h), hq, hs, if_pos hl]
      · intro hl hd
        simp only [drawLoop, if_neg (Nat.pos_iff_ne_zero.mp h), hq, hs, if_neg (not_not.mpr hl), if_pos hd]
      · intro hl hd grams d hg he
        subst hg he
        have : min g.remaining need ≤ g.remaining := Nat.min_le_left _ _
        refine ⟨?_, ?_⟩
        · intro e
          simp only [drawLoop, if_neg (Nat.pos_iff_ne_zero.mp h), hq, hs, if_neg (not_not.mpr hl),
            if_neg (Nat.not_le.mpr hd)]
          rw [if_pos (by omega)]
        · intro e
          simp only [drawLoop, if_neg (Nat.pos_iff_ne_zero.mp h), hq, hs, if_neg (not_not.mpr hl),
            if_neg (Nat.not_le.mpr hd)]
          rw [if_neg (by omega)]
  · intro k c d s hs
    refine ⟨?_, ?_, ?_⟩
    · intro h; simp only [drawBag, hs, h]
    · intro b h hb; simp only [drawBag, hs, h, hb, drawnGrams]
    · intro h; simp only [drawBag, hs, h]; rfl

/-- Contributions (R126, R133). -/
theorem spec_contributions :
    (∀ (f : BagField) (seq value : Nat) (c : Chip),
      ((∀ b, some b ∈ c.ba.slots → b.state = .gathering → b.seq ≠ seq) → contribute f seq value c =
        { raiseNat .orphan .bag seq c with ba := { (raiseNat .orphan .bag seq c).ba with
          orphans := min ((raiseNat .orphan .bag seq c).ba.orphans + 1) 65535 } }) ∧
      ∀ before after s, c.ba.slots = before ++ some s :: after → s.state = .gathering → s.seq = seq →
        (∀ b, some b ∈ before → b.state = .gathering → b.seq ≠ seq) →
        ∀ s1 set d, contributeField f value s = (s1, set) →
          d = { c with ba := { c.ba with slots := c.ba.slots.set before.length (some s1) } } →
          (set = true → (fieldsComplete (recipeOfLot c s.lot) s1 = true →
              contribute f seq value c = decideBag before.length d) ∧
            (fieldsComplete (recipeOfLot c s.lot) s1 = false → contribute f seq value c = d)) ∧
          (set = false → contribute f seq value c = d)) ∧
    (∀ (value : Nat) (s : Slot),
      (s.weight = none → contributeField .weight value s = ({ s with weight := some value }, true)) ∧
      (s.weight = some value → contributeField .weight value s = (s, false)) ∧
      (∀ w, s.weight = some w → w ≠ value →
        contributeField .weight value s = ({ s with conflict := s.conflict ||| 1 }, false)) ∧
      (s.codeFail = none → contributeField .code value s = ({ s with codeFail := some (decide (value ≠ 0)) }, true)) ∧
      (s.codeFail = some (decide (value ≠ 0)) → contributeField .code value s = (s, false)) ∧
      (s.codeFail = some (decide (value = 0)) →
        contributeField .code value s = ({ s with conflict := s.conflict ||| 2 }, false)) ∧
      (s.metalFail = none → contributeField .metal value s = ({ s with metalFail := some (decide (value ≠ 0)) }, true)) ∧
      (s.metalFail = some (decide (value ≠ 0)) → contributeField .metal value s = (s, false)) ∧
      (s.metalFail = some (decide (value = 0)) →
        contributeField .metal value s = ({ s with conflict := s.conflict ||| 4 }, false))) ∧
    (∀ (r : Recipe) (s : Slot), fieldsComplete r s = true ↔ (r.needWeight = true → s.weight ≠ none) ∧
      (r.needCode = true → s.codeFail ≠ none) ∧ (r.needMetal = true → s.metalFail ≠ none)) ∧
    ∀ (w : Word) (c : Chip),
      (c.ba.keptMade = some w → bagMade w c = c) ∧
      (c.ba.keptMade ≠ some w → bagMade w c =
        newBag (w.toNat / 65536) { c with ba := { c.ba with keptMade := some w } }) ∧
      (c.ba.keptWeight = some w → bagField .weight w c = c) ∧
      (c.ba.keptWeight ≠ some w → bagField .weight w c =
        contribute .weight (w.toNat / 65536) (w.toNat % 65536) { c with ba := { c.ba with keptWeight := some w } }) ∧
      (c.ba.keptCode = some w → bagField .code w c = c) ∧
      (c.ba.keptCode ≠ some w → bagField .code w c =
        contribute .code (w.toNat / 65536) (w.toNat % 65536) { c with ba := { c.ba with keptCode := some w } }) ∧
      (c.ba.keptMetal = some w → bagField .metal w c = c) ∧
      (c.ba.keptMetal ≠ some w → bagField .metal w c =
        contribute .metal (w.toNat / 65536) (w.toNat % 65536) { c with ba := { c.ba with keptMetal := some w } }) := by
  refine ⟨?_, ?_, ?_, ?_⟩
  · intro f seq value c
    refine ⟨?_, ?_⟩
    · intro h
      have e : gatheringSlot c seq = none := by
        unfold gatheringSlot
        rw [List.findIdx?_eq_none_iff]
        intro x hx
        cases x with
        | none => rfl
        | some b =>
          simp only [Bool.and_eq_false_imp, beq_iff_eq, beq_eq_false_iff_ne, ne_eq]
          exact fun q => h b hx q
      simp only [contribute, e, inc16]
    · intro before after s hs hg hq hb s1 set d hc hd
      have e : gatheringSlot c seq = some before.length := by
        unfold gatheringSlot
        rw [hs, List.findIdx?_append]
        rw [List.findIdx?_eq_none_iff.2]
        · simp [List.findIdx?_cons, hg, hq]
        · intro x hx
          cases x with
          | none => rfl
          | some b =>
            simp only [Bool.and_eq_false_imp, beq_iff_eq, beq_eq_false_iff_ne, ne_eq]
            exact fun q => hb b hx q
      have e2 : slotAt c before.length = some s := by simp [slotAt, hs]
      subst hd
      refine ⟨?_, ?_⟩
      · rintro rfl
        refine ⟨?_, ?_⟩
        · intro h; simp only [contribute, e, e2, hc, h, if_true]; rfl
        · intro h; simp only [contribute, e, e2, hc, h]; rfl
      · rintro rfl
        simp only [contribute, e, e2, hc]; rfl
  · intro value s
    refine ⟨?_, ?_, ?_, ?_, ?_, ?_, ?_, ?_, ?_⟩
    · intro h; simp only [contributeField, h]
    · intro h; simp only [contributeField, h, if_true]
    · intro w h hw; simp only [contributeField, h, if_neg hw]; rfl
    · intro h; simp only [contributeField, h]
    · intro h; simp only [contributeField, h, if_true]
    · intro h
      have : ¬ decide (value = 0) = decide (value ≠ 0) := by by_cases q : value = 0 <;> simp [q]
      simp only [contributeField, h, if_neg this]; rfl
    · intro h; simp only [contributeField, h]
    · intro h; simp only [contributeField, h, if_true]
    · intro h
      have : ¬ decide (value = 0) = decide (value ≠ 0) := by by_cases q : value = 0 <;> simp [q]
      simp only [contributeField, h, if_neg this]; rfl
  · intro r s
    simp only [fieldsComplete, Bool.and_eq_true, Bool.or_eq_true, Bool.not_eq_true', Option.isSome_iff_ne_none, and_assoc]
    cases r.needWeight <;> cases r.needCode <;> cases r.needMetal <;> simp
  · intro w c
    exact ⟨fun h => if_pos h, fun h => if_neg h, fun h => if_pos h, fun h => if_neg h, fun h => if_pos h,
      fun h => if_neg h, fun h => if_pos h, fun h => if_neg h⟩

/-- Settlement (R138, R139) and the pallet (R140 to R142). -/
theorem spec_settlement :
    (∀ (k : Nat) (c : Chip) (s : Slot), slotAt c k = some s →
      (∀ id, (lotAt c s.lot).bind (·.building) = some id → settleAccepted k c = joinPallet k id c) ∧
      ((lotAt c s.lot).bind (·.building) = none → c.ba.pallets.length < 24 →
        settleAccepted k c = joinPallet k (createPallet s.lot c).2 (createPallet s.lot c).1) ∧
      ((lotAt c s.lot).bind (·.building) = none → 24 ≤ c.ba.pallets.length → settleAccepted k c =
        modSlot k (fun b => { b with state := .palletWait }) (raiseNat .palletFull .lot s.lot c)) ∧
      (∀ id d, d = reportLot s.lot (.bagSettled true) (reportLot s.lot .recordMade
          (modSlot k (fun b => { b with pallet := some id, record := b.record.map fun r => { r with pallet := some id } })
            (modPallet id (fun p => { p with hold := p.hold ||| s.hold, bags := p.bags + 1 }) c))) →
        joinPallet k id c = (handSlot k (modSlot k (fun b => { b with state := .decided }) (countCase id d))).1)) ∧
    (∀ (id : Nat) (c : Chip) (p : Pallet) (r : Recipe) (cases : Nat) (d : Chip), palletAt c id = some p →
      r = recipeOfLot c p.lot →
      cases = (if p.bags % r.bagsPerCase = 0 then p.cases + 1 else p.cases) →
      d = modPallet id (fun q => { q with cases := cases }) c →
      (p.state = .building → cases = r.casesPerPallet → countCase id c = closePallet id d) ∧
      ((p.state ≠ .building ∨ cases ≠ r.casesPerPallet) → countCase id c = d)) ∧
    ∀ (k : Nat) (c : Chip) (s : Slot) (r : BagRecord), slotAt c k = some s → s.record = some r →
      (∀ d, takeRecord r c = (d, true) → handSlot k c = ({ d with ba := { d.ba with
        slots := d.ba.slots.set k none,
        decisions := d.ba.decisions.map fun e => if e.slot = some k then { e with slot := none } else e } }, true)) ∧
      (∀ d, takeRecord r c = (d, false) → handSlot k c = (d, false)) := by
  refine ⟨?_, ?_, ?_⟩
  · intro k c s hs
    refine ⟨?_, ?_, ?_, ?_⟩
    · intro id h; simp only [settleAccepted, tryJoin, hs, h]
    · intro h hl; simp only [settleAccepted, tryJoin, hs, h, if_pos hl]
    · intro h hl; simp only [settleAccepted, tryJoin, hs, h, if_neg (Nat.not_lt.mpr hl)]
    · intro id d hd; subst hd; simp only [joinPallet, hs]
  · intro id c p r cases d hp hr hc hd
    subst hr hc hd
    refine ⟨?_, ?_⟩
    · intro a b; simp only [countCase, hp, a, b, and_self, if_true]
    · intro h
      have : ¬ (p.state = .building ∧ (if p.bags % (recipeOfLot c p.lot).bagsPerCase = 0 then p.cases + 1 else p.cases) =
          (recipeOfLot c p.lot).casesPerPallet) := by
        rintro ⟨a, b⟩; rcases h with h | h
        · exact h a
        · exact h b
      simp only [countCase, hp, if_neg this]
  · intro k c s r hs hr
    refine ⟨?_, ?_⟩
    · intro d h
      simp only [handSlot, hs, hr, h, modDecisions, setSlot, inSlot, beq_iff_eq]
    · intro d h; simp only [handSlot, hs, hr, h]

theorem backlogRises_some {c : Chip} {p : Nat} (h : pointerPlace c = some p) :
    backlogRises c = sendPause (raiseNat .traceBacklog .place p c) := by
  unfold backlogRises
  generalize pointerPlace c = o at h
  subst h; rfl

theorem backlogRises_none {c : Chip} (h : pointerPlace c = none) :
    backlogRises c = sendPause (raise .traceBacklog .place (Config.freeWord c.freeCount)
      { c with freeCount := c.freeCount + 1 }) := by
  unfold backlogRises
  generalize pointerPlace c = o at h
  subst h; rfl

/-- Taking a record (R151, R156, R161). -/
theorem spec_takeRecord :
    (∀ (r : BagRecord) (c : Chip),
      ((c.tm.restart ≠ none ∨ c.tm.holding ≠ none) → takeRecord r c = (c, false)) ∧
      (c.tm.restart = none → c.tm.holding = none →
        (∀ p, openPlace c = some p → takeRecord r c = (placeRecord p r c, true)) ∧
        (openPlace c = none → ∀ d, d = { c with tm := { c.tm with holding := some r } } →
          (∀ p, pointerPlace d = some p →
            takeRecord r c = (sendPause (raiseNat .traceBacklog .place p d), true)) ∧
          (pointerPlace d = none → ∃ w : Word, takeRecord r c =
            (sendPause (raise .traceBacklog .place w { d with freeCount := d.freeCount + 1 }), true))))) ∧
    (∀ (c : Chip) (p : Nat), openPlace c = some p ↔ c.tm.writeQueue.length < 4 ∧ pointerPlace c = some p ∧
      ((placeAt c p).state = .free ∨ (placeAt c p).state = .archived)) ∧
    (∀ (c : Chip) (p i : Nat), i < 1024 → p = (c.tm.pointer + i) % 1024 →
      (∀ j, j < i → ∃ f, (placeAt c ((c.tm.pointer + j) % 1024)).fields = some f ∧ f.rejected = true ∧
        ((placeAt c ((c.tm.pointer + j) % 1024)).state = .stored ∨
          (placeAt c ((c.tm.pointer + j) % 1024)).state = .poisoned)) →
      (((placeAt c p).state ≠ .stored ∧ (placeAt c p).state ≠ .poisoned) ∨
        ∀ f, (placeAt c p).fields = some f → f.rejected = false) →
      pointerPlace c = some p) ∧
    (∀ (p : Nat) (r : BagRecord) (c : Chip) (f : PlaceFields),
      f = { seq := r.seq, lot := r.lot, pallet := r.pallet, rejected := r.rejected, hold := r.hold,
            freeAtCompletion := false, placed := c.tm.placed } →
      placeRecord p r c = placeReport r p (whenWaiting c { c with tm := { c.tm with
        places := c.tm.places.modify p (fun _ => { state := .pending, fields := some f }),
        writeQueue := c.tm.writeQueue ++ [{ place := p, record := r }],
        pointer := (p + 1) % 1024, placed := c.tm.placed + 1 } })) ∧
    ∀ c : Chip,
      (∀ r p, c.tm.holding = some r → openPlace c = some p →
        placeHeld c = (sendPause (placeRecord p r { c with tm := { c.tm with holding := none } }), true)) ∧
      ((c.tm.holding = none ∨ openPlace c = none) → placeHeld c = (c, false)) ∧
      (∀ q, c.ma.config.pausePoint = some q → sendPause c =
        (sendValue q.index q.key (if c.tm.holding ≠ none then q.pause else q.resume) .pause none q.timeout c).1) ∧
      (c.ma.config.pausePoint = none → sendPause c = c) := by
  refine ⟨?_, ?_, ?_, ?_, ?_⟩
  · intro r c
    refine ⟨?_, ?_⟩
    · intro h
      have : (c.tm.restart.isSome || c.tm.holding.isSome) = true := by
        rcases h with h | h <;> simp [Option.isSome_iff_ne_none.2 h]
      simp only [takeRecord, this, if_true]
    · intro a b
      have full : openPlace c = none →
          takeRecord r c = (backlogRises { c with tm := { c.tm with holding := some r } }, true) := by
        intro h
        unfold takeRecord
        rw [if_neg (by simp [a, b]), h]
      refine ⟨?_, ?_⟩
      · intro p h
        unfold takeRecord
        rw [if_neg (by simp [a, b]), h]
      · intro h d hd
        subst hd
        refine ⟨?_, ?_⟩
        · intro p hp
          rw [full h, backlogRises_some hp]
        · intro hp
          exact ⟨Config.freeWord c.freeCount, by rw [full h, backlogRises_none hp]⟩
  · intro c p
    unfold openPlace
    by_cases h : c.tm.writeQueue.length < 4
    · simp only [if_pos h]
      cases hp : pointerPlace c with
      | none => simp
      | some q =>
        simp only [Option.some.injEq]
        constructor
        · intro e
          split at e
          · rename_i x; cases e; exact ⟨h, rfl, x⟩
          · exact absurd e (by simp)
        · rintro ⟨_, rfl, x⟩; exact if_pos x
    · simp [h]
  · intro c p i hi hp hb hs
    have notPassed : passedOver (placeAt c p) = false := by
      simp only [passedOver]
      rcases hs with ⟨a, b⟩ | h
      · simp [a, b]
      · cases hf : (placeAt c p).fields with
        | none => simp
        | some f => simp [h f hf]
    have passed : ∀ j, j < i → passedOver (placeAt c ((c.tm.pointer + j) % 1024)) = true := by
      intro j hj
      obtain ⟨f, hf, hr, hst⟩ := hb j hj
      simp only [passedOver, hf, hr, Bool.and_true, Bool.or_eq_true, beq_iff_eq]
      exact hst
    unfold pointerPlace
    rw [List.find?_map]
    have key : (List.range 1024).find? ((fun p => !passedOver (placeAt c p)) ∘ fun i => (c.tm.pointer + i) % 1024)
        = some i := by
      rw [List.find?_range_eq_some]
      refine ⟨by simp [Function.comp, ← hp, notPassed], by simpa using hi, ?_⟩
      intro j hj
      simp [Function.comp, passed j hj]
    rw [key, hp]; rfl
  · rintro p r c f rfl; rfl
  · intro c
    refine ⟨?_, ?_, ?_, ?_⟩
    · intro r p a b; simp only [placeHeld, a, b]
    · rintro (h | h)
      · simp only [placeHeld, h]
      · simp only [placeHeld, h]; cases c.tm.holding <;> rfl
    · intro q h; simp only [sendPause, h, traceBacklog, Option.isSome_iff_ne_none]
    · intro h; simp only [sendPause, h]

theorem modify_at_length {α : Type} (f : α → α) (e : α) (after : List α) :
    ∀ before : List α, (before ++ e :: after).modify before.length f = before ++ f e :: after
  | [] => by simp
  | x :: l => by simp [modify_at_length f e after l]

/-- BA's place report (R144). -/
theorem spec_placeReport :
    ∀ (r : BagRecord) (p : Nat) (c : Chip), ∃ ds : List DecisionEntry,
      (∀ before after e, c.ba.decisions = before ++ e :: after → entryOfRecord r e = true →
        (∀ x ∈ before, entryOfRecord r x = false) → ds = before ++ { e with place := some p } :: after) ∧
      ((∀ x ∈ c.ba.decisions, entryOfRecord r x = false) → ds = c.ba.decisions) ∧
      (r.pallet = none → placeReport r p c = { c with ba := { c.ba with decisions := ds } }) ∧
      (∀ id, r.pallet = some id → placeReport r p c = modPallet id (fun q => if q.lot = r.lot
        then { q with firstPlace := some (q.firstPlace.getD p), lastPlace := some p } else q)
          { c with ba := { c.ba with decisions := ds } }) ∧
      ∀ e, entryOfRecord r e = true ↔ e.seq = r.seq ∧ e.lot = some r.lot ∧ e.place = none ∧
        e.decision = (if r.rejected = true then .rejected else .accepted) := by
  intro r p c
  refine ⟨match c.ba.decisions.findIdx? (entryOfRecord r) with
    | some i => c.ba.decisions.modify i fun e => { e with place := some p }
    | none => c.ba.decisions, ?_, ?_, ?_, ?_, ?_⟩
  · intro before after e hs he hb
    have f : c.ba.decisions.findIdx? (entryOfRecord r) = some before.length := by
      rw [hs, List.findIdx?_append]
      have : before.findIdx? (entryOfRecord r) = none := by rw [List.findIdx?_eq_none_iff]; exact hb
      simp [this, List.findIdx?_cons, he]
    rw [f]
    simp only [hs, modify_at_length]
  · intro h
    have f : c.ba.decisions.findIdx? (entryOfRecord r) = none := by rw [List.findIdx?_eq_none_iff]; exact h
    rw [f]
  · intro h; simp only [placeReport, h] <;> rfl
  · intro id h; simp only [placeReport, h] <;> rfl
  · intro e
    simp only [entryOfRecord, Bool.and_eq_true, beq_iff_eq, Option.isNone_iff_eq_none, and_assoc]

/-- Amendments (R154). -/
theorem spec_amend :
    (∀ (p : Nat) (f : HoldSet → HoldSet) (c d : Chip),
      d = modPlace p (fun e => { e with fields := e.fields.map fun g => { g with hold := f g.hold } }) c →
      (∀ marked, marked = { d with tm := { d.tm with
          marks := if p ∈ d.tm.marks then d.tm.marks else d.tm.marks ++ [p] } } →
        ((placeAt c p).state = .stored → amendPlace p f c = whenWaiting c marked) ∧
        (∀ r, (placeAt c p).state = .pending → c.tm.spi = some (.write p r) → amendPlace p f c = marked)) ∧
      ((placeAt c p).state = .pending → (∀ r, c.tm.spi ≠ some (.write p r)) → amendPlace p f c =
        { d with tm := { d.tm with writeQueue := d.tm.writeQueue.map fun q =>
          if q.place = p then { q with record := { q.record with hold := f q.record.hold } } else q } }) ∧
      ((placeAt c p).state = .poisoned → amendPlace p f c = d) ∧
      (((placeAt c p).state = .free ∨ (placeAt c p).state = .archived) → amendPlace p f c = c)) ∧
    ∀ (lot seq : Nat) (f : HoldSet → HoldSet) (c : Chip),
      (∀ r, c.tm.holding = some r → r.lot = lot → r.seq = seq → amendBag lot seq f c =
        { c with tm := { c.tm with holding := some { r with hold := f r.hold } } }) ∧
      ((∀ r, c.tm.holding = some r → r.lot ≠ lot ∨ r.seq ≠ seq) →
        (placeOfBag c lot seq = none → amendBag lot seq f c = c) ∧
        ∀ p, placeOfBag c lot seq = some p → amendBag lot seq f c = amendPlace p f c) := by
  refine ⟨?_, ?_⟩
  · intro p f c d hd
    have e : d = modFields p (fun g => { g with hold := f g.hold }) c := hd
    have em : ∀ x : Chip, setMark p x =
        { x with tm := { x.tm with marks := if p ∈ x.tm.marks then x.tm.marks else x.tm.marks ++ [p] } } := by
      intro x; simp only [setMark, List.contains_iff_mem]
    refine ⟨?_, ?_, ?_, ?_⟩
    · intro marked hm
      subst hm
      refine ⟨?_, ?_⟩
      · intro h; simp only [amendPlace, h, ← e, em]
      · intro r h hw
        have : writeBegun c p = true := by simp [writeBegun, hw]
        simp only [amendPlace, h, this, if_true, ← e, em]
    · intro h hw
      have : writeBegun c p = false := by
        unfold writeBegun
        split
        · rename_i q r hq
          simp only [beq_eq_false_iff_ne, ne_eq]
          rintro rfl
          exact hw r hq
        · rfl
      simp only [amendPlace, h, this, ← e]; rfl
    · intro h; simp only [amendPlace, h, ← e]
    · rintro (h | h) <;> simp only [amendPlace, h]
  · intro lot seq f c
    refine ⟨?_, ?_⟩
    · intro r h a b; simp only [amendBag, h, a, b, and_self, if_true]
    · intro h
      refine ⟨?_, ?_⟩
      · intro hp
        cases hh : c.tm.holding with
        | none => simp only [amendBag, hh, hp]
        | some r =>
          have : ¬ (r.lot = lot ∧ r.seq = seq) := by rintro ⟨a, b⟩; rcases h r hh with q | q <;> exact q (by assumption)
          simp only [amendBag, hh, if_neg this, hp]
      · intro p hp
        cases hh : c.tm.holding with
        | none => simp only [amendBag, hh, hp]
        | some r =>
          have : ¬ (r.lot = lot ∧ r.seq = seq) := by rintro ⟨a, b⟩; rcases h r hh with q | q <;> exact q (by assumption)
          simp only [amendBag, hh, if_neg this, hp]

/-- The grants of a warm restart's completion (R161). -/
theorem spec_restartGrants :
    ∀ (c : Chip) (w : RestartWork), c.tm.spi = none → c.tm.restart = some w →
      (∀ q rest, w.writes = q :: rest →
        spiGrant c = { c with tm := { c.tm with spi := some (.write q.place q.record), lastWasRead := false } }) ∧
      (∀ p h rest, w.writes = [] → w.rewrites = (p, h) :: rest → spiGrant c = { c with tm := { c.tm with
        spi := some (.rewrite p h), lastWasRead := false, restart := some { w with rewrites := rest } } }) ∧
      (∀ r, w.writes = [] → w.rewrites = [] → w.held = some r → spiGrant c = { c with tm := { c.tm with
        spi := some (.write c.tm.pointer r), lastWasRead := false, pointer := (c.tm.pointer + 1) % 1024,
        restart := some { writes := [{ place := c.tm.pointer, record := r }], rewrites := [], held := none } } }) ∧
      (w = { writes := [], rewrites := [], held := none } → spiGrant c = c) := by
  rintro c ⟨ws, rs, hd⟩ hs hr
  refine ⟨?_, ?_, ?_, ?_⟩
  · rintro q rest rfl; simp only [spiGrant, hs, hr, grantRestart, setSpi]
  · rintro p h rest rfl rfl; simp only [spiGrant, hs, hr, grantRestart, setSpi]
  · rintro r rfl rfl rfl; simp only [spiGrant, hs, hr, grantRestart, setSpi]
  · intro e; cases e; simp only [spiGrant, hs, hr, grantRestart]

/-- A write and a rewrite that end during a warm restart's completion (R161). -/
theorem spec_restartCompletions :
    ∀ (c : Chip) (w : RestartWork), c.tm.restart = some w →
      (∀ (p : Nat) (r : BagRecord) (d : Chip),
        d = { c with tm := { c.tm with spi := none, restart := some { w with writes := w.writes.tail } } } →
        finishWrite true p r c = d ∧
        finishWrite false p r c = raiseNat .traceFault .place p
          { d with tm := { d.tm with verifyFail := min (d.tm.verifyFail + 1) 65535 } }) ∧
      ∀ (p : Nat) (d : Chip), d = { c with tm := { c.tm with spi := none } } →
        finishRewrite true p c = d ∧
        finishRewrite false p c = raiseNat .traceFault .place p
          { d with tm := { d.tm with verifyFail := min (d.tm.verifyFail + 1) 65535 } } := by
  intro c w h
  refine ⟨?_, ?_⟩
  · intro p r d hd
    subst hd
    refine ⟨?_, ?_⟩
    · simp only [finishWrite, h, if_true]
    · simp only [finishWrite, h]; rfl
  · intro p d hd
    subst hd
    refine ⟨rfl, ?_⟩
    simp [finishRewrite, h, traceFault, countVerifyFail, inc16]

/-- The freeing of places (R157, R158) and the retirement of a lot (R118). -/
theorem spec_freeing :
    (∀ (p : Nat) (c : Chip),
      (((placeAt c p).state = .stored ∨ (placeAt c p).state = .poisoned) → releasePlace p c = freePlace p c) ∧
      ((placeAt c p).state ≠ .stored → (placeAt c p).state ≠ .poisoned → releasePlace p c = c) ∧
      ((placeAt c p).state = .pending → releasePalletPlace p c =
        modPlace p (fun e => { e with fields := e.fields.map fun f => { f with freeAtCompletion := true } }) c) ∧
      ((placeAt c p).state ≠ .pending → releasePalletPlace p c = releasePlace p c) ∧
      freePlace p c = { c with tm := { c.tm with
        places := c.tm.places.modify p (fun _ => { state := .free, fields := none })
        marks := c.tm.marks.filter (fun x => decide (x ≠ p)) } }) ∧
    (∀ (id rev : Nat) (c : Chip) (p : Pallet), palletAt c id = some p →
      (p.revision = rev → p.reportPending = true → ∀ d,
        d = checkHolding ((placesWhere (fun f => f.pallet == some id)
            (modPallet id (fun q => { q with reportPending := false }) c)).foldl (fun e x => releasePalletPlace x e)
          (modPallet id (fun q => { q with reportPending := false }) c)) →
        reportLeft (.deliveryReport id rev) c = reportLot p.lot .palletReported (resumeWaiting
          { d with ba := { d.ba with pallets := d.ba.pallets.filter fun q => decide (q.id ≠ id) } })) ∧
      ((p.revision ≠ rev ∨ p.reportPending = false) → reportLeft (.deliveryReport id rev) c = c)) ∧
    (∀ (i : Nat) (c d : Chip),
      d = checkHolding ((placesWhere (fun f => f.lot == i) c).foldl (fun e x => releasePlace x e) c) →
      reportLeft (.lotReport i) c = { d with
        lh := { d.lh with lots := d.lh.lots.set i none }
        ba := { d.ba with
          decisions := d.ba.decisions.filter fun e => decide (e.lot ≠ some i)
          carried := d.ba.carried.modify i fun _ => 0 } }) ∧
    (∀ (t : PlaceFields → Bool) (c : Chip) (p : Nat), p ∈ placesWhere t c ↔
      ∃ e f, c.tm.places[p]? = some e ∧ e.fields = some f ∧ t f = true) ∧
    ∀ c : Chip,
      (∀ d, placeHeld c = (d, true) → checkHolding c = handDecided (slotsInOrder .decided d) d) ∧
      (∀ d, placeHeld c = (d, false) → checkHolding c = d) := by
  refine ⟨?_, ?_, ?_, ?_, ?_⟩
  · intro p c
    refine ⟨?_, ?_, ?_, ?_, rfl⟩
    · intro h; simp only [releasePlace, if_pos h]
    · intro a b; simp only [releasePlace, if_neg (not_or.mpr ⟨a, b⟩)]
    · intro h; simp only [releasePalletPlace, if_pos h]; rfl
    · intro h; simp only [releasePalletPlace, if_neg h]
  · intro id rev c p hp
    refine ⟨?_, ?_⟩
    · intro a b d hd
      subst hd
      simp only [reportLeft, palletReportLeft, hp, a, b, and_self, if_true, freePalletPlaces]
    · intro h
      have : ¬ (p.revision = rev ∧ p.reportPending = true) := by
        rintro ⟨a, b⟩; rcases h with h | h
        · exact h a
        · simp [h] at b
      simp only [reportLeft, palletReportLeft, hp, if_neg this]
  · intro i c d hd
    subst hd
    rfl
  · intro t c p
    simp only [placesWhere, List.mem_map, List.mem_filter, Prod.exists, List.mem_zipIdx_iff_getElem?]
    constructor
    · rintro ⟨e, i, ⟨h, ht⟩, rfl⟩
      cases hf : e.fields with
      | none => simp [hf] at ht
      | some f => exact ⟨e, f, h, hf, by simpa [hf] using ht⟩
    · rintro ⟨e, f, h, hf, ht⟩
      exact ⟨e, p, ⟨h, by simp [hf, ht]⟩, rfl⟩
  · intro c
    refine ⟨?_, ?_⟩ <;> intro d h <;> simp only [checkHolding, h]

/-- BA hands the records of DECIDED slots until TM refuses one (R143). -/
theorem spec_handDecided :
    ∀ c : Chip, handDecided [] c = c ∧ ∀ (k : Nat) (ks : List Nat) (d : Chip),
      (handSlot k c = (d, true) → handDecided (k :: ks) c = handDecided ks d) ∧
      (handSlot k c = (d, false) → handDecided (k :: ks) c = d) := by
  intro c
  refine ⟨rfl, fun k ks d => ⟨?_, ?_⟩⟩ <;> intro h <;> simp only [handDecided, h]

/-- The rewrites set apart at a warm restart (R161): the marked STORED places in the order of their marks, each with its
hold set. -/
theorem markedRewrites_places (c : Chip) :
    (markedRewrites c.tm).map (·.1) = c.tm.marks.filter (fun p =>
      decide ((placeAt c p).state = .stored) && (placeAt c p).fields.isSome) ∧
    ∀ x ∈ markedRewrites c.tm, (placeAt c x.1).fields.map (·.hold) = some x.2 := by
  refine ⟨?_, ?_⟩
  · unfold markedRewrites placeAt
    generalize c.tm.marks = l
    induction l with
    | nil => rfl
    | cons p l ih =>
      simp only [List.filterMap_cons, List.filter_cons]
      obtain ⟨s, hs⟩ : ∃ s, (c.tm.places.getD p .archived).state = s := ⟨_, rfl⟩
      obtain ⟨f, hf⟩ : ∃ f, (c.tm.places.getD p .archived).fields = f := ⟨_, rfl⟩
      rw [hs, hf]
      cases s <;> cases f <;> simp_all
  · intro x hx
    simp only [markedRewrites, List.mem_filterMap] at hx
    obtain ⟨p, _, h⟩ := hx
    split at h
    · cases h
      rename_i h2
      simp only [placeAt, h2]
      rfl
    · cases h

theorem insertKey_perm {α : Type} (key : α → Nat) (x : α) : ∀ l, (insertKey key x l).Perm (x :: l)
  | [] => .refl _
  | y :: ys => by
    unfold insertKey
    split
    · exact .refl _
    · exact ((insertKey_perm key x ys).cons y).trans (.swap x y ys)

theorem insertKey_sorted {α : Type} (key : α → Nat) (x : α) : ∀ l, l.Pairwise (fun a b => key a ≤ key b) →
    (insertKey key x l).Pairwise (fun a b => key a ≤ key b)
  | [], _ => by simp [insertKey]
  | y :: ys, h => by
    have ⟨h1, h2⟩ := List.pairwise_cons.mp h
    unfold insertKey
    split
    · rename_i l
      refine List.pairwise_cons.mpr ⟨fun b hb => ?_, h⟩
      rcases List.mem_cons.mp hb with rfl | hb
      · omega
      · have := h1 b hb; omega
    · rename_i l
      refine List.pairwise_cons.mpr ⟨fun b hb => ?_, insertKey_sorted key x ys h2⟩
      rcases List.mem_cons.mp ((insertKey_perm key x ys).mem_iff.mp hb) with rfl | hb
      · omega
      · exact h1 b hb

/-- A list put in order of a key holds the same elements, none before one of a smaller key. -/
theorem sortKey_spec {α : Type} (key : α → Nat) (l : List α) :
    (sortKey key l).Perm l ∧ (sortKey key l).Pairwise (fun a b => key a ≤ key b) := by
  have h : ∀ (l acc : List α), acc.Pairwise (fun a b => key a ≤ key b) →
      (l.foldl (fun acc x => insertKey key x acc) acc).Perm (l ++ acc) ∧
      (l.foldl (fun acc x => insertKey key x acc) acc).Pairwise (fun a b => key a ≤ key b) := by
    intro l
    induction l with
    | nil => intro acc ha; exact ⟨.refl _, ha⟩
    | cons x xs ih =>
      intro acc ha
      obtain ⟨p, q⟩ := ih _ (insertKey_sorted key x acc ha)
      exact ⟨p.trans (((insertKey_perm key x acc).append_left xs).trans List.perm_middle), q⟩
  obtain ⟨p, q⟩ := h l [] .nil
  exact ⟨by simpa [sortKey] using p, q⟩

/-- Slots in a state, in order of decision (R142, R143). -/
theorem spec_slotsInOrder :
    ∀ (st : SlotState) (c : Chip),
      (∀ k, k ∈ slotsInOrder st c ↔ k < 4 ∧ ∃ b, slotAt c k = some b ∧ b.state = st) ∧ (slotsInOrder st c).Nodup ∧
      (slotsInOrder st c).Pairwise (fun j k =>
        ∀ a b, slotAt c j = some a → slotAt c k = some b → a.order ≤ b.order) := by
  intro st c
  obtain ⟨p, q⟩ := sortKey_spec (fun k => match slotAt c k with | some s => s.order | none => 0)
    ((List.range 4).filter fun k => match slotAt c k with | some s => s.state == st | none => false)
  refine ⟨?_, ?_, ?_⟩
  · intro k
    refine p.mem_iff.trans ?_
    simp only [List.mem_filter, List.mem_range]
    cases slotAt c k <;> simp
  · exact p.nodup_iff.mpr (List.nodup_range.filter _)
  · exact q.imp fun {j k} h a b ha hb => by simpa only [ha, hb] using h

/-- The settlement of a REJECTED bag (R138), with the gate reasons that waited for it (R145). -/
theorem spec_settleRejected :
    (∀ (k : Nat) (c d : Chip) (s : Slot) (waiting : HoldSet), slotAt c k = some s →
      d = reportLot s.lot (.bagSettled false) (reportLot s.lot .recordMade c) →
      (∀ before after e, d.ba.decisions = before ++ e :: after → e.slot = some k → (∀ x ∈ before, x.slot ≠ some k) →
        waiting = e.gateReasons) →
      ((∀ x ∈ d.ba.decisions, x.slot ≠ some k) → waiting = 0) →
      (waiting = 0 → settleRejected k c = (handSlot k (modSlot k (fun b => { b with state := .decided }) d)).1) ∧
      (waiting ≠ 0 → settleRejected k c = (handSlot k (modSlot k (fun b => { b with state := .decided })
        (gateReasonToPallet s.lot waiting (gateReasonToSlot k waiting d)))).1)) ∧
    (∀ (k : Nat) (h : HoldSet) (c : Chip), gateReasonToSlot k h c = modSlot k (fun s =>
      { s with hold := s.hold ||| h, record := s.record.map fun r => { r with hold := r.hold ||| h } }) c) ∧
    (∀ (lot : Nat) (h : HoldSet) (c : Chip),
      (∀ id, (lotAt c lot).bind (·.building) = some id → gateReasonToPallet lot h c =
        evalDestination id (modPallet id (fun p => { p with hold := p.hold ||| h }) c)) ∧
      ((lotAt c lot).bind (·.building) = none → gateReasonToPallet lot h c =
        { c with ba := { c.ba with carried := c.ba.carried.modify lot fun g => g ||| h } })) := by
  refine ⟨?_, fun _ _ _ => rfl, ?_⟩
  · intro k c d s waiting hs hd h1 h0
    subst hd
    have w : waitingReasons k (reportLot s.lot (.bagSettled false) (reportLot s.lot .recordMade c)) = waiting := by
      unfold waitingReasons
      split
      · rename_i e he
        obtain ⟨hp, before, after, hl, hb⟩ := List.find?_eq_some_iff_append.mp he
        exact (h1 before after e hl (by simpa [inSlot] using hp) (fun x hx => by simpa [inSlot] using hb x hx)).symm
      · rename_i he
        exact (h0 (by simpa [inSlot] using he)).symm
    simp only [settleRejected, hs]
    rw [w]
    exact ⟨fun q => by rw [if_pos q], fun q => by rw [if_neg q]⟩
  · intro lot h c
    exact ⟨fun id q => by simp only [gateReasonToPallet, q, changePalletHold], fun q => by simp only [gateReasonToPallet, q]⟩

/-- A pallet record is created (R140), and the bags that wait for one (R142). -/
theorem spec_pallets :
    (∀ (lot id : Nat) (c : Chip) (p : Pallet), id = freshId (c.ba.pallets.map (·.id)) 24 c.ba.nextPallet →
      p = { id := id, lot := lot, state := .building, short := false, bags := 0, cases := 0, firstPlace := none,
            lastPlace := none, hold := c.ba.carried.getD lot 0, closeTime := none, exposure := 0, dest := none,
            shuttle := none, reportPending := false, expTime := 0, expTemp := 0, exhausted := false, delDest := none,
            delTime := none, report := .none, revision := 0, serial := 0 } →
      createPallet lot c = (reportLot lot .palletCreated (modLot lot (fun l => { l with building := some id })
        { c with ba := { c.ba with pallets := c.ba.pallets ++ [p], nextPallet := (id + 1) % 65536,
                                   carried := c.ba.carried.modify lot fun _ => 0 } }), id)) ∧
    (∀ c : Chip, palletFull c = true ↔ ∃ b, some b ∈ c.ba.slots ∧ b.state = .palletWait) ∧
    (∀ c : Chip, resumeWaiting c = (slotsInOrder .palletWait c).foldl (fun d k => (tryJoin k d).1) c) ∧
    ∀ (k : Nat) (c : Chip) (s : Slot), slotAt c k = some s →
      (∀ id, (lotAt c s.lot).bind (·.building) = some id → tryJoin k c = (joinPallet k id c, true)) ∧
      ((lotAt c s.lot).bind (·.building) = none → c.ba.pallets.length < 24 →
        tryJoin k c = (joinPallet k (createPallet s.lot c).2 (createPallet s.lot c).1, true)) ∧
      ((lotAt c s.lot).bind (·.building) = none → 24 ≤ c.ba.pallets.length → tryJoin k c = (c, false)) := by
  refine ⟨?_, ?_, fun _ => rfl, ?_⟩
  · intro lot id c p hi hp
    subst hi hp
    rfl
  · intro c
    unfold palletFull
    rw [List.any_eq_true]
    constructor
    · rintro ⟨s, hs, h⟩
      cases s with
      | none => cases h
      | some b => exact ⟨b, hs, by simpa using h⟩
    · rintro ⟨b, hb, h⟩
      exact ⟨some b, hb, by simpa using h⟩
  · intro k c s hs
    refine ⟨?_, ?_, ?_⟩
    · intro id h; simp only [tryJoin, hs, h]
    · intro h l; simp only [tryJoin, hs, h, if_pos l]
    · intro h l; simp only [tryJoin, hs, h, if_neg (Nat.not_lt.mpr l)]

/-- The outcome of a reject gate's start or pulse (R145). -/
theorem spec_bagOutcome :
    ∀ (seq : Nat) (r : Report) (h : HoldSet) (c : Chip),
      (r = .confirmed → h = 0) → (r = .failed → h = HoldReason.gateUnconfirmed.only) →
      (r = .refused → h = HoldReason.gateUnconfirmed.only) → (r = .notSent → h = HoldReason.unverified.only) →
      (newestDecision c seq = none → bagOutcome seq r c =
        { c with ba := { c.ba with strayGate := min (c.ba.strayGate + 1) 65535 } }) ∧
      ∀ e, newestDecision c seq = some e →
        ((r = .confirmed ∨ e.decision = .accepted) → bagOutcome seq r c = c) ∧
        (∀ k, r ≠ .confirmed → e.decision = .gathering → e.slot = some k → bagOutcome seq r c =
          modDecisions (fun d => d.slot == some k) (fun d => { d with gateReasons := d.gateReasons ||| h }) c) ∧
        (e.decision = .rejected → e.lot = none → bagOutcome seq r c = c) ∧
        ∀ lot d, r ≠ .confirmed → e.decision = .rejected → e.lot = some lot →
          (∀ k, e.slot = some k → d = gateReasonToSlot k h c) →
          (∀ p, e.slot = none → e.place = some p → d = amendPlace p (fun g => g ||| h) c) →
          (e.slot = none → e.place = none → d = amendBag lot seq (fun g => g ||| h) c) →
          bagOutcome seq r c = gateReasonToPallet lot h d := by
  intro seq r h c h1 h2 h3 h4
  have hg : h = gateReason r := by cases r <;> simp_all [gateReason]
  have hz : r ≠ .confirmed → gateReason r ≠ 0 := by cases r <;> simp [gateReason, HoldReason.only] <;> decide
  subst hg
  refine ⟨?_, ?_⟩
  · intro n; simp only [bagOutcome, n, inc16]
  · intro e he
    refine ⟨?_, ?_, ?_, ?_⟩
    · rintro (q | q)
      · subst q; simp only [bagOutcome, he, gateReason, if_true]
      · simp only [bagOutcome, he, q, ite_self]
    · intro k q d s
      simp only [bagOutcome, he, if_neg (hz q), d, s]; rfl
    · intro d l
      simp only [bagOutcome, he, d, l, ite_self]
    · intro lot d q dd l s1 s2 s3
      simp only [bagOutcome, he, if_neg (hz q), dd, l]
      congr 1
      cases hs : e.slot with
      | some k => exact (s1 k hs).symm
      | none =>
        cases hp : e.place with
        | some p => exact (s2 p hs hp).symm
        | none => exact (s3 hs hp).symm

/-- A place becomes POISONED (R153 to R155): no rewrite mark, TRACE-FAULT in the index and on a pallet that is not
DELIVERED. -/
theorem spec_poison :
    ∀ (p : Nat) (c d : Chip) (pallet : Option Nat), pallet = (placeAt c p).fields.bind (·.pallet) →
      d = { c with tm := { c.tm with
        places := c.tm.places.modify p (fun e => { state := .poisoned, fields := e.fields.map fun f =>
          { f with hold := f.hold ||| HoldReason.traceFault.only } })
        marks := c.tm.marks.filter (fun x => decide (x ≠ p)) } } →
      (pallet = none → poisonPlace p c = d) ∧
      ∀ id, pallet = some id →
        (palletAt c id = none → poisonPlace p c = d) ∧
        ∀ q, palletAt c id = some q →
          (q.state = .delivered → poisonPlace p c = d) ∧
          (q.state ≠ .delivered → poisonPlace p c = evalDestination id
            (modPallet id (fun x => { x with hold := x.hold ||| HoldReason.traceFault.only }) d)) := by
  intro p c d pallet hp hd
  subst hd
  have e : poisonPlace p c = faultPallet pallet { c with tm := { c.tm with
        places := c.tm.places.modify p (fun e => { state := .poisoned, fields := e.fields.map fun f =>
          { f with hold := f.hold ||| HoldReason.traceFault.only } })
        marks := c.tm.marks.filter (fun x => decide (x ≠ p)) } } := by
    subst hp
    unfold poisonPlace
    cases (placeAt c p).fields <;> rfl
  rw [e]
  refine ⟨?_, ?_⟩
  · intro h; subst h; rfl
  · intro id h
    subst h
    refine ⟨?_, ?_⟩
    · intro n
      have n' : palletAt { c with tm := { c.tm with
        places := c.tm.places.modify p (fun e => { state := .poisoned, fields := e.fields.map fun f =>
          { f with hold := f.hold ||| HoldReason.traceFault.only } })
        marks := c.tm.marks.filter (fun x => decide (x ≠ p)) } } id = none := n
      simp only [faultPallet, n']
    · intro q n
      have n' : palletAt { c with tm := { c.tm with
        places := c.tm.places.modify p (fun e => { state := .poisoned, fields := e.fields.map fun f =>
          { f with hold := f.hold ||| HoldReason.traceFault.only } })
        marks := c.tm.marks.filter (fun x => decide (x ≠ p)) } } id = some q := n
      refine ⟨?_, ?_⟩
      · intro s; simp only [faultPallet, n', if_pos s]
      · intro s; simp only [faultPallet, n', if_neg s]; rfl

/-- Elements of one key keep their order. -/
theorem insertKey_filter {α : Type} (key : α → Nat) (x : α) (k : Nat) : ∀ l : List α,
    l.Pairwise (fun a b => key a ≤ key b) →
    (insertKey key x l).filter (fun a => decide (key a = k)) =
      (l ++ [x]).filter (fun a => decide (key a = k))
  | [], _ => rfl
  | y :: ys, h => by
    have ⟨h1, h2⟩ := List.pairwise_cons.mp h
    unfold insertKey
    split
    · rename_i q
      by_cases e : key x = k
      · have n : (y :: ys).filter (fun a => decide (key a = k)) = [] := by
          rw [List.filter_eq_nil_iff]
          intro b hb
          rcases List.mem_cons.mp hb with rfl | hb
          · simp; omega
          · have := h1 b hb; simp; omega
        rw [List.filter_append, n, List.filter_cons_of_pos (by simpa using e), n]
        simp [e]
      · rw [List.filter_append, List.filter_cons_of_neg (by simpa using e)]
        simp [e]
    · have i := insertKey_filter key x k ys h2
      simp only [List.cons_append, List.filter_cons, i]

theorem sortKey_filter {α : Type} (key : α → Nat) (k : Nat) (l : List α) :
    (sortKey key l).filter (fun a => decide (key a = k)) = l.filter (fun a => decide (key a = k)) := by
  have h : ∀ (l acc : List α), acc.Pairwise (fun a b => key a ≤ key b) →
      (l.foldl (fun acc x => insertKey key x acc) acc).filter (fun a => decide (key a = k)) =
        (acc ++ l).filter (fun a => decide (key a = k)) := by
    intro l
    induction l with
    | nil => intro acc _; simp
    | cons x xs ih =>
      intro acc ha
      rw [List.foldl_cons, ih _ (insertKey_sorted key x acc ha), List.filter_append, insertKey_filter key x k acc ha,
        ← List.filter_append, List.append_assoc]
      rfl
  simpa [sortKey] using h l [] .nil

/-- The reports that wait (R117, R176): the lots in order of finish time, the deliveries in order of delivery time, those of
one time in the order of their table. -/
theorem spec_waitingReports :
    (∀ (c : Chip) (fin : Nat → Nat), (∀ i l, lotAt c i = some l → fin i = l.finishTime.getD 0) →
      (∀ i, i ∈ waitingLots c ↔ i < 8 ∧ ∃ l, lotAt c i = some l ∧ l.report = .waiting) ∧
      (waitingLots c).Nodup ∧ (waitingLots c).Pairwise (fun i j => fin i < fin j ∨ (fin i = fin j ∧ i < j))) ∧
    ∀ c : Chip, ∃ ps : List Pallet, waitingDeliveries c = ps.map (·.id) ∧
      ps.Perm (c.ba.pallets.filter fun p => decide (p.report = .waiting)) ∧
      ps.Pairwise (fun p q => p.delTime.getD 0 ≤ q.delTime.getD 0) ∧
      ∀ t, ps.filter (fun p => decide (p.delTime.getD 0 = t)) =
        c.ba.pallets.filter fun p => decide (p.report = .waiting ∧ p.delTime.getD 0 = t) := by
  refine ⟨?_, ?_⟩
  · intro c fin hf
    obtain ⟨key, w, hk, hm, hw⟩ : ∃ (key : Nat → Nat) (w : Nat → Bool),
        (∀ i l, lotAt c i = some l → key i = l.finishTime.getD 0) ∧
        (∀ i, w i = true ↔ ∃ l, lotAt c i = some l ∧ l.report = .waiting) ∧
        waitingLots c = sortKey key ((List.range 8).filter w) := by
      refine ⟨_, _, fun i l h => ?_, fun i => ?_, rfl⟩
      · simp only [h]
      · cases h : lotAt c i <;> simp
    rw [hw]
    obtain ⟨p, q⟩ := sortKey_spec key ((List.range 8).filter w)
    have m : ∀ i, i ∈ sortKey key ((List.range 8).filter w) ↔ i < 8 ∧ ∃ l, lotAt c i = some l ∧ l.report = .waiting := by
      intro i
      rw [p.mem_iff, List.mem_filter, List.mem_range, hm]
    refine ⟨m, p.nodup_iff.mpr (List.nodup_range.filter _), ?_⟩
    have e : ∀ i ∈ sortKey key ((List.range 8).filter w), key i = fin i := by
      intro i hi
      obtain ⟨_, l, hl, _⟩ := (m i).mp hi
      rw [hk i l hl, hf i l hl]
    have s : ∀ k, ((sortKey key ((List.range 8).filter w)).filter fun i => decide (key i = k)).Pairwise (· < ·) := by
      intro k
      rw [sortKey_filter]
      exact (List.pairwise_lt_range.filter _).filter _
    rw [List.pairwise_iff_forall_sublist] at q ⊢
    intro a b hab
    have ha := hab.subset (by simp : a ∈ [a, b])
    have hb := hab.subset (by simp : b ∈ [a, b])
    have le := q hab
    rw [← e a ha, ← e b hb]
    rcases Nat.lt_or_eq_of_le le with lt | eq
    · exact .inl lt
    · refine .inr ⟨eq, ?_⟩
      have f := hab.filter fun i => decide (key i = key a)
      rw [List.filter_eq_self.mpr (by simp [eq])] at f
      exact (List.pairwise_iff_forall_sublist.mp (s (key a))) f
  · intro c
    refine ⟨_, rfl, ?_, (sortKey_spec _ _).2, ?_⟩
    · refine (sortKey_spec _ _).1.trans (.of_eq ?_)
      congr 1
    · intro t
      rw [sortKey_filter, List.filter_filter]
      congr 1
      funext p
      cases p.report <;> simp [Bool.and_comm]

/-- The record of a bag (R143), its bytes (R207), and the BAG-MADE starts of a bag (R44, R128, R145). -/
theorem spec_bagRecord :
    (∀ (s : Slot) (rejected : Bool) (reasons : Byte) (c : Chip) (number : Word),
      (∀ l, lotAt c s.lot = some l → number = l.number) → (lotAt c s.lot = none → number = 0) →
      makeRecord s rejected reasons c =
        { seq := s.seq, lot := s.lot, lotNumber := number, made := s.madeLine, epoch := c.rp.epoch,
          epochPresent := c.rp.epochPresent,
          net := s.weight.map fun w => (w : Int) - ((recipeOfLot c s.lot).tare : Nat),
          codeFail := s.codeFail, metalFail := s.metalFail, rejected := rejected, reasons := reasons, draws := s.draws,
          hold := s.hold, pallet := none }) ∧
    ∀ (seq : Nat) (c : Chip) (start : Nat → Chip → Chip),
      (∀ n d, (triggerOf (trackChan d n) ≠ some .bagMade → start n d = d) ∧
        (triggerOf (trackChan d n) = some .bagMade → ∀ e,
          (startNow n { point := channelPos d n, served := some (.bag seq) } d = (e, true) → start n d = e) ∧
          (startNow n { point := channelPos d n, served := some (.bag seq) } d = (e, false) →
            start n d = bagOutcome seq .refused e))) →
      issueBagStarts seq c = (List.range 8).foldl (fun d n => start n d) c := by
  refine ⟨?_, ?_⟩
  · intro s rejected reasons c number hn h0
    cases h : lotAt c s.lot with
    | none => rw [h0 h]; simp only [makeRecord, h]
    | some l => rw [hn l h]; simp only [makeRecord, h]
  · intro seq c start h
    unfold issueBagStarts
    congr 1
    funext d n
    obtain ⟨a, b⟩ := h n d
    split
    · rename_i t
      obtain ⟨b1, b2⟩ := b t (startNow n { point := channelPos d n, served := some (.bag seq) } d).1
      cases q : startNow n { point := channelPos d n, served := some (.bag seq) } d with
      | mk e x =>
        rw [q] at b1 b2
        cases x with
        | true => exact (b1 rfl).symm
        | false => exact (b2 rfl).symm
    · rename_i t; exact (a t).symm

/-- The 64 bytes of a bag record in the layout of R207: word by word, most significant byte first. -/
theorem spec_recordBytes :
    (∀ n : Nat, beBytes n 0 = [] ∧ ∀ k, beBytes n (k + 1) = BitVec.ofNat 8 (n / 256 ^ k) :: beBytes n k) ∧
    ∀ (r : BagRecord) (flag : Nat → Bool → Nat) (flags net : Nat) (draw : Nat → List Byte),
      (∀ k, flag k true = 2 ^ k ∧ flag k false = 0) →
      flags = flag 0 r.rejected + flag 1 r.net.isSome + flag 2 r.codeFail.isSome + flag 3 r.metalFail.isSome +
        flag 4 r.pallet.isSome + flag 5 r.epochPresent + flag 6 (r.codeFail.getD false) +
        flag 7 (r.metalFail.getD false) →
      (r.net.getD 0 % 16777216 = net) →
      (∀ i d, r.draws[i]? = some d → draw i = beBytes d.segment 2 ++ beBytes d.grams 3) →
      (∀ i, r.draws[i]? = none → draw i = [0, 0, 0, 0, 0]) →
      r.bytes = beBytes r.seq 2 ++ beBytes r.lotNumber.toNat 4 ++ [BitVec.ofNat 8 flags, r.reasons] ++
        (beBytes r.made 4 ++ beBytes r.epoch.toNat 4) ++
        (beBytes net 3 ++ beBytes r.hold.toNat 2 ++ beBytes (r.pallet.getD 0) 2 ++ beBytes r.draws.length 1) ++
        (draw 0 ++ draw 1 ++ draw 2 ++ draw 3 ++ draw 4 ++ draw 5 ++ draw 6 ++ draw 7) := by
  refine ⟨fun n => ⟨rfl, fun _ => rfl⟩, ?_⟩
  intro r flag flags net draw hf hflags hnet hd hn
  have m : ∀ k b, maskBit k b = flag k b := by
    intro k b; cases b
    · exact (hf k).2.symm
    · exact (hf k).1.symm
  have n : (BitVec.ofInt 24 (r.net.getD 0)).toNat = net := by
    rw [BitVec.toNat_ofInt]
    have : ((2 ^ 24 : Nat) : Int) = 16777216 := by norm_num
    rw [this, hnet]; rfl
  obtain ⟨g, hg, hb⟩ : ∃ g : Nat → List Byte, (∀ i, g i = draw i) ∧
      r.bytes = beBytes r.seq 2 ++ beBytes r.lotNumber.toNat 4 ++ [BitVec.ofNat 8 flags, r.reasons]
        ++ beBytes r.made 4 ++ beBytes r.epoch.toNat 4 ++ beBytes net 3 ++ beBytes r.hold.toNat 2
        ++ beBytes (r.pallet.getD 0) 2 ++ beBytes r.draws.length 1 ++ (List.range 8).flatMap g := by
    refine ⟨_, fun i => ?_, by simp only [BagRecord.bytes, m, n, ← hflags] <;> rfl⟩
    cases h : r.draws[i]? with
    | none => exact (hn i h).symm
    | some d => exact (hd i d h).symm
  rw [hb, show g = draw from funext hg]
  simp [List.range_succ, List.flatMap_append, List.append_assoc]

end Sys2Proof.Machine
end

