-- ==== Sys2Proof/Laws/ChannelSpecs.lean ====
section
/-! SUPPORT. What the track channels' operations do, case by case: one lemma for each clause of the statement on starts,
fires, closes, markers, captures and cuts. -/

namespace Sys2Proof.Machine

theorem modTrack_modTrack (n : Nat) (f g : TrackDyn → TrackDyn) (c : Chip) :
    modTrack n f (modTrack n g c) = modTrack n (fun d => f (g d)) c := by
  simp [modTrack, List.modify_modify_eq, Function.comp_def]

/-- A change that reads the channel's own dynamic part may read it beforehand. -/
theorem modTrack_at (n : Nat) (f : TrackDyn → TrackDyn → TrackDyn) (c : Chip) :
    modTrack n (fun d => f d d) c = modTrack n (f (trackChan c n).dyn) c := by
  have h : c.tc.chans.modify n (fun k => { k with dyn := f k.dyn k.dyn }) =
      c.tc.chans.modify n (fun k => { k with dyn := f (trackChan c n).dyn k.dyn }) := by
    apply List.ext_getElem? ; intro i
    simp only [List.getElem?_modify]
    split <;> simp_all [trackChan]
    rename_i e; subst e
    cases c.tc.chans[n]? <;> simp
  simp only [modTrack, h]

theorem trackChan_modTrack_cfg (n m : Nat) (f : TrackDyn → TrackDyn) (c : Chip) :
    (trackChan (modTrack n f c) m).cfg = (trackChan c m).cfg := by
  simp only [trackChan, modTrack, List.getD_eq_getElem?_getD, List.getElem?_modify]
  split
  · cases c.tc.chans[m]? <;> simp
  · simp

/-- Starts (R44, R48). -/
theorem spec_starts :
    ∀ (n : Nat) (st : Start) (c : Chip) (k : TrackChan), k = trackChan c n →
      ∀ (takes : Prop) (taken refused : Chip),
      (takes ↔ (k.cfg.mode = .delay ∨ k.cfg.mode = .gate) ∧
        (k.dyn.state = .armed ∨ k.dyn.state = .delaying ∨ k.dyn.state = .opened)) →
      taken = modTrack n (fun d => { d with
        pend := d.pend ++ [st], state := if d.state = .armed then .delaying else d.state }) c →
      refused = modTrack n (fun d => { d with refused := min (d.refused + 1) 65535 }) c →
      (¬ takes → enterStart n st c = (refused, false)) ∧
      (takes → k.cfg.policy = .ignore → k.dyn.state = .armed → enterStart n st c = (taken, true)) ∧
      (takes → k.cfg.policy = .ignore → k.dyn.state ≠ .armed → enterStart n st c = (refused, false)) ∧
      (takes → k.cfg.policy = .restart → enterStart n st c =
        (reportAll .refused (k.dyn.pend.filterMap (·.served)) (modTrack n (fun d => { d with
          pend := [st], state := if d.state = .armed then .delaying else d.state }) c), true)) ∧
      (takes → k.cfg.policy = .queue → k.dyn.pend.length < 8 → enterStart n st c = (taken, true)) ∧
      (takes → k.cfg.policy = .queue → 8 ≤ k.dyn.pend.length → enterStart n st c = (refused, false)) := by
  intro n st c k hk takes taken refused ht h1 h2
  subst hk h1 h2
  have e : takesStarts (trackChan c n) = true ↔ takes := by
    rw [ht]; simp [takesStarts, or_assoc]
  refine ⟨?_, ?_, ?_, ?_, ?_, ?_⟩ <;> intro t <;> simp only [← e] at t <;> intros <;>
    simp_all [enterStart, pushStart, refuseStart, inc16, modTrack_modTrack]

/-- A start that is taken and whose fire point is reached at once is handled in the same event (R44). -/
theorem spec_startNow :
    ∀ (n : Nat) (st : Start) (c d : Chip), n < 8 →
      (enterStart n st c = (d, false) → startNow n st c = (d, false)) ∧
      (enterStart n st c = (d, true) →
        (reached (channelPos d n) (st.point + BitVec.ofNat 32 (trackChan d n).cfg.delay) = true →
          startNow n st c = (handleSlaves 8 n (handleChannel n d), true)) ∧
        (reached (channelPos d n) (st.point + BitVec.ofNat 32 (trackChan d n).cfg.delay) = false →
          startNow n st c = (d, true))) := by
  intro n st c d h
  refine ⟨?_, ?_⟩ <;> intro e <;> simp [startNow, e, settleStart, h]
  constructor <;> intro r <;> simp [r]

/-- The fire event (R46). -/
theorem spec_fireEvent :
    ∀ (n : Nat) (point : Word) (c : Chip),
      fireEvent n point c = (List.range 8).foldl (fun d m =>
        if triggerOf (trackChan d m) = some (.master n) then (enterStart m { point := point, served := none } d).1 else d)
        (modTrack n (fun d => { d with fires := (d.fires + 1) % 65536 }) c) := fun _ _ _ => rfl

/-- The due points of a channel (R42, R48, R49). -/
theorem spec_duePoints :
    ∀ (n : Nat) (c : Chip) (k : TrackChan), k = trackChan c n →
      (∀ st fp, dueFire c n = some (st, fp) ↔
        (k.cfg.mode = .delay ∨ k.cfg.mode = .gate) ∧
        (k.dyn.state = .armed ∨ k.dyn.state = .delaying ∨ k.dyn.state = .opened) ∧ k.dyn.pend.head? = some st ∧
        fp = st.point + BitVec.ofNat 32 k.cfg.delay ∧ reached (channelPos c n) fp = true) ∧
      (∀ ce, dueClose c n = some ce ↔
        k.cfg.mode = .gate ∧ k.dyn.state = .opened ∧ ce = k.dyn.onEnd ∧ reached (channelPos c n) ce = true) ∧
      ∀ fuel,
        (dueFire c n = none → dueClose c n = none → handlePoints n (fuel + 1) c = c) ∧
        (∀ st fp, dueFire c n = some (st, fp) →
          (∀ ce, dueClose c n = some ce → (channelPos c n - ce).toNat ≤ (channelPos c n - fp).toNat) →
          handlePoints n (fuel + 1) c = handlePoints n fuel (fireStart n st fp c)) ∧
        (∀ ce, dueClose c n = some ce →
          (∀ st fp, dueFire c n = some (st, fp) → (channelPos c n - fp).toNat < (channelPos c n - ce).toNat) →
          handlePoints n (fuel + 1) c = handlePoints n fuel (closeGate n c)) := by
  intro n c k hk
  subst hk
  refine ⟨?_, ?_, ?_⟩
  · intro st fp
    simp only [dueFire]
    cases h : (trackChan c n).dyn.pend with
    | nil => simp
    | cons a l =>
      dsimp only
      rw [Option.ite_none_right_eq_some, takesStarts]
      simp only [Bool.and_eq_true, Bool.or_eq_true, beq_iff_eq, Option.some.injEq, Prod.mk.injEq, List.head?_cons,
        or_assoc]
      constructor
      · rintro ⟨⟨⟨a1, a2⟩, a3⟩, rfl, rfl⟩
        exact ⟨a1, a2, rfl, rfl, a3⟩
      · rintro ⟨a1, a2, rfl, rfl, a5⟩
        exact ⟨⟨⟨a1, a2⟩, a5⟩, rfl, rfl⟩
  · intro ce
    simp only [dueClose]
    split <;> simp_all
    · constructor
      · rintro rfl; simp_all
      · rintro ⟨h, _⟩; exact h.symm
  · intro fuel
    refine ⟨?_, ?_, ?_⟩
    · intro a b; simp [handlePoints, a, b]
    · intro st fp a b
      cases h : dueClose c n with
      | none => simp [handlePoints, a, h]
      | some ce => simp only [handlePoints, a, h, if_pos (b ce h)]
    · intro ce a b
      cases h : dueFire c n with
      | none => simp [handlePoints, a, h]
      | some x =>
        obtain ⟨st, fp⟩ := x
        have := b st fp h
        have q : ¬ (channelPos c n - ce).toNat ≤ (channelPos c n - fp).toNat := by omega
        simp only [handlePoints, a, h, if_neg q]

/-- The fire of a start (R48 to R50). -/
theorem spec_fires :
    ∀ (n : Nat) (st : Start) (point : Word) (c c0 : Chip) (k : TrackChan),
      c0 = modTrack n (fun d => { d with
        pend := d.pend.tail
        state := if d.state = .opened then .opened else if d.pend.tail.isEmpty then .armed else .delaying }) c →
      k = trackChan c n →
      (k.cfg.mode = .delay → ∀ d, d = fireEvent n point c0 →
        ((trackChan d n).cfg.output = none → fireStart n st point c = d) ∧
        ∀ o e out, (trackChan d n).cfg.output = some o →
          sendValue n o.key o.onValue (.channel n) (some d.tc.nextToken) o.timeout
            { d with tc := { d.tc with nextToken := d.tc.nextToken + 1 } } = (e, out) →
          (∀ r, out.report? = some r → fireStart n st point c = reportAll r st.served.toList e) ∧
          (out = .pending → fireStart n st point c = modTrack n (fun x => { x with awaiting := x.awaiting ++
            [{ served := st.served.toList, outcome := .pending, token := d.tc.nextToken }] }) e)) ∧
      (k.cfg.mode = .gate → (k.cfg.cond = .always ∨ ∀ seq, st.served ≠ some (.bag seq)) →
        fireStart n st point c = fireGate n st point (fireEvent n point c0)) ∧
      (k.cfg.mode = .gate → k.cfg.cond = .bagNotAccepted → ∀ seq d, st.served = some (.bag seq) →
        (fireCheck seq c0 = (d, true) →
          fireStart n st point c = modTrack n (fun x => { x with skipped := min (x.skipped + 1) 65535 }) d) ∧
        (fireCheck seq c0 = (d, false) → fireStart n st point c = fireGate n st point (fireEvent n point d))) := by
  intro n st point c c0 k h0 hk
  subst hk
  have e0 : popStart n c = c0 := by subst h0; rfl
  refine ⟨?_, ?_, ?_⟩
  · intro m d hd
    have e1 : fireStart n st point c = fireDelay n st d := by
      simp only [fireStart, e0, m, ← hd]
    clear hd
    refine ⟨?_, ?_⟩
    · intro o; simp only [e1, fireDelay, o]
    · intro o e out ho hs
      have hc : (trackChan (takeToken d).1 n).cfg.output = some o := ho
      have hx : sendOutput n true (some (takeToken d).2) (takeToken d).1 = (e, out) := by
        simp only [sendOutput, hc]; exact hs
      constructor
      · intro r hr; simp only [e1, fireDelay, ho, hx, hr]
      · rintro rfl
        simp only [e1, fireDelay, ho, hx, Outcome4.report?]; rfl
  · intro m h
    simp only [fireStart, e0, m]
    by_cases q : (trackChan c n).cfg.cond = .bagNotAccepted
    · simp only [q, if_true]
      rcases h with h | h
      · exact absurd (q.symm.trans h) (by decide)
      · cases hs : st.served with
        | none => rfl
        | some s =>
          cases s with
          | segment id => rfl
          | bag seq => exact absurd hs (h seq)
    · simp only [if_neg q]
  · intro m q seq d hs
    constructor <;> intro hf <;> simp only [fireStart, e0, m, q, hs, hf, if_true, inc16]

/-- The gate (R49, R54). -/
theorem spec_gate :
    ∀ (n : Nat) (st : Start) (point : Word) (c : Chip) (k : TrackChan) (close : Word), k = trackChan c n →
      close = point + BitVec.ofNat 32 k.cfg.width →
      (k.dyn.state = .opened → ∀ d, d = modTrack n (fun x => { x with
          onEnd := if reached close x.onEnd = true then close else x.onEnd }) c →
        (st.served = none → fireGate n st point c = d) ∧
        ∀ s p, st.served = some s → k.dyn.pulse = some p →
          (∀ r, p.outcome.report? = some r → fireGate n st point c = reportServed r d s) ∧
          (p.outcome = .pending → s ∈ p.served → fireGate n st point c = d) ∧
          (p.outcome = .pending → s ∉ p.served → p.served.length < 16 → fireGate n st point c =
            modTrack n (fun x => { x with pulse := some { p with served := p.served ++ [s] } }) d) ∧
          (p.outcome = .pending → s ∉ p.served → 16 ≤ p.served.length →
            fireGate n st point c = reportServed .failed d s)) ∧
      (k.dyn.state ≠ .opened → ∀ earlier d e out,
        (∀ p, k.dyn.pulse = some p → p.outcome = .pending → earlier = [p]) →
        ((∀ p, k.dyn.pulse = some p → p.outcome ≠ .pending) → earlier = []) →
        d = modTrack n (fun x => { x with
            state := .opened, onEnd := close, awaiting := x.awaiting ++ earlier,
            pulse := some { served := st.served.toList, outcome := .pending, token := c.tc.nextToken } })
          { c with tc := { c.tc with nextToken := c.tc.nextToken + 1 } } →
        sendOutput n true (some c.tc.nextToken) d = (e, out) → fireGate n st point c = settlePulse n out e) := by
  intro n st point c k close hk hc
  subst hk hc
  refine ⟨?_, ?_⟩
  · intro ho d hd
    have hp : (trackChan d n).dyn.pulse = (trackChan c n).dyn.pulse := by
      subst hd
      simp only [trackChan, modTrack, List.getD_eq_getElem?_getD, List.getElem?_modify]
      cases c.tc.chans[n]? <;> simp
    have e : fireGate n st point c = (match st.served with | some s => joinPulse n s d | none => d) := by
      simp only [fireGate, ho, if_true, hd]; rfl
    refine ⟨?_, ?_⟩
    · intro hs; simp only [e, hs]
    · intro s p hs h
      have h' : (trackChan d n).dyn.pulse = some p := hp.trans h
      simp only [e, hs]
      refine ⟨?_, ?_, ?_, ?_⟩
      · intro r hr; simp only [joinPulse, h', hr]
      · intro q hm; simp [joinPulse, h', q, Outcome4.report?, hm]
      · intro q hm hl; simp [joinPulse, h', q, Outcome4.report?, hm, hl]
      · intro q hm hl
        have : ¬ p.served.length < 16 := by omega
        simp [joinPulse, h', q, Outcome4.report?, hm, this]
  · intro ho earlier d e out h1 h2 hd hs
    have hf : fireGate n st point c =
        (match sendOutput n true (some c.tc.nextToken) d with | (c2, o) => settlePulse n o c2) := by
      subst hd
      cases hp : (trackChan c n).dyn.pulse with
      | none =>
        cases h2 (by simp [hp])
        simp only [fireGate, if_neg ho, hp]; rfl
      | some p =>
        by_cases q : p.outcome = .pending
        · cases h1 p hp q
          simp only [fireGate, if_neg ho, hp, if_pos q]; rfl
        · cases h2 (by simp_all)
          simp only [fireGate, if_neg ho, hp, if_neg q]; rfl
    rw [hf, hs]

/-- The outcome of the value a gate pulse serves (R53, R54). -/
theorem spec_pulseOutcome :
    ∀ (n : Nat) (o : Outcome4) (c : Chip) (p : Pulse), (trackChan c n).dyn.pulse = some p →
      (∀ r, o.report? = some r → settlePulse n o c =
        reportAll r p.served (modTrack n (fun d => { d with pulse := some { p with outcome := o, served := [] } }) c)) ∧
      (o = .pending → settlePulse n o c =
        modTrack n (fun d => { d with pulse := some { p with outcome := .pending } }) c) := by
  intro n o c p h
  cases o <;> simp [settlePulse, h, Outcome4.report?]

/-- A report goes to the issuer of each served record (R54); an output's value is handed for sending (R53). -/
theorem spec_reports :
    (∀ (r : Report) (l : List Served) (c : Chip), reportAll r l c = l.foldl (fun d s => match s with
      | .segment id => segmentOutcome id r d
      | .bag seq => bagOutcome seq r d) c) ∧
    ∀ (n : Nat) (on : Bool) (serves : Option Nat) (c : Chip) (o : Output), (trackChan c n).cfg.output = some o →
      sendOutput n on serves c =
        sendValue n o.key (if on = true then o.onValue else o.offValue) (.channel n) serves o.timeout c := by
  refine ⟨fun r l c => ?_, fun n on serves c o h => by simp only [sendOutput, h]⟩
  have : (fun acc s => reportServed r acc s) = (fun d s => match s with
      | Served.segment id => segmentOutcome id r d
      | Served.bag seq => bagOutcome seq r d) := by
    funext d s; cases s <;> rfl
  simp only [reportAll, this]

/-- Without an output nothing is sent (log entry 14). -/
theorem spec_sendNone :
    ∀ (n : Nat) (on : Bool) (serves : Option Nat) (c : Chip), (trackChan c n).cfg.output = none →
      sendOutput n on serves c = (c, .notSent) := by
  intro n on serves c h
  simp only [sendOutput, h]

/-- The close of a gate (R49): the state, and the off-value where the channel has an output. -/
theorem spec_close :
    ∀ (n : Nat) (c d : Chip),
      d = modTrack n (fun e => { e with state := if e.pend.isEmpty then .armed else .delaying }) c →
      (∀ o, (trackChan c n).cfg.output = some o →
        closeGate n c = (sendValue n o.key o.offValue (.channel n) none o.timeout d).1) ∧
      ((trackChan c n).cfg.output = none → closeGate n c = d) := by
  rintro n c d rfl
  refine ⟨fun o h => ?_, fun h => ?_⟩ <;> simp [closeGate, sendOutput, trackChan_modTrack_cfg, h]

/-- Marker items (R45). -/
theorem spec_markers :
    ∀ (n : Nat) (edge : Edge) (level : Bool) (c c1 : Chip) (d : TrackDyn), d = (trackChan c n).dyn →
      c1 = modTrack n (fun e => { e with
        lastLevel := some level, filtered := if d.lastLevel = some level then some level else e.filtered }) c →
      ∀ (recognised : Prop),
      (recognised ↔ d.lastLevel = some level ∧ d.filtered = some (!level) ∧ d.state ≠ .stopped ∧
        (level = true → edge ≠ .falling) ∧ (level = false → edge ≠ .rising)) →
      (¬ recognised → markerChannel n edge level c = c1) ∧
      (recognised → (trackChan c n).cfg.mode = .capture → markerChannel n edge level c = captureAt n c1) ∧
      (recognised → (trackChan c n).cfg.mode ≠ .capture →
        markerChannel n edge level c = (startNow n { point := channelPos c1 n, served := none } c1).1) := by
  intro n edge level c c1 d hd h1 rec hr
  have key : ((d.lastLevel == some level && (match d.filtered with | some f => f != level | none => false)) &&
      edgeMatches edge level && d.state != .stopped) = true ↔ rec := by
    rw [hr]
    cases hf : d.filtered with
    | none => simp
    | some f => cases edge <;> cases level <;> cases f <;> simp [edgeMatches]
  have hc : c1 = modTrack n (fun e => { e with
      lastLevel := some level, filtered := if (d.lastLevel == some level) = true then some level else e.filtered }) c := by
    simpa using h1
  subst hd
  classical
  have e : markerChannel n edge level c = if rec then (match (trackChan c n).cfg.mode with
      | .capture => captureAt n c1
      | _ => (startNow n { point := channelPos c1 n, served := none } c1).1) else c1 := by
    simp only [markerChannel, ← hc]
    exact if_congr key rfl rfl
  refine ⟨?_, ?_, ?_⟩
  · intro h; rw [e, if_neg h]
  · intro h m; rw [e, if_pos h, m]
  · intro h m; rw [e, if_pos h]
    split <;> simp_all

/-- Captures (R51). -/
theorem spec_captures :
    ∀ (n : Nat) (c : Chip) (r : Capture) (pos : Word) (now : Captured), r = (trackChan c n).dyn.capture →
      pos = channelPos c n → now = { point := pos, line := c.clock.line, ms := c.clock.ms } →
      (∀ l, r.span = true → r.last = some l → captureAt n c = handleSlaves 8 n (fireEvent n pos
        (modTrack n (fun d => { d with capture :=
          { last := some now, prev := some l, counts := some (min (pos - l.point).toNat 65535),
            interval := some (c.clock.ms - l.ms), overflow := decide (65535 < (pos - l.point).toNat), span := true } })
          c))) ∧
      ((r.span = false ∨ r.last = none) → captureAt n c = handleSlaves 8 n (fireEvent n pos
        (modTrack n (fun d => { d with capture :=
          { last := some now, prev := r.last, counts := none, interval := none, overflow := false, span := true } })
          c))) := by
  intro n c r pos now hr hp hn
  subst hr hp hn
  refine ⟨?_, ?_⟩
  · intro l h1 h2
    simp only [captureAt]
    rw [modTrack_at n (fun x d => { d with capture := _ })]
    simp only [h1, h2]
  · intro h
    simp only [captureAt]
    rw [modTrack_at n (fun x d => { d with capture := _ })]
    rcases h with h | h
    · simp only [h]
    · simp only [h]
      cases (trackChan c n).dyn.capture.span <;> rfl

/-- CUT channels (R47). -/
theorem spec_cutChannels :
    (∀ (n delta : Nat) (c : Chip) (k : TrackChan), k = trackChan c n →
      (k.cfg.mode ≠ .cut ∨ k.dyn.state ≠ .running → advanceCut n delta c = c) ∧
      (k.cfg.mode = .cut → k.dyn.state = .running → 0 < k.cfg.length → ∀ total, total = k.dyn.remainder + delta →
        advanceCut n delta c = fireCuts n k.cfg.length (total / k.cfg.length) (total - k.cfg.length)
          (modTrack n (fun d => { d with remainder := total % k.cfg.length }) c))) ∧
    (∀ (n length left : Nat) (c : Chip), fireCuts n length 0 left c = c) ∧
    ∀ (n length fires left : Nat) (c d : Chip),
      (c.st.blanch.written = true → c.st.chill.written = true → c.st.freeze.written = true →
        c.st.blanch.cutChannel = n → d = cut n left c) →
      (c.st.blanch.written = false ∨ c.st.chill.written = false ∨ c.st.freeze.written = false ∨
        c.st.blanch.cutChannel ≠ n → d = c) →
      fireCuts n length (fires + 1) left c =
        fireCuts n length fires (left - length) (fireEvent n (channelPos c n - BitVec.ofNat 32 left) d) := by
  refine ⟨?_, fun _ _ _ _ => rfl, ?_⟩
  · intro n delta c k hk
    subst hk
    refine ⟨?_, ?_⟩
    · intro h
      have : ¬ ((trackChan c n).cfg.mode = .cut ∧ (trackChan c n).dyn.state = .running ∧ 0 < (trackChan c n).cfg.length) := by
        tauto
      simp only [advanceCut, if_neg this]
    · intro a b l total ht
      subst ht
      simp only [advanceCut, a, b, l, and_self, if_true]
  · intro n length fires left c d h1 h2
    have : (if geometryValid c.st = true ∧ c.st.blanch.cutChannel = n then cut n left c else c) = d := by
      by_cases a : c.st.blanch.written = true <;> by_cases b : c.st.chill.written = true <;>
        by_cases e : c.st.freeze.written = true <;> by_cases f : c.st.blanch.cutChannel = n <;>
        simp_all [geometryValid]
    simp only [fireCuts, this]

/-- Points on the millisecond sources (R42, R47): what is due, and the fires of an INTERVAL channel. -/
theorem spec_milliseconds :
    (∀ c : Chip, millisecondDue c = true ↔ ∃ n, n < 8 ∧ (trackChan c n).cfg.source = .milliseconds ∧
      (0 < dueIntervals c n ∨ dueFire c n ≠ none ∨ dueClose c n ≠ none)) ∧
    (∀ c : Chip, handleMilliseconds c = (List.range 8).foldl (fun d n =>
      if (trackChan d n).cfg.source = .milliseconds
      then handlePoints n 18 (fireIntervals n (dueIntervals d n) d) else d) c) ∧
    (∀ (n : Nat) (c : Chip) (k : TrackChan) (due : Prop), k = trackChan c n →
      (due ↔ k.cfg.mode = .interval ∧ k.dyn.state = .running ∧ 0 < k.cfg.length ∧
        reached c.clock.ms k.dyn.nextFire = true) →
      (¬ due → dueIntervals c n = 0) ∧
      (due → dueIntervals c n = (c.clock.ms - k.dyn.nextFire).toNat / k.cfg.length + 1)) ∧
    ∀ (n fires : Nat) (c : Chip),
      fireIntervals n 0 c = c ∧
      fireIntervals n (fires + 1) c = fireIntervals n fires (fireEvent n (trackChan c n).dyn.nextFire
        (modTrack n (fun d => { d with nextFire := d.nextFire + BitVec.ofNat 32 (trackChan c n).cfg.length }) c)) := by
  refine ⟨?_, fun _ => rfl, ?_, fun _ _ _ => ⟨rfl, rfl⟩⟩
  · intro c
    simp [millisecondDue, Option.isSome_iff_ne_none, or_assoc]
  · intro n c k due hk hd
    subst hk
    exact ⟨fun h => if_neg fun q => h (hd.mpr q), fun h => if_pos (hd.mp h)⟩

/-- Slaves (R46): the channels behind a channel, on its source and with trigger MASTER, handle their reached points. -/
theorem spec_handleSlaves :
    (∀ (limit n : Nat) (c : Chip), handleSlaves limit n c = (List.range limit).foldl (fun d m =>
      if n < m ∧ isSlave (trackChan d m) = true ∧ (trackChan d m).cfg.source = (trackChan d n).cfg.source
      then handlePoints m 18 d else d) c) ∧
    (∀ k : TrackChan, isSlave k = true ↔ ∃ m, triggerOf k = some (.master m)) ∧
    ∀ k : TrackChan, triggerOf k = if k.cfg.mode = .off then none else some k.cfg.trigger := by
  refine ⟨fun _ _ _ => rfl, ?_, fun _ => rfl⟩
  intro k
  unfold isSlave
  split <;> simp_all

/-- An accepted MARKER item reaches the channels that name its intake channel, in number order (R45; log entry 8). -/
theorem spec_markerItem :
    ∀ (m : Nat) (level : Bool) (c : Chip) (take : Nat → Chip → Chip),
      (∀ n d, (∀ e, triggerOf (trackChan d n) = some (.marker m e) → take n d = markerChannel n e level d) ∧
        ((∀ e, triggerOf (trackChan d n) ≠ some (.marker m e)) → take n d = d)) →
      markerItem m level c = (List.range 8).foldl (fun d n => take n d) c := by
  intro m level c take h
  unfold markerItem
  congr 1
  funext d n
  obtain ⟨a, b⟩ := h n d
  split
  · rename_i ch e t
    split
    · rename_i q; subst q; exact (a e t).symm
    · rename_i q
      refine (b fun f u => q ?_).symm
      rw [t] at u; cases u; rfl
  · rename_i t
    exact (b fun e u => t m e u).symm

/-- The fire check (R50, R137): the newest entry of the decision list with the bag's number. -/
theorem spec_fireCheck :
    (∀ (seq : Nat) (c : Chip),
      ((∀ e ∈ c.ba.decisions, e.seq ≠ seq) → newestDecision c seq = none) ∧
      ∀ before after e, c.ba.decisions = before ++ e :: after → e.seq = seq → (∀ x ∈ after, x.seq ≠ seq) →
        newestDecision c seq = some e) ∧
    ∀ (seq : Nat) (c : Chip),
      (newestDecision c seq = none → fireCheck seq c = (c, false)) ∧
      ∀ e, newestDecision c seq = some e →
        (e.decision = .accepted → fireCheck seq c = (c, true)) ∧
        (e.decision = .rejected → fireCheck seq c = (c, false)) ∧
        ∀ k, e.decision = .gathering → e.slot = some k →
          ((∃ x, newestDecision (decideBag k c) seq = some x ∧ x.decision = .accepted) →
            fireCheck seq c = (decideBag k c, true)) ∧
          ((∀ x, newestDecision (decideBag k c) seq = some x → x.decision ≠ .accepted) →
            fireCheck seq c = (decideBag k c, false)) := by
  refine ⟨?_, ?_⟩
  · intro seq c
    refine ⟨?_, ?_⟩
    · intro h
      simp only [newestDecision, List.find?_eq_none, List.mem_reverse, beq_iff_eq]
      exact h
    · intro before after e h hs ha
      simp only [newestDecision, h, List.reverse_append, List.reverse_cons, List.append_assoc, List.find?_append]
      rw [List.find?_eq_none.mpr (by simpa using ha)]
      simp [hs]
  · intro seq c
    refine ⟨?_, ?_⟩
    · intro h; simp only [fireCheck, h]
    · intro e h
      refine ⟨?_, ?_, ?_⟩
      · intro d; simp only [fireCheck, h, d]
      · intro d; simp only [fireCheck, h, d]
      · intro k d s
        refine ⟨?_, ?_⟩
        · rintro ⟨x, hx, q⟩
          simp only [fireCheck, h, d, s, hx, q]; rfl
        · intro q
          simp only [fireCheck, h, d, s, Prod.mk.injEq, true_and]
          split
          · rename_i x hx; simpa using q x hx
          · rfl

/-- A command start (R43, R44): OK where it is taken, NO-ROOM where the retrigger policy refuses it. -/
theorem spec_commandStart :
    ∀ (n : Nat) (c d : Chip) (st : Start), n < 8 → st = { point := channelPos c n, served := none } →
      (enterStart n st c = (d, false) → commandStart n c = (d, .noRoom)) ∧
      (enterStart n st c = (d, true) →
        (reached (channelPos d n) (st.point + BitVec.ofNat 32 (trackChan d n).cfg.delay) = true →
          commandStart n c = (handleSlaves 8 n (handleChannel n d), .ok)) ∧
        (reached (channelPos d n) (st.point + BitVec.ofNat 32 (trackChan d n).cfg.delay) = false →
          commandStart n c = (d, .ok))) := by
  intro n c d st hn hs
  subst hs
  obtain ⟨a, b⟩ := spec_startNow n { point := channelPos c n, served := none } c d hn
  refine ⟨fun h => by simp only [commandStart, a h], fun h => ⟨fun r => ?_, fun r => ?_⟩⟩
  · simp only [commandStart, (b h).1 r]
  · simp only [commandStart, (b h).2 r]

/-- The owned points handed again (R55, R182), in the order of the channels. -/
theorem spec_resend :
    (∀ c : Chip, resendAll c = (List.range 8).foldl (fun d n => sendIntended n d) c) ∧
    (∀ c : Chip, resendUnsent c = (List.range 8).foldl (fun d n =>
      if d.tc.unsent.getD n false = true then sendIntended n d else d) c) ∧
    ∀ (n : Nat) (c : Chip),
      (ownedPoint c n = none → sendIntended n c = c) ∧
      ∀ key v, ownedPoint c n = some (key, v) →
        (∀ o, (trackChan c n).cfg.output = some o →
          sendIntended n c = (sendValue n key v (.channel n) none o.timeout c).1) ∧
        ∀ p, (trackChan c n).cfg.output = none → c.ma.config.pausePoint = some p →
          sendIntended n c = (sendValue n key v .pause none p.timeout c).1 := by
  refine ⟨fun _ => rfl, fun _ => rfl, fun n c => ⟨fun h => ?_, fun key v h => ⟨fun o ho => ?_, fun p ho hp => ?_⟩⟩⟩
  · simp only [sendIntended, h]
  · simp only [sendIntended, h, ho]
  · simp only [sendIntended, h, ho, hp]

end Sys2Proof.Machine
end

