-- ==== Sys2Proof/Laws/GrantSpecs.lean ====
section
/-! SUPPORT. What the grants made in the middle of an event do (R8, R152): a frame that enters the transmit queue, a report
handed, an operation that becomes waiting for the SPI master. -/

namespace Sys2Proof.Machine

set_option Elab.async false

/-- No frame at the head of the forward buffer is ready (R6, R7). -/
theorem forwardReady_none_iff (c : Chip) :
    forwardReady c = none ↔ ∀ e, c.rp.forward.head? = some e → e.receiving = true ∨ e.unchecked = true := by
  unfold forwardReady
  cases c.rp.forward with
  | nil => simp
  | cons e q => cases hr : e.receiving <;> cases hu : e.unchecked <;> simp [hr, hu]

/-- The transmitter is idle with no source ready and room in the return list (R8, R9, R11). -/
theorem txAwaits_iff (c : Chip) : txAwaits c = true ↔ c.rp.tx = none ∧
    (∀ e, c.rp.forward.head? = some e → e.receiving = true ∨ e.unchecked = true) ∧ c.rp.returnList.length < 16 ∧
    ∀ g ∈ c.rp.txQueue, g.kind = .report ∧ c.rp.ring ≠ .active := by
  simp [txAwaits, ← forwardReady_none_iff, sendable, and_assoc]

/-- A REPORT handed now begins to leave (R8): in ACTIVE every frame may be sent, so the queue is empty. -/
theorem reportBegins_iff (c : Chip) : reportBegins c = true ↔ c.rp.ring = .active ∧ c.rp.tx = none ∧
    (∀ e, c.rp.forward.head? = some e → e.receiving = true ∨ e.unchecked = true) ∧ c.rp.returnList.length < 16 ∧
    c.rp.txQueue = [] := by
  simp only [reportBegins, Bool.and_eq_true, decide_eq_true_eq, txAwaits_iff]
  refine ⟨fun ⟨r, t, f, l, q⟩ => ⟨r, t, f, l, ?_⟩, fun ⟨r, t, f, l, q⟩ => ⟨r, t, f, l, by simp [q]⟩⟩
  cases e : c.rp.txQueue with
  | nil => rfl
  | cons g _ => exact absurd r (q g (e ▸ List.mem_cons_self ..)).2

/-- A frame enters the transmit queue (R9), or begins to leave at once (R8, R11). -/
theorem spec_acceptFrame (f : OwnFrame) (c : Chip) :
    ((c.rp.tx ≠ none ∨ (∃ e, c.rp.forward.head? = some e ∧ e.receiving = false ∧ e.unchecked = false) ∨
        16 ≤ c.rp.returnList.length ∨ ∃ g ∈ c.rp.txQueue, g.kind ≠ .report ∨ c.rp.ring = .active) →
      acceptFrame f c = { c with rp := { c.rp with txQueue := enterQueue f c.rp.txQueue } }) ∧
    (c.rp.tx = none → (∀ e, c.rp.forward.head? = some e → e.receiving = true ∨ e.unchecked = true) →
      c.rp.returnList.length < 16 → (∀ g ∈ c.rp.txQueue, g.kind = .report ∧ c.rp.ring ≠ .active) →
      acceptFrame f c = { c with rp := { c.rp with
        returnList := c.rp.returnList ++
          [{ seq := c.rp.nextSeq, kind := f.kind, sentAt := c.clock.ms, isRestart := decide (f.source = .answer true) }],
        nextSeq := c.rp.nextSeq + 1,
        tx := some { header := { kind := f.kind.byte, origin := c.pins.node, dest := f.dest, seq := c.rp.nextSeq,
                                 count := BitVec.ofNat 8 f.items.length },
                     body := some (f.items.flatMap Item.bytes), badCheck := false } } }) := by
  constructor
  · intro h
    refine if_neg fun q => ?_
    obtain ⟨t, g, l, a⟩ := (txAwaits_iff c).mp q
    rcases h with h | ⟨e, he, h1, h2⟩ | h | ⟨x, hx, h⟩
    · exact h t
    · rcases g e he with g | g
      · rw [h1] at g; exact absurd g (by simp)
      · rw [h2] at g; exact absurd g (by simp)
    · omega
    · rcases h with h | h
      · exact h (a x hx).1
      · exact (a x hx).2 h
  · intro t g l a
    exact if_pos ((txAwaits_iff c).mpr ⟨t, g, l, a⟩)

/-- An operation that becomes waiting for the SPI master, `c` before it and `d` with it (R152). -/
theorem spec_whenWaiting (c d : Chip) :
    (c.tm.spi = none → c.tm.restart = none → c.tm.readWaiting = none → c.tm.writeQueue = [] →
      (∀ x ∈ c.tm.marks, (placeAt c x).state ≠ .stored) → d.tm.spi = none → d.tm.restart = none →
      d.tm.readWaiting = none → whenWaiting c d = spiGrant d) ∧
    ((c.tm.spi ≠ none ∨ c.tm.restart ≠ none ∨ c.tm.readWaiting ≠ none ∨ c.tm.writeQueue ≠ [] ∨
        ∃ x ∈ c.tm.marks, ∃ f, placeAt c x = { state := .stored, fields := some f }) → whenWaiting c d = d) := by
  constructor
  · intro h1 h2 h3 h4 h5 d1 d2 d3
    have n : nextRewrite c = none := by
      unfold nextRewrite
      rw [List.findSome?_eq_none_iff]
      intro x hx
      have := h5 x hx
      split
      · next h _ => exact absurd h this
      · rfl
    have a : spiAwaits c = true := by simp [spiAwaits, h1, h2, h3, h4, n]
    simp only [whenWaiting, a, if_true, spiGrant, d1, d2, d3]
  · intro h
    refine if_neg fun q => ?_
    simp only [spiAwaits, Bool.and_eq_true, Option.isNone_iff_eq_none, List.isEmpty_iff, and_assoc] at q
    obtain ⟨h1, h2, h3, h4, h5⟩ := q
    rcases h with h | h | h | h | ⟨x, hx, f, hf⟩
    · exact h h1
    · exact h h2
    · exact h h3
    · exact h h4
    · unfold nextRewrite at h5
      rw [List.findSome?_eq_none_iff] at h5
      have := h5 x hx
      rw [hf] at this
      exact absurd this (by simp)

end Sys2Proof.Machine
end

