-- ==== Sys2Proof/Laws/DockSpecs.lean ====
section
/-! SUPPORT. What the operations on shuttles, the dock and lots do, case by case: one lemma for each clause of the
statements on transfers, arbitration and lots. -/

namespace Sys2Proof.Machine

/-- A shuttle's status by its code (R167, R170, R173). -/
theorem spec_shuttleStatus :
    ∀ (n : Nat) (w : Word) (c : Chip) (s : Shuttle) (code : Nat), s = shuttleAt c n → code = w.toNat % 65536 →
      ((code = 0 ∨ 6 < code) → shuttleStatus n w c = c) ∧
      (s.state = .offline → code ≠ 1 → shuttleStatus n w c = c) ∧
      (s.state = .offline → code = 1 → s.enabled = false → shuttleStatus n w c = c) ∧
      (s.state = .offline → code = 1 → s.enabled = true →
        shuttleStatus n w c = arbitrate (modShuttle n (fun t => { t with state := .idle }) c)) ∧
      (s.state = .idle → code = 1 → shuttleStatus n w c = arbitrate c) ∧
      (s.state = .idle → 2 ≤ code → code ≤ 5 → shuttleStatus n w c = c) ∧
      (s.state = .idle → code = 6 → shuttleStatus n w c = raiseNat .transferFault .shuttle n
        (modShuttle n (fun t => { t with state := .fault, faults := min (t.faults + 1) 65535 }) c)) ∧
      (s.state = .fault → 1 ≤ code → code ≤ 5 →
        shuttleStatus n w c = modShuttle n (fun t => { t with late := min (t.late + 1) 65535 }) c) ∧
      (s.state = .fault → code = 6 → shuttleStatus n w c = c) ∧
      (s.state = .assigned ∨ s.state = .loaded ∨ s.state = .inAirlock →
        (code = 1 → shuttleStatus n w c = c) ∧
        (code = 6 → shuttleStatus n w c = faultTransfer n c) ∧
        ∀ id, s.pallet = some id →
          (2 ≤ code → code ≤ 5 → w.toNat / 65536 ≠ id →
            shuttleStatus n w c = modShuttle n (fun t => { t with mismatch := min (t.mismatch + 1) 65535 }) c) ∧
          (w.toNat / 65536 = id →
            (code = 2 → s.state = .assigned → shuttleStatus n w c = modShuttle n (fun t => { t with
              state := .loaded, deadline := some (c.clock.line + 10 * t.airlock) }) c) ∧
            (code = 2 → s.state ≠ .assigned → shuttleStatus n w c = c) ∧
            (code = 3 → s.state = .inAirlock → shuttleStatus n w c = c) ∧
            (code = 3 → s.state ≠ .inAirlock → shuttleStatus n w c = modShuttle n (fun t => { t with
                state := .inAirlock, deadline := some (c.clock.line + 10 * t.delivery) })
              (modPallet id (fun p => { p with state := .inTransfer }) (exposePallet id c))) ∧
            (code = 4 → shuttleStatus n w c = deliver n id .store c) ∧
            (code = 5 → shuttleStatus n w c = deliver n id .quarantine c))) := by
  intro n w c s code hs hc
  subst hs hc
  have e0 : ∀ k, w.toNat % 65536 = k → statusOfCode (w.toNat % 65536) = statusOfCode k := fun k h => by rw [h]
  have un : (w.toNat % 65536 = 0 ∨ 6 < w.toNat % 65536) → statusOfCode (w.toNat % 65536) = .unknown := by
    rintro (h | h)
    · rw [h]; rfl
    · unfold statusOfCode; split <;> first | omega | rfl
  have five : ∀ k, 2 ≤ k → k ≤ 5 → ∃ ph, statusOfCode k = .phase ph := by
    intro k h1 h2
    have : k = 2 ∨ k = 3 ∨ k = 4 ∨ k = 5 := by omega
    rcases this with rfl | rfl | rfl | rfl <;> exact ⟨_, rfl⟩
  refine ⟨?_, ?_, ?_, ?_, ?_, ?_, ?_, ?_, ?_, ?_⟩
  · intro h
    simp only [shuttleStatus, un h]
  · intro h h1
    cases e : statusOfCode (w.toNat % 65536) with
    | atDockIdle =>
      exfalso; revert e; unfold statusOfCode; split <;> simp_all
    | phase ph => simp only [shuttleStatus, h, e]
    | fault => simp only [shuttleStatus, h, e]
    | unknown => simp only [shuttleStatus, e]
  · intro h h1 h2; simp only [shuttleStatus, h, h1, statusOfCode, h2]; rfl
  · intro h h1 h2; simp only [shuttleStatus, h, h1, statusOfCode, h2, if_true]
  · intro h h1; simp only [shuttleStatus, h, h1, statusOfCode]
  · intro h h1 h2
    obtain ⟨ph, e⟩ := five _ h1 h2
    simp only [shuttleStatus, h, e]
  · intro h h1; simp only [shuttleStatus, h, h1, statusOfCode, faultIdle, inc16]
  · intro h h1 h2
    by_cases q : w.toNat % 65536 = 1
    · simp only [shuttleStatus, h, q, statusOfCode, inc16]
    · obtain ⟨ph, e⟩ := five _ (by omega) h2
      simp only [shuttleStatus, h, e, inc16]
  · intro h h1; simp only [shuttleStatus, h, h1, statusOfCode]
  · intro hst
    have atDock : statusOfCode (w.toNat % 65536) = .atDockIdle → shuttleStatus n w c = c := by
      intro e; rcases hst with h | h | h <;> simp only [shuttleStatus, h, e]
    have fault : statusOfCode (w.toNat % 65536) = .fault → shuttleStatus n w c = faultTransfer n c := by
      intro e; rcases hst with h | h | h <;> simp only [shuttleStatus, h, e]
    have phase : ∀ ph, statusOfCode (w.toNat % 65536) = .phase ph →
        shuttleStatus n w c = phaseStatus n (w.toNat / 65536) ph c := by
      intro ph e; rcases hst with h | h | h <;> simp only [shuttleStatus, h, e]
    refine ⟨fun h => atDock (e0 _ h), fun h => fault (e0 _ h), ?_⟩
    intro id hid
    refine ⟨?_, ?_⟩
    · intro h1 h2 hn
      obtain ⟨ph, e⟩ := five _ h1 h2
      rw [phase ph e]
      simp only [phaseStatus, hid, if_pos hn, inc16]
    · intro hn
      refine ⟨?_, ?_, ?_, ?_, ?_, ?_⟩
      · intro h q
        rw [phase .loaded (e0 _ h)]
        simp only [phaseStatus, hid, if_neg (not_not.mpr hn), if_pos q]
      · intro h q
        rw [phase .loaded (e0 _ h)]
        simp only [phaseStatus, hid, if_neg (not_not.mpr hn), if_neg q]
      · intro h q
        rw [phase .entered (e0 _ h)]
        simp only [phaseStatus, hid, if_neg (not_not.mpr hn), if_pos q]
      · intro h q
        rw [phase .entered (e0 _ h)]
        simp only [phaseStatus, hid, if_neg (not_not.mpr hn), if_neg q, airlockEntry]
      · intro h
        rw [phase (.delivered .store) (e0 _ h)]
        simp only [phaseStatus, hid, if_neg (not_not.mpr hn)]
      · intro h
        rw [phase (.delivered .quarantine) (e0 _ h)]
        simp only [phaseStatus, hid, if_neg (not_not.mpr hn)]

/-- A transfer is faulted (R173). -/
theorem spec_faultTransfer :
    ∀ (n id : Nat) (w : Word) (c d : Chip) (u : Shuttle), c.td.shuttles[n]? = some u → u.pallet = some id →
      d = raiseNat .transferFault .pallet id { c with
        ba := { c.ba with pallets := c.ba.pallets.map fun p =>
          if p.id = id then { p with state := .faulted, hold := p.hold ||| HoldReason.transferFault.only } else p }
        td := { c.td with
          shuttles := c.td.shuttles.set n
            { u with state := .fault, pallet := none, deadline := none, enabled := false,
                     faults := min (u.faults + 1) 65535 } } } →
      faultTransfer n c = d ∧
      ((u.state = .assigned ∨ u.state = .loaded ∨ u.state = .inAirlock) → w.toNat % 65536 = 6 → shuttleStatus n w c = d) := by
  intro n id w c d u hu hp hd
  have s : shuttleAt c n = u := by simp [shuttleAt, List.getD_eq_getElem?_getD, hu]
  have e : faultTransfer n c = d := by
    have m : c.td.shuttles.modify n (fun s => { s with
          state := .fault, pallet := none, deadline := none, enabled := false, faults := inc16 s.faults }) =
        c.td.shuttles.set n { u with
          state := .fault, pallet := none, deadline := none, enabled := false, faults := min (u.faults + 1) 65535 } := by
      rw [List.modify_eq_set_getElem?, hu]; rfl
    rw [hd, ← m]
    simp only [faultTransfer, s, hp]
    rfl
  refine ⟨e, fun h k => ?_⟩
  rw [← e]
  rcases h with h | h | h <;> simp only [shuttleStatus, s, k, h, statusOfCode]

/-- A pallet's destination, and a change of its hold set (R119, R163). -/
theorem spec_evalDestination :
    ∀ (id : Nat) (f : HoldSet → HoldSet) (c : Chip),
      evalDestination id c = { c with ba := { c.ba with pallets := c.ba.pallets.map fun p =>
        if p.id = id ∧ p.state = .closed
        then { p with dest := some (if effectiveHold c p.lot p.hold = 0 then .store else .quarantine) } else p } } ∧
      changePalletHold id f c = evalDestination id { c with ba := { c.ba with pallets := c.ba.pallets.map fun p =>
        if p.id = id then { p with hold := f p.hold } else p } } := by
  intro id f c
  refine ⟨?_, rfl⟩
  have m : (fun p : Pallet => if p.id = id then
        (if p.state = .closed then { p with dest := some (destinationOf (effectiveHold c p.lot p.hold)) } else p) else p) =
      fun p => if p.id = id ∧ p.state = .closed
        then { p with dest := some (if effectiveHold c p.lot p.hold = 0 then .store else .quarantine) } else p := by
    funext p
    by_cases a : p.id = id <;> by_cases b : p.state = .closed <;> simp [a, b, destinationOf]
  rw [← m]
  rfl

/-- A delivery (R172). -/
theorem spec_deliver :
    ∀ (n id : Nat) (dest : Destination) (c c1 c2 c3 : Chip) (p : Pallet), palletAt c id = some p →
      (p.state = .assigned → c1 = exposePallet id c) → (p.state ≠ .assigned → c1 = c) →
      c2 = modShuttle n (fun s => { s with state := .idle, pallet := none, deadline := none })
        (modPallet id (fun q => { q with
          state := .delivered, delTime := some c.clock.line, delDest := some dest, reportPending := true, revision := 0 })
          c1) →
      (p.dest = some dest → c3 = c2) →
      (p.dest ≠ some dest → c3 = raiseNat .misroute .pallet id
        (changePalletHold id (fun h => h ||| HoldReason.transferFault.only) c2)) →
      deliver n id dest c = handDelivery id (reportLot p.lot .palletDelivered c3) := by
  intro n id dest c c1 c2 c3 p hp h1 h2 h3 h4 h5
  have e1 : (if p.state = .assigned then exposePallet id c else c) = c1 := by
    by_cases q : p.state = .assigned
    · rw [if_pos q, h1 q]
    · rw [if_neg q, h2 q]
  have e3 : (if p.dest = some dest then c2
      else raiseNat .misroute .pallet id (changePalletHold id (fun h => h ||| HoldReason.transferFault.only) c2)) = c3 := by
    by_cases q : p.dest = some dest
    · rw [if_pos q, h4 q]
    · rw [if_neg q, h5 q]
  unfold deliver
  rw [hp]
  dsimp only
  rw [e1, ← h3]
  rw [show (fun h : HoldSet => h.place .transferFault) = (fun h => h ||| HoldReason.transferFault.only) from rfl, e3]

/-- The winner as a fold finds it. -/
theorem winner_foldl (r : Pallet → Int) (after : List Pallet) (p : Pallet) (ha : ∀ x ∈ after, r p ≤ r x) :
    after.foldl (fun best q => match best with
      | none => some q
      | some b => if r q < r b then some q else some b) (some p) = some p := by
  induction after with
  | nil => rfl
  | cons x l ih =>
    have : ¬ r x < r p := not_lt.mpr (ha x (List.mem_cons_self ..))
    simp only [List.foldl_cons, if_neg this]
    exact ih fun y hy => ha y (List.mem_cons_of_mem _ hy)

theorem winner_found (r : Pallet → Int) (p : Pallet) (after : List Pallet) (ha : ∀ x ∈ after, r p ≤ r x) :
    ∀ (before : List Pallet) (b : Option Pallet), (∀ x ∈ before, r p < r x) → (∀ x, b = some x → r p < r x) →
    (before ++ p :: after).foldl (fun best q => match best with
      | none => some q
      | some b => if r q < r b then some q else some b) b = some p
  | [], none, _, _ => winner_foldl r after p ha
  | [], some x, _, hx => by
    simp only [List.nil_append, List.foldl_cons, if_pos (hx x rfl)]
    exact winner_foldl r after p ha
  | y :: l, none, hb, _ => by
    simp only [List.cons_append, List.foldl_cons]
    exact winner_found r p after ha l _ (fun x hx => hb x (List.mem_cons_of_mem _ hx))
      fun x hx => by cases hx; exact hb _ (List.mem_cons_self ..)
  | y :: l, some x, hb, hx => by
    simp only [List.cons_append, List.foldl_cons]
    refine winner_found r p after ha l _ (fun z hz => hb z (List.mem_cons_of_mem _ hz)) ?_
    intro z hz
    split at hz <;> cases hz
    · exact hb _ (List.mem_cons_self ..)
    · exact hx _ rfl

/-- Arbitration (R168) and assignment (R169). -/
theorem spec_arbitration :
    (∀ c : Chip,
      (c.ag.mode = .production → c.rp.ring ≠ .isolated → (∃ s ∈ c.td.shuttles, s.state = .idle) → c.td.dock ≠ [] →
        arbitrate c = arbitrationLoop 4 (exposeAll c)) ∧
      ((c.ag.mode ≠ .production ∨ c.rp.ring = .isolated ∨ (∀ s ∈ c.td.shuttles, s.state ≠ .idle) ∨ c.td.dock = []) →
        arbitrate c = c) ∧
      (∀ before after s, c.td.shuttles = before ++ s :: after → s.state = .idle → (∀ x ∈ before, x.state ≠ .idle) →
        idleShuttle c = some before.length) ∧
      (∀ before after p, c.td.dock.filterMap (palletAt c) = before ++ p :: after →
        (∀ x ∈ before, remainingBudget c p < remainingBudget c x) →
        (∀ x ∈ after, remainingBudget c p ≤ remainingBudget c x) → arbitrationWinner c = some p) ∧
      (∀ p, remainingBudget c p = (recipeOfLot c p.lot).budget * 6000 - p.exposure) ∧
      ∀ k, arbitrationLoop 0 c = c ∧
        ((idleShuttle c = none ∨ arbitrationWinner c = none) → arbitrationLoop (k + 1) c = c) ∧
        ∀ n p d, idleShuttle c = some n → arbitrationWinner c = some p →
          (assignPallet p n c = (d, true) → arbitrationLoop (k + 1) c = arbitrationLoop k d) ∧
          (assignPallet p n c = (d, false) → arbitrationLoop (k + 1) c = d)) ∧
    ∀ (p : Pallet) (n : Nat) (c assigned : Chip) (s : Shuttle), s = shuttleAt c n → c.ag.mode = .production →
      assigned = modShuttle n (fun t => { t with
          state := .assigned, pallet := some p.id, deadline := some (c.clock.line + 10 * s.load) })
        (modPallet p.id (fun q => { q with state := .assigned, shuttle := some n })
          { c with td := { c.td with dock := c.td.dock.erase p.id } }) →
      ∀ d taken value, value = p.id * 65536 + (if p.dest = some .quarantine then 2 else 1) →
        rpHand { kind := .actuate, dest := BitVec.ofNat 8 (s.point.toNat / 256), source := .ownActuation,
                 items := [mkItem s.point (BitVec.ofNat 32 value)] } assigned = (d, taken) →
        (taken = true → assignPallet p n c = (d, true)) ∧
        (taken = false → ∀ e, e = evalDestination p.id (enterDock p.id
            (modShuttle n (fun t => { t with state := .idle, pallet := none, deadline := none })
              (modPallet p.id (fun q => { q with state := .closed, shuttle := none }) d))) →
          assignPallet p n c = ({ e with td := { e.td with lost := min (e.td.lost + 1) 65535 } }, false)) := by
  refine ⟨?_, ?_⟩
  · intro c
    have opens : arbitrationOpen c = true ↔ c.ag.mode = .production ∧ c.rp.ring ≠ .isolated ∧
        (∃ s ∈ c.td.shuttles, s.state = .idle) ∧ c.td.dock ≠ [] := by
      simp [arbitrationOpen, idleShuttle, and_assoc]
    refine ⟨?_, ?_, ?_, ?_, ?_, ?_⟩
    · intro a b d e; exact if_pos (opens.2 ⟨a, b, d, e⟩)
    · intro h
      refine if_neg ?_
      rw [opens]
      rintro ⟨a, b, ⟨s, hs, hi⟩, e⟩
      rcases h with h | h | h | h
      · exact h a
      · exact b h
      · exact h s hs hi
      · exact e h
    · intro before after s hs hi hb
      unfold idleShuttle
      rw [hs, List.findIdx?_append, List.findIdx?_eq_none_iff.2]
      · simp [List.findIdx?_cons, hi]
      · intro x hx; simp [hb x hx]
    · intro before after p hs hb ha
      unfold arbitrationWinner
      rw [hs]
      exact winner_found (remainingBudget c) p after ha before none hb (by simp)
    · intro p; simp [remainingBudget]
    · intro k
      refine ⟨rfl, ?_, ?_⟩
      · rintro (h | h)
        · simp only [arbitrationLoop, h]
        · simp only [arbitrationLoop, h]; cases idleShuttle c <;> rfl
      · intro n p d h1 h2
        refine ⟨?_, ?_⟩ <;> intro h <;> simp only [arbitrationLoop, h1, h2, h]
  · intro p n c assigned s hs hm ha d taken value hv hr
    subst hv
    have ho : agOwn s.point (transferValue p) assigned = (d, taken) := by
      unfold agOwn
      rw [if_pos (by rw [ha]; exact hm)]
      exact hr
    have e : assignPallet p n c = (match agOwn s.point (transferValue p) assigned with
        | (c3, true) => (c3, true)
        | (c3, false) =>
          let c6 := evalDestination p.id (enterDock p.id
            (modShuttle n (fun t => { t with state := .idle, pallet := none, deadline := none })
              (modPallet p.id (fun q => { q with state := .closed, shuttle := none }) c3)))
          ({ c6 with td := { c6.td with lost := inc16 c6.td.lost } }, false)) := by
      subst hs ha; rfl
    refine ⟨?_, ?_⟩
    · rintro rfl; rw [e, ho]
    · rintro rfl x rfl; rw [e, ho]; rfl

/-- What the reports to LH count (R112). -/
theorem spec_lotCounts :
    ∀ (l : Lot) (m : Nat),
      countLot (.segmentCreated m) l = { l with live := l.live + 1, counts := { l.counts with
        segmentsCut := min (l.counts.segmentsCut + 1) 4294967295, massCut := min (l.counts.massCut + m) 4294967295 } } ∧
      countLot (.divertConfirmed m) l = { l with live := l.live - 1, counts := { l.counts with
        massDiverted := min (l.counts.massDiverted + m) 4294967295 } } ∧
      countLot .segmentDrawn l = { l with live := l.live - 1 } ∧
      countLot (.untracked m) l = { l with counts := { l.counts with
        untrackedMass := min (l.counts.untrackedMass + m) 4294967295 } } ∧
      countLot .overblanched l = { l with counts := { l.counts with
        overblanch := min (l.counts.overblanch + 1) 4294967295 } } ∧
      countLot .bagTaken l = { l with openBags := l.openBags + 1 } ∧
      countLot (.bagSettled true) l = { l with openBags := l.openBags - 1, counts := { l.counts with
        bagsAccepted := min (l.counts.bagsAccepted + 1) 4294967295 } } ∧
      countLot (.bagSettled false) l = { l with openBags := l.openBags - 1, counts := { l.counts with
        bagsRejected := min (l.counts.bagsRejected + 1) 4294967295 } } ∧
      countLot (.tail m) l = { l with counts := { l.counts with tailMass := min (l.counts.tailMass + m) 4294967295 } } ∧
      countLot .recordMade l = { l with unwritten := l.unwritten + 1 } ∧
      countLot .recordWritten l = { l with unwritten := l.unwritten - 1 } ∧
      countLot .palletCreated l = { l with inFlight := l.inFlight + 1 } ∧
      countLot .palletClosed l = { l with counts := { l.counts with
        palletsClosed := min (l.counts.palletsClosed + 1) 4294967295 } } ∧
      countLot .palletDelivered l = { l with counts := { l.counts with
        palletsDelivered := min (l.counts.palletsDelivered + 1) 4294967295 } } ∧
      countLot .palletReported l = { l with inFlight := l.inFlight - 1 } := by
  intro l m
  exact ⟨rfl, rfl, rfl, rfl, rfl, rfl, rfl, rfl, rfl, rfl, rfl, rfl, rfl, rfl, rfl⟩

/-- A report to LH: counts, drain point, finish (R112, R115, R116), and a pallet's closing (R141, R162). -/
theorem spec_lotReports :
    (∀ (i : Nat) (r : LotReport) (c : Chip), reportLot i r c = checkFinish i (checkDrain i (modLot i (countLot r) c))) ∧
    (∀ (i : Nat) (c : Chip),
      (lotAt c i = none → checkDrain i c = c ∧ checkFinish i c = c) ∧
      ∀ l, lotAt c i = some l →
        (l.state = .draining → l.drained = false → l.live = 0 → l.openBags = 0 → ∀ d,
          d = modLot i (fun e => { e with drained := true }) c →
          (l.building = none → checkDrain i c = d) ∧ ∀ id, l.building = some id → checkDrain i c = closeShort id d) ∧
        ((l.state ≠ .draining ∨ l.drained = true ∨ l.live ≠ 0 ∨ l.openBags ≠ 0) → checkDrain i c = c) ∧
        (l.state = .draining → l.drained = true → l.live = 0 → l.openBags = 0 → l.unwritten = 0 → l.inFlight = 0 →
          checkFinish i c =
            handLot i (modLot i (fun e => { e with state := .finished, finishTime := some c.clock.line }) c)) ∧
        ((l.state ≠ .draining ∨ l.drained = false ∨ l.live ≠ 0 ∨ l.openBags ≠ 0 ∨ l.unwritten ≠ 0 ∨ l.inFlight ≠ 0) →
          checkFinish i c = c)) ∧
    ∀ (id : Nat) (c : Chip) (p : Pallet), palletAt c id = some p →
      (∀ part, part = (if p.bags % (recipeOfLot c p.lot).bagsPerCase ≠ 0 then 1 else 0) →
        closeShort id c = closePallet id (modPallet id (fun q => { q with short := true, cases := q.cases + part }) c)) ∧
      closePallet id c = takePallet id (modLot p.lot (fun l => { l with building := none, counts := { l.counts with
          palletsClosed := min (l.counts.palletsClosed + 1) 4294967295 } })
        (modPallet id (fun q => { q with state := .closed, closeTime := some c.clock.line, serial := c.ba.serial })
          { c with ba := { c.ba with serial := c.ba.serial + 1 } })) ∧
      takePallet id c = arbitrate (modPallet id (fun q => { q with
        expTime := q.closeTime.getD 0, expTemp := dockTemp c q.lot }) (evalDestination id (enterDock id c))) := by
  refine ⟨fun _ _ _ => rfl, ?_, ?_⟩
  · intro i c
    refine ⟨?_, ?_⟩
    · intro h; simp only [checkDrain, checkFinish, h, and_self]
    · intro l hl
      refine ⟨?_, ?_, ?_, ?_⟩
      · intro h1 h2 h3 h4 d hd
        subst hd
        refine ⟨?_, ?_⟩
        · intro h; simp only [checkDrain, hl, h1, h2, h3, h4, and_self, if_true, h]
        · intro id h; simp only [checkDrain, hl, h1, h2, h3, h4, and_self, if_true, h]
      · intro h
        have : ¬ (l.state = .draining ∧ l.drained = false ∧ l.live = 0 ∧ l.openBags = 0) := by
          rintro ⟨a, b, d, e⟩; simp_all
        simp only [checkDrain, hl, if_neg this]
      · intro h1 h2 h3 h4 h5 h6
        simp only [checkFinish, hl, h1, h2, h3, h4, h5, h6, and_self, if_true]
      · intro h
        have : ¬ (l.state = .draining ∧ l.drained = true ∧ l.live = 0 ∧ l.openBags = 0 ∧ l.unwritten = 0 ∧
            l.inFlight = 0) := by
          rintro ⟨a, b, d, e, f, g⟩; simp_all
        simp only [checkFinish, hl, if_neg this]
  · intro id c p hp
    refine ⟨?_, ?_, rfl⟩
    · rintro part rfl
      simp only [closeShort, hp]
      by_cases q : p.bags % (recipeOfLot c p.lot).bagsPerCase ≠ 0
      · simp only [decide_eq_true q, if_true, if_pos q]
      · simp only [decide_eq_false q, if_neg q, Nat.add_zero]; rfl
    · simp only [closePallet, hp]; rfl

/-- A report's handing to RP and what follows (R117, R175, R176). -/
theorem spec_handings :
    (∀ (i : Nat) (c d : Chip) (l : Lot) (taken : Bool), lotAt c i = some l → rpHand (lotReport i l c) c = (d, taken) →
      ∀ e, e = modLot i (fun e => { e with report := if taken = true then .queued else .waiting })
        { d with lh := { d.lh with lastHanding := some d.clock.line } } →
      (reportBegins c = false → handLot i c = e) ∧ (reportBegins c = true → handLot i c = reportLeft (.lotReport i) e)) ∧
    (∀ (id : Nat) (c d : Chip) (p : Pallet) (taken : Bool), palletAt c id = some p →
      rpHand (deliveryReport p c) c = (d, taken) →
      ∀ e, e = modPallet id (fun q => { q with report := if taken = true then .queued else .waiting })
        { d with td := { d.td with lastHanding := some d.clock.line } } →
      (reportBegins c = false → handDelivery id c = e) ∧
      (reportBegins c = true → handDelivery id c = reportLeft (.deliveryReport id p.revision) e)) ∧
    (∀ c : Chip, reportBegins c = true ↔ c.rp.ring = .active ∧ c.rp.tx = none ∧
      (∀ e, c.rp.forward.head? = some e → e.receiving = true ∨ e.unchecked = true) ∧ c.rp.returnList.length < 16 ∧
      c.rp.txQueue = []) ∧
    (∀ (id : Nat) (c : Chip) (p : Pallet), palletAt c id = some p →
      (p.state = .delivered → p.report = .queued → reviseDelivery id c =
        handDelivery id (modPallet id (fun q => { q with revision := (q.revision + 1) % 256 }) c)) ∧
      ((p.state ≠ .delivered ∨ p.report ≠ .queued) → reviseDelivery id c = c)) ∧
    ∀ (i rev : Nat) (c : Chip),
      reportHandedBack (.lotReport i) c =
        modLot i (fun e => if e.report = .queued then { e with report := .waiting } else e) c ∧
      reportHandedBack (.deliveryReport i rev) c = modPallet i (fun p =>
        if p.revision = rev ∧ p.report = .queued then { p with report := .waiting } else p) c := by
  refine ⟨?_, ?_, ?_, ?_, ?_⟩
  · rintro i c d l taken h h2 e rfl
    constructor <;> intro b <;> simp only [handLot, h, h2, b] <;> rfl
  · rintro id c d p taken h h2 e rfl
    constructor <;> intro b <;> simp only [handDelivery, h, h2, b] <;> rfl
  · exact reportBegins_iff
  · intro id c p h
    unfold reviseDelivery
    rw [h]
    refine ⟨fun h1 h2 => if_pos ⟨h1, h2⟩, fun h1 => if_neg fun q => ?_⟩
    rcases h1 with h1 | h1
    · exact h1 q.1
    · exact h1 q.2
  · intro i rev c
    exact ⟨rfl, rfl⟩

/-- Every CLOSED or ASSIGNED pallet's exposure is brought up to date (R164). -/
theorem spec_exposeAll :
    ∀ c : Chip, exposeAll c = ((c.ba.pallets.filter fun p =>
      decide (p.state = .closed ∨ p.state = .assigned)).map (·.id)).foldl (fun d id => exposePallet id d) c := by
  intro c
  unfold exposeAll
  congr 3
  funext p
  cases p.state <;> rfl

/-- The dock queue (R162, R174): a pallet enters behind those closed before it, and the order of closing stays. -/
theorem spec_enterDock :
    (∀ (c : Chip) (id : Nat), (∀ p, palletAt c id = some p → closeOrder c id = p.serial) ∧
      (palletAt c id = none → closeOrder c id = 0)) ∧
    ∀ (id : Nat) (c : Chip), c.td.dock.Pairwise (fun a b => closeOrder c a ≤ closeOrder c b) →
      (∀ dock, dock = c.td.dock.filter (fun j => decide (closeOrder c j ≤ closeOrder c id)) ++
          id :: c.td.dock.filter (fun j => decide (closeOrder c id < closeOrder c j)) →
        enterDock id c = { c with td := { c.td with dock := dock } }) ∧
      (enterDock id c).td.dock.Pairwise (fun a b => closeOrder c a ≤ closeOrder c b) := by
  refine ⟨fun c id => ⟨fun p h => by simp only [closeOrder, h], fun h => by simp only [closeOrder, h]⟩, ?_⟩
  intro id c hs
  have key : ∀ l : List Nat, l.Pairwise (fun a b => closeOrder c a ≤ closeOrder c b) →
      l.takeWhile (fun j => decide (closeOrder c j ≤ closeOrder c id)) =
        l.filter (fun j => decide (closeOrder c j ≤ closeOrder c id)) ∧
      l.dropWhile (fun j => decide (closeOrder c j ≤ closeOrder c id)) =
        l.filter (fun j => decide (closeOrder c id < closeOrder c j)) := by
    intro l
    induction l with
    | nil => intro _; exact ⟨rfl, rfl⟩
    | cons a l ih =>
      intro h
      obtain ⟨h1, h2⟩ := List.pairwise_cons.mp h
      obtain ⟨i1, i2⟩ := ih h2
      by_cases q : closeOrder c a ≤ closeOrder c id
      · simp [q, i1, i2, Nat.not_lt.mpr q]
      · have r := Nat.lt_of_not_le q
        simp only [List.takeWhile_cons, List.dropWhile_cons, q, decide_false, Bool.false_eq_true, if_false]
        refine ⟨?_, ?_⟩
        · symm; rw [List.filter_eq_nil_iff]
          intro b hb
          rcases List.mem_cons.mp hb with rfl | hb
          · simpa using r
          · have := h1 b hb; simp; omega
        · symm; rw [List.filter_eq_self]
          intro b hb
          rcases List.mem_cons.mp hb with rfl | hb
          · simpa using r
          · have := h1 b hb; simp; omega
  obtain ⟨k1, k2⟩ := key _ hs
  have e : ∀ dock, dock = c.td.dock.filter (fun j => decide (closeOrder c j ≤ closeOrder c id)) ++
      id :: c.td.dock.filter (fun j => decide (closeOrder c id < closeOrder c j)) →
      enterDock id c = { c with td := { c.td with dock := dock } } := by
    rintro dock rfl
    simp only [enterDock, k1, k2]
  refine ⟨e, ?_⟩
  rw [e _ rfl]
  refine List.pairwise_append.mpr ⟨hs.filter _, List.pairwise_cons.mpr ⟨?_, hs.filter _⟩, ?_⟩
  · intro b hb; have := (List.mem_filter.mp hb).2; simp at this; omega
  · intro a ha b hb
    have ha := (List.mem_filter.mp ha).2
    rcases List.mem_cons.mp hb with rfl | hb
    · simpa using ha
    · have := (List.mem_filter.mp hb).2; simp at this ha; omega

/-- The effective hold (R119): the record's own set together with its lot's. -/
theorem spec_effectiveHold :
    ∀ (c : Chip) (lot : Nat) (own : HoldSet),
      (lotAt c lot = none → effectiveHold c lot own = own) ∧
      ∀ l, lotAt c lot = some l →
        (l.manual = true → effectiveHold c lot own = own ||| HoldReason.manual.only) ∧
        (l.manual = false → effectiveHold c lot own = own) := by
  intro c lot own
  refine ⟨fun h => ?_, fun l h => ⟨fun m => ?_, fun m => ?_⟩⟩ <;> simp [effectiveHold, lotHold, *]

end Sys2Proof.Machine
end

