-- ==== Sys2Proof/Laws/State.lean ====
section
/-! SUPPORT. Which blocks each update of one block leaves alone: one lemma per field per update, by rfl. -/

namespace Sys2Proof.Machine

section
variable (i : Nat) (f : IntakeDyn → IntakeDyn) (c : Chip)
@[simp] theorem modIntake_pins : (modIntake i f c).pins = c.pins := rfl
@[simp] theorem modIntake_clock : (modIntake i f c).clock = c.clock := rfl
@[simp] theorem modIntake_freeCount : (modIntake i f c).freeCount = c.freeCount := rfl
@[simp] theorem modIntake_rp : (modIntake i f c).rp = c.rp := rfl
@[simp] theorem modIntake_tc : (modIntake i f c).tc = c.tc := rfl
@[simp] theorem modIntake_st : (modIntake i f c).st = c.st := rfl
@[simp] theorem modIntake_de : (modIntake i f c).de = c.de := rfl
@[simp] theorem modIntake_fv : (modIntake i f c).fv = c.fv := rfl
@[simp] theorem modIntake_lh : (modIntake i f c).lh = c.lh := rfl
@[simp] theorem modIntake_ba : (modIntake i f c).ba = c.ba := rfl
@[simp] theorem modIntake_tm : (modIntake i f c).tm = c.tm := rfl
@[simp] theorem modIntake_td : (modIntake i f c).td = c.td := rfl
@[simp] theorem modIntake_ag : (modIntake i f c).ag = c.ag := rfl
@[simp] theorem modIntake_ma : (modIntake i f c).ma = c.ma := rfl
end

section
variable (n : Nat) (f : TrackDyn → TrackDyn) (c : Chip)
@[simp] theorem modTrack_pins : (modTrack n f c).pins = c.pins := rfl
@[simp] theorem modTrack_clock : (modTrack n f c).clock = c.clock := rfl
@[simp] theorem modTrack_freeCount : (modTrack n f c).freeCount = c.freeCount := rfl
@[simp] theorem modTrack_rp : (modTrack n f c).rp = c.rp := rfl
@[simp] theorem modTrack_si : (modTrack n f c).si = c.si := rfl
@[simp] theorem modTrack_st : (modTrack n f c).st = c.st := rfl
@[simp] theorem modTrack_de : (modTrack n f c).de = c.de := rfl
@[simp] theorem modTrack_fv : (modTrack n f c).fv = c.fv := rfl
@[simp] theorem modTrack_lh : (modTrack n f c).lh = c.lh := rfl
@[simp] theorem modTrack_ba : (modTrack n f c).ba = c.ba := rfl
@[simp] theorem modTrack_tm : (modTrack n f c).tm = c.tm := rfl
@[simp] theorem modTrack_td : (modTrack n f c).td = c.td := rfl
@[simp] theorem modTrack_ag : (modTrack n f c).ag = c.ag := rfl
@[simp] theorem modTrack_ma : (modTrack n f c).ma = c.ma := rfl
end

section
variable (n : Nat) (b : Bool) (c : Chip)
@[simp] theorem setUnsent_pins : (setUnsent n b c).pins = c.pins := rfl
@[simp] theorem setUnsent_clock : (setUnsent n b c).clock = c.clock := rfl
@[simp] theorem setUnsent_freeCount : (setUnsent n b c).freeCount = c.freeCount := rfl
@[simp] theorem setUnsent_rp : (setUnsent n b c).rp = c.rp := rfl
@[simp] theorem setUnsent_si : (setUnsent n b c).si = c.si := rfl
@[simp] theorem setUnsent_st : (setUnsent n b c).st = c.st := rfl
@[simp] theorem setUnsent_de : (setUnsent n b c).de = c.de := rfl
@[simp] theorem setUnsent_fv : (setUnsent n b c).fv = c.fv := rfl
@[simp] theorem setUnsent_lh : (setUnsent n b c).lh = c.lh := rfl
@[simp] theorem setUnsent_ba : (setUnsent n b c).ba = c.ba := rfl
@[simp] theorem setUnsent_tm : (setUnsent n b c).tm = c.tm := rfl
@[simp] theorem setUnsent_td : (setUnsent n b c).td = c.td := rfl
@[simp] theorem setUnsent_ag : (setUnsent n b c).ag = c.ag := rfl
@[simp] theorem setUnsent_ma : (setUnsent n b c).ma = c.ma := rfl
end

section
variable (i : Nat) (f : Lot → Lot) (c : Chip)
@[simp] theorem modLot_pins : (modLot i f c).pins = c.pins := rfl
@[simp] theorem modLot_clock : (modLot i f c).clock = c.clock := rfl
@[simp] theorem modLot_freeCount : (modLot i f c).freeCount = c.freeCount := rfl
@[simp] theorem modLot_rp : (modLot i f c).rp = c.rp := rfl
@[simp] theorem modLot_si : (modLot i f c).si = c.si := rfl
@[simp] theorem modLot_tc : (modLot i f c).tc = c.tc := rfl
@[simp] theorem modLot_st : (modLot i f c).st = c.st := rfl
@[simp] theorem modLot_de : (modLot i f c).de = c.de := rfl
@[simp] theorem modLot_fv : (modLot i f c).fv = c.fv := rfl
@[simp] theorem modLot_ba : (modLot i f c).ba = c.ba := rfl
@[simp] theorem modLot_tm : (modLot i f c).tm = c.tm := rfl
@[simp] theorem modLot_td : (modLot i f c).td = c.td := rfl
@[simp] theorem modLot_ag : (modLot i f c).ag = c.ag := rfl
@[simp] theorem modLot_ma : (modLot i f c).ma = c.ma := rfl
end

section
variable (id : Nat) (f : Pallet → Pallet) (c : Chip)
@[simp] theorem modPallet_pins : (modPallet id f c).pins = c.pins := rfl
@[simp] theorem modPallet_clock : (modPallet id f c).clock = c.clock := rfl
@[simp] theorem modPallet_freeCount : (modPallet id f c).freeCount = c.freeCount := rfl
@[simp] theorem modPallet_rp : (modPallet id f c).rp = c.rp := rfl
@[simp] theorem modPallet_si : (modPallet id f c).si = c.si := rfl
@[simp] theorem modPallet_tc : (modPallet id f c).tc = c.tc := rfl
@[simp] theorem modPallet_st : (modPallet id f c).st = c.st := rfl
@[simp] theorem modPallet_de : (modPallet id f c).de = c.de := rfl
@[simp] theorem modPallet_fv : (modPallet id f c).fv = c.fv := rfl
@[simp] theorem modPallet_lh : (modPallet id f c).lh = c.lh := rfl
@[simp] theorem modPallet_tm : (modPallet id f c).tm = c.tm := rfl
@[simp] theorem modPallet_td : (modPallet id f c).td = c.td := rfl
@[simp] theorem modPallet_ag : (modPallet id f c).ag = c.ag := rfl
@[simp] theorem modPallet_ma : (modPallet id f c).ma = c.ma := rfl
end

section
variable (k : Nat) (f : Slot → Slot) (c : Chip)
@[simp] theorem modSlot_pins : (modSlot k f c).pins = c.pins := rfl
@[simp] theorem modSlot_clock : (modSlot k f c).clock = c.clock := rfl
@[simp] theorem modSlot_freeCount : (modSlot k f c).freeCount = c.freeCount := rfl
@[simp] theorem modSlot_rp : (modSlot k f c).rp = c.rp := rfl
@[simp] theorem modSlot_si : (modSlot k f c).si = c.si := rfl
@[simp] theorem modSlot_tc : (modSlot k f c).tc = c.tc := rfl
@[simp] theorem modSlot_st : (modSlot k f c).st = c.st := rfl
@[simp] theorem modSlot_de : (modSlot k f c).de = c.de := rfl
@[simp] theorem modSlot_fv : (modSlot k f c).fv = c.fv := rfl
@[simp] theorem modSlot_lh : (modSlot k f c).lh = c.lh := rfl
@[simp] theorem modSlot_tm : (modSlot k f c).tm = c.tm := rfl
@[simp] theorem modSlot_td : (modSlot k f c).td = c.td := rfl
@[simp] theorem modSlot_ag : (modSlot k f c).ag = c.ag := rfl
@[simp] theorem modSlot_ma : (modSlot k f c).ma = c.ma := rfl
end

section
variable (k : Nat) (s : Option Slot) (c : Chip)
@[simp] theorem setSlot_pins : (setSlot k s c).pins = c.pins := rfl
@[simp] theorem setSlot_clock : (setSlot k s c).clock = c.clock := rfl
@[simp] theorem setSlot_freeCount : (setSlot k s c).freeCount = c.freeCount := rfl
@[simp] theorem setSlot_rp : (setSlot k s c).rp = c.rp := rfl
@[simp] theorem setSlot_si : (setSlot k s c).si = c.si := rfl
@[simp] theorem setSlot_tc : (setSlot k s c).tc = c.tc := rfl
@[simp] theorem setSlot_st : (setSlot k s c).st = c.st := rfl
@[simp] theorem setSlot_de : (setSlot k s c).de = c.de := rfl
@[simp] theorem setSlot_fv : (setSlot k s c).fv = c.fv := rfl
@[simp] theorem setSlot_lh : (setSlot k s c).lh = c.lh := rfl
@[simp] theorem setSlot_tm : (setSlot k s c).tm = c.tm := rfl
@[simp] theorem setSlot_td : (setSlot k s c).td = c.td := rfl
@[simp] theorem setSlot_ag : (setSlot k s c).ag = c.ag := rfl
@[simp] theorem setSlot_ma : (setSlot k s c).ma = c.ma := rfl
end

section
variable (p : Nat) (f : Place → Place) (c : Chip)
@[simp] theorem modPlace_pins : (modPlace p f c).pins = c.pins := rfl
@[simp] theorem modPlace_clock : (modPlace p f c).clock = c.clock := rfl
@[simp] theorem modPlace_freeCount : (modPlace p f c).freeCount = c.freeCount := rfl
@[simp] theorem modPlace_rp : (modPlace p f c).rp = c.rp := rfl
@[simp] theorem modPlace_si : (modPlace p f c).si = c.si := rfl
@[simp] theorem modPlace_tc : (modPlace p f c).tc = c.tc := rfl
@[simp] theorem modPlace_st : (modPlace p f c).st = c.st := rfl
@[simp] theorem modPlace_de : (modPlace p f c).de = c.de := rfl
@[simp] theorem modPlace_fv : (modPlace p f c).fv = c.fv := rfl
@[simp] theorem modPlace_lh : (modPlace p f c).lh = c.lh := rfl
@[simp] theorem modPlace_ba : (modPlace p f c).ba = c.ba := rfl
@[simp] theorem modPlace_td : (modPlace p f c).td = c.td := rfl
@[simp] theorem modPlace_ag : (modPlace p f c).ag = c.ag := rfl
@[simp] theorem modPlace_ma : (modPlace p f c).ma = c.ma := rfl
end

section
variable (p : Nat) (f : PlaceFields → PlaceFields) (c : Chip)
@[simp] theorem modFields_pins : (modFields p f c).pins = c.pins := rfl
@[simp] theorem modFields_clock : (modFields p f c).clock = c.clock := rfl
@[simp] theorem modFields_freeCount : (modFields p f c).freeCount = c.freeCount := rfl
@[simp] theorem modFields_rp : (modFields p f c).rp = c.rp := rfl
@[simp] theorem modFields_si : (modFields p f c).si = c.si := rfl
@[simp] theorem modFields_tc : (modFields p f c).tc = c.tc := rfl
@[simp] theorem modFields_st : (modFields p f c).st = c.st := rfl
@[simp] theorem modFields_de : (modFields p f c).de = c.de := rfl
@[simp] theorem modFields_fv : (modFields p f c).fv = c.fv := rfl
@[simp] theorem modFields_lh : (modFields p f c).lh = c.lh := rfl
@[simp] theorem modFields_ba : (modFields p f c).ba = c.ba := rfl
@[simp] theorem modFields_td : (modFields p f c).td = c.td := rfl
@[simp] theorem modFields_ag : (modFields p f c).ag = c.ag := rfl
@[simp] theorem modFields_ma : (modFields p f c).ma = c.ma := rfl
end

section
variable (p : Nat) (c : Chip)
@[simp] theorem setMark_pins : (setMark p c).pins = c.pins := rfl
@[simp] theorem setMark_clock : (setMark p c).clock = c.clock := rfl
@[simp] theorem setMark_freeCount : (setMark p c).freeCount = c.freeCount := rfl
@[simp] theorem setMark_rp : (setMark p c).rp = c.rp := rfl
@[simp] theorem setMark_si : (setMark p c).si = c.si := rfl
@[simp] theorem setMark_tc : (setMark p c).tc = c.tc := rfl
@[simp] theorem setMark_st : (setMark p c).st = c.st := rfl
@[simp] theorem setMark_de : (setMark p c).de = c.de := rfl
@[simp] theorem setMark_fv : (setMark p c).fv = c.fv := rfl
@[simp] theorem setMark_lh : (setMark p c).lh = c.lh := rfl
@[simp] theorem setMark_ba : (setMark p c).ba = c.ba := rfl
@[simp] theorem setMark_td : (setMark p c).td = c.td := rfl
@[simp] theorem setMark_ag : (setMark p c).ag = c.ag := rfl
@[simp] theorem setMark_ma : (setMark p c).ma = c.ma := rfl
end

section
variable (p : Nat) (c : Chip)
@[simp] theorem clearMark_pins : (clearMark p c).pins = c.pins := rfl
@[simp] theorem clearMark_clock : (clearMark p c).clock = c.clock := rfl
@[simp] theorem clearMark_freeCount : (clearMark p c).freeCount = c.freeCount := rfl
@[simp] theorem clearMark_rp : (clearMark p c).rp = c.rp := rfl
@[simp] theorem clearMark_si : (clearMark p c).si = c.si := rfl
@[simp] theorem clearMark_tc : (clearMark p c).tc = c.tc := rfl
@[simp] theorem clearMark_st : (clearMark p c).st = c.st := rfl
@[simp] theorem clearMark_de : (clearMark p c).de = c.de := rfl
@[simp] theorem clearMark_fv : (clearMark p c).fv = c.fv := rfl
@[simp] theorem clearMark_lh : (clearMark p c).lh = c.lh := rfl
@[simp] theorem clearMark_ba : (clearMark p c).ba = c.ba := rfl
@[simp] theorem clearMark_td : (clearMark p c).td = c.td := rfl
@[simp] theorem clearMark_ag : (clearMark p c).ag = c.ag := rfl
@[simp] theorem clearMark_ma : (clearMark p c).ma = c.ma := rfl
end

section
variable (o : Option SpiOp) (b : Bool) (c : Chip)
@[simp] theorem setSpi_pins : (setSpi o b c).pins = c.pins := rfl
@[simp] theorem setSpi_clock : (setSpi o b c).clock = c.clock := rfl
@[simp] theorem setSpi_freeCount : (setSpi o b c).freeCount = c.freeCount := rfl
@[simp] theorem setSpi_rp : (setSpi o b c).rp = c.rp := rfl
@[simp] theorem setSpi_si : (setSpi o b c).si = c.si := rfl
@[simp] theorem setSpi_tc : (setSpi o b c).tc = c.tc := rfl
@[simp] theorem setSpi_st : (setSpi o b c).st = c.st := rfl
@[simp] theorem setSpi_de : (setSpi o b c).de = c.de := rfl
@[simp] theorem setSpi_fv : (setSpi o b c).fv = c.fv := rfl
@[simp] theorem setSpi_lh : (setSpi o b c).lh = c.lh := rfl
@[simp] theorem setSpi_ba : (setSpi o b c).ba = c.ba := rfl
@[simp] theorem setSpi_td : (setSpi o b c).td = c.td := rfl
@[simp] theorem setSpi_ag : (setSpi o b c).ag = c.ag := rfl
@[simp] theorem setSpi_ma : (setSpi o b c).ma = c.ma := rfl
end

section
variable (c : Chip)
@[simp] theorem countVerifyFail_pins : (countVerifyFail c).pins = c.pins := rfl
@[simp] theorem countVerifyFail_clock : (countVerifyFail c).clock = c.clock := rfl
@[simp] theorem countVerifyFail_freeCount : (countVerifyFail c).freeCount = c.freeCount := rfl
@[simp] theorem countVerifyFail_rp : (countVerifyFail c).rp = c.rp := rfl
@[simp] theorem countVerifyFail_si : (countVerifyFail c).si = c.si := rfl
@[simp] theorem countVerifyFail_tc : (countVerifyFail c).tc = c.tc := rfl
@[simp] theorem countVerifyFail_st : (countVerifyFail c).st = c.st := rfl
@[simp] theorem countVerifyFail_de : (countVerifyFail c).de = c.de := rfl
@[simp] theorem countVerifyFail_fv : (countVerifyFail c).fv = c.fv := rfl
@[simp] theorem countVerifyFail_lh : (countVerifyFail c).lh = c.lh := rfl
@[simp] theorem countVerifyFail_ba : (countVerifyFail c).ba = c.ba := rfl
@[simp] theorem countVerifyFail_td : (countVerifyFail c).td = c.td := rfl
@[simp] theorem countVerifyFail_ag : (countVerifyFail c).ag = c.ag := rfl
@[simp] theorem countVerifyFail_ma : (countVerifyFail c).ma = c.ma := rfl
end

section
variable (n : Nat) (f : Shuttle → Shuttle) (c : Chip)
@[simp] theorem modShuttle_pins : (modShuttle n f c).pins = c.pins := rfl
@[simp] theorem modShuttle_clock : (modShuttle n f c).clock = c.clock := rfl
@[simp] theorem modShuttle_freeCount : (modShuttle n f c).freeCount = c.freeCount := rfl
@[simp] theorem modShuttle_rp : (modShuttle n f c).rp = c.rp := rfl
@[simp] theorem modShuttle_si : (modShuttle n f c).si = c.si := rfl
@[simp] theorem modShuttle_tc : (modShuttle n f c).tc = c.tc := rfl
@[simp] theorem modShuttle_st : (modShuttle n f c).st = c.st := rfl
@[simp] theorem modShuttle_de : (modShuttle n f c).de = c.de := rfl
@[simp] theorem modShuttle_fv : (modShuttle n f c).fv = c.fv := rfl
@[simp] theorem modShuttle_lh : (modShuttle n f c).lh = c.lh := rfl
@[simp] theorem modShuttle_ba : (modShuttle n f c).ba = c.ba := rfl
@[simp] theorem modShuttle_tm : (modShuttle n f c).tm = c.tm := rfl
@[simp] theorem modShuttle_ag : (modShuttle n f c).ag = c.ag := rfl
@[simp] theorem modShuttle_ma : (modShuttle n f c).ma = c.ma := rfl
end

section
variable (id : Nat) (c : Chip)
@[simp] theorem enterDock_pins : (enterDock id c).pins = c.pins := rfl
@[simp] theorem enterDock_clock : (enterDock id c).clock = c.clock := rfl
@[simp] theorem enterDock_freeCount : (enterDock id c).freeCount = c.freeCount := rfl
@[simp] theorem enterDock_rp : (enterDock id c).rp = c.rp := rfl
@[simp] theorem enterDock_si : (enterDock id c).si = c.si := rfl
@[simp] theorem enterDock_tc : (enterDock id c).tc = c.tc := rfl
@[simp] theorem enterDock_st : (enterDock id c).st = c.st := rfl
@[simp] theorem enterDock_de : (enterDock id c).de = c.de := rfl
@[simp] theorem enterDock_fv : (enterDock id c).fv = c.fv := rfl
@[simp] theorem enterDock_lh : (enterDock id c).lh = c.lh := rfl
@[simp] theorem enterDock_ba : (enterDock id c).ba = c.ba := rfl
@[simp] theorem enterDock_tm : (enterDock id c).tm = c.tm := rfl
@[simp] theorem enterDock_ag : (enterDock id c).ag = c.ag := rfl
@[simp] theorem enterDock_ma : (enterDock id c).ma = c.ma := rfl
end

section
variable (id : Nat) (f : Segment → Segment) (c : Chip)
@[simp] theorem modSegment_pins : (modSegment id f c).pins = c.pins := rfl
@[simp] theorem modSegment_clock : (modSegment id f c).clock = c.clock := rfl
@[simp] theorem modSegment_freeCount : (modSegment id f c).freeCount = c.freeCount := rfl
@[simp] theorem modSegment_rp : (modSegment id f c).rp = c.rp := rfl
@[simp] theorem modSegment_si : (modSegment id f c).si = c.si := rfl
@[simp] theorem modSegment_tc : (modSegment id f c).tc = c.tc := rfl
@[simp] theorem modSegment_de : (modSegment id f c).de = c.de := rfl
@[simp] theorem modSegment_fv : (modSegment id f c).fv = c.fv := rfl
@[simp] theorem modSegment_lh : (modSegment id f c).lh = c.lh := rfl
@[simp] theorem modSegment_ba : (modSegment id f c).ba = c.ba := rfl
@[simp] theorem modSegment_tm : (modSegment id f c).tm = c.tm := rfl
@[simp] theorem modSegment_td : (modSegment id f c).td = c.td := rfl
@[simp] theorem modSegment_ag : (modSegment id f c).ag = c.ag := rfl
@[simp] theorem modSegment_ma : (modSegment id f c).ma = c.ma := rfl
end

section
variable (id : Nat) (c : Chip)
@[simp] theorem removeSegment_pins : (removeSegment id c).pins = c.pins := rfl
@[simp] theorem removeSegment_clock : (removeSegment id c).clock = c.clock := rfl
@[simp] theorem removeSegment_freeCount : (removeSegment id c).freeCount = c.freeCount := rfl
@[simp] theorem removeSegment_rp : (removeSegment id c).rp = c.rp := rfl
@[simp] theorem removeSegment_si : (removeSegment id c).si = c.si := rfl
@[simp] theorem removeSegment_tc : (removeSegment id c).tc = c.tc := rfl
@[simp] theorem removeSegment_de : (removeSegment id c).de = c.de := rfl
@[simp] theorem removeSegment_fv : (removeSegment id c).fv = c.fv := rfl
@[simp] theorem removeSegment_lh : (removeSegment id c).lh = c.lh := rfl
@[simp] theorem removeSegment_ba : (removeSegment id c).ba = c.ba := rfl
@[simp] theorem removeSegment_tm : (removeSegment id c).tm = c.tm := rfl
@[simp] theorem removeSegment_td : (removeSegment id c).td = c.td := rfl
@[simp] theorem removeSegment_ag : (removeSegment id c).ag = c.ag := rfl
@[simp] theorem removeSegment_ma : (removeSegment id c).ma = c.ma := rfl
end

section
variable (i : Nat) (c : Chip)
@[simp] theorem leaveGap_pins : (leaveGap i c).pins = c.pins := rfl
@[simp] theorem leaveGap_clock : (leaveGap i c).clock = c.clock := rfl
@[simp] theorem leaveGap_freeCount : (leaveGap i c).freeCount = c.freeCount := rfl
@[simp] theorem leaveGap_rp : (leaveGap i c).rp = c.rp := rfl
@[simp] theorem leaveGap_si : (leaveGap i c).si = c.si := rfl
@[simp] theorem leaveGap_tc : (leaveGap i c).tc = c.tc := rfl
@[simp] theorem leaveGap_de : (leaveGap i c).de = c.de := rfl
@[simp] theorem leaveGap_fv : (leaveGap i c).fv = c.fv := rfl
@[simp] theorem leaveGap_lh : (leaveGap i c).lh = c.lh := rfl
@[simp] theorem leaveGap_ba : (leaveGap i c).ba = c.ba := rfl
@[simp] theorem leaveGap_tm : (leaveGap i c).tm = c.tm := rfl
@[simp] theorem leaveGap_td : (leaveGap i c).td = c.td := rfl
@[simp] theorem leaveGap_ag : (leaveGap i c).ag = c.ag := rfl
@[simp] theorem leaveGap_ma : (leaveGap i c).ma = c.ma := rfl
end

section
variable (z : Nat) (f : DoseZone → DoseZone) (c : Chip)
@[simp] theorem modDose_pins : (modDose z f c).pins = c.pins := rfl
@[simp] theorem modDose_clock : (modDose z f c).clock = c.clock := rfl
@[simp] theorem modDose_freeCount : (modDose z f c).freeCount = c.freeCount := rfl
@[simp] theorem modDose_rp : (modDose z f c).rp = c.rp := rfl
@[simp] theorem modDose_si : (modDose z f c).si = c.si := rfl
@[simp] theorem modDose_tc : (modDose z f c).tc = c.tc := rfl
@[simp] theorem modDose_st : (modDose z f c).st = c.st := rfl
@[simp] theorem modDose_fv : (modDose z f c).fv = c.fv := rfl
@[simp] theorem modDose_lh : (modDose z f c).lh = c.lh := rfl
@[simp] theorem modDose_ba : (modDose z f c).ba = c.ba := rfl
@[simp] theorem modDose_tm : (modDose z f c).tm = c.tm := rfl
@[simp] theorem modDose_td : (modDose z f c).td = c.td := rfl
@[simp] theorem modDose_ag : (modDose z f c).ag = c.ag := rfl
@[simp] theorem modDose_ma : (modDose z f c).ma = c.ma := rfl
end

section
variable (f : Fv → Fv) (c : Chip)
@[simp] theorem modFv_pins : (modFv f c).pins = c.pins := rfl
@[simp] theorem modFv_clock : (modFv f c).clock = c.clock := rfl
@[simp] theorem modFv_freeCount : (modFv f c).freeCount = c.freeCount := rfl
@[simp] theorem modFv_rp : (modFv f c).rp = c.rp := rfl
@[simp] theorem modFv_si : (modFv f c).si = c.si := rfl
@[simp] theorem modFv_tc : (modFv f c).tc = c.tc := rfl
@[simp] theorem modFv_st : (modFv f c).st = c.st := rfl
@[simp] theorem modFv_de : (modFv f c).de = c.de := rfl
@[simp] theorem modFv_lh : (modFv f c).lh = c.lh := rfl
@[simp] theorem modFv_ba : (modFv f c).ba = c.ba := rfl
@[simp] theorem modFv_tm : (modFv f c).tm = c.tm := rfl
@[simp] theorem modFv_td : (modFv f c).td = c.td := rfl
@[simp] theorem modFv_ag : (modFv f c).ag = c.ag := rfl
@[simp] theorem modFv_ma : (modFv f c).ma = c.ma := rfl
end

section
variable (id : Nat) (c : Chip)
@[simp] theorem leaveWindow_pins : (leaveWindow id c).pins = c.pins := rfl
@[simp] theorem leaveWindow_clock : (leaveWindow id c).clock = c.clock := rfl
@[simp] theorem leaveWindow_freeCount : (leaveWindow id c).freeCount = c.freeCount := rfl
@[simp] theorem leaveWindow_rp : (leaveWindow id c).rp = c.rp := rfl
@[simp] theorem leaveWindow_si : (leaveWindow id c).si = c.si := rfl
@[simp] theorem leaveWindow_tc : (leaveWindow id c).tc = c.tc := rfl
@[simp] theorem leaveWindow_st : (leaveWindow id c).st = c.st := rfl
@[simp] theorem leaveWindow_de : (leaveWindow id c).de = c.de := rfl
@[simp] theorem leaveWindow_lh : (leaveWindow id c).lh = c.lh := rfl
@[simp] theorem leaveWindow_ba : (leaveWindow id c).ba = c.ba := rfl
@[simp] theorem leaveWindow_tm : (leaveWindow id c).tm = c.tm := rfl
@[simp] theorem leaveWindow_td : (leaveWindow id c).td = c.td := rfl
@[simp] theorem leaveWindow_ag : (leaveWindow id c).ag = c.ag := rfl
@[simp] theorem leaveWindow_ma : (leaveWindow id c).ma = c.ma := rfl
end

section
variable (t : Trap) (c : Chip)
@[simp] theorem addTrap_pins : (addTrap t c).pins = c.pins := rfl
@[simp] theorem addTrap_clock : (addTrap t c).clock = c.clock := rfl
@[simp] theorem addTrap_freeCount : (addTrap t c).freeCount = c.freeCount := rfl
@[simp] theorem addTrap_rp : (addTrap t c).rp = c.rp := rfl
@[simp] theorem addTrap_si : (addTrap t c).si = c.si := rfl
@[simp] theorem addTrap_tc : (addTrap t c).tc = c.tc := rfl
@[simp] theorem addTrap_st : (addTrap t c).st = c.st := rfl
@[simp] theorem addTrap_de : (addTrap t c).de = c.de := rfl
@[simp] theorem addTrap_fv : (addTrap t c).fv = c.fv := rfl
@[simp] theorem addTrap_lh : (addTrap t c).lh = c.lh := rfl
@[simp] theorem addTrap_ba : (addTrap t c).ba = c.ba := rfl
@[simp] theorem addTrap_tm : (addTrap t c).tm = c.tm := rfl
@[simp] theorem addTrap_td : (addTrap t c).td = c.td := rfl
@[simp] theorem addTrap_ma : (addTrap t c).ma = c.ma := rfl
end

section
variable (m : Mode) (c : Chip)
@[simp] theorem withMode_pins : (withMode m c).pins = c.pins := rfl
@[simp] theorem withMode_clock : (withMode m c).clock = c.clock := rfl
@[simp] theorem withMode_freeCount : (withMode m c).freeCount = c.freeCount := rfl
@[simp] theorem withMode_rp : (withMode m c).rp = c.rp := rfl
@[simp] theorem withMode_si : (withMode m c).si = c.si := rfl
@[simp] theorem withMode_tc : (withMode m c).tc = c.tc := rfl
@[simp] theorem withMode_st : (withMode m c).st = c.st := rfl
@[simp] theorem withMode_de : (withMode m c).de = c.de := rfl
@[simp] theorem withMode_fv : (withMode m c).fv = c.fv := rfl
@[simp] theorem withMode_lh : (withMode m c).lh = c.lh := rfl
@[simp] theorem withMode_ba : (withMode m c).ba = c.ba := rfl
@[simp] theorem withMode_tm : (withMode m c).tm = c.tm := rfl
@[simp] theorem withMode_td : (withMode m c).td = c.td := rfl
@[simp] theorem withMode_ma : (withMode m c).ma = c.ma := rfl
end

section
variable (b : Bool) (c : Chip)
@[simp] theorem withCfg_clock : (withCfg b c).clock = c.clock := rfl
@[simp] theorem withCfg_freeCount : (withCfg b c).freeCount = c.freeCount := rfl
@[simp] theorem withCfg_rp : (withCfg b c).rp = c.rp := rfl
@[simp] theorem withCfg_si : (withCfg b c).si = c.si := rfl
@[simp] theorem withCfg_tc : (withCfg b c).tc = c.tc := rfl
@[simp] theorem withCfg_st : (withCfg b c).st = c.st := rfl
@[simp] theorem withCfg_de : (withCfg b c).de = c.de := rfl
@[simp] theorem withCfg_fv : (withCfg b c).fv = c.fv := rfl
@[simp] theorem withCfg_lh : (withCfg b c).lh = c.lh := rfl
@[simp] theorem withCfg_ba : (withCfg b c).ba = c.ba := rfl
@[simp] theorem withCfg_tm : (withCfg b c).tm = c.tm := rfl
@[simp] theorem withCfg_td : (withCfg b c).td = c.td := rfl
@[simp] theorem withCfg_ag : (withCfg b c).ag = c.ag := rfl
@[simp] theorem withCfg_ma : (withCfg b c).ma = c.ma := rfl
end

section
variable (c : Chip)
@[simp] theorem evalStopN_clock : (evalStopN c).clock = c.clock := rfl
@[simp] theorem evalStopN_freeCount : (evalStopN c).freeCount = c.freeCount := rfl
@[simp] theorem evalStopN_rp : (evalStopN c).rp = c.rp := rfl
@[simp] theorem evalStopN_si : (evalStopN c).si = c.si := rfl
@[simp] theorem evalStopN_tc : (evalStopN c).tc = c.tc := rfl
@[simp] theorem evalStopN_st : (evalStopN c).st = c.st := rfl
@[simp] theorem evalStopN_de : (evalStopN c).de = c.de := rfl
@[simp] theorem evalStopN_fv : (evalStopN c).fv = c.fv := rfl
@[simp] theorem evalStopN_lh : (evalStopN c).lh = c.lh := rfl
@[simp] theorem evalStopN_ba : (evalStopN c).ba = c.ba := rfl
@[simp] theorem evalStopN_tm : (evalStopN c).tm = c.tm := rfl
@[simp] theorem evalStopN_td : (evalStopN c).td = c.td := rfl
@[simp] theorem evalStopN_ag : (evalStopN c).ag = c.ag := rfl
@[simp] theorem evalStopN_ma : (evalStopN c).ma = c.ma := rfl
end

section
variable (k : AlertKind) (a : Option PendingAlert) (c : Chip)
@[simp] theorem setAlert_clock : (setAlert k a c).clock = c.clock := rfl
@[simp] theorem setAlert_freeCount : (setAlert k a c).freeCount = c.freeCount := rfl
@[simp] theorem setAlert_rp : (setAlert k a c).rp = c.rp := rfl
@[simp] theorem setAlert_si : (setAlert k a c).si = c.si := rfl
@[simp] theorem setAlert_tc : (setAlert k a c).tc = c.tc := rfl
@[simp] theorem setAlert_st : (setAlert k a c).st = c.st := rfl
@[simp] theorem setAlert_de : (setAlert k a c).de = c.de := rfl
@[simp] theorem setAlert_fv : (setAlert k a c).fv = c.fv := rfl
@[simp] theorem setAlert_lh : (setAlert k a c).lh = c.lh := rfl
@[simp] theorem setAlert_ba : (setAlert k a c).ba = c.ba := rfl
@[simp] theorem setAlert_tm : (setAlert k a c).tm = c.tm := rfl
@[simp] theorem setAlert_td : (setAlert k a c).td = c.td := rfl
@[simp] theorem setAlert_ag : (setAlert k a c).ag = c.ag := rfl
end

section
variable (a : Option Assembly) (c : Chip)
@[simp] theorem setAssembly_pins : (setAssembly a c).pins = c.pins := rfl
@[simp] theorem setAssembly_clock : (setAssembly a c).clock = c.clock := rfl
@[simp] theorem setAssembly_freeCount : (setAssembly a c).freeCount = c.freeCount := rfl
@[simp] theorem setAssembly_rp : (setAssembly a c).rp = c.rp := rfl
@[simp] theorem setAssembly_si : (setAssembly a c).si = c.si := rfl
@[simp] theorem setAssembly_tc : (setAssembly a c).tc = c.tc := rfl
@[simp] theorem setAssembly_st : (setAssembly a c).st = c.st := rfl
@[simp] theorem setAssembly_de : (setAssembly a c).de = c.de := rfl
@[simp] theorem setAssembly_fv : (setAssembly a c).fv = c.fv := rfl
@[simp] theorem setAssembly_lh : (setAssembly a c).lh = c.lh := rfl
@[simp] theorem setAssembly_ba : (setAssembly a c).ba = c.ba := rfl
@[simp] theorem setAssembly_tm : (setAssembly a c).tm = c.tm := rfl
@[simp] theorem setAssembly_td : (setAssembly a c).td = c.td := rfl
@[simp] theorem setAssembly_ag : (setAssembly a c).ag = c.ag := rfl
end

section
variable (i : Nat) (c : Chip)
@[simp] theorem dropEntry_pins : (dropEntry i c).pins = c.pins := rfl
@[simp] theorem dropEntry_clock : (dropEntry i c).clock = c.clock := rfl
@[simp] theorem dropEntry_freeCount : (dropEntry i c).freeCount = c.freeCount := rfl
@[simp] theorem dropEntry_si : (dropEntry i c).si = c.si := rfl
@[simp] theorem dropEntry_tc : (dropEntry i c).tc = c.tc := rfl
@[simp] theorem dropEntry_st : (dropEntry i c).st = c.st := rfl
@[simp] theorem dropEntry_de : (dropEntry i c).de = c.de := rfl
@[simp] theorem dropEntry_fv : (dropEntry i c).fv = c.fv := rfl
@[simp] theorem dropEntry_lh : (dropEntry i c).lh = c.lh := rfl
@[simp] theorem dropEntry_ba : (dropEntry i c).ba = c.ba := rfl
@[simp] theorem dropEntry_tm : (dropEntry i c).tm = c.tm := rfl
@[simp] theorem dropEntry_td : (dropEntry i c).td = c.td := rfl
@[simp] theorem dropEntry_ag : (dropEntry i c).ag = c.ag := rfl
@[simp] theorem dropEntry_ma : (dropEntry i c).ma = c.ma := rfl
end

section
variable (e : ForwardEntry) (c : Chip)
@[simp] theorem sendForward_pins : (sendForward e c).pins = c.pins := rfl
@[simp] theorem sendForward_clock : (sendForward e c).clock = c.clock := rfl
@[simp] theorem sendForward_freeCount : (sendForward e c).freeCount = c.freeCount := rfl
@[simp] theorem sendForward_si : (sendForward e c).si = c.si := rfl
@[simp] theorem sendForward_tc : (sendForward e c).tc = c.tc := rfl
@[simp] theorem sendForward_st : (sendForward e c).st = c.st := rfl
@[simp] theorem sendForward_de : (sendForward e c).de = c.de := rfl
@[simp] theorem sendForward_fv : (sendForward e c).fv = c.fv := rfl
@[simp] theorem sendForward_lh : (sendForward e c).lh = c.lh := rfl
@[simp] theorem sendForward_ba : (sendForward e c).ba = c.ba := rfl
@[simp] theorem sendForward_tm : (sendForward e c).tm = c.tm := rfl
@[simp] theorem sendForward_td : (sendForward e c).td = c.td := rfl
@[simp] theorem sendForward_ag : (sendForward e c).ag = c.ag := rfl
@[simp] theorem sendForward_ma : (sendForward e c).ma = c.ma := rfl
end

/-! What the updates do to their own block. -/

@[simp] theorem withCfg_pins (b : Bool) (c : Chip) : (withCfg b c).pins = { c.pins with cfg := b } := rfl
@[simp] theorem withMode_ag (m : Mode) (c : Chip) : (withMode m c).ag = { c.ag with mode := m } := rfl
@[simp] theorem setAssembly_ma (a : Option Assembly) (c : Chip) : (setAssembly a c).ma = { c.ma with assembly := a } := rfl
@[simp] theorem dropEntry_rp (i : Nat) (c : Chip) :
    (dropEntry i c).rp = { c.rp with returnList := c.rp.returnList.eraseIdx i } := rfl
@[simp] theorem modFv_fv (f : Fv → Fv) (c : Chip) : (modFv f c).fv = f c.fv := rfl
@[simp] theorem setAlert_pins (k : AlertKind) (a : Option PendingAlert) (c : Chip) :
    (setAlert k a c).pins = { c.pins with stopN := stopLevel (c.ma.pending.set k.index a) c.ma.routes } := rfl
@[simp] theorem setAlert_ma (k : AlertKind) (a : Option PendingAlert) (c : Chip) :
    (setAlert k a c).ma = { c.ma with pending := c.ma.pending.set k.index a } := rfl

end Sys2Proof.Machine
end

