-- ==== Sys2Proof/Laws/Memory.lean ====
section
/-! SUPPORT. The trace memory: every operation keeps the canonical form, and what a byte reads as after it. -/

namespace Sys2Proof.Machine

theorem Memory.wfFrom_mono {lo lo' : Nat} {m : Memory} (h : lo' ≤ lo) (w : Memory.wfFrom lo m = true) :
    Memory.wfFrom lo' m = true := by
  cases m with
  | nil => rfl
  | cons x m =>
    obtain ⟨a, b⟩ := x
    simp only [Memory.wfFrom, Bool.and_eq_true, decide_eq_true_eq] at w ⊢
    exact ⟨⟨by omega, w.1.2⟩, w.2⟩

theorem Memory.read_of_lt {lo x : Nat} {m : Memory} (w : Memory.wfFrom lo m = true) (h : x < lo) :
    Memory.read m x = Memory.blank := by
  induction m generalizing lo with
  | nil => rfl
  | cons y m ih =>
    obtain ⟨a, b⟩ := y
    simp only [Memory.wfFrom, Bool.and_eq_true, decide_eq_true_eq] at w
    have : a ≠ x := by omega
    simp only [Memory.read, this, if_false]
    exact ih w.2 (by omega)

theorem Memory.write_wfFrom {lo a : Nat} {b : Byte} {m : Memory} (w : Memory.wfFrom lo m = true) (h : lo ≤ a) :
    Memory.wfFrom lo (Memory.write a b m) = true := by
  induction m generalizing lo with
  | nil =>
    by_cases hb : b = Memory.blank
    · simp [Memory.write, hb, Memory.wfFrom]
    · simp [Memory.write, hb, Memory.wfFrom, h]
  | cons y m ih =>
    obtain ⟨x, v⟩ := y
    simp only [Memory.wfFrom, Bool.and_eq_true, decide_eq_true_eq] at w
    obtain ⟨⟨hx, hv⟩, wm⟩ := w
    unfold Memory.write
    by_cases h1 : a < x
    · rw [if_pos h1]
      by_cases hb : b = Memory.blank
      · simp [hb, Memory.wfFrom, hx, hv, wm]
      · simp only [hb, if_false, Memory.wfFrom, Bool.and_eq_true, decide_eq_true_eq]
        exact ⟨⟨h, hb⟩, ⟨by omega, hv⟩, wm⟩
    · rw [if_neg h1]
      by_cases h2 : a = x
      · rw [if_pos h2]
        by_cases hb : b = Memory.blank
        · simp only [hb, if_true]
          exact Memory.wfFrom_mono (by omega) wm
        · simp only [hb, if_false, Memory.wfFrom, Bool.and_eq_true, decide_eq_true_eq]
          exact ⟨⟨h, hb⟩, by rw [h2]; exact wm⟩
      · rw [if_neg h2]
        simp only [Memory.wfFrom, Bool.and_eq_true, decide_eq_true_eq]
        exact ⟨⟨hx, hv⟩, ih wm (by omega)⟩

theorem Memory.write_wf {a : Nat} {b : Byte} {m : Memory} (w : Memory.wf m = true) :
    Memory.wf (Memory.write a b m) = true := Memory.write_wfFrom w (Nat.zero_le a)

theorem Memory.writeAll_wf {bs : List Byte} {a : Nat} {m : Memory} (w : Memory.wf m = true) :
    Memory.wf (Memory.writeAll a bs m) = true := by
  induction bs generalizing a m with
  | nil => exact w
  | cons b bs ih => exact ih (Memory.write_wf w)

theorem storePlace_wf {p : Nat} {bs : List Byte} {m : Memory} (w : Memory.wf m = true) :
    Memory.wf (storePlace p bs m) = true := Memory.writeAll_wf (Memory.writeAll_wf w)

theorem writeMemory_wf {p : Nat} {bs e1 e2 : List Byte} {m : Memory} (w : Memory.wf m = true) :
    Memory.wf (writeMemory p bs e1 e2 m).1 = true := storePlace_wf w

theorem rewriteMemory_wf {p : Nat} {h : HoldSet} {e1 e2 e3 : List Byte} {m : Memory} (w : Memory.wf m = true) :
    Memory.wf (rewriteMemory p h e1 e2 e3 m).1 = true := by
  unfold rewriteMemory
  split
  · exact w
  · exact writeMemory_wf w

/-- Reading one byte after storing one. -/
theorem Memory.read_write {a x : Nat} {b : Byte} {m : Memory} {lo : Nat} (w : Memory.wfFrom lo m = true) :
    Memory.read (Memory.write a b m) x = if x = a then b else Memory.read m x := by
  induction m generalizing lo with
  | nil =>
    by_cases hb : b = Memory.blank
    · simp [Memory.write, hb, Memory.read]
    · by_cases hx : a = x
      · simp [Memory.write, hb, Memory.read, hx]
      · simp [Memory.write, hb, Memory.read, hx, Ne.symm hx]
  | cons y m ih =>
    obtain ⟨z, v⟩ := y
    simp only [Memory.wfFrom, Bool.and_eq_true, decide_eq_true_eq] at w
    obtain ⟨_, wm⟩ := w
    unfold Memory.write
    by_cases h1 : a < z
    · rw [if_pos h1]
      by_cases hb : b = Memory.blank
      · rw [if_pos hb]
        by_cases hx : x = a
        · subst hx
          have hz : z ≠ x := by omega
          simp only [Memory.read, hz, if_false, if_true, hb]
          exact Memory.read_of_lt wm (by omega)
        · rw [if_neg hx]
      · rw [if_neg hb]
        by_cases hx : x = a
        · subst hx; simp [Memory.read]
        · simp [Memory.read, hx, Ne.symm hx]
    · rw [if_neg h1]
      by_cases h2 : a = z
      · subst h2
        rw [if_pos rfl]
        by_cases hb : b = Memory.blank
        · rw [if_pos hb]
          by_cases hx : x = a
          · subst hx
            rw [if_pos rfl, hb]
            exact Memory.read_of_lt wm (by omega)
          · simp [Memory.read, hx, Ne.symm hx]
        · rw [if_neg hb]
          by_cases hx : x = a
          · subst hx; simp [Memory.read]
          · simp [Memory.read, hx, Ne.symm hx]
      · rw [if_neg h2]
        by_cases hx : z = x
        · subst hx; simp [Memory.read, Ne.symm h2]
        · simp only [Memory.read, hx, if_false]
          exact ih wm

/-- Reading a byte outside consecutive stored bytes. -/
theorem Memory.read_writeAll_outside {bs : List Byte} {a x : Nat} {m : Memory} (w : Memory.wf m = true)
    (h : x < a ∨ a + bs.length ≤ x) : Memory.read (Memory.writeAll a bs m) x = Memory.read m x := by
  induction bs generalizing a m with
  | nil => rfl
  | cons b bs ih =>
    simp only [List.length_cons] at h
    have hx : x ≠ a := by omega
    rw [Memory.writeAll, ih (Memory.write_wf w) (by omega), Memory.read_write (lo := 0) w, if_neg hx]

/-- Reading a byte among consecutive stored bytes. -/
theorem Memory.read_writeAll_inside {bs : List Byte} {a i : Nat} {m : Memory} (w : Memory.wf m = true)
    (h : i < bs.length) : Memory.read (Memory.writeAll a bs m) (a + i) = bs.getD i 0 := by
  induction bs generalizing a m i with
  | nil => exact absurd h (Nat.not_lt_zero i)
  | cons b bs ih =>
    cases i with
    | zero =>
      rw [Memory.writeAll, Memory.read_writeAll_outside (Memory.write_wf w) (by omega), Memory.read_write (lo := 0) w]
      simp
    | succ i =>
      have e : a + (i + 1) = (a + 1) + i := by omega
      rw [Memory.writeAll, e, ih (Memory.write_wf w) (by simpa using h)]
      simp

/-- Every address outside a place's 64 bytes and its eight codes reads as before (R150). -/
theorem read_storePlace_outside {p x : Nat} {bs : List Byte} {m : Memory} (w : Memory.wf m = true)
    (h1 : x < placeAddr p ∨ placeAddr p + 64 ≤ x) (h2 : x < codeAddr p ∨ codeAddr p + 8 ≤ x) :
    Memory.read (storePlace p bs m) x = Memory.read m x := by
  have l1 : (bs.take 64).length ≤ 64 := List.length_take_le ..
  have l2 : ((bs.drop 64).take 8).length ≤ 8 := List.length_take_le ..
  unfold storePlace
  rw [Memory.read_writeAll_outside (Memory.writeAll_wf w) (by omega), Memory.read_writeAll_outside w (by omega)]

end Sys2Proof.Machine
end

