-- ==== Sys2Proof/Laws/Keep.lean ====
section
/-! SUPPORT. What the shared operations keep. `still` is what every operation of the queues, the alerts, the reports and
the trace memory keeps; `front` is what every event keeps but those of the ring state, the pins and the tables. -/

namespace Sys2Proof.Machine

set_option Elab.async false

/-- The part with everything blanked that the handing of frames, the alerts, the lots, the bags, the pallets, the trace
memory controller and the dispatcher change. -/
def still (c : Chip) : Chip :=
  { c with
    pins := { c.pins with stopN := true }, freeCount := 0,
    rp := { c.rp with txQueue := [], returnList := [], forward := [], nextSeq := 0, tx := none },
    tc := { c.tc with unsent := [] }, lh := { c.lh with lots := [], lastHanding := none }, ba := .power, tm := .power,
    td := .power, ag := { Ag.power with mode := c.ag.mode, guards := c.ag.guards },
    ma := { c.ma with queue := [], phase := .idle, pending := [], lastHanding := none } }

/-- The part with the sample intake, the trackers and the assembly blanked too. -/
def front (c : Chip) : Chip :=
  { still c with si := .power, tc := .power, st := .power, de := .power, fv := .power,
                 ma := { (still c).ma with assembly := none } }

theorem front_of_still {c d : Chip} (h : still c = still d) : front c = front d := by
  unfold front; rw [h]

theorem still_foldl {α : Type} {f : Chip → α → Chip} (h : ∀ c x, still (f c x) = still c) (l : List α) (c : Chip) :
    still (l.foldl f c) = still c := by
  induction l generalizing c with
  | nil => rfl
  | cons x l ih => rw [List.foldl_cons, ih, h]

theorem front_foldl {α : Type} {f : Chip → α → Chip} (h : ∀ c x, front (f c x) = front c) (l : List α) (c : Chip) :
    front (l.foldl f c) = front c := by
  induction l generalizing c with
  | nil => rfl
  | cons x l ih => rw [List.foldl_cons, ih, h]

section Updates
variable (c : Chip)
@[simp] theorem still_modLot (i f) : still (modLot i f c) = still c := rfl
@[simp] theorem still_modPallet (i f) : still (modPallet i f c) = still c := rfl
@[simp] theorem still_modPlace (i f) : still (modPlace i f c) = still c := rfl
@[simp] theorem still_modFields (i f) : still (modFields i f c) = still c := rfl
@[simp] theorem still_setAlert (k a) : still (setAlert k a c) = still c := rfl
@[simp] theorem still_addTrap (t) : still (addTrap t c) = still c := rfl
@[simp] theorem still_setUnsent (n b) : still (setUnsent n b c) = still c := rfl
@[simp] theorem still_takeFree : still (takeFree c).1 = still c := rfl
@[simp] theorem still_evalStopN : still (evalStopN c) = still c := rfl
end Updates

@[simp] theorem still_reportHandedBack (s : FrameSource) (c : Chip) : still (reportHandedBack s c) = still c := by
  cases s <;> rfl

@[simp] theorem still_beginOwn (f : OwnFrame) (c : Chip) : still (beginOwn f c) = still c := rfl

@[simp] theorem still_acceptFrame (f : OwnFrame) (c : Chip) : still (acceptFrame f c) = still c := by
  unfold acceptFrame; split <;> rfl

theorem still_txQueue (c : Chip) (q) : still { c with rp := { c.rp with txQueue := q } } = still c := rfl

@[simp] theorem still_rpOffer (f : OwnFrame) (c : Chip) : still (rpOffer f c).1 = still c := by
  unfold rpOffer
  repeat' split
  all_goals first | rfl | simp [still_txQueue]

@[simp] theorem still_handAlert (k : AlertKind) (c : Chip) : still (handAlert k c).1 = still c := by
  unfold handAlert
  split
  · next a d _ _ => exact still_rpOffer (alertFrame k a d c) c
  · rfl

@[simp] theorem still_countAlert (k : AlertKind) (c : Chip) : still (countAlert k c) = still c := by
  unfold countAlert; split <;> rfl

@[simp] theorem still_addAlert (k t w) (c : Chip) : still (addAlert k t w c) = still c := rfl

@[simp] theorem still_raiseOverflow (c : Chip) : still (raiseOverflow c) = still c := by
  grind [raiseOverflow, still_countAlert, still_handAlert, still_addAlert]

@[simp] theorem still_raise (k t w) (c : Chip) : still (raise k t w c) = still c := by
  grind [raise, still_countAlert, still_handAlert, still_addAlert, still_raiseOverflow]

@[simp] theorem still_raiseNat (k t n) (c : Chip) : still (raiseNat k t n c) = still c := still_raise ..

@[simp] theorem still_rpHand (f : OwnFrame) (c : Chip) : still (rpHand f c).1 = still c := by
  grind [rpHand, still_rpOffer, still_raiseOverflow]

/-! ## Own actuations -/

@[simp] theorem still_agOwn (k v) (c : Chip) : still (agOwn k v c).1 = still c := by
  grind [agOwn, still_rpHand, still_addTrap]

@[simp] theorem still_gateFault (n) (c : Chip) : still (gateFault n c) = still c := by
  unfold gateFault; rw [still_raiseNat]; rfl

@[simp] theorem still_agConfirm (n v s m t) (c : Chip) : still (agConfirm n v s m t c).1 = still c := by
  unfold agConfirm
  repeat' split
  all_goals first | rfl | (rw [still_gateFault]; rfl)

@[simp] theorem still_sendValue (n k v s m t) (c : Chip) : still (sendValue n k v s m t c).1 = still c := by
  grind [sendValue, still_agOwn, still_agConfirm, still_setUnsent]

@[simp] theorem still_sendPause (c : Chip) : still (sendPause c) = still c := by
  grind [sendPause, still_sendValue]

@[simp] theorem still_sendIntended (n) (c : Chip) : still (sendIntended n c) = still c := by
  grind [sendIntended, still_sendValue]

/-! ## The dock -/

@[simp] theorem still_evalDestination (id) (c : Chip) : still (evalDestination id c) = still c := rfl
@[simp] theorem still_changePalletHold (id f) (c : Chip) : still (changePalletHold id f c) = still c := rfl
@[simp] theorem still_enterDock (id) (c : Chip) : still (enterDock id c) = still c := rfl
@[simp] theorem still_modShuttle (n f) (c : Chip) : still (modShuttle n f c) = still c := rfl

@[simp] theorem still_checkExhausted (id) (c : Chip) : still (checkExhausted id c) = still c := by
  grind [checkExhausted, still_raiseNat, still_changePalletHold, still_modPallet]

@[simp] theorem still_exposePallet (id) (c : Chip) : still (exposePallet id c) = still c := by
  grind [exposePallet, still_checkExhausted, still_modPallet]

@[simp] theorem still_exposeAll (c : Chip) : still (exposeAll c) = still c :=
  still_foldl (fun c x => still_exposePallet x c) _ c

theorem still_dock (c : Chip) (d) : still { c with td := { c.td with dock := d } } = still c := rfl
theorem still_lost (c : Chip) (n) : still { c with td := { c.td with lost := n } } = still c := rfl

@[simp] theorem still_assignPallet (p n) (c : Chip) : still (assignPallet p n c).1 = still c := by
  grind [assignPallet, still_agOwn, still_modPallet, still_modShuttle, still_evalDestination, still_enterDock, still_dock,
    still_lost]

@[simp] theorem still_arbitrationLoop (k) (c : Chip) : still (arbitrationLoop k c) = still c := by
  induction k generalizing c with
  | zero => rfl
  | succ k ih => grind [arbitrationLoop, still_assignPallet]

@[simp] theorem still_arbitrate (c : Chip) : still (arbitrate c) = still c := by
  grind [arbitrate, still_arbitrationLoop, still_exposeAll]

@[simp] theorem still_takePallet (id) (c : Chip) : still (takePallet id c) = still c := by
  grind [takePallet, still_arbitrate, still_modPallet, still_evalDestination, still_enterDock]

/-! ## The trace memory controller -/

theorem still_tm (c : Chip) (t : Tm) : still { c with tm := t } = still c := rfl
theorem still_ba (c : Chip) (b : Ba) : still { c with ba := b } = still c := rfl

@[simp] theorem still_setMark (p) (c : Chip) : still (setMark p c) = still c := rfl
@[simp] theorem still_clearMark (p) (c : Chip) : still (clearMark p c) = still c := rfl
@[simp] theorem still_modQueued (p f) (c : Chip) : still (modQueued p f c) = still c := rfl
@[simp] theorem still_freePlace (p) (c : Chip) : still (freePlace p c) = still c := by
  simp [freePlace]

@[simp] theorem still_setSpi (o b) (c : Chip) : still (setSpi o b c) = still c := rfl

@[simp] theorem still_grantWork (c : Chip) : still (grantWork c) = still c := by
  unfold grantWork
  repeat' split
  all_goals simp

@[simp] theorem still_whenWaiting (c d : Chip) : still (whenWaiting c d) = still d := by
  unfold whenWaiting; split <;> simp

@[simp] theorem still_placeReport (r p) (c : Chip) : still (placeReport r p c) = still c := by
  grind [placeReport, still_modPallet, still_ba]

@[simp] theorem still_placeRecord (p r) (c : Chip) : still (placeRecord p r c) = still c := by
  grind [placeRecord, still_placeReport, still_whenWaiting, still_modPlace, still_tm]

@[simp] theorem still_backlogRises (c : Chip) : still (backlogRises c) = still c := by
  unfold backlogRises
  split
  · rw [still_sendPause, still_raiseNat]
  · rw [still_sendPause, still_raise]; rfl

@[simp] theorem still_takeRecord (r) (c : Chip) : still (takeRecord r c).1 = still c := by
  grind [takeRecord, still_placeRecord, still_backlogRises, still_tm]

@[simp] theorem still_placeHeld (c : Chip) : still (placeHeld c).1 = still c := by
  grind [placeHeld, still_sendPause, still_placeRecord, still_tm]

@[simp] theorem still_amendPlace (p f) (c : Chip) : still (amendPlace p f c) = still c := by
  grind [amendPlace, still_modFields, still_setMark, still_modQueued, still_whenWaiting]

@[simp] theorem still_amendBag (l s f) (c : Chip) : still (amendBag l s f c) = still c := by
  grind [amendBag, still_amendPlace, still_tm]

@[simp] theorem still_faultPallet (p) (c : Chip) : still (faultPallet p c) = still c := by
  cases p <;> grind [faultPallet, still_changePalletHold]

@[simp] theorem still_poisonPlace (p) (c : Chip) : still (poisonPlace p c) = still c := by
  grind [poisonPlace, still_faultPallet, still_clearMark, still_modPlace]

/-! ## The holding slot, places freed, a lot retired -/

@[simp] theorem still_modSlot (k f) (c : Chip) : still (modSlot k f c) = still c := rfl
@[simp] theorem still_setSlot (k s) (c : Chip) : still (setSlot k s c) = still c := rfl
@[simp] theorem still_modDecisions (t f) (c : Chip) : still (modDecisions t f c) = still c := rfl

@[simp] theorem still_handSlot (k) (c : Chip) : still (handSlot k c).1 = still c := by
  grind [handSlot, still_takeRecord, still_modDecisions, still_setSlot]

@[simp] theorem still_handDecided (l) (c : Chip) : still (handDecided l c) = still c := by
  induction l generalizing c with
  | nil => rfl
  | cons k l ih => grind [handDecided, still_handSlot]

@[simp] theorem still_checkHolding (c : Chip) : still (checkHolding c) = still c := by
  grind [checkHolding, still_placeHeld, still_handDecided]

theorem still_lots (c : Chip) (l) : still { c with lh := { c.lh with lots := l } } = still c := rfl

@[simp] theorem still_releasePlace (p) (c : Chip) : still (releasePlace p c) = still c := by
  unfold releasePlace; split <;> simp

@[simp] theorem still_releasePalletPlace (p) (c : Chip) : still (releasePalletPlace p c) = still c := by
  unfold releasePalletPlace; split <;> simp

@[simp] theorem still_freePalletPlaces (id) (c : Chip) : still (freePalletPlaces id c) = still c :=
  (still_checkHolding _).trans (still_foldl (fun c p => still_releasePalletPlace p c) _ c)

@[simp] theorem still_freeLotPlaces (i) (c : Chip) : still (freeLotPlaces i c) = still c :=
  (still_checkHolding _).trans (still_foldl (fun c p => still_releasePlace p c) _ c)

@[simp] theorem still_retireLot (i) (c : Chip) : still (retireLot i c) = still c := still_freeLotPlaces i c

/-! ## The lots -/

theorem still_lhHanding (c : Chip) (t) : still { c with lh := { c.lh with lastHanding := t } } = still c := rfl

theorem still_baSerial (c : Chip) (n) : still { c with ba := { c.ba with serial := n } } = still c := rfl

@[simp] theorem still_closePallet (id) (c : Chip) : still (closePallet id c) = still c := by
  grind [closePallet, still_takePallet, still_modPallet, still_modLot, still_baSerial]

@[simp] theorem still_closeShort (id) (c : Chip) : still (closeShort id c) = still c := by
  grind [closeShort, still_closePallet, still_modPallet]

@[simp] theorem still_checkDrain (i) (c : Chip) : still (checkDrain i c) = still c := by
  grind [checkDrain, still_closeShort, still_modLot]

@[simp] theorem still_handLot (i) (c : Chip) : still (handLot i c) = still c := by
  grind [handLot, still_rpHand, still_modLot, still_lhHanding, still_retireLot]

@[simp] theorem still_checkFinish (i) (c : Chip) : still (checkFinish i c) = still c := by
  grind [checkFinish, still_handLot, still_modLot]

@[simp] theorem still_reportLot (i r) (c : Chip) : still (reportLot i r c) = still c := by
  simp [reportLot]

@[simp] theorem still_handWaitingLots (c : Chip) : still (handWaitingLots c) = still c :=
  still_foldl (fun c x => still_handLot x c) _ c

/-! ## The bags -/

@[simp] theorem still_addDecision (e) (c : Chip) : still (addDecision e c) = still c := rfl

@[simp] theorem still_gateReasonToPallet (l h) (c : Chip) : still (gateReasonToPallet l h c) = still c := by
  grind [gateReasonToPallet, still_changePalletHold, still_ba]

@[simp] theorem still_gateReasonToSlot (k h) (c : Chip) : still (gateReasonToSlot k h c) = still c := rfl

@[simp] theorem still_settleRejected (k) (c : Chip) : still (settleRejected k c) = still c := by
  grind [settleRejected, still_handSlot, still_modSlot, still_gateReasonToPallet, still_gateReasonToSlot, still_reportLot]

@[simp] theorem still_createPallet (l) (c : Chip) : still (createPallet l c).1 = still c := by
  grind [createPallet, still_reportLot, still_modLot, still_ba]

@[simp] theorem still_countCase (id) (c : Chip) : still (countCase id c) = still c := by
  grind [countCase, still_closePallet, still_modPallet]

@[simp] theorem still_joinPallet (k id) (c : Chip) : still (joinPallet k id c) = still c := by
  grind [joinPallet, still_handSlot, still_modSlot, still_countCase, still_reportLot, still_modPallet]

@[simp] theorem still_tryJoin (k) (c : Chip) : still (tryJoin k c).1 = still c := by
  grind [tryJoin, still_joinPallet, still_createPallet]

@[simp] theorem still_settleAccepted (k) (c : Chip) : still (settleAccepted k c) = still c := by
  grind [settleAccepted, still_tryJoin, still_modSlot, still_raiseNat]

@[simp] theorem still_decideBag (k) (c : Chip) : still (decideBag k c) = still c := by
  grind [decideBag, still_settleRejected, still_settleAccepted, still_modDecisions, still_modSlot, still_baSerial]

@[simp] theorem still_resumeWaiting (c : Chip) : still (resumeWaiting c) = still c :=
  still_foldl (fun c x => still_tryJoin x c) _ c

@[simp] theorem still_fireCheck (s) (c : Chip) : still (fireCheck s c).1 = still c := by
  grind [fireCheck, still_decideBag]

@[simp] theorem still_bagOutcome (s r) (c : Chip) : still (bagOutcome s r c) = still c := by
  unfold bagOutcome
  repeat' split
  all_goals first | rfl | simp

/-! ## Delivery reports -/

@[simp] theorem still_palletReportLeft (id r) (c : Chip) : still (palletReportLeft id r c) = still c := by
  unfold palletReportLeft
  repeat' first | split | dsimp only
  all_goals simp [still_ba]

theorem still_tdHanding (c : Chip) (t) : still { c with td := { c.td with lastHanding := t } } = still c := rfl
@[simp] theorem still_handDelivery (id) (c : Chip) : still (handDelivery id c) = still c := by
  grind [handDelivery, still_rpHand, still_modPallet, still_tdHanding, still_palletReportLeft]

@[simp] theorem still_handWaitingDeliveries (c : Chip) : still (handWaitingDeliveries c) = still c :=
  still_foldl (fun c x => still_handDelivery x c) _ c

@[simp] theorem still_reviseDelivery (id) (c : Chip) : still (reviseDelivery id c) = still c := by
  grind [reviseDelivery, still_handDelivery, still_modPallet]

end Sys2Proof.Machine
end

