-- ==== Sys2Proof/Laws/Front.lean ====
section
/-! SUPPORT. What every event keeps but those of the ring state, the pins and the tables: the operations of the segments,
the track channels, the sample intake and the guard. -/

namespace Sys2Proof.Machine

set_option Elab.async false

@[simp] theorem front_modLot (i f) (c : Chip) : front (modLot i f c) = front c :=
  front_of_still (still_modLot ..)
@[simp] theorem front_modPallet (i f) (c : Chip) : front (modPallet i f c) = front c :=
  front_of_still (still_modPallet ..)
@[simp] theorem front_setAlert (k a) (c : Chip) : front (setAlert k a c) = front c :=
  front_of_still (still_setAlert ..)
@[simp] theorem front_addTrap (t) (c : Chip) : front (addTrap t c) = front c :=
  front_of_still (still_addTrap ..)
@[simp] theorem front_setUnsent (n b) (c : Chip) : front (setUnsent n b c) = front c :=
  front_of_still (still_setUnsent ..)
@[simp] theorem front_raise (k t w) (c : Chip) : front (raise k t w c) = front c :=
  front_of_still (still_raise ..)
@[simp] theorem front_raiseNat (k t n) (c : Chip) : front (raiseNat k t n c) = front c :=
  front_of_still (still_raiseNat ..)
@[simp] theorem front_rpHand (f : OwnFrame) (c : Chip) : front (rpHand f c).1 = front c :=
  front_of_still (still_rpHand ..)
@[simp] theorem front_agOwn (k v) (c : Chip) : front (agOwn k v c).1 = front c :=
  front_of_still (still_agOwn ..)
@[simp] theorem front_gateFault (n) (c : Chip) : front (gateFault n c) = front c :=
  front_of_still (still_gateFault ..)
@[simp] theorem front_agConfirm (n v s m t) (c : Chip) : front (agConfirm n v s m t c).1 = front c :=
  front_of_still (still_agConfirm ..)
@[simp] theorem front_sendValue (n k v s m t) (c : Chip) : front (sendValue n k v s m t c).1 = front c :=
  front_of_still (still_sendValue ..)
@[simp] theorem front_sendPause (c : Chip) : front (sendPause c) = front c :=
  front_of_still (still_sendPause ..)
@[simp] theorem front_sendIntended (n) (c : Chip) : front (sendIntended n c) = front c :=
  front_of_still (still_sendIntended ..)
@[simp] theorem front_changePalletHold (id f) (c : Chip) : front (changePalletHold id f c) = front c :=
  front_of_still (still_changePalletHold ..)
@[simp] theorem front_evalDestination (id) (c : Chip) : front (evalDestination id c) = front c :=
  front_of_still (still_evalDestination ..)
@[simp] theorem front_enterDock (id) (c : Chip) : front (enterDock id c) = front c :=
  front_of_still (still_enterDock ..)
@[simp] theorem front_modShuttle (n f) (c : Chip) : front (modShuttle n f c) = front c :=
  front_of_still (still_modShuttle ..)
@[simp] theorem front_exposePallet (id) (c : Chip) : front (exposePallet id c) = front c :=
  front_of_still (still_exposePallet ..)
@[simp] theorem front_exposeAll (c : Chip) : front (exposeAll c) = front c :=
  front_of_still (still_exposeAll ..)
@[simp] theorem front_arbitrate (c : Chip) : front (arbitrate c) = front c :=
  front_of_still (still_arbitrate ..)
@[simp] theorem front_reportLot (i r) (c : Chip) : front (reportLot i r c) = front c :=
  front_of_still (still_reportLot ..)
@[simp] theorem front_checkDrain (i) (c : Chip) : front (checkDrain i c) = front c :=
  front_of_still (still_checkDrain ..)
@[simp] theorem front_checkFinish (i) (c : Chip) : front (checkFinish i c) = front c :=
  front_of_still (still_checkFinish ..)
@[simp] theorem front_handDelivery (id) (c : Chip) : front (handDelivery id c) = front c :=
  front_of_still (still_handDelivery ..)
@[simp] theorem front_handWaitingDeliveries (c : Chip) : front (handWaitingDeliveries c) = front c :=
  front_of_still (still_handWaitingDeliveries ..)
@[simp] theorem front_handWaitingLots (c : Chip) : front (handWaitingLots c) = front c :=
  front_of_still (still_handWaitingLots ..)
@[simp] theorem front_takeRecord (r) (c : Chip) : front (takeRecord r c).1 = front c :=
  front_of_still (still_takeRecord ..)
@[simp] theorem front_amendPlace (p f) (c : Chip) : front (amendPlace p f c) = front c :=
  front_of_still (still_amendPlace ..)
@[simp] theorem front_checkHolding (c : Chip) : front (checkHolding c) = front c :=
  front_of_still (still_checkHolding ..)
@[simp] theorem front_poisonPlace (p) (c : Chip) : front (poisonPlace p c) = front c :=
  front_of_still (still_poisonPlace ..)
@[simp] theorem front_freePlace (p) (c : Chip) : front (freePlace p c) = front c :=
  front_of_still (still_freePlace ..)
@[simp] theorem front_modPlace (i f) (c : Chip) : front (modPlace i f c) = front c :=
  front_of_still (still_modPlace ..)
@[simp] theorem front_modFields (i f) (c : Chip) : front (modFields i f c) = front c :=
  front_of_still (still_modFields ..)
@[simp] theorem front_modSlot (k f) (c : Chip) : front (modSlot k f c) = front c :=
  front_of_still (still_modSlot ..)
@[simp] theorem front_setSlot (k s) (c : Chip) : front (setSlot k s c) = front c :=
  front_of_still (still_setSlot ..)
@[simp] theorem front_addDecision (e) (c : Chip) : front (addDecision e c) = front c :=
  front_of_still (still_addDecision ..)
@[simp] theorem front_decideBag (k) (c : Chip) : front (decideBag k c) = front c :=
  front_of_still (still_decideBag ..)
@[simp] theorem front_resumeWaiting (c : Chip) : front (resumeWaiting c) = front c :=
  front_of_still (still_resumeWaiting ..)
@[simp] theorem front_fireCheck (s) (c : Chip) : front (fireCheck s c).1 = front c :=
  front_of_still (still_fireCheck ..)
@[simp] theorem front_bagOutcome (s r) (c : Chip) : front (bagOutcome s r c) = front c :=
  front_of_still (still_bagOutcome ..)
@[simp] theorem front_reviseDelivery (id) (c : Chip) : front (reviseDelivery id c) = front c :=
  front_of_still (still_reviseDelivery ..)
@[simp] theorem front_clearMark (p) (c : Chip) : front (clearMark p c) = front c :=
  front_of_still (still_clearMark ..)
@[simp] theorem front_handAlert (k : AlertKind) (c : Chip) : front (handAlert k c).1 = front c :=
  front_of_still (still_handAlert ..)
@[simp] theorem front_raiseOverflow (c : Chip) : front (raiseOverflow c) = front c :=
  front_of_still (still_raiseOverflow ..)
@[simp] theorem front_takeFree (c : Chip) : front (takeFree c).1 = front c :=
  front_of_still (still_takeFree ..)
@[simp] theorem front_evalStopN (c : Chip) : front (evalStopN c) = front c :=
  front_of_still (still_evalStopN ..)

/-! ## Segments -/

section Updates
variable (c : Chip)
@[simp] theorem front_modSegment (i f) : front (modSegment i f c) = front c := rfl
@[simp] theorem front_removeSegment (i) : front (removeSegment i c) = front c := rfl
@[simp] theorem front_holdSegment (i r) : front (holdSegment i r c) = front c := rfl
@[simp] theorem front_leaveWindow (i) : front (leaveWindow i c) = front c := rfl
@[simp] theorem front_leaveGap (i) : front (leaveGap i c) = front c := rfl
@[simp] theorem front_modIntake (i f) : front (modIntake i f c) = front c := rfl
@[simp] theorem front_modTrack (i f) : front (modTrack i f c) = front c := rfl
@[simp] theorem front_modDose (i f) : front (modDose i f c) = front c := rfl
@[simp] theorem front_modFv (f) : front (modFv f c) = front c := rfl
@[simp] theorem front_joinQueue (s g) : front (joinQueue s g c) = front c := rfl
theorem front_st (s) : front { c with st := s } = front c := rfl
theorem front_tc (t) : front { c with tc := t } = front c := rfl
theorem front_ba (b) : front { c with ba := b } = front c := rfl
theorem front_si (b) : front { c with si := b } = front c := rfl
theorem front_tm (t) : front { c with tm := t } = front c := rfl
theorem front_shadows (x y) : front { c with ag := { c.ag with shadows := x, unshadowed := y } } = front c := rfl
theorem front_confirms (x) : front { c with ag := { c.ag with confirms := x } } = front c := rfl
end Updates

@[simp] theorem front_freeSegment (i b) (c : Chip) : front (freeSegment i b c) = front c := by
  grind [freeSegment, front_reportLot, front_leaveWindow, front_removeSegment]

@[simp] theorem front_segmentOutcome (i r) (c : Chip) : front (segmentOutcome i r c) = front c := by
  unfold segmentOutcome
  repeat' first | split | dsimp only
  all_goals simp [front_st]

@[simp] theorem front_reportServed (r) (c : Chip) (s) : front (reportServed r c s) = front c := by
  cases s <;> simp [reportServed]

@[simp] theorem front_drainLot (i) (c : Chip) : front (drainLot i c) = front c := by simp [drainLot]

@[simp] theorem front_drawLoop (k fuel need) (c : Chip) : front (drawLoop k fuel need c).1 = front c := by
  induction fuel generalizing need c with
  | zero => rfl
  | succ n ih => grind [drawLoop, front_freeSegment, front_modSegment, front_modSlot]

@[simp] theorem front_drawBag (k) (c : Chip) : front (drawBag k c) = front c := by
  grind [drawBag, front_drawLoop, front_reportLot, front_modSlot]

/-! ## Track channels -/

@[simp] theorem front_reportAll (r l) (c : Chip) : front (reportAll r l c) = front c :=
  front_foldl (fun c x => front_reportServed r c x) l c

@[simp] theorem front_refuseStart (n) (c : Chip) : front (refuseStart n c) = front c := rfl
@[simp] theorem front_pushStart (n s) (c : Chip) : front (pushStart n s c) = front c := rfl

@[simp] theorem front_enterStart (n s) (c : Chip) : front (enterStart n s c).1 = front c := by
  grind [enterStart, front_pushStart, front_refuseStart, front_reportAll, front_modTrack]

@[simp] theorem front_startSlaves (n p) (c : Chip) : front (startSlaves n p c) = front c :=
  front_foldl (fun c x => by split <;> simp) _ c

@[simp] theorem front_fireEvent (n p) (c : Chip) : front (fireEvent n p c) = front c := by simp [fireEvent]

@[simp] theorem front_sendOutput (n b s) (c : Chip) : front (sendOutput n b s c).1 = front c := by
  grind [sendOutput, front_sendValue]

@[simp] theorem front_takeToken (c : Chip) : front (takeToken c).1 = front c := rfl

@[simp] theorem front_settlePulse (n o) (c : Chip) : front (settlePulse n o c) = front c := by
  grind [settlePulse, front_reportAll, front_modTrack]

@[simp] theorem front_settleToken (n t o) (c : Chip) : front (settleToken n t o c) = front c := by
  grind [settleToken, front_settlePulse, front_reportAll, front_modTrack]

@[simp] theorem front_joinPulse (n s) (c : Chip) : front (joinPulse n s c) = front c := by
  grind [joinPulse, front_reportServed, front_modTrack]

@[simp] theorem front_popStart (n) (c : Chip) : front (popStart n c) = front c := rfl

@[simp] theorem front_fireDelay (n s) (c : Chip) : front (fireDelay n s c) = front c := by
  grind [fireDelay, front_sendOutput, front_takeToken, front_reportAll, front_modTrack]

@[simp] theorem front_fireGate (n s p) (c : Chip) : front (fireGate n s p c) = front c := by
  grind [fireGate, front_sendOutput, front_takeToken, front_joinPulse, front_settlePulse, front_modTrack]

@[simp] theorem front_fireStart (n s p) (c : Chip) : front (fireStart n s p c) = front c := by
  grind [fireStart, front_fireDelay, front_fireGate, front_fireEvent, front_popStart, front_fireCheck, front_modTrack]

@[simp] theorem front_closeGate (n) (c : Chip) : front (closeGate n c) = front c := by simp [closeGate]

@[simp] theorem front_handlePoints (n k) (c : Chip) : front (handlePoints n k c) = front c := by
  induction k generalizing c with
  | zero => rfl
  | succ k ih => grind [handlePoints, front_fireStart, front_closeGate]

@[simp] theorem front_handleChannel (n) (c : Chip) : front (handleChannel n c) = front c := front_handlePoints ..

@[simp] theorem front_handleSlaves (l n) (c : Chip) : front (handleSlaves l n c) = front c :=
  front_foldl (fun c x => by split <;> simp) _ c

@[simp] theorem front_settleStart (l n p) (c : Chip) : front (settleStart l n p c) = front c := by
  unfold settleStart
  repeat' first | split | dsimp only
  all_goals simp

@[simp] theorem front_startNow (n s) (c : Chip) : front (startNow n s c).1 = front c := by
  grind [startNow, front_enterStart, front_settleStart]

@[simp] theorem front_captureAt (n) (c : Chip) : front (captureAt n c) = front c := by simp [captureAt]

@[simp] theorem front_markerChannel (n e l) (c : Chip) : front (markerChannel n e l c) = front c := by
  unfold markerChannel
  repeat' first | split | dsimp only
  all_goals simp

@[simp] theorem front_markerItem (m l) (c : Chip) : front (markerItem m l c) = front c :=
  front_foldl (fun c x => by repeat' split
                             all_goals simp) _ c

@[simp] theorem front_markerStale (m) (c : Chip) : front (markerStale m c) = front c :=
  front_foldl (fun c x => by repeat' split
                             all_goals simp) _ c

@[simp] theorem front_encoderStale (m) (c : Chip) : front (encoderStale m c) = front c :=
  front_foldl (fun c x => by repeat' split
                             all_goals simp) _ c

@[simp] theorem front_fireIntervals (n k) (c : Chip) : front (fireIntervals n k c) = front c := by
  induction k generalizing c with
  | zero => rfl
  | succ k ih => simp [fireIntervals, ih]

@[simp] theorem front_handleMilliseconds (c : Chip) : front (handleMilliseconds c) = front c :=
  front_foldl (fun c x => by split <;> simp) _ c

@[simp] theorem front_commandStart (n) (c : Chip) : front (commandStart n c).1 = front c := by
  grind [commandStart, front_startNow]

@[simp] theorem front_startChannel (n) (c : Chip) : front (startChannel n c).1 = front c := by
  unfold startChannel
  repeat' first | split | dsimp only
  all_goals simp

@[simp] theorem front_stopChannel (n) (c : Chip) : front (stopChannel n c) = front c := by
  unfold stopChannel
  repeat' first | split | dsimp only
  all_goals simp [*]

@[simp] theorem front_resendAll (c : Chip) : front (resendAll c) = front c :=
  front_foldl (fun c x => front_sendIntended x c) _ c

@[simp] theorem front_resendUnsent (c : Chip) : front (resendUnsent c) = front c :=
  front_foldl (fun c x => by split <;> simp) _ c

/-! ## Dose engine and freeze verifier -/

@[simp] theorem front_creditSegment (z t ct id) (c : Chip) : front (creditSegment z t ct id c) = front c := by
  unfold creditSegment
  repeat' first | split | dsimp only
  all_goals simp

@[simp] theorem front_zoneUpdate (z b a) (c : Chip) : front (zoneUpdate z b a c) = front c := by
  unfold zoneUpdate
  split
  · simp only [front_modDose]; exact front_foldl (fun c x => front_modSegment c x _) _ c
  · simp only [front_modDose]; exact front_foldl (fun c x => front_creditSegment z _ _ x c) _ c

@[simp] theorem front_zoneEntered (z id) (c : Chip) : front (zoneEntered z id c) = front c := by
  unfold zoneEntered
  repeat' first | split | dsimp only
  all_goals simp

@[simp] theorem front_tellZone (z s) (c : Chip) : front (tellZone z s c) = front c := by
  unfold tellZone
  dsimp only
  split
  · rw [front_foldl (fun c x => by repeat' split
                                   all_goals simp)]
    simp
  · simp

@[simp] theorem front_checkOverblanch (id) (c : Chip) : front (checkOverblanch id c) = front c := by
  unfold checkOverblanch
  repeat' first | split | dsimp only
  all_goals simp

@[simp] theorem front_holdCounted (id r f) (c : Chip) : front (holdCounted id r f c) = front c := by
  unfold holdCounted
  repeat' first | split | dsimp only
  all_goals simp

@[simp] theorem front_holdWarmChill (id) (c : Chip) : front (holdWarmChill id c) = front c := front_holdCounted ..

@[simp] theorem front_checkChillWindow (id) (c : Chip) : front (checkChillWindow id c) = front c := by
  unfold checkChillWindow
  repeat' first | split | dsimp only
  all_goals simp

@[simp] theorem front_chargeWarm (v p i id) (c : Chip) : front (chargeWarm v p i id c) = front c := by
  unfold chargeWarm
  repeat' first | split | dsimp only
  all_goals simp

@[simp] theorem front_chillItem (v) (c : Chip) : front (chillItem v c) = front c := by
  unfold chillItem
  simp only [front_modFv]
  split
  · exact front_foldl (fun c x => front_chargeWarm v _ _ x c) _ c
  · rfl

@[simp] theorem front_tellChill (s b) (c : Chip) : front (tellChill s b c) = front c := by
  unfold tellChill
  split
  · split <;> simp
  · rw [front_foldl (fun c x => front_holdWarmChill x c)]; simp
  · simp

@[simp] theorem front_chillArrival (id) (c : Chip) : front (chillArrival id c) = front c := by
  unfold chillArrival
  repeat' first | split | dsimp only
  all_goals simp

@[simp] theorem front_exitItem (v) (c : Chip) : front (exitItem v c) = front c := by
  unfold exitItem
  split
  · simp
  · exact front_foldl (fun c x => front_modSegment c x _) _ c

@[simp] theorem front_tellExit (s) (c : Chip) : front (tellExit s c) = front c := rfl
@[simp] theorem front_enterWindow (i) (c : Chip) : front (enterWindow i c) = front c := rfl

@[simp] theorem front_freezeVerdict (g) (c : Chip) : front (freezeVerdict g c).1 = front c := by
  unfold freezeVerdict
  repeat' first | split | dsimp only
  all_goals simp

@[simp] theorem front_checkDwell (id) (c : Chip) : front (checkDwell id c) = front c := by
  unfold checkDwell
  repeat' first | split | dsimp only
  all_goals simp

/-! ## Segment tracker -/

@[simp] theorem front_joinSilent (b id) (c : Chip) : front (joinSilent b id c) = front c := by
  unfold joinSilent
  repeat' first | split | dsimp only
  all_goals simp

@[simp] theorem front_divertSegment (b g id a o) (c : Chip) : front (divertSegment b g id a o c) = front c := by
  have h := fun st d => front_enterStart g st d
  unfold divertSegment
  simp only
  split <;> split at * <;> grind [front_modSegment, front_raiseNat, front_settleStart, front_refuseStart, front_enterStart]

@[simp] theorem front_decideSegment (b id a o) (c : Chip) : front (decideSegment b id a o c) = front c := by
  grind [decideSegment, front_divertSegment, front_modSegment, front_checkOverblanch, front_freezeVerdict]

@[simp] theorem front_surgeArrival (id) (c : Chip) : front (surgeArrival id c) = front c := by
  grind [surgeArrival, front_freeSegment]

@[simp] theorem front_stageEnd (b id) (c : Chip) : front (stageEnd b id c) = front c := by
  unfold stageEnd
  cases b <;> simp only <;> split <;> simp

@[simp] theorem front_enterZone (z id) (c : Chip) : front (enterZone z id c) = front c := by simp [enterZone]

@[simp] theorem front_crossZones (id b a) (c : Chip) : front (crossZones id b a c) = front c :=
  front_foldl (fun c x => by split <;> simp) _ c

@[simp] theorem front_crossAll (b id h x y) (c : Chip) : front (crossAll b id h x y c) = front c := by
  unfold crossAll
  cases b <;> simp only <;> repeat' split
  all_goals simp

@[simp] theorem front_advanceSegment (b d a id) (c : Chip) : front (advanceSegment b d a id c) = front c := by
  unfold advanceSegment
  repeat' first | split | dsimp only
  all_goals simp

@[simp] theorem front_advanceStage (b ch d) (c : Chip) : front (advanceStage b ch d c) = front c := by
  unfold advanceStage
  split
  · exact front_foldl (fun c x => front_advanceSegment b d _ x c) _ c
  · rfl

@[simp] theorem front_createSegment (n l m e b) (c : Chip) : front (createSegment n l m e b c) = front c := by
  simp [createSegment, front_st]

@[simp] theorem front_cut (n b) (c : Chip) : front (cut n b c) = front c := by
  unfold cut
  split
  repeat' first | split | dsimp only
  all_goals simp [front_st]

@[simp] theorem front_fireCuts (n l k r) (c : Chip) : front (fireCuts n l k r c) = front c := by
  induction k generalizing r c with
  | zero => rfl
  | succ k ih => unfold fireCuts; split <;> simp [ih]

@[simp] theorem front_advanceCut (n d) (c : Chip) : front (advanceCut n d c) = front c := by
  unfold advanceCut
  repeat' first | split | dsimp only
  all_goals simp

@[simp] theorem front_advanceSource (e d) (c : Chip) : front (advanceSource e d c) = front c := by
  unfold advanceSource
  rw [front_foldl (fun c x => by split <;> simp)]
  rfl

@[simp] theorem front_encoderSilent (b) (c : Chip) : front (encoderSilent b c) = front c :=
  front_foldl (fun c x => front_holdSegment c x _) _ c

/-! ## Bag items -/

@[simp] theorem front_issueBagStarts (s) (c : Chip) : front (issueBagStarts s c) = front c :=
  front_foldl (fun c x => by grind [front_startNow, front_bagOutcome]) _ c

@[simp] theorem front_lotlessBag (s) (c : Chip) : front (lotlessBag s c) = front c := by simp [lotlessBag, front_ba]

@[simp] theorem front_overrunBag (s l) (c : Chip) : front (overrunBag s l c) = front c := by
  have h (d : Chip) : front (takeRecord (overrunRecord s l c) d).1 = front d := front_takeRecord ..
  unfold overrunBag
  dsimp only
  split
  · next c4 e => rw [front_reportLot, front_reportLot, front_reportLot, show c4 = _ from (congrArg Prod.fst e).symm, h]; simp [front_ba]
  · next c4 e => rw [front_ba, show c4 = _ from (congrArg Prod.fst e).symm, h]; simp [front_ba]

@[simp] theorem front_gatherBag (s l k) (c : Chip) : front (gatherBag s l k c) = front c := by
  unfold gatherBag
  repeat' first | split | dsimp only
  all_goals simp

@[simp] theorem front_newBag (s) (c : Chip) : front (newBag s c) = front c := by
  unfold newBag
  repeat' first | split | dsimp only
  all_goals simp

@[simp] theorem front_bagMade (w) (c : Chip) : front (bagMade w c) = front c := by
  unfold bagMade
  repeat' first | split | dsimp only
  all_goals simp [front_ba]

@[simp] theorem front_contribute (f s v) (c : Chip) : front (contribute f s v c) = front c := by
  unfold contribute
  repeat' first | split | dsimp only
  all_goals simp [front_ba]

@[simp] theorem front_bagField (f w) (c : Chip) : front (bagField f w c) = front c := by
  unfold bagField
  repeat' first | split | dsimp only
  all_goals simp [front_ba]

/-! ## Transfer dispatcher -/

@[simp] theorem front_airlockEntry (n id) (c : Chip) : front (airlockEntry n id c) = front c := by simp [airlockEntry]

@[simp] theorem front_deliver (n id d) (c : Chip) : front (deliver n id d c) = front c := by
  unfold deliver
  repeat' first | split | dsimp only
  all_goals simp

@[simp] theorem front_faultTransfer (n) (c : Chip) : front (faultTransfer n c) = front c := by
  unfold faultTransfer
  repeat' first | split | dsimp only
  all_goals simp

@[simp] theorem front_faultIdle (n) (c : Chip) : front (faultIdle n c) = front c := by simp [faultIdle]

@[simp] theorem front_phaseStatus (n m p) (c : Chip) : front (phaseStatus n m p c) = front c := by
  unfold phaseStatus
  repeat' first | split | dsimp only
  all_goals simp

@[simp] theorem front_shuttleStatus (n w) (c : Chip) : front (shuttleStatus n w c) = front c := by
  unfold shuttleStatus
  repeat' first | split | dsimp only
  all_goals simp

@[simp] theorem front_enableShuttle (n) (c : Chip) : front (enableShuttle n c).1 = front c := by
  unfold enableShuttle
  repeat' first | split | dsimp only
  all_goals simp

@[simp] theorem front_requeuePallet (id) (c : Chip) : front (requeuePallet id c).1 = front c := by
  unfold requeuePallet
  repeat' first | split | dsimp only
  all_goals simp

/-! ## Actuation guard -/

@[simp] theorem front_shadowItem (b k r v) (c : Chip) : front (shadowItem b k r v c) = front c := by
  unfold shadowItem
  repeat' first | split | dsimp only
  all_goals rfl

@[simp] theorem front_checkItem (k v) (c : Chip) : front (checkItem k v c).1 = front c := by
  unfold checkItem
  repeat' first | split | dsimp only
  all_goals simp

@[simp] theorem front_checkItems (l) (c : Chip) : front (checkItems l c).1 = front c := by
  induction l generalizing c with
  | nil => rfl
  | cons i l ih => grind [checkItems, front_checkItem]

@[simp] theorem front_tellSource (e o) (c : Chip) : front (tellSource e o c) = front c := by
  unfold tellSource
  repeat' first | split | dsimp only
  all_goals simp

@[simp] theorem front_pointEcho (n w) (c : Chip) : front (pointEcho n w c) = front c := by
  unfold pointEcho
  repeat' first | split | dsimp only
  all_goals simp [front_confirms]

@[simp] theorem front_expireConfirm (i) (c : Chip) : front (expireConfirm i c) = front c := by
  unfold expireConfirm
  repeat' first | split | dsimp only
  all_goals simp [front_confirms]

/-! ## Sample intake -/

@[simp] theorem front_rederiveZone (z) (c : Chip) : front (rederiveZone z c) = front c := by
  unfold rederiveZone
  repeat' first | split | dsimp only
  all_goals simp [front_si]

@[simp] theorem front_tellFreshness (i r s) (c : Chip) : front (tellFreshness i r s c) = front c := by
  unfold tellFreshness
  repeat' first | split | dsimp only
  all_goals simp

@[simp] theorem front_checkSplit (z i) (c : Chip) : front (checkSplit z i c) = front c := by
  unfold checkSplit
  repeat' first | split | dsimp only
  all_goals simp

@[simp] theorem front_zoneItem (z i b) (c : Chip) : front (zoneItem z i b c) = front c := by
  unfold zoneItem; simp only [front_checkSplit]; split <;> simp

@[simp] theorem front_encoderItem (i b n) (c : Chip) : front (encoderItem i b n c) = front c := by
  unfold encoderItem
  repeat' first | split | dsimp only
  all_goals simp

@[simp] theorem front_handOn (i r b v w) (c : Chip) : front (handOn i r b v w c) = front c := by
  unfold handOn
  repeat' first | split | dsimp only
  all_goals simp

@[simp] theorem front_overRange (i r t) (c : Chip) : front (overRange i r t c) = front c := by
  unfold overRange
  repeat' first | split | dsimp only
  all_goals simp

@[simp] theorem front_acceptItem (i b w) (c : Chip) : front (acceptItem i b w c) = front c := by
  unfold acceptItem; simp only [front_handOn]; split <;> simp

@[simp] theorem front_takeItem (it) (c : Chip) : front (takeItem it c) = front c := by
  unfold takeItem
  repeat' first | split | dsimp only
  all_goals simp

@[simp] theorem front_takeItems (l) (c : Chip) : front (takeItems l c) = front c :=
  front_foldl (fun c x => front_takeItem x c) l c

@[simp] theorem front_expireFreshness (i) (c : Chip) : front (expireFreshness i c) = front c := by
  unfold expireFreshness
  repeat' first | split | dsimp only
  all_goals simp

@[simp] theorem front_expireStaleHold (i) (c : Chip) : front (expireStaleHold i c) = front c := by
  unfold expireStaleHold
  repeat' first | split | dsimp only
  all_goals simp

end Sys2Proof.Machine
end

