-- ==== Sys2Proof/Laws/Ring.lean ====
section
/-! SUPPORT. The ring state agrees with the error counts and BYP after every operation of the ring, of management and of
the trace memory controller. -/

namespace Sys2Proof.Machine

set_option Elab.async false

/-- What `RingAgrees` speaks about. -/
def ringView (c : Chip) : Nat × Nat × Option Word × RingState × Bool × Bool :=
  (c.rp.rxErr, c.rp.txErr, c.rp.recovery, c.rp.ring, c.pins.running, c.pins.byp)

theorem ringView_of_front {c d : Chip} (h : front c = front d) : ringView c = ringView d := by
  have h1 := congrArg Chip.rp h
  have h2 := congrArg Chip.pins h
  simp only [front, still, Rp.mk.injEq, Pins.mk.injEq] at h1 h2
  simp [ringView, h1, h2]

theorem RingAgrees.of_view {c d : Chip} (h : ringView c = ringView d) (a : RingAgrees d) : RingAgrees c := by
  simp only [ringView, Prod.mk.injEq] at h
  obtain ⟨h1, h2, h3, h4, h5, h6⟩ := h
  exact ⟨h1 ▸ a.rx, h2 ▸ a.tx, by rw [h1, h2, h3]; exact a.recovery, by rw [h1, h2, h4, h5, h6]; exact a.runs,
    by rw [h1, h2, h4, h5]; exact a.held⟩

theorem RingAgrees.of_front {c d : Chip} (h : front c = front d) (a : RingAgrees d) : RingAgrees c :=
  a.of_view (ringView_of_front h)

/-! ## Answers and assembly -/

theorem still_ma (c : Chip) (q p l) :
    still { c with ma := { c.ma with queue := q, phase := p, pending := l } } = still c := rfl

@[simp] theorem still_handAnswer (r s w) (c : Chip) : still (handAnswer r s w c) = still c :=
  still_foldl (fun c _ => still_rpHand _ c) _ c

@[simp] theorem still_endRequest (r s w) (c : Chip) : still (endRequest r s w c) = still c :=
  still_handAnswer r s w c

@[simp] theorem still_answerOnly (o t k s) (c : Chip) : still (answerOnly o t k s c) = still c := still_handAnswer ..

@[simp] theorem front_setAssembly (a) (c : Chip) : front (setAssembly a c) = front c := rfl
@[simp] theorem front_answerOnly (o t k s) (c : Chip) : front (answerOnly o t k s c) = front c :=
  front_of_still (still_answerOnly ..)
@[simp] theorem front_endRequest (r s w) (c : Chip) : front (endRequest r s w c) = front c :=
  front_of_still (still_endRequest ..)

@[simp] theorem front_completeRequest (a) (c : Chip) : front (completeRequest a c) = front c := by
  unfold completeRequest
  split
  · rfl
  · simp

@[simp] theorem front_continueAssembly (a b) (c : Chip) : front (continueAssembly a b c) = front c := by
  unfold continueAssembly; split <;> simp

@[simp] theorem front_dropAssembly (c : Chip) : front (dropAssembly c) = front c := by
  unfold dropAssembly; split <;> simp

@[simp] theorem front_takePart (p) (c : Chip) : front (takePart p c) = front c := by
  unfold takePart
  repeat' first | split | dsimp only
  all_goals simp

@[simp] theorem still_handUnsent (k) (c : Chip) : still (handUnsent k c) = still c := by
  grind [handUnsent, still_handAlert, still_raiseOverflow]

@[simp] theorem still_handAllUnsent (c : Chip) : still (handAllUnsent c) = still c :=
  still_foldl (fun c k => still_handUnsent k c) _ c

@[simp] theorem front_handAllUnsent (c : Chip) : front (handAllUnsent c) = front c :=
  front_of_still (still_handAllUnsent c)

/-! ## The transmitter -/

@[simp] theorem still_reportLeft (s) (c : Chip) : still (reportLeft s c) = still c := by
  cases s <;> simp [reportLeft]

@[simp] theorem still_sendOwn (i f) (c : Chip) : still (sendOwn i f c) = still c := by
  unfold sendOwn; rw [still_reportLeft, still_beginOwn]; rfl

@[simp] theorem still_sendForward (e) (c : Chip) : still (sendForward e c) = still c := rfl

@[simp] theorem still_txGrant (c : Chip) : still (txGrant c) = still c := by
  unfold txGrant
  repeat' split
  all_goals simp

@[simp] theorem front_txGrant (c : Chip) : front (txGrant c) = front c := front_of_still (still_txGrant c)

/-! ## Ring state -/

@[simp] theorem front_ringActive (c : Chip) : front (ringActive c) = front c := by simp [ringActive]

theorem ringView_isolatedEntry (c : Chip) :
    ringView (isolatedEntry c) =
      (c.rp.rxErr, c.rp.txErr, c.rp.recovery, .isolated, c.pins.running, c.pins.byp) := by
  unfold isolatedEntry
  rw [ringView_of_front (front_raise ..)]
  rfl

theorem ringView_isolatedExit (n) (c : Chip) :
    ringView (isolatedExit n c) = (c.rp.rxErr, c.rp.txErr, c.rp.recovery, n, c.pins.running, c.pins.byp) := by
  have h : front (isolatedExit n c) =
      front { c with pins := { c.pins with rly := true }, rp := { c.rp with ring := n } } := by
    unfold isolatedExit
    simp only [front_arbitrate]
    split <;> simp
  rw [ringView_of_front h]
  rfl

/-- The ring state after an evaluation is the one of R14, and nothing else of the view changes. -/
theorem ringView_evalRing (c : Chip) :
    ringView (evalRing c) =
      (c.rp.rxErr, c.rp.txErr, c.rp.recovery, ringStateOf c.rp.txErr c.rp.rxErr c.pins.byp, c.pins.running,
        c.pins.byp) := by
  unfold evalRing
  split
  · next h1 h2 => simp [ringView, h1, h2]
  · simp_all [ringView_isolatedEntry]
  · rw [ringView_isolatedExit]
  · next h1 h2 => rw [ringView_of_front ((front_raise ..).trans (front_txGrant _)), h2]; rfl
  · next h1 h2 => rw [ringView_of_front ((front_ringActive _).trans (front_txGrant _)), h2]; rfl
  · next h1 h2 => simp [ringView, h1, h2]
  · next h1 h2 => simp [ringView, h1, h2]

theorem recoveryOf_isSome (rp : Rp) (now : Word) :
    (recoveryOf rp now).isSome = true ↔ 256 ≤ rp.txErr ∧ rp.rxErr = 0 := by
  unfold recoveryOf; split <;> simp_all

/-- After a change of the error counts of a running part the ring state agrees with them (R14, R16). -/
theorem RingAgrees.setErrors {rx tx : Nat} {c : Chip} (r : c.pins.running = true) (h1 : rx ≤ 255) (h2 : tx ≤ 263) :
    RingAgrees (setErrors rx tx c) := by
  have h := ringView_evalRing
    { c with rp := { c.rp with rxErr := rx, txErr := tx,
                               recovery := recoveryOf { c.rp with rxErr := rx, txErr := tx } c.clock.ms } }
  simp only [ringView, Prod.mk.injEq] at h
  obtain ⟨a, b, d, e, f, g⟩ := h
  constructor
  · exact le_of_eq_of_le a h1
  · exact le_of_eq_of_le b h2
  · show (_ : Option Word).isSome = true ↔ 256 ≤ (_ : Nat) ∧ (_ : Nat) = 0
    rw [show (Machine.setErrors rx tx c).rp.recovery = _ from d, show (Machine.setErrors rx tx c).rp.txErr = _ from b,
      show (Machine.setErrors rx tx c).rp.rxErr = _ from a]
    exact recoveryOf_isSome _ _
  · intro _
    rw [show (Machine.setErrors rx tx c).rp.ring = _ from e, show (Machine.setErrors rx tx c).rp.txErr = _ from b,
      show (Machine.setErrors rx tx c).rp.rxErr = _ from a, show (Machine.setErrors rx tx c).pins.byp = _ from g]
  · intro x
    rw [show (Machine.setErrors rx tx c).pins.running = _ from f, r] at x
    exact absurd x (by simp)

/-- The recovery timer's completion keeps the agreement (R16, R201): it runs only in a running part. -/
theorem RingAgrees.recover {c : Chip} (a : RingAgrees c) : RingAgrees (recover c) := by
  unfold Machine.recover
  split
  · next e =>
    have h : c.rp.recovery.isSome = true := by
      unfold recoveryDue at e
      split at e
      · next t q => rw [q]; rfl
      · exact absurd e (by simp)
    have t := (a.recovery.mp h).1
    cases r : c.pins.running with
    | true => exact RingAgrees.setErrors r (by omega) (by omega)
    | false => have := (a.held r).2.1; omega
  · exact a

theorem RingAgrees.evalRing {c : Chip} (r : c.pins.running = true) (h1 : c.rp.rxErr ≤ 255) (h2 : c.rp.txErr ≤ 263)
    (h3 : c.rp.recovery.isSome = true ↔ 256 ≤ c.rp.txErr ∧ c.rp.rxErr = 0) : RingAgrees (evalRing c) := by
  have h := ringView_evalRing c
  simp only [ringView, Prod.mk.injEq] at h
  obtain ⟨a, b, d, e, f, g⟩ := h
  exact ⟨a ▸ h1, b ▸ h2, by rw [a, b, d]; exact h3, fun _ => by rw [a, b, e, g],
    fun x => by rw [f, r] at x; exact absurd x (by simp)⟩

/-! ## Reception and the transmitter -/

@[simp] theorem ringView_answerOut (e) (c : Chip) : ringView (answerOut e c) = ringView c := by
  unfold answerOut; split <;> rfl

@[simp] theorem ringView_dropEntry (i) (c : Chip) : ringView (dropEntry i c) = ringView c := rfl

theorem RingAgrees.returnCheck {k s} {c : Chip} (r : c.pins.running = true) (a : RingAgrees c) :
    RingAgrees (returnCheck k s c) := by
  unfold Machine.returnCheck
  repeat' first | split | dsimp only
  all_goals try exact a
  next i _ _ e _ =>
    have v : ringView (answerOut e (dropEntry i c)) = ringView c := by rw [ringView_answerOut, ringView_dropEntry]
    have b := a.of_view v
    refine RingAgrees.setErrors ?_ b.rx (by have := b.tx; omega)
    rw [show (answerOut e (dropEntry i c)).pins.running = c.pins.running from congrArg (·.2.2.2.2.1) v, r]

theorem RingAgrees.expireReturn {s} {c : Chip} (r : c.pins.running = true) (a : RingAgrees c) :
    RingAgrees (expireReturn s c) := by
  unfold Machine.expireReturn
  repeat' first | split | dsimp only
  all_goals try exact a
  next i _ _ e _ =>
    have v : ringView (answerOut e (dropEntry i c)) = ringView c := by rw [ringView_answerOut, ringView_dropEntry]
    have b := a.of_view v
    refine RingAgrees.setErrors ?_ b.rx (by omega)
    rw [show (answerOut e (dropEntry i c)).pins.running = c.pins.running from congrArg (·.2.2.2.2.1) v, r]

@[simp] theorem ringView_takeHeader (h) (c : Chip) : ringView (takeHeader h c) = ringView c := by
  unfold takeHeader
  repeat' split
  all_goals rfl

@[simp] theorem ringView_endForwarding (f b i) (c : Chip) (r) :
    ringView { c with rp := endForwarding f b i { c.rp with rx := r } } = ringView c := by
  cases f <;> rfl

@[simp] theorem ringView_takeEpoch (i) (c : Chip) : ringView (takeEpoch i c) = ringView c := by
  cases i <;> rfl

theorem running_of_view {c d : Chip} (v : ringView c = ringView d) : c.pins.running = d.pins.running :=
  congrArg (·.2.2.2.2.1) v

theorem RingAgrees.dispose {h l} {c : Chip} (r : c.pins.running = true) (a : RingAgrees c) :
    RingAgrees (dispose h l c) := by
  unfold Machine.dispose
  repeat' first | split | dsimp only
  all_goals first
    | exact a
    | exact a.returnCheck r
    | exact a.of_front (by simp)
    | exact a.of_view (by simp)

theorem running_setErrors (rx tx) (c : Chip) : (setErrors rx tx c).pins.running = c.pins.running := by
  have h := ringView_evalRing
    { c with rp := { c.rp with rxErr := rx, txErr := tx,
                               recovery := recoveryOf { c.rp with rxErr := rx, txErr := tx } c.clock.ms } }
  exact congrArg (·.2.2.2.2.1) h

theorem RingAgrees.completeReception {p g} {c : Chip} (r : c.pins.running = true) (a : RingAgrees c) :
    RingAgrees (completeReception p g c) := by
  unfold Machine.completeReception
  split
  · exact a
  · next rx _ =>
    have key (d : Chip) (items : Option (List Item)) (b : RingAgrees d) (q : d.pins.running = true) :
        RingAgrees (match items with
          | none => Machine.setErrors (min (d.rp.rxErr + 1) 255) d.rp.txErr d
          | some l => Machine.dispose rx.header l (Machine.setErrors (d.rp.rxErr - 1) d.rp.txErr d)) := by
      cases items with
      | none => exact RingAgrees.setErrors q (Nat.min_le_right _ _) b.tx
      | some l =>
        refine RingAgrees.dispose ?_ (RingAgrees.setErrors q (Nat.le_trans (Nat.sub_le _ _) b.rx) b.tx)
        rw [running_setErrors]; exact q
    have v := ringView_endForwarding rx.fwd (bodyBytes rx.header p) (goodItems rx.header p g) c none
    exact key _ _ (a.of_view v) ((running_of_view v).trans r)

@[simp] theorem ringView_checkHeldFrame (c : Chip) : ringView (checkHeldFrame c) = ringView c := by
  unfold checkHeldFrame
  split
  · split
    · next e _ =>
      have h := ringView_of_front (front_checkItems e.frame.items c)
      exact h
    · rfl
  · rfl

/-! ## Grants -/

@[simp] theorem still_answerRead (w) (c : Chip) : still (answerRead w c) = still c := by
  unfold answerRead; split <;> simp

@[simp] theorem still_grantRead (p) (c : Chip) : still (grantRead p c) = still c := by
  unfold grantRead; dsimp only; split <;> simp [still_tm]

@[simp] theorem still_grantRestart (w) (c : Chip) : still (grantRestart w c) = still c := by
  unfold grantRestart
  repeat' first | split | dsimp only
  all_goals simp [still_tm]

@[simp] theorem still_spiGrant (c : Chip) : still (spiGrant c) = still c := by
  unfold spiGrant
  repeat' first | split | dsimp only
  all_goals simp

/-- What the grants at the end of an event keep. -/
@[simp] theorem still_settle (c : Chip) : still (settle c) = still c := by simp [settle]

@[simp] theorem front_settle (c : Chip) : front (settle c) = front c := front_of_still (still_settle c)

theorem RingAgrees.settle {c : Chip} (a : RingAgrees c) : RingAgrees (settle c) := a.of_front (front_settle c)

/-- The grants do nothing while the transmitter is busy or the part bypassed, and the SPI master is busy. -/
theorem settle_busy {c : Chip} (h1 : c.rp.ring = .isolated ∨ c.rp.tx.isSome = true) (h2 : c.tm.spi.isSome = true) :
    settle c = c := by
  have t : txGrant c = c := by unfold txGrant; rw [if_pos h1]
  have g : spiGrant c = c := by
    unfold spiGrant
    cases e : c.tm.spi with
    | none => rw [e] at h2; exact absurd h2 (by simp)
    | some _ => rfl
  rw [settle, t, g, t]

/-! ## Completions of the trace memory -/

@[simp] theorem still_countVerifyFail (c : Chip) : still (countVerifyFail c) = still c := rfl
@[simp] theorem still_traceFault (p) (c : Chip) : still (traceFault p c) = still c := still_raiseNat ..
@[simp] theorem still_failPlace (p) (c : Chip) : still (failPlace p c) = still c := by simp [failPlace]

@[simp] theorem still_finishWrite (b p r) (c : Chip) : still (finishWrite b p r c) = still c := by
  unfold finishWrite
  repeat' first | split | dsimp only
  all_goals simp [still_tm]

@[simp] theorem still_finishRewrite (b p) (c : Chip) : still (finishRewrite b p c) = still c := by
  unfold finishRewrite
  repeat' first | split | dsimp only
  all_goals simp [still_tm]

@[simp] theorem still_finishRead (x b p e) (c : Chip) : still (finishRead x b p e c) = still c := by
  unfold finishRead
  repeat' first | split | dsimp only
  all_goals simp [still_tm]

end Sys2Proof.Machine
end

