-- ==== Sys2Proof/Laws/Places.lean ====
section
/-! SUPPORT. Every place that the trace memory controller and the decision list hold stays one of the 1,024: first the
operations that touch neither, then those of the trace memory, the bags, the tracks and the intake. -/

namespace Sys2Proof.Machine

set_option Elab.async false

/-- What `PlacesInTable` speaks about. -/
def tmView (c : Chip) : Tm × List DecisionEntry := (c.tm, c.ba.decisions)

theorem places_iff {c d : Chip} (h : tmView c = tmView d) : PlacesInTable c ↔ PlacesInTable d := by
  simp only [tmView, Prod.mk.injEq] at h
  obtain ⟨h1, h2⟩ := h
  constructor
  · intro p
    exact ⟨h1 ▸ p.table, h1 ▸ p.pointer, h1 ▸ p.writes, h1 ▸ p.marks, h1 ▸ p.spi, h1 ▸ p.reading, h1 ▸ p.restart,
      h2 ▸ p.decisions⟩
  · intro p
    exact ⟨h1 ▸ p.table, h1 ▸ p.pointer, h1 ▸ p.writes, h1 ▸ p.marks, h1 ▸ p.spi, h1 ▸ p.reading, h1 ▸ p.restart,
      h2 ▸ p.decisions⟩

theorem PlacesInTable.same {c d : Chip} (h : PlacesInTable c) (h1 : d.tm = c.tm)
    (h2 : d.ba.decisions = c.ba.decisions) : PlacesInTable d := (places_iff (by simp [tmView, h1, h2])).mpr h

theorem tmv_foldl {α : Type} {f : Chip → α → Chip} (h : ∀ c x, tmView (f c x) = tmView c) (l : List α) (c : Chip) :
    tmView (l.foldl f c) = tmView c := by
  induction l generalizing c with
  | nil => rfl
  | cons x l ih => rw [List.foldl_cons, ih, h]

theorem places_foldl {α : Type} {f : Chip → α → Chip} (h : ∀ c x, PlacesInTable c → PlacesInTable (f c x)) (l : List α)
    (c : Chip) (p : PlacesInTable c) : PlacesInTable (l.foldl f c) := by
  induction l generalizing c with
  | nil => exact p
  | cons x l ih => exact ih _ (h _ _ p)

@[simp] theorem tmv_modLot (i f) (c : Chip) : tmView (modLot i f c) = tmView c := rfl

@[simp] theorem tmv_modPallet (i f) (c : Chip) : tmView (modPallet i f c) = tmView c := rfl

@[simp] theorem tmv_setAlert (k a) (c : Chip) : tmView (setAlert k a c) = tmView c := rfl

@[simp] theorem tmv_addTrap (t) (c : Chip) : tmView (addTrap t c) = tmView c := rfl

@[simp] theorem tmv_setUnsent (n b) (c : Chip) : tmView (setUnsent n b c) = tmView c := rfl

@[simp] theorem tmv_takeFree (c : Chip) : tmView (takeFree c).1 = tmView c := rfl

@[simp] theorem tmv_evalStopN (c : Chip) : tmView (evalStopN c) = tmView c := rfl

@[simp] theorem tmv_reportHandedBack (s : FrameSource) (c : Chip) : tmView (reportHandedBack s c) = tmView c := by
  cases s <;> rfl

@[simp] theorem tmv_acceptFrame (f : OwnFrame) (c : Chip) : tmView (acceptFrame f c) = tmView c := by
  unfold acceptFrame; split <;> rfl

theorem tmv_txQueue (c : Chip) (q) : tmView { c with rp := { c.rp with txQueue := q } } = tmView c := rfl

@[simp] theorem tmv_rpOffer (f : OwnFrame) (c : Chip) : tmView (rpOffer f c).1 = tmView c := by
  unfold rpOffer
  repeat' split
  all_goals first | rfl | simp [tmv_txQueue]

@[simp] theorem tmv_handAlert (k : AlertKind) (c : Chip) : tmView (handAlert k c).1 = tmView c := by
  unfold handAlert
  split
  · next a d _ _ => exact tmv_rpOffer (alertFrame k a d c) c
  · rfl

@[simp] theorem tmv_countAlert (k : AlertKind) (c : Chip) : tmView (countAlert k c) = tmView c := by
  unfold countAlert; split <;> rfl

@[simp] theorem tmv_addAlert (k t w) (c : Chip) : tmView (addAlert k t w c) = tmView c := rfl

@[simp] theorem tmv_raiseOverflow (c : Chip) : tmView (raiseOverflow c) = tmView c := by
  grind [raiseOverflow, tmv_countAlert, tmv_handAlert, tmv_addAlert]

@[simp] theorem tmv_raise (k t w) (c : Chip) : tmView (raise k t w c) = tmView c := by
  grind [raise, tmv_countAlert, tmv_handAlert, tmv_addAlert, tmv_raiseOverflow]

@[simp] theorem tmv_raiseNat (k t n) (c : Chip) : tmView (raiseNat k t n c) = tmView c := tmv_raise ..

@[simp] theorem tmv_rpHand (f : OwnFrame) (c : Chip) : tmView (rpHand f c).1 = tmView c := by
  grind [rpHand, tmv_rpOffer, tmv_raiseOverflow]

@[simp] theorem tmv_agOwn (k v) (c : Chip) : tmView (agOwn k v c).1 = tmView c := by
  grind [agOwn, tmv_rpHand, tmv_addTrap]

@[simp] theorem tmv_gateFault (n) (c : Chip) : tmView (gateFault n c) = tmView c := by
  unfold gateFault; rw [tmv_raiseNat]; rfl

@[simp] theorem tmv_agConfirm (n v s m t) (c : Chip) : tmView (agConfirm n v s m t c).1 = tmView c := by
  unfold agConfirm
  repeat' split
  all_goals first | rfl | (rw [tmv_gateFault]; rfl)

@[simp] theorem tmv_sendValue (n k v s m t) (c : Chip) : tmView (sendValue n k v s m t c).1 = tmView c := by
  grind [sendValue, tmv_agOwn, tmv_agConfirm, tmv_setUnsent]

@[simp] theorem tmv_sendPause (c : Chip) : tmView (sendPause c) = tmView c := by
  grind [sendPause, tmv_sendValue]

@[simp] theorem tmv_sendIntended (n) (c : Chip) : tmView (sendIntended n c) = tmView c := by
  grind [sendIntended, tmv_sendValue]

@[simp] theorem tmv_evalDestination (id) (c : Chip) : tmView (evalDestination id c) = tmView c := rfl

@[simp] theorem tmv_changePalletHold (id f) (c : Chip) : tmView (changePalletHold id f c) = tmView c := rfl

@[simp] theorem tmv_enterDock (id) (c : Chip) : tmView (enterDock id c) = tmView c := rfl

@[simp] theorem tmv_modShuttle (n f) (c : Chip) : tmView (modShuttle n f c) = tmView c := rfl

@[simp] theorem tmv_checkExhausted (id) (c : Chip) : tmView (checkExhausted id c) = tmView c := by
  grind [checkExhausted, tmv_raiseNat, tmv_changePalletHold, tmv_modPallet]

@[simp] theorem tmv_exposePallet (id) (c : Chip) : tmView (exposePallet id c) = tmView c := by
  grind [exposePallet, tmv_checkExhausted, tmv_modPallet]

@[simp] theorem tmv_exposeAll (c : Chip) : tmView (exposeAll c) = tmView c :=
  tmv_foldl (fun c x => tmv_exposePallet x c) _ c

theorem tmv_dock (c : Chip) (d) : tmView { c with td := { c.td with dock := d } } = tmView c := rfl

theorem tmv_lost (c : Chip) (n) : tmView { c with td := { c.td with lost := n } } = tmView c := rfl

@[simp] theorem tmv_assignPallet (p n) (c : Chip) : tmView (assignPallet p n c).1 = tmView c := by
  grind [assignPallet, tmv_agOwn, tmv_modPallet, tmv_modShuttle, tmv_evalDestination, tmv_enterDock, tmv_dock,
    tmv_lost]

@[simp] theorem tmv_arbitrationLoop (k) (c : Chip) : tmView (arbitrationLoop k c) = tmView c := by
  induction k generalizing c with
  | zero => rfl
  | succ k ih => grind [arbitrationLoop, tmv_assignPallet]

@[simp] theorem tmv_arbitrate (c : Chip) : tmView (arbitrate c) = tmView c := by
  grind [arbitrate, tmv_arbitrationLoop, tmv_exposeAll]

@[simp] theorem tmv_takePallet (id) (c : Chip) : tmView (takePallet id c) = tmView c := by
  grind [takePallet, tmv_arbitrate, tmv_modPallet, tmv_evalDestination, tmv_enterDock]

theorem tmv_baSerial (c : Chip) (n) : tmView { c with ba := { c.ba with serial := n } } = tmView c := rfl

@[simp] theorem tmv_closePallet (id) (c : Chip) : tmView (closePallet id c) = tmView c := by
  grind [closePallet, tmv_takePallet, tmv_modPallet, tmv_modLot, tmv_baSerial]

@[simp] theorem tmv_closeShort (id) (c : Chip) : tmView (closeShort id c) = tmView c := by
  grind [closeShort, tmv_closePallet, tmv_modPallet]

@[simp] theorem tmv_checkDrain (i) (c : Chip) : tmView (checkDrain i c) = tmView c := by
  grind [checkDrain, tmv_closeShort, tmv_modLot]

@[simp] theorem tmv_modSlot (k f) (c : Chip) : tmView (modSlot k f c) = tmView c := rfl

@[simp] theorem tmv_setSlot (k s) (c : Chip) : tmView (setSlot k s c) = tmView c := rfl

@[simp] theorem places_modLot (i f) (c : Chip) :
    PlacesInTable ((modLot i f c)) ↔ PlacesInTable c := places_iff (tmv_modLot ..)

@[simp] theorem places_modPallet (i f) (c : Chip) :
    PlacesInTable ((modPallet i f c)) ↔ PlacesInTable c := places_iff (tmv_modPallet ..)

@[simp] theorem places_setAlert (k a) (c : Chip) :
    PlacesInTable ((setAlert k a c)) ↔ PlacesInTable c := places_iff (tmv_setAlert ..)

@[simp] theorem places_addTrap (t) (c : Chip) :
    PlacesInTable ((addTrap t c)) ↔ PlacesInTable c := places_iff (tmv_addTrap ..)

@[simp] theorem places_setUnsent (n b) (c : Chip) :
    PlacesInTable ((setUnsent n b c)) ↔ PlacesInTable c := places_iff (tmv_setUnsent ..)

@[simp] theorem places_takeFree (c : Chip) :
    PlacesInTable ((takeFree c).1) ↔ PlacesInTable c := places_iff (tmv_takeFree ..)

@[simp] theorem places_evalStopN (c : Chip) :
    PlacesInTable ((evalStopN c)) ↔ PlacesInTable c := places_iff (tmv_evalStopN ..)

@[simp] theorem places_reportHandedBack (s : FrameSource) (c : Chip) :
    PlacesInTable ((reportHandedBack s c)) ↔ PlacesInTable c := places_iff (tmv_reportHandedBack ..)

@[simp] theorem places_rpOffer (f : OwnFrame) (c : Chip) :
    PlacesInTable ((rpOffer f c).1) ↔ PlacesInTable c := places_iff (tmv_rpOffer ..)

@[simp] theorem places_handAlert (k : AlertKind) (c : Chip) :
    PlacesInTable ((handAlert k c).1) ↔ PlacesInTable c := places_iff (tmv_handAlert ..)

@[simp] theorem places_countAlert (k : AlertKind) (c : Chip) :
    PlacesInTable ((countAlert k c)) ↔ PlacesInTable c := places_iff (tmv_countAlert ..)

@[simp] theorem places_addAlert (k t w) (c : Chip) :
    PlacesInTable ((addAlert k t w c)) ↔ PlacesInTable c := places_iff (tmv_addAlert ..)

@[simp] theorem places_raiseOverflow (c : Chip) :
    PlacesInTable ((raiseOverflow c)) ↔ PlacesInTable c := places_iff (tmv_raiseOverflow ..)

@[simp] theorem places_raise (k t w) (c : Chip) :
    PlacesInTable ((raise k t w c)) ↔ PlacesInTable c := places_iff (tmv_raise ..)

@[simp] theorem places_raiseNat (k t n) (c : Chip) :
    PlacesInTable ((raiseNat k t n c)) ↔ PlacesInTable c := places_iff (tmv_raiseNat ..)

@[simp] theorem places_rpHand (f : OwnFrame) (c : Chip) :
    PlacesInTable ((rpHand f c).1) ↔ PlacesInTable c := places_iff (tmv_rpHand ..)

@[simp] theorem places_agOwn (k v) (c : Chip) :
    PlacesInTable ((agOwn k v c).1) ↔ PlacesInTable c := places_iff (tmv_agOwn ..)

@[simp] theorem places_gateFault (n) (c : Chip) :
    PlacesInTable ((gateFault n c)) ↔ PlacesInTable c := places_iff (tmv_gateFault ..)

@[simp] theorem places_agConfirm (n v s m t) (c : Chip) :
    PlacesInTable ((agConfirm n v s m t c).1) ↔ PlacesInTable c := places_iff (tmv_agConfirm ..)

@[simp] theorem places_sendValue (n k v s m t) (c : Chip) :
    PlacesInTable ((sendValue n k v s m t c).1) ↔ PlacesInTable c := places_iff (tmv_sendValue ..)

@[simp] theorem places_sendPause (c : Chip) :
    PlacesInTable ((sendPause c)) ↔ PlacesInTable c := places_iff (tmv_sendPause ..)

@[simp] theorem places_sendIntended (n) (c : Chip) :
    PlacesInTable ((sendIntended n c)) ↔ PlacesInTable c := places_iff (tmv_sendIntended ..)

@[simp] theorem places_evalDestination (id) (c : Chip) :
    PlacesInTable ((evalDestination id c)) ↔ PlacesInTable c := places_iff (tmv_evalDestination ..)

@[simp] theorem places_changePalletHold (id f) (c : Chip) :
    PlacesInTable ((changePalletHold id f c)) ↔ PlacesInTable c := places_iff (tmv_changePalletHold ..)

@[simp] theorem places_enterDock (id) (c : Chip) :
    PlacesInTable ((enterDock id c)) ↔ PlacesInTable c := places_iff (tmv_enterDock ..)

@[simp] theorem places_modShuttle (n f) (c : Chip) :
    PlacesInTable ((modShuttle n f c)) ↔ PlacesInTable c := places_iff (tmv_modShuttle ..)

@[simp] theorem places_checkExhausted (id) (c : Chip) :
    PlacesInTable ((checkExhausted id c)) ↔ PlacesInTable c := places_iff (tmv_checkExhausted ..)

@[simp] theorem places_exposePallet (id) (c : Chip) :
    PlacesInTable ((exposePallet id c)) ↔ PlacesInTable c := places_iff (tmv_exposePallet ..)

@[simp] theorem places_exposeAll (c : Chip) :
    PlacesInTable ((exposeAll c)) ↔ PlacesInTable c := places_iff (tmv_exposeAll ..)

@[simp] theorem places_assignPallet (p n) (c : Chip) :
    PlacesInTable ((assignPallet p n c).1) ↔ PlacesInTable c := places_iff (tmv_assignPallet ..)

@[simp] theorem places_arbitrationLoop (k) (c : Chip) :
    PlacesInTable ((arbitrationLoop k c)) ↔ PlacesInTable c := places_iff (tmv_arbitrationLoop ..)

@[simp] theorem places_arbitrate (c : Chip) :
    PlacesInTable ((arbitrate c)) ↔ PlacesInTable c := places_iff (tmv_arbitrate ..)

@[simp] theorem places_takePallet (id) (c : Chip) :
    PlacesInTable ((takePallet id c)) ↔ PlacesInTable c := places_iff (tmv_takePallet ..)

@[simp] theorem places_closePallet (id) (c : Chip) :
    PlacesInTable ((closePallet id c)) ↔ PlacesInTable c := places_iff (tmv_closePallet ..)

@[simp] theorem places_closeShort (id) (c : Chip) :
    PlacesInTable ((closeShort id c)) ↔ PlacesInTable c := places_iff (tmv_closeShort ..)

@[simp] theorem places_checkDrain (i) (c : Chip) :
    PlacesInTable ((checkDrain i c)) ↔ PlacesInTable c := places_iff (tmv_checkDrain ..)

@[simp] theorem places_modSlot (k f) (c : Chip) :
    PlacesInTable ((modSlot k f c)) ↔ PlacesInTable c := places_iff (tmv_modSlot ..)

@[simp] theorem places_setSlot (k s) (c : Chip) :
    PlacesInTable ((setSlot k s c)) ↔ PlacesInTable c := places_iff (tmv_setSlot ..)

/-! ## Single updates -/

section Updates
variable (c : Chip)
@[simp] theorem places_modSegment (i f) : PlacesInTable (modSegment i f c) ↔ PlacesInTable c := places_iff rfl
@[simp] theorem places_removeSegment (i) : PlacesInTable (removeSegment i c) ↔ PlacesInTable c := places_iff rfl
@[simp] theorem places_holdSegment (i r) : PlacesInTable (holdSegment i r c) ↔ PlacesInTable c := places_iff rfl
@[simp] theorem places_leaveWindow (i) : PlacesInTable (leaveWindow i c) ↔ PlacesInTable c := places_iff rfl
@[simp] theorem places_leaveGap (i) : PlacesInTable (leaveGap i c) ↔ PlacesInTable c := places_iff rfl
@[simp] theorem places_modIntake (i f) : PlacesInTable (modIntake i f c) ↔ PlacesInTable c := places_iff rfl
@[simp] theorem places_modTrack (i f) : PlacesInTable (modTrack i f c) ↔ PlacesInTable c := places_iff rfl
@[simp] theorem places_modDose (i f) : PlacesInTable (modDose i f c) ↔ PlacesInTable c := places_iff rfl
@[simp] theorem places_modFv (f) : PlacesInTable (modFv f c) ↔ PlacesInTable c := places_iff rfl
@[simp] theorem places_joinQueue (s g) : PlacesInTable (joinQueue s g c) ↔ PlacesInTable c := places_iff rfl
@[simp] theorem places_takeToken : PlacesInTable (takeToken c).1 ↔ PlacesInTable c := places_iff rfl
theorem places_pins (x) : PlacesInTable { c with pins := x } ↔ PlacesInTable c := places_iff rfl
theorem places_clock (x) : PlacesInTable { c with clock := x } ↔ PlacesInTable c := places_iff rfl
theorem places_rp (x) : PlacesInTable { c with rp := x } ↔ PlacesInTable c := places_iff rfl
theorem places_si (x) : PlacesInTable { c with si := x } ↔ PlacesInTable c := places_iff rfl
theorem places_siDe (x y) : PlacesInTable { c with si := x, de := y } ↔ PlacesInTable c := places_iff rfl
theorem places_tc (x) : PlacesInTable { c with tc := x } ↔ PlacesInTable c := places_iff rfl
theorem places_st (x) : PlacesInTable { c with st := x } ↔ PlacesInTable c := places_iff rfl
theorem places_lh (x) : PlacesInTable { c with lh := x } ↔ PlacesInTable c := places_iff rfl
theorem places_td (x) : PlacesInTable { c with td := x } ↔ PlacesInTable c := places_iff rfl
theorem places_ag (x) : PlacesInTable { c with ag := x } ↔ PlacesInTable c := places_iff rfl
theorem places_ma (x) : PlacesInTable { c with ma := x } ↔ PlacesInTable c := places_iff rfl
/-- A change of BA's state that leaves the decision list alone. -/
theorem places_ba {c : Chip} (x : Ba) (h : x.decisions = c.ba.decisions) :
    PlacesInTable { c with ba := x } ↔ PlacesInTable c := places_iff (by simp [tmView, h])
end Updates

/-! ## Places -/

/-- The place at the write pointer is a place (R151). -/
theorem pointerPlace_lt {c : Chip} {p : Nat} (h : pointerPlace c = some p) : p < 1024 := by
  obtain ⟨i, _, rfl⟩ := List.mem_map.mp (List.mem_of_find?_eq_some h)
  exact Nat.mod_lt _ (by omega)

theorem openPlace_lt {c : Chip} {p : Nat} (h : openPlace c = some p) : p < 1024 := by
  unfold openPlace at h
  split at h
  · split at h
    · next q e =>
      split at h
      · exact Option.some.inj h ▸ pointerPlace_lt e
      · exact absurd h (by simp)
    · exact absurd h (by simp)
  · exact absurd h (by simp)

@[simp] theorem places_modPlace {c : Chip} (p f) (h : PlacesInTable c) : PlacesInTable (modPlace p f c) :=
  ⟨by simpa [modPlace] using h.table, h.pointer, h.writes, h.marks, h.spi, h.reading, h.restart, h.decisions⟩

@[simp] theorem places_modFields {c : Chip} (p f) (h : PlacesInTable c) : PlacesInTable (modFields p f c) :=
  places_modPlace _ _ h

@[simp] theorem places_clearMark {c : Chip} (p) (h : PlacesInTable c) : PlacesInTable (clearMark p c) :=
  ⟨h.table, h.pointer, h.writes, fun q m => h.marks q (List.mem_filter.mp m).1, h.spi, h.reading, h.restart,
    h.decisions⟩

theorem places_setMark {c : Chip} {p} (l : p < 1024) (h : PlacesInTable c) : PlacesInTable (setMark p c) := by
  refine ⟨h.table, h.pointer, h.writes, ?_, h.spi, h.reading, h.restart, h.decisions⟩
  intro q m
  simp only [setMark] at m
  split at m
  · exact h.marks q m
  · rcases List.mem_append.mp m with m | m
    · exact h.marks q m
    · exact List.mem_singleton.mp m ▸ l

@[simp] theorem places_modQueued {c : Chip} (p f) (h : PlacesInTable c) : PlacesInTable (modQueued p f c) := by
  refine ⟨h.table, h.pointer, ?_, h.marks, h.spi, h.reading, h.restart, h.decisions⟩
  intro q m
  obtain ⟨r, mr, rfl⟩ := List.mem_map.mp m
  have := h.writes r mr
  split <;> exact this

@[simp] theorem places_freePlace {c : Chip} (p) (h : PlacesInTable c) : PlacesInTable (freePlace p c) :=
  places_clearMark _ (places_modPlace _ _ h)

theorem places_setSpi {c : Chip} {o b} (k : ∀ op, o = some op → op.inRange) (h : PlacesInTable c) :
    PlacesInTable (setSpi o b c) :=
  ⟨h.table, h.pointer, h.writes, h.marks, k, h.reading, h.restart, h.decisions⟩

theorem nextRewrite_mem {c : Chip} {p h} (e : nextRewrite c = some (p, h)) : p ∈ c.tm.marks := by
  obtain ⟨q, m, e⟩ := List.exists_of_findSome?_eq_some e
  split at e
  · exact (Prod.mk.inj (Option.some.inj e)).1 ▸ m
  · exact absurd e (by simp)

theorem places_grantWork {c : Chip} (h : PlacesInTable c) : PlacesInTable (grantWork c) := by
  unfold grantWork
  split
  · next q l e => exact places_setSpi (fun op x => Option.some.inj x ▸ h.writes q (e ▸ List.mem_cons_self ..)) h
  · split
    · next p _ e =>
      exact places_setSpi (fun op x => Option.some.inj x ▸ h.marks p (nextRewrite_mem e)) (places_clearMark _ h)
    · exact h

theorem places_whenWaiting {c d : Chip} (h : PlacesInTable d) : PlacesInTable (whenWaiting c d) := by
  unfold whenWaiting
  split
  · exact places_grantWork h
  · exact h

theorem places_mapDecisions {c : Chip} {ds : List DecisionEntry} (h : PlacesInTable c)
    (d : ∀ e ∈ ds, ∀ p, e.place = some p → p < 1024) : PlacesInTable { c with ba := { c.ba with decisions := ds } } :=
  ⟨h.table, h.pointer, h.writes, h.marks, h.spi, h.reading, h.restart, d⟩

theorem mem_of_mem_modify {α : Type} {f : α → α} {l : List α} {i : Nat} {x : α} (h : x ∈ l.modify i f) :
    x ∈ l ∨ ∃ d ∈ l, x = f d := by
  induction l generalizing i with
  | nil => simp at h
  | cons y l ih =>
    cases i with
    | zero =>
      rw [List.modify_zero_cons, List.mem_cons] at h
      rcases h with h | h
      · exact .inr ⟨y, List.mem_cons_self .., h⟩
      · exact .inl (List.mem_cons_of_mem _ h)
    | succ i =>
      rw [List.modify_succ_cons, List.mem_cons] at h
      rcases h with h | h
      · exact .inl (h ▸ List.mem_cons_self ..)
      · rcases ih h with k | ⟨d, md, e⟩
        · exact .inl (List.mem_cons_of_mem _ k)
        · exact .inr ⟨d, List.mem_cons_of_mem _ md, e⟩

theorem places_placeReport {c : Chip} {r p} (l : p < 1024) (h : PlacesInTable c) : PlacesInTable (placeReport r p c) := by
  have d : ∀ e ∈ (match c.ba.decisions.findIdx? (entryOfRecord r) with
      | some i => c.ba.decisions.modify i fun e => { e with place := some p }
      | none => c.ba.decisions), ∀ q, e.place = some q → q < 1024 := by
    intro e m q eq
    split at m
    · rcases mem_of_mem_modify m with m | ⟨d, _, rfl⟩
      · exact h.decisions e m q eq
      · exact Option.some.inj eq ▸ l
    · exact h.decisions e m q eq
  unfold placeReport
  have := places_mapDecisions h d
  dsimp only
  split
  · rw [places_modPallet]; exact this
  · exact this

theorem places_placeRecord {c : Chip} {p r} (l : p < 1024) (h : PlacesInTable c) : PlacesInTable (placeRecord p r c) := by
  have h1 := places_modPlace p (fun _ => Place.mk .pending (some ⟨r.seq, r.lot, r.pallet, r.rejected, r.hold, false,
    c.tm.placed⟩)) h
  refine places_placeReport l (places_whenWaiting ⟨h1.table, Nat.mod_lt _ (by omega), ?_, h1.marks, h1.spi, h1.reading,
    h1.restart, h1.decisions⟩)
  intro q m
  rcases List.mem_append.mp m with m | m
  · exact h1.writes q m
  · exact List.mem_singleton.mp m ▸ l

@[simp] theorem places_backlogRises (c : Chip) : PlacesInTable (backlogRises c) ↔ PlacesInTable c := by
  unfold backlogRises
  split
  · rw [places_sendPause, places_raiseNat]
  · rw [places_sendPause, places_raise]; exact places_iff rfl

@[simp] theorem places_takeRecord {c : Chip} (r) (h : PlacesInTable c) : PlacesInTable (takeRecord r c).1 := by
  unfold takeRecord
  split
  · exact h
  · split
    · next p e => exact places_placeRecord (openPlace_lt e) h
    · rw [places_backlogRises]
      exact ⟨h.table, h.pointer, h.writes, h.marks, h.spi, h.reading, h.restart, h.decisions⟩

@[simp] theorem places_placeHeld {c : Chip} (h : PlacesInTable c) : PlacesInTable (placeHeld c).1 := by
  unfold placeHeld
  split
  · next e =>
    rw [places_sendPause]
    exact places_placeRecord (openPlace_lt e)
      ⟨h.table, h.pointer, h.writes, h.marks, h.spi, h.reading, h.restart, h.decisions⟩
  · exact h

theorem places_amendPlace {c : Chip} {p f} (l : p < 1024) (h : PlacesInTable c) : PlacesInTable (amendPlace p f c) := by
  unfold amendPlace
  dsimp only
  repeat' split
  all_goals first
    | exact h
    | exact places_whenWaiting (places_setMark l (places_modFields _ _ h))
    | exact places_grantWork (places_setMark l (places_modFields _ _ h))
    | exact places_setMark l (places_modFields _ _ h)
    | exact places_modQueued _ _ (places_modFields _ _ h)
    | exact places_modFields _ _ h

theorem placeOfBag_lt {c : Chip} {l s p} (h : placeOfBag c l s = some p) : p < c.tm.places.length := by
  unfold placeOfBag at h
  have key (xs : List (Place × Nat)) (hx : ∀ x ∈ xs, x.2 < c.tm.places.length) (best : Option (Nat × Nat))
      (hb : ∀ b, best = some b → b.2 < c.tm.places.length) :
      ∀ b, xs.foldl (fun (best : Option (Nat × Nat)) (e, i) =>
        match placeLive e, e.fields with
        | true, some f =>
          if f.lot = l ∧ f.seq = s then
            match best with
            | none => some (f.placed, i)
            | some (b, j) => if b < f.placed then some (f.placed, i) else some (b, j)
          else best
        | _, _ => best) best = some b → b.2 < c.tm.places.length := by
    induction xs generalizing best with
    | nil => exact hb
    | cons x xs ih =>
      rw [List.foldl_cons]
      refine ih (fun y m => hx y (List.mem_cons_of_mem _ m)) _ ?_
      have hx0 := hx x (List.mem_cons_self ..)
      intro b e
      obtain ⟨pl, i⟩ := x
      dsimp only at e hx0
      split at e
      · split at e
        · split at e
          · exact Option.some.inj e ▸ hx0
          · split at e
            · exact Option.some.inj e ▸ hx0
            · next bb j _ => exact hb b (by simpa using e)
        · exact hb b e
      · exact hb b e
  cases e : (c.tm.places.zipIdx.foldl _ none : Option (Nat × Nat)) with
  | none => rw [e] at h; exact absurd h (by simp)
  | some b =>
    rw [e] at h
    have : b.2 = p := by simpa using h
    rw [← this]
    refine key _ ?_ none (by simp) b e
    intro x m
    have := List.mem_zipIdx m
    omega

@[simp] theorem places_amendBag {c : Chip} (l s f) (h : PlacesInTable c) : PlacesInTable (amendBag l s f c) := by
  unfold amendBag
  repeat' split
  all_goals first
    | exact h
    | exact ⟨h.table, h.pointer, h.writes, h.marks, h.spi, h.reading, h.restart, h.decisions⟩
    | next e => exact places_amendPlace (h.table ▸ placeOfBag_lt e) h

@[simp] theorem places_faultPallet (p) (c : Chip) : PlacesInTable (faultPallet p c) ↔ PlacesInTable c := by
  unfold faultPallet
  repeat' split
  all_goals simp

@[simp] theorem places_poisonPlace {c : Chip} (p) (h : PlacesInTable c) : PlacesInTable (poisonPlace p c) := by
  unfold poisonPlace
  rw [places_faultPallet]
  exact places_clearMark _ (places_modPlace _ _ h)

/-! ## Bags -/

theorem places_modDecisions {c : Chip} {t f} (k : ∀ e, (f e).place = e.place) (h : PlacesInTable c) :
    PlacesInTable (modDecisions t f c) := by
  refine places_mapDecisions h ?_
  intro e m p q
  obtain ⟨d, md, rfl⟩ := List.mem_map.mp m
  split at q
  · rw [k] at q; exact h.decisions d md p q
  · exact h.decisions d md p q

theorem places_addDecision {c : Chip} {e} (k : e.place = none) (h : PlacesInTable c) : PlacesInTable (addDecision e c) := by
  refine places_mapDecisions h ?_
  intro d m p q
  rcases List.mem_append.mp m with m | m
  · refine h.decisions d ?_ p q
    split at m
    · exact m
    · split at m
      · exact List.mem_of_mem_eraseIdx m
      · exact m
  · rw [List.mem_singleton.mp m, k] at q; exact absurd q (by simp)

@[simp] theorem places_handSlot {c : Chip} (k) (h : PlacesInTable c) : PlacesInTable (handSlot k c).1 := by
  unfold handSlot
  repeat' split
  all_goals try exact h
  · next r _ _ c1 e =>
    have t : PlacesInTable c1 := (show c1 = _ from (congrArg Prod.fst e).symm) ▸ places_takeRecord r h
    exact places_modDecisions (fun _ => rfl) ((places_setSlot k none c1).mpr t)
  · next r _ _ c1 e => exact (show c1 = _ from (congrArg Prod.fst e).symm) ▸ places_takeRecord r h

@[simp] theorem places_handDecided {c : Chip} (l) (h : PlacesInTable c) : PlacesInTable (handDecided l c) := by
  induction l generalizing c with
  | nil => exact h
  | cons k l ih => grind [handDecided, places_handSlot]

@[simp] theorem places_checkHolding {c : Chip} (h : PlacesInTable c) : PlacesInTable (checkHolding c) := by
  grind [checkHolding, places_placeHeld, places_handDecided]

@[simp] theorem places_releasePlace {c : Chip} (p) (h : PlacesInTable c) : PlacesInTable (releasePlace p c) := by
  unfold releasePlace; split <;> simp [h]

@[simp] theorem places_freePalletPlaces {c : Chip} (id) (h : PlacesInTable c) : PlacesInTable (freePalletPlaces id c) :=
  places_checkHolding (places_foldl (fun _ p h => by unfold releasePalletPlace; split <;> simp [h]) _ c h)

@[simp] theorem places_freeLotPlaces {c : Chip} (i) (h : PlacesInTable c) : PlacesInTable (freeLotPlaces i c) :=
  places_checkHolding (places_foldl (fun _ p h => places_releasePlace p h) _ c h)

@[simp] theorem places_retireLot {c : Chip} (i) (h : PlacesInTable c) : PlacesInTable (retireLot i c) := by
  have k := places_freeLotPlaces i h
  exact ⟨k.table, k.pointer, k.writes, k.marks, k.spi, k.reading, k.restart,
    fun e m => k.decisions e (List.mem_filter.mp m).1⟩

@[simp] theorem places_handLot {c : Chip} (i) (h : PlacesInTable c) : PlacesInTable (handLot i c) := by
  unfold handLot
  split
  · split
    next l _ c1 taken e =>
      have k : PlacesInTable c1 := (show c1 = _ from (congrArg Prod.fst e).symm) ▸ (places_rpHand ..).mpr h
      dsimp only
      split <;> simp [k, places_lh]
  · exact h

@[simp] theorem places_checkFinish {c : Chip} (i) (h : PlacesInTable c) : PlacesInTable (checkFinish i c) := by
  unfold checkFinish
  repeat' split
  all_goals simp [h]

@[simp] theorem places_reportLot {c : Chip} (i r) (h : PlacesInTable c) : PlacesInTable (reportLot i r c) := by
  simp [reportLot, h]

@[simp] theorem places_handWaitingLots {c : Chip} (h : PlacesInTable c) : PlacesInTable (handWaitingLots c) :=
  places_foldl (fun _ i h => places_handLot i h) _ c h

@[simp] theorem places_gateReasonToSlot (k h) (c : Chip) : PlacesInTable (gateReasonToSlot k h c) ↔ PlacesInTable c :=
  places_iff rfl

@[simp] theorem places_gateReasonToPallet (l h) (c : Chip) : PlacesInTable (gateReasonToPallet l h c) ↔ PlacesInTable c := by
  unfold gateReasonToPallet
  split
  · simp
  · exact places_iff rfl

@[simp] theorem places_settleRejected {c : Chip} (k) (h : PlacesInTable c) : PlacesInTable (settleRejected k c) := by
  unfold settleRejected
  split
  · refine places_handSlot k ((places_modSlot ..).mpr ?_)
    repeat' split
    all_goals simp [h]
  · exact h

@[simp] theorem places_createPallet {c : Chip} (l) (h : PlacesInTable c) : PlacesInTable (createPallet l c).1 := by
  unfold createPallet
  exact places_reportLot _ _ ((places_modLot ..).mpr (h.same rfl rfl))

@[simp] theorem places_countCase (id) (c : Chip) : PlacesInTable (countCase id c) ↔ PlacesInTable c := by
  unfold countCase
  repeat' first | split | dsimp only
  all_goals simp

@[simp] theorem places_joinPallet {c : Chip} (k id) (h : PlacesInTable c) : PlacesInTable (joinPallet k id c) := by
  unfold joinPallet
  split
  · exact places_handSlot k (by simp [h])
  · exact h

@[simp] theorem places_tryJoin {c : Chip} (k) (h : PlacesInTable c) : PlacesInTable (tryJoin k c).1 := by
  unfold tryJoin
  repeat' split
  all_goals first
    | exact h
    | exact places_joinPallet _ _ h
    | next s _ _ _ _ _ c1 id e =>
      exact places_joinPallet _ _
        ((show c1 = _ from (congrArg Prod.fst e).symm) ▸ places_createPallet s.lot h)

@[simp] theorem places_settleAccepted {c : Chip} (k) (h : PlacesInTable c) : PlacesInTable (settleAccepted k c) := by
  have t := places_tryJoin k h
  unfold settleAccepted
  split
  · next c1 e => rw [e] at t; exact t
  · next c1 e =>
    rw [e] at t
    split
    · simpa using t
    · exact t

@[simp] theorem places_decideBag {c : Chip} (k) (h : PlacesInTable c) : PlacesInTable (decideBag k c) := by
  unfold decideBag
  repeat' first | split | dsimp only
  all_goals try exact h
  all_goals
    first | apply places_settleRejected | apply places_settleAccepted
    refine places_modDecisions (fun _ => rfl) ((places_modSlot ..).mpr ?_)
    exact h.same rfl rfl

@[simp] theorem places_resumeWaiting {c : Chip} (h : PlacesInTable c) : PlacesInTable (resumeWaiting c) :=
  places_foldl (fun _ x p => places_tryJoin x p) _ c h

@[simp] theorem places_fireCheck {c : Chip} (s) (h : PlacesInTable c) : PlacesInTable (fireCheck s c).1 := by
  unfold fireCheck
  repeat' split
  all_goals first | exact h | exact places_decideBag _ h

@[simp] theorem places_bagOutcome {c : Chip} (s r) (h : PlacesInTable c) : PlacesInTable (bagOutcome s r c) := by
  unfold bagOutcome
  split
  · exact h.same rfl rfl
  · next e he =>
    have me : e ∈ c.ba.decisions := by
      have := List.mem_of_find?_eq_some he
      exact List.mem_reverse.mp this
    repeat' first | split | dsimp only
    all_goals first
      | exact h
      | exact places_modDecisions (fun _ => rfl) h
      | (rw [places_gateReasonToPallet, places_gateReasonToSlot]; exact h)
      | (rw [places_gateReasonToPallet]; exact places_amendBag _ _ _ h)
      | (rw [places_gateReasonToPallet]
         next hp => exact places_amendPlace (h.decisions e me _ hp) h)

/-! ## Delivery reports -/

@[simp] theorem places_palletReportLeft {c : Chip} (id r) (h : PlacesInTable c) :
    PlacesInTable (palletReportLeft id r c) := by
  unfold palletReportLeft
  repeat' first | split | dsimp only
  all_goals try exact h
  refine places_reportLot _ _ (places_resumeWaiting (PlacesInTable.same (c := freePalletPlaces id _) ?_ rfl rfl))
  exact places_freePalletPlaces _ (by simpa using h)

@[simp] theorem places_handDelivery {c : Chip} (id) (h : PlacesInTable c) : PlacesInTable (handDelivery id c) := by
  unfold handDelivery
  split
  · split
    next p _ c1 taken e =>
      have k : PlacesInTable c1 := (show c1 = _ from (congrArg Prod.fst e).symm) ▸ (places_rpHand ..).mpr h
      dsimp only
      split <;> simp [k, places_td]
  · exact h

@[simp] theorem places_handWaitingDeliveries {c : Chip} (h : PlacesInTable c) : PlacesInTable (handWaitingDeliveries c) :=
  places_foldl (fun _ i h => places_handDelivery i h) _ c h

@[simp] theorem places_reviseDelivery {c : Chip} (id) (h : PlacesInTable c) : PlacesInTable (reviseDelivery id c) := by
  unfold reviseDelivery
  repeat' split
  all_goals simp [h]

end Sys2Proof.Machine
end

