-- ==== Sys2Proof/Laws/PlacesEvents.lean ====
section
/-! SUPPORT. The track channels, the segments, the bags, the intake, the ring and the grants keep every place in the
table. -/

namespace Sys2Proof.Machine

set_option Elab.async false

@[simp] theorem places_freeSegment {c : Chip} (i b) (h : PlacesInTable c) : PlacesInTable (freeSegment i b c) := by
  unfold freeSegment; split <;> simp [h]

@[simp] theorem places_segmentOutcome {c : Chip} (i r) (h : PlacesInTable c) : PlacesInTable (segmentOutcome i r c) := by
  unfold segmentOutcome
  repeat' split
  all_goals simp [places_st, h]

@[simp] theorem places_reportServed {c : Chip} (r s) (h : PlacesInTable c) : PlacesInTable (reportServed r c s) := by
  cases s <;> simp [reportServed, h]

@[simp] theorem places_reportAll {c : Chip} (r l) (h : PlacesInTable c) : PlacesInTable (reportAll r l c) :=
  places_foldl (fun _ x p => places_reportServed r x p) l c h

@[simp] theorem places_refuseStart (n) (c : Chip) : PlacesInTable (refuseStart n c) ↔ PlacesInTable c := places_iff rfl
@[simp] theorem places_pushStart (n s) (c : Chip) : PlacesInTable (pushStart n s c) ↔ PlacesInTable c := places_iff rfl
@[simp] theorem places_popStart (n) (c : Chip) : PlacesInTable (popStart n c) ↔ PlacesInTable c := places_iff rfl

@[simp] theorem places_enterStart {c : Chip} (n s) (h : PlacesInTable c) : PlacesInTable (enterStart n s c).1 := by
  unfold enterStart
  repeat' first | split | dsimp only
  all_goals simp [h]

@[simp] theorem places_startSlaves {c : Chip} (n p) (h : PlacesInTable c) : PlacesInTable (startSlaves n p c) :=
  places_foldl (fun c x h => by split <;> simp [h]) _ c h

@[simp] theorem places_fireEvent {c : Chip} (n p) (h : PlacesInTable c) : PlacesInTable (fireEvent n p c) := by
  simp [fireEvent, h]

@[simp] theorem places_sendOutput (n b s) (c : Chip) : PlacesInTable (sendOutput n b s c).1 ↔ PlacesInTable c := by
  unfold sendOutput; split <;> simp

@[simp] theorem places_settlePulse {c : Chip} (n o) (h : PlacesInTable c) : PlacesInTable (settlePulse n o c) := by
  unfold settlePulse
  repeat' first | split | dsimp only
  all_goals simp [h]

@[simp] theorem places_settleToken {c : Chip} (n t o) (h : PlacesInTable c) : PlacesInTable (settleToken n t o c) := by
  unfold settleToken
  repeat' first | split | dsimp only
  all_goals simp [h]

@[simp] theorem places_joinPulse {c : Chip} (n s) (h : PlacesInTable c) : PlacesInTable (joinPulse n s c) := by
  unfold joinPulse
  repeat' first | split | dsimp only
  all_goals simp [h]

@[simp] theorem places_fireDelay {c : Chip} (n s) (h : PlacesInTable c) : PlacesInTable (fireDelay n s c) := by
  grind [fireDelay, places_sendOutput, places_takeToken, places_reportAll, places_modTrack]

@[simp] theorem places_fireGate {c : Chip} (n s p) (h : PlacesInTable c) : PlacesInTable (fireGate n s p c) := by
  grind [fireGate, places_sendOutput, places_takeToken, places_joinPulse, places_settlePulse, places_modTrack]

@[simp] theorem places_fireStart {c : Chip} (n s p) (h : PlacesInTable c) : PlacesInTable (fireStart n s p c) := by
  grind [fireStart, places_fireDelay, places_fireGate, places_fireEvent, places_popStart, places_fireCheck,
    places_modTrack]

@[simp] theorem places_closeGate (n) (c : Chip) : PlacesInTable (closeGate n c) ↔ PlacesInTable c := by simp [closeGate]

@[simp] theorem places_handlePoints {c : Chip} (n k) (h : PlacesInTable c) : PlacesInTable (handlePoints n k c) := by
  induction k generalizing c with
  | zero => exact h
  | succ k ih => grind [handlePoints, places_fireStart, places_closeGate]

@[simp] theorem places_handleChannel {c : Chip} (n) (h : PlacesInTable c) : PlacesInTable (handleChannel n c) :=
  places_handlePoints _ _ h

@[simp] theorem places_handleSlaves {c : Chip} (l n) (h : PlacesInTable c) : PlacesInTable (handleSlaves l n c) :=
  places_foldl (fun c x h => by split <;> simp [h]) _ c h

@[simp] theorem places_settleStart {c : Chip} (l n p) (h : PlacesInTable c) : PlacesInTable (settleStart l n p c) := by
  unfold settleStart; split <;> simp [h]

@[simp] theorem places_startNow {c : Chip} (n s) (h : PlacesInTable c) : PlacesInTable (startNow n s c).1 := by
  grind [startNow, places_enterStart, places_settleStart]

@[simp] theorem places_captureAt {c : Chip} (n) (h : PlacesInTable c) : PlacesInTable (captureAt n c) := by
  simp [captureAt, h]

@[simp] theorem places_markerChannel {c : Chip} (n e l) (h : PlacesInTable c) :
    PlacesInTable (markerChannel n e l c) := by
  unfold markerChannel
  repeat' first | split | dsimp only
  all_goals simp [h]

@[simp] theorem places_markerItem {c : Chip} (m l) (h : PlacesInTable c) : PlacesInTable (markerItem m l c) :=
  places_foldl (fun c x h => by repeat' split
                                all_goals simp [h]) _ c h

@[simp] theorem places_markerStale {c : Chip} (m) (h : PlacesInTable c) : PlacesInTable (markerStale m c) :=
  places_foldl (fun c x h => by repeat' split
                                all_goals simp [h]) _ c h

@[simp] theorem places_encoderStale {c : Chip} (m) (h : PlacesInTable c) : PlacesInTable (encoderStale m c) :=
  places_foldl (fun c x h => by repeat' split
                                all_goals simp [h]) _ c h

@[simp] theorem places_fireIntervals {c : Chip} (n k) (h : PlacesInTable c) : PlacesInTable (fireIntervals n k c) := by
  induction k generalizing c with
  | zero => exact h
  | succ k ih => exact ih (by simp [h])

@[simp] theorem places_handleMilliseconds {c : Chip} (h : PlacesInTable c) : PlacesInTable (handleMilliseconds c) :=
  places_foldl (fun c x h => by split <;> simp [h]) _ c h

@[simp] theorem places_startChannel {c : Chip} (n) (h : PlacesInTable c) : PlacesInTable (startChannel n c).1 := by
  have k (d : Chip) (hd : PlacesInTable d) : PlacesInTable (commandStart n d).1 := by
    grind [commandStart, places_startNow]
  unfold startChannel
  repeat' first | split | dsimp only
  all_goals first | exact h | (simp [h]; done) | exact k _ (by simp [h])

@[simp] theorem places_stopChannel {c : Chip} (n) (h : PlacesInTable c) : PlacesInTable (stopChannel n c) := by
  unfold stopChannel
  repeat' first | split | dsimp only
  all_goals simp [h]

@[simp] theorem places_resendAll {c : Chip} (h : PlacesInTable c) : PlacesInTable (resendAll c) :=
  places_foldl (fun c x h => by simp [h]) _ c h

@[simp] theorem places_resendUnsent {c : Chip} (h : PlacesInTable c) : PlacesInTable (resendUnsent c) :=
  places_foldl (fun c x h => by split <;> simp [h]) _ c h

/-! ## Dose engine, freeze verifier, segment tracker -/

@[simp] theorem places_creditSegment {c : Chip} (z t ct id) (h : PlacesInTable c) :
    PlacesInTable (creditSegment z t ct id c) := by
  unfold creditSegment
  repeat' first | split | dsimp only
  all_goals simp [h]

@[simp] theorem places_zoneUpdate {c : Chip} (z b a) (h : PlacesInTable c) : PlacesInTable (zoneUpdate z b a c) := by
  unfold zoneUpdate
  split
  · simp only [places_modDose]; exact places_foldl (fun c x h => by simp [h]) _ c h
  · simp only [places_modDose]; exact places_foldl (fun c x h => by simp [h]) _ c h

@[simp] theorem places_zoneEntered {c : Chip} (z id) (h : PlacesInTable c) : PlacesInTable (zoneEntered z id c) := by
  unfold zoneEntered; split <;> simp [h]

@[simp] theorem places_tellZone {c : Chip} (z s) (h : PlacesInTable c) : PlacesInTable (tellZone z s c) := by
  unfold tellZone
  dsimp only
  split
  · exact places_foldl (fun c x h => by repeat' split
                                        all_goals simp [h]) _ _ (by simpa using h)
  · simpa using h

@[simp] theorem places_checkOverblanch {c : Chip} (id) (h : PlacesInTable c) : PlacesInTable (checkOverblanch id c) := by
  unfold checkOverblanch
  repeat' split
  all_goals simp [h]

@[simp] theorem places_holdCounted {c : Chip} (id r f) (h : PlacesInTable c) : PlacesInTable (holdCounted id r f c) := by
  unfold holdCounted
  repeat' split
  all_goals simp [h]

@[simp] theorem places_holdWarmChill {c : Chip} (id) (h : PlacesInTable c) : PlacesInTable (holdWarmChill id c) :=
  places_holdCounted _ _ _ h

@[simp] theorem places_checkChillWindow {c : Chip} (id) (h : PlacesInTable c) :
    PlacesInTable (checkChillWindow id c) := by
  unfold checkChillWindow
  repeat' split
  all_goals simp [h]

@[simp] theorem places_chillItem {c : Chip} (v) (h : PlacesInTable c) : PlacesInTable (chillItem v c) := by
  unfold chillItem
  simp only [places_modFv]
  split
  · refine places_foldl (fun c x h => ?_) _ c h
    unfold chargeWarm
    repeat' first | split | dsimp only
    all_goals simp [h]
  · exact h

@[simp] theorem places_tellChill {c : Chip} (s b) (h : PlacesInTable c) : PlacesInTable (tellChill s b c) := by
  unfold tellChill
  split
  · split <;> simp [h]
  · exact places_foldl (fun c x h => by simp [h]) _ _ (by simpa using h)
  · simpa using h

@[simp] theorem places_chillArrival {c : Chip} (id) (h : PlacesInTable c) : PlacesInTable (chillArrival id c) := by
  unfold chillArrival; split <;> simp [h]

@[simp] theorem places_exitItem {c : Chip} (v) (h : PlacesInTable c) : PlacesInTable (exitItem v c) := by
  unfold exitItem
  split
  · simpa using h
  · exact places_foldl (fun c x h => by simpa using h) _ c h

@[simp] theorem places_tellExit (s) (c : Chip) : PlacesInTable (tellExit s c) ↔ PlacesInTable c := places_iff rfl
@[simp] theorem places_enterWindow (i) (c : Chip) : PlacesInTable (enterWindow i c) ↔ PlacesInTable c := places_iff rfl

@[simp] theorem places_freezeVerdict {c : Chip} (g) (h : PlacesInTable c) : PlacesInTable (freezeVerdict g c).1 := by
  unfold freezeVerdict
  repeat' split
  all_goals simp [h]

@[simp] theorem places_checkDwell {c : Chip} (id) (h : PlacesInTable c) : PlacesInTable (checkDwell id c) := by
  unfold checkDwell
  repeat' split
  all_goals simp [h]

@[simp] theorem places_joinSilent {c : Chip} (b id) (h : PlacesInTable c) : PlacesInTable (joinSilent b id c) := by
  unfold joinSilent; split <;> simp [h]

@[simp] theorem places_divertSegment {c : Chip} (b g id a o) (h : PlacesInTable c) :
    PlacesInTable (divertSegment b g id a o c) := by
  unfold divertSegment
  simp only
  split <;> split at * <;>
    grind [places_modSegment, places_raiseNat, places_settleStart, places_refuseStart, places_enterStart]

@[simp] theorem places_decideSegment {c : Chip} (b id a o) (h : PlacesInTable c) :
    PlacesInTable (decideSegment b id a o c) := by
  grind [decideSegment, places_divertSegment, places_modSegment, places_checkOverblanch, places_freezeVerdict]

@[simp] theorem places_surgeArrival {c : Chip} (id) (h : PlacesInTable c) : PlacesInTable (surgeArrival id c) := by
  unfold surgeArrival
  repeat' split
  all_goals simp [h]

@[simp] theorem places_stageEnd {c : Chip} (b id) (h : PlacesInTable c) : PlacesInTable (stageEnd b id c) := by
  unfold stageEnd
  cases b <;> simp only <;> split <;> simp (maxDischargeDepth := 9) [h]

@[simp] theorem places_enterZone {c : Chip} (z id) (h : PlacesInTable c) : PlacesInTable (enterZone z id c) := by
  simp [enterZone, h]

@[simp] theorem places_crossZones {c : Chip} (id b a) (h : PlacesInTable c) : PlacesInTable (crossZones id b a c) :=
  places_foldl (fun c x h => by split <;> simp [h]) _ c h

@[simp] theorem places_crossAll {c : Chip} (b id k x y) (h : PlacesInTable c) :
    PlacesInTable (crossAll b id k x y c) := by
  unfold crossAll
  cases b <;> simp only <;> repeat' split
  all_goals simp [h]

@[simp] theorem places_advanceSegment {c : Chip} (b d a id) (h : PlacesInTable c) :
    PlacesInTable (advanceSegment b d a id c) := by
  unfold advanceSegment
  repeat' first | split | dsimp only
  all_goals simp [h]

@[simp] theorem places_advanceStage {c : Chip} (b ch d) (h : PlacesInTable c) :
    PlacesInTable (advanceStage b ch d c) := by
  unfold advanceStage
  split
  · exact places_foldl (fun c x h => by simp [h]) _ c h
  · exact h

@[simp] theorem places_createSegment {c : Chip} (n l m e b) (h : PlacesInTable c) :
    PlacesInTable (createSegment n l m e b c) := by
  simp (maxDischargeDepth := 9) [createSegment, places_st, h]

@[simp] theorem places_cut {c : Chip} (n b) (h : PlacesInTable c) : PlacesInTable (cut n b c) := by
  unfold cut
  split
  repeat' first | split | dsimp only
  all_goals simp [places_st, h]

@[simp] theorem places_fireCuts {c : Chip} (n l k r) (h : PlacesInTable c) : PlacesInTable (fireCuts n l k r c) := by
  induction k generalizing r c with
  | zero => exact h
  | succ k ih => unfold fireCuts; split <;> exact ih _ (by simp [h])

@[simp] theorem places_advanceCut {c : Chip} (n d) (h : PlacesInTable c) : PlacesInTable (advanceCut n d c) := by
  unfold advanceCut
  repeat' first | split | dsimp only
  all_goals simp [h]

@[simp] theorem places_advanceSource {c : Chip} (e d) (h : PlacesInTable c) : PlacesInTable (advanceSource e d c) :=
  places_foldl (fun c x h => by split <;> simp [h]) _ _ ((places_tc ..).mpr h)

@[simp] theorem places_encoderSilent {c : Chip} (b) (h : PlacesInTable c) : PlacesInTable (encoderSilent b c) :=
  places_foldl (fun c x h => by simpa using h) _ c h

/-! ## Bag items -/

@[simp] theorem places_drawBag {c : Chip} (k) (h : PlacesInTable c) : PlacesInTable (drawBag k c) := by
  have l (fuel need : Nat) (d : Chip) (hd : PlacesInTable d) : PlacesInTable (drawLoop k fuel need d).1 := by
    induction fuel generalizing need d with
    | zero => exact hd
    | succ n ih => grind [drawLoop, places_freeSegment, places_modSegment, places_modSlot]
  grind [drawBag, places_reportLot, places_modSlot]

@[simp] theorem places_issueBagStarts {c : Chip} (s) (h : PlacesInTable c) : PlacesInTable (issueBagStarts s c) :=
  places_foldl (fun c x h => by grind [places_startNow, places_bagOutcome]) _ c h

@[simp] theorem places_lotlessBag {c : Chip} (s) (h : PlacesInTable c) : PlacesInTable (lotlessBag s c) := by
  unfold lotlessBag
  refine places_issueBagStarts s (places_addDecision rfl ?_)
  exact ((places_raiseNat .untracked .bag s c).mpr h).same rfl rfl

@[simp] theorem places_overrunBag {c : Chip} (s l) (h : PlacesInTable c) : PlacesInTable (overrunBag s l c) := by
  have k (d : Chip) (p : PlacesInTable d) : PlacesInTable (takeRecord (overrunRecord s l c) d).1 :=
    places_takeRecord _ p
  have a (e : DecisionEntry) (d : Chip) (he : e.place = none) (p : PlacesInTable d) :
      PlacesInTable (issueBagStarts s (addDecision e d)) := places_issueBagStarts s (places_addDecision he p)
  have r (d : Chip) : PlacesInTable (raiseNat .bagOverrun .bag s d) ↔ PlacesInTable d := places_raiseNat ..
  have b (d : Chip) (n : Nat) (p : PlacesInTable d) : PlacesInTable { d with ba := { d.ba with lostRecords := n } } :=
    p.same rfl rfl
  unfold overrunBag
  dsimp only
  split
  · next c4 e =>
    refine places_reportLot _ _ (places_reportLot _ _ (places_reportLot _ _ ?_))
    rw [show c4 = _ from (congrArg Prod.fst e).symm]
    exact k _ (a _ _ rfl ((r _).mpr (h.same rfl rfl)))
  · next c4 e =>
    refine b _ _ ?_
    rw [show c4 = _ from (congrArg Prod.fst e).symm]
    exact k _ (a _ _ rfl ((r _).mpr (h.same rfl rfl)))

@[simp] theorem places_gatherBag {c : Chip} (s l k) (h : PlacesInTable c) : PlacesInTable (gatherBag s l k c) := by
  have a (e : DecisionEntry) (d : Chip) (he : e.place = none) (p : PlacesInTable d) :
      PlacesInTable (issueBagStarts s (addDecision e d)) := places_issueBagStarts s (places_addDecision he p)
  unfold gatherBag
  repeat' first | split | dsimp only
  · exact places_decideBag k (a _ _ rfl (by simp [h]))
  · exact a _ _ rfl (by simp [h])

@[simp] theorem places_bagMade {c : Chip} (w) (h : PlacesInTable c) : PlacesInTable (bagMade w c) := by
  have k (d : Chip) (s : Nat) (p : PlacesInTable d) : PlacesInTable (newBag s d) := by
    unfold newBag
    repeat' split
    all_goals simp [p]
  unfold bagMade
  split
  · exact h
  · exact k _ _ (h.same rfl rfl)

@[simp] theorem places_contribute {c : Chip} (f s v) (h : PlacesInTable c) : PlacesInTable (contribute f s v c) := by
  unfold contribute
  repeat' first | split | dsimp only
  all_goals first
    | exact h
    | (simp [h]; done)
    | exact ((places_raiseNat .orphan .bag s c).mpr h).same rfl rfl

@[simp] theorem places_bagField {c : Chip} (f w) (h : PlacesInTable c) : PlacesInTable (bagField f w c) := by
  unfold bagField
  repeat' split
  all_goals first
    | exact h
    | exact places_contribute _ _ _ (h.same rfl rfl)

/-! ## Transfer, guard, intake -/

@[simp] theorem places_shuttleStatus {c : Chip} (n w) (h : PlacesInTable c) : PlacesInTable (shuttleStatus n w c) := by
  have f1 : PlacesInTable (faultTransfer n c) ↔ PlacesInTable c := by
    unfold faultTransfer
    repeat' first | split | dsimp only
    all_goals simp
  have f2 (m p) : PlacesInTable (phaseStatus n m p c) := by
    unfold phaseStatus airlockEntry deliver
    repeat' first | split | dsimp only
    all_goals simp [h]
  unfold shuttleStatus faultIdle
  repeat' first | split | dsimp only
  all_goals simp [h, f1, f2]

@[simp] theorem places_faultTransfer (n) (c : Chip) : PlacesInTable (faultTransfer n c) ↔ PlacesInTable c := by
  unfold faultTransfer
  repeat' first | split | dsimp only
  all_goals simp

@[simp] theorem places_enableShuttle (n) (c : Chip) : PlacesInTable (enableShuttle n c).1 ↔ PlacesInTable c := by
  unfold enableShuttle
  repeat' first | split | dsimp only
  all_goals simp

@[simp] theorem places_requeuePallet (id) (c : Chip) : PlacesInTable (requeuePallet id c).1 ↔ PlacesInTable c := by
  unfold requeuePallet
  repeat' first | split | dsimp only
  all_goals simp

@[simp] theorem places_checkItem (k v) (c : Chip) : PlacesInTable (checkItem k v c).1 ↔ PlacesInTable c := by
  have s (b r x) (d : Chip) : PlacesInTable (shadowItem b k r x d) ↔ PlacesInTable d := by
    unfold shadowItem
    repeat' split
    all_goals exact places_iff rfl
  unfold checkItem
  repeat' first | split | dsimp only
  all_goals simp [s]

@[simp] theorem places_checkItems (l) (c : Chip) : PlacesInTable (checkItems l c).1 ↔ PlacesInTable c := by
  induction l generalizing c with
  | nil => exact Iff.rfl
  | cons i l ih =>
    have h := places_checkItem i.key i.value c
    unfold checkItems
    split
    · next c1 v e => rw [e] at h; split; next c2 k e2 => have := ih c1; rw [e2] at this; exact this.trans h
    · next c1 e => rw [e] at h; exact (ih c1).trans h

@[simp] theorem places_tellSource {c : Chip} (e o) (h : PlacesInTable c) : PlacesInTable (tellSource e o c) := by
  unfold tellSource; split <;> simp [h]

@[simp] theorem places_pointEcho {c : Chip} (n w) (h : PlacesInTable c) : PlacesInTable (pointEcho n w c) := by
  unfold pointEcho
  repeat' split
  all_goals simp [places_ag, h]

@[simp] theorem places_expireConfirm {c : Chip} (i) (h : PlacesInTable c) : PlacesInTable (expireConfirm i c) := by
  unfold expireConfirm; split <;> simp [places_ag, h]

@[simp] theorem places_rederiveZone {c : Chip} (z) (h : PlacesInTable c) : PlacesInTable (rederiveZone z c) := by
  unfold rederiveZone
  repeat' first | split | dsimp only
  all_goals simp [places_si, h]

@[simp] theorem places_tellFreshness {c : Chip} (i r s) (h : PlacesInTable c) :
    PlacesInTable (tellFreshness i r s c) := by
  unfold tellFreshness
  repeat' split
  all_goals simp [h]

@[simp] theorem places_zoneItem {c : Chip} (z i b) (h : PlacesInTable c) : PlacesInTable (zoneItem z i b c) := by
  have s (d : Chip) (p : PlacesInTable d) : PlacesInTable (checkSplit z i d) := by
    unfold checkSplit
    repeat' split
    all_goals simp [p]
  unfold zoneItem
  refine s _ ?_
  split <;> simp [h]

@[simp] theorem places_encoderItem {c : Chip} (i b n) (h : PlacesInTable c) : PlacesInTable (encoderItem i b n c) := by
  unfold encoderItem
  repeat' first | split | dsimp only
  all_goals simp [h]

@[simp] theorem places_handOn {c : Chip} (i r b v w) (h : PlacesInTable c) : PlacesInTable (handOn i r b v w c) := by
  unfold handOn; split <;> simp [h]

@[simp] theorem places_acceptItem {c : Chip} (i b w) (h : PlacesInTable c) : PlacesInTable (acceptItem i b w c) := by
  have o (r t) : PlacesInTable (overRange i r t c) := by
    unfold overRange
    repeat' split
    all_goals simp [h]
  unfold acceptItem
  refine places_handOn _ _ _ _ _ ?_
  split <;> simp [o]

@[simp] theorem places_takeItems {c : Chip} (l) (h : PlacesInTable c) : PlacesInTable (takeItems l c) := by
  refine places_foldl (fun c x h => ?_) l c h
  unfold takeItem
  repeat' split
  all_goals simp [h]

@[simp] theorem places_expireFreshness {c : Chip} (i) (h : PlacesInTable c) : PlacesInTable (expireFreshness i c) := by
  unfold expireFreshness
  repeat' first | split | dsimp only
  all_goals simp [h]

@[simp] theorem places_expireStaleHold {c : Chip} (i) (h : PlacesInTable c) : PlacesInTable (expireStaleHold i c) := by
  unfold expireStaleHold
  repeat' first | split | dsimp only
  all_goals simp [h]

end Sys2Proof.Machine
end

