-- ==== Sys2Proof/Laws/Events.lean ====
section
/-! SUPPORT. The events of the ring, of management, of the trace memory controller and of the warm restart: every place
stays in the table, and the ring state agrees with the error counts. -/

namespace Sys2Proof.Machine

set_option Elab.async false

/-! ## Management -/

@[simp] theorem places_handAnswer (r s w) (c : Chip) : PlacesInTable (handAnswer r s w c) ↔ PlacesInTable c :=
  places_iff (tmv_foldl (fun c _ => tmv_rpHand _ c) _ c)

@[simp] theorem places_endRequest (r s w) (c : Chip) : PlacesInTable (endRequest r s w c) ↔ PlacesInTable c := by
  unfold endRequest
  dsimp only
  rw [places_ma, places_handAnswer]

@[simp] theorem places_answerOnly (o t k s) (c : Chip) : PlacesInTable (answerOnly o t k s c) ↔ PlacesInTable c :=
  places_handAnswer ..

@[simp] theorem places_setAssembly (a) (c : Chip) : PlacesInTable (setAssembly a c) ↔ PlacesInTable c := places_iff rfl

@[simp] theorem places_completeRequest (a) (c : Chip) : PlacesInTable (completeRequest a c) ↔ PlacesInTable c := by
  unfold completeRequest
  split
  · rw [places_ma]
  · simp

@[simp] theorem places_continueAssembly (a b) (c : Chip) : PlacesInTable (continueAssembly a b c) ↔ PlacesInTable c := by
  unfold continueAssembly; split <;> simp

@[simp] theorem places_dropAssembly (c : Chip) : PlacesInTable (dropAssembly c) ↔ PlacesInTable c := by
  unfold dropAssembly; split <;> simp

@[simp] theorem places_takePart (p) (c : Chip) : PlacesInTable (takePart p c) ↔ PlacesInTable c := by
  unfold takePart
  repeat' first | split | dsimp only
  all_goals simp

@[simp] theorem places_handAllUnsent (c : Chip) : PlacesInTable (handAllUnsent c) ↔ PlacesInTable c := by
  have u (k) (d : Chip) : tmView (handUnsent k d) = tmView d := by grind [handUnsent, tmv_handAlert, tmv_raiseOverflow]
  exact places_iff (tmv_foldl (fun c k => u k c) _ c)

/-! ## The ring -/

@[simp] theorem places_ringActive {c : Chip} (h : PlacesInTable c) : PlacesInTable (ringActive c) := by simp [ringActive, h]

@[simp] theorem places_isolatedEntry (c : Chip) : PlacesInTable (isolatedEntry c) ↔ PlacesInTable c := by
  unfold isolatedEntry
  rw [places_raise]
  exact places_iff rfl

@[simp] theorem places_isolatedExit {c : Chip} (n) (h : PlacesInTable c) : PlacesInTable (isolatedExit n c) := by
  have k : PlacesInTable { c with pins := { c.pins with rly := true }, rp := { c.rp with ring := n } } := h.same rfl rfl
  unfold isolatedExit
  rw [places_arbitrate]
  split <;> simp [k]

@[simp] theorem places_reportLeft {c : Chip} (s) (h : PlacesInTable c) : PlacesInTable (reportLeft s c) := by
  cases s <;> simp [reportLeft, h]

@[simp] theorem places_txGrant {c : Chip} (h : PlacesInTable c) : PlacesInTable (txGrant c) := by
  unfold txGrant
  repeat' split
  all_goals first
    | exact h
    | exact (places_rp ..).mpr h
    | exact places_reportLeft _ (h.same rfl rfl)

@[simp] theorem places_evalRing {c : Chip} (h : PlacesInTable c) : PlacesInTable (evalRing c) := by
  unfold evalRing
  split <;> simp [h, places_rp]

@[simp] theorem places_setErrors {c : Chip} (rx tx) (h : PlacesInTable c) : PlacesInTable (setErrors rx tx c) :=
  places_evalRing (h.same rfl rfl)

@[simp] theorem places_recover {c : Chip} (h : PlacesInTable c) : PlacesInTable (recover c) := by
  unfold recover; split <;> simp [h]

@[simp] theorem places_answerOut (e) (c : Chip) : PlacesInTable (answerOut e c) ↔ PlacesInTable c := by
  unfold answerOut; split <;> simp [places_ma]

@[simp] theorem places_dropEntry (i) (c : Chip) : PlacesInTable (dropEntry i c) ↔ PlacesInTable c := places_iff rfl

@[simp] theorem places_returnCheck {c : Chip} (k s) (h : PlacesInTable c) : PlacesInTable (returnCheck k s c) := by
  unfold returnCheck
  repeat' first | split | dsimp only
  all_goals simp [h]

@[simp] theorem places_expireReturn {c : Chip} (s) (h : PlacesInTable c) : PlacesInTable (expireReturn s c) := by
  unfold expireReturn
  repeat' first | split | dsimp only
  all_goals simp [h]

@[simp] theorem places_takeHeader (x) (c : Chip) : PlacesInTable (takeHeader x c) ↔ PlacesInTable c := by
  unfold takeHeader
  repeat' split
  all_goals exact places_iff rfl

@[simp] theorem places_dispose {c : Chip} (x l) (h : PlacesInTable c) : PlacesInTable (dispose x l c) := by
  have e (l : List Item) : PlacesInTable (takeEpoch l c) := by cases l <;> exact h.same rfl rfl
  unfold dispose
  repeat' split
  all_goals simp [h, e]

@[simp] theorem places_completeReception {c : Chip} (p g) (h : PlacesInTable c) :
    PlacesInTable (completeReception p g c) := by
  have k (d : Chip) (r : Reception) (items : Option (List Item)) (q : PlacesInTable d) :
      PlacesInTable (match items with
        | none => setErrors (min (d.rp.rxErr + 1) 255) d.rp.txErr d
        | some l => dispose r.header l (setErrors (d.rp.rxErr - 1) d.rp.txErr d)) := by
    cases items <;> simp [q]
  unfold completeReception
  split
  · exact h
  · exact k _ _ _ (h.same rfl rfl)

@[simp] theorem places_checkHeldFrame (c : Chip) : PlacesInTable (checkHeldFrame c) ↔ PlacesInTable c := by
  unfold checkHeldFrame
  split
  · split
    · next e _ => exact (places_rp (checkItems e.frame.items c).1 _).trans (places_checkItems ..)
    · rfl
  · rfl

/-! ## The SPI master -/

@[simp] theorem places_answerRead (w) (c : Chip) : PlacesInTable (answerRead w c) ↔ PlacesInTable c := by
  unfold answerRead; split <;> simp

theorem places_grantRead {c : Chip} {p} (l : p < 1024) (h : PlacesInTable c) : PlacesInTable (grantRead p c) := by
  have k : PlacesInTable { c with tm := { c.tm with readWaiting := none } } :=
    ⟨h.table, h.pointer, h.writes, h.marks, h.spi, by simp, h.restart, h.decisions⟩
  unfold grantRead
  dsimp only
  split
  · simpa using k
  · exact places_setSpi (fun op e => Option.some.inj e ▸ l) k

theorem places_grantRestart {c : Chip} {w} (e : c.tm.restart = some w) (h : PlacesInTable c) :
    PlacesInTable (grantRestart w c) := by
  have r := h.restart w e
  unfold grantRestart
  split
  · next q l e1 => exact places_setSpi (fun op x => Option.some.inj x ▸ r.1 q (e1 ▸ List.mem_cons_self ..)) h
  · next p a rest e1 e2 =>
    refine places_setSpi (fun op x => Option.some.inj x ▸ r.2 (p, a) (e2 ▸ List.mem_cons_self ..)) ?_
    refine ⟨h.table, h.pointer, h.writes, h.marks, h.spi, h.reading, ?_, h.decisions⟩
    intro v ev
    rw [← Option.some.inj ev]
    exact ⟨r.1, fun x m => r.2 x (e2 ▸ List.mem_cons_of_mem _ m)⟩
  · refine places_setSpi (fun op x => Option.some.inj x ▸ h.pointer) ?_
    refine ⟨h.table, Nat.mod_lt _ (by omega), h.writes, h.marks, h.spi, h.reading, ?_, h.decisions⟩
    intro v ev
    rw [← Option.some.inj ev]
    exact ⟨fun q m => List.mem_singleton.mp m ▸ h.pointer, r.2⟩
  · exact h

theorem readWaiting_setSpi (o b) (c : Chip) : (setSpi o b c).tm.readWaiting = c.tm.readWaiting := rfl

@[simp] theorem places_spiGrant {c : Chip} (h : PlacesInTable c) : PlacesInTable (spiGrant c) := by
  unfold spiGrant
  split
  · exact h
  · split
    · next e => exact places_grantRestart e h
    · split
      · next p e =>
        have l := h.reading p e
        repeat' first | split | dsimp only
        · exact places_grantRead l h
        · exact places_grantWork (places_grantRead l h)
        · exact places_grantWork h
        · exact places_grantRead l (places_grantWork h)
      · exact places_grantWork h

@[simp] theorem places_settle {c : Chip} (h : PlacesInTable c) : PlacesInTable (settle c) :=
  places_txGrant (places_spiGrant (places_txGrant h))

/-! ## Completions -/

@[simp] theorem places_failPlace {c : Chip} (p) (h : PlacesInTable c) : PlacesInTable (failPlace p c) := by
  unfold failPlace traceFault
  rw [places_raiseNat]
  exact places_poisonPlace p ⟨h.table, h.pointer, h.writes, h.marks, h.spi, h.reading, h.restart, h.decisions⟩

theorem places_spiFree {c : Chip} (h : PlacesInTable c) : PlacesInTable { c with tm := { c.tm with spi := none } } :=
  ⟨h.table, h.pointer, h.writes, h.marks, by simp, h.reading, h.restart, h.decisions⟩

theorem places_verifyFault {c : Chip} (p) (h : PlacesInTable c) :
    PlacesInTable (traceFault p (countVerifyFail c)) := by
  unfold traceFault
  rw [places_raiseNat]
  exact ⟨h.table, h.pointer, h.writes, h.marks, h.spi, h.reading, h.restart, h.decisions⟩

@[simp] theorem places_finishWrite {c : Chip} (b p r) (h : PlacesInTable c) : PlacesInTable (finishWrite b p r c) := by
  have h0 := places_spiFree h
  unfold finishWrite
  split
  · next w e =>
    have k : PlacesInTable { c with
        tm := { c.tm with spi := none, restart := some { w with writes := w.writes.tail } } } := by
      refine ⟨h0.table, h0.pointer, h0.writes, h0.marks, h0.spi, h0.reading, ?_, h0.decisions⟩
      intro v ev
      rw [← Option.some.inj ev]
      exact ⟨fun q m => (h.restart w e).1 q (List.mem_of_mem_tail m), (h.restart w e).2⟩
    dsimp only
    split
    · exact k
    · exact places_verifyFault p k
  · dsimp only
    have a : PlacesInTable (if b = true then modPlace p (fun e => { e with state := .stored })
        { c with tm := { c.tm with spi := none } } else failPlace p { c with tm := { c.tm with spi := none } }) := by
      split
      · exact places_modPlace _ _ h0
      · exact places_failPlace _ h0
    have q (d : Chip) (hd : PlacesInTable d) : PlacesInTable { d with
        tm := { d.tm with writeQueue := d.tm.writeQueue.eraseP fun q => q.place == p } } :=
      ⟨hd.table, hd.pointer, fun x m => hd.writes x (List.mem_of_mem_eraseP m), hd.marks, hd.spi, hd.reading, hd.restart,
        hd.decisions⟩
    refine places_checkHolding ?_
    have z (x : Bool) (d : Chip) (hd : PlacesInTable d) : PlacesInTable (if x = true then freePlace p d else d) := by
      split
      · exact places_freePlace p hd
      · exact hd
    exact z _ _ (q _ (places_reportLot _ _ a))

@[simp] theorem places_finishRewrite {c : Chip} (b p) (h : PlacesInTable c) : PlacesInTable (finishRewrite b p c) := by
  have h0 := places_spiFree h
  unfold finishRewrite
  repeat' first | split | dsimp only
  all_goals first
    | exact h0
    | exact places_verifyFault p h0
    | exact places_failPlace p h0
    | exact ⟨h0.table, h0.pointer, h0.writes, h0.marks, h0.spi, h0.reading, h0.restart, h0.decisions⟩

@[simp] theorem places_finishRead {c : Chip} (x b p e) (h : PlacesInTable c) :
    PlacesInTable (finishRead x b p e c) := by
  have h0 := places_spiFree h
  unfold finishRead
  split
  · simpa using h0
  · rw [places_answerRead]
    exact ⟨h0.table, h0.pointer, h0.writes, h0.marks, h0.spi, h0.reading, h0.restart, h0.decisions⟩
  · dsimp only
    rw [places_answerRead]
    unfold traceFault
    rw [places_raiseNat]
    have k : PlacesInTable { c with
        tm := { c.tm with spi := none, uncorrectable := inc16 c.tm.uncorrectable } } :=
      ⟨h0.table, h0.pointer, h0.writes, h0.marks, h0.spi, h0.reading, h0.restart, h0.decisions⟩
    split
    · exact places_poisonPlace p k
    · exact k

/-! ## Power-on reset and the warm restart -/

theorem PlacesInTable.power (byp cfg : Bool) : PlacesInTable (Chip.power byp cfg) :=
  ⟨List.length_replicate, Nat.zero_lt_succ _, fun _ m => absurd m List.not_mem_nil,
    fun _ m => absurd m List.not_mem_nil, fun op (e : (none : Option SpiOp) = some op) => (nomatch e),
    fun p (e : (none : Option Nat) = some p) => (nomatch e),
    fun w (e : (none : Option RestartWork) = some w) => (nomatch e), fun _ m => absurd m List.not_mem_nil⟩

theorem RingAgrees.power (byp cfg : Bool) : RingAgrees (Chip.power byp cfg) := by
  constructor <;> simp [Chip.power, Rp.power]

theorem places_restartAll {c : Chip} (h : PlacesInTable c) : PlacesInTable (restartAll c) := by
  refine ⟨List.length_replicate, h.pointer, fun _ m => absurd m List.not_mem_nil,
    fun _ m => absurd m List.not_mem_nil, h.spi, fun p (e : (none : Option Nat) = some p) => (nomatch e), ?_,
    fun _ m => absurd m List.not_mem_nil⟩
  intro w e
  have e : w = _ := (Option.some.inj e).symm
  subst e
  refine ⟨h.writes, ?_⟩
  intro x m
  obtain ⟨p, mp, e⟩ := List.mem_filterMap.mp m
  split at e
  · exact (Option.some.inj e) ▸ h.marks p mp
  · exact absurd e (by simp)

@[simp] theorem places_startRestart {c : Chip} (h : PlacesInTable c) : PlacesInTable (startRestart c) := by
  unfold startRestart; split
  · exact places_restartAll h
  · exact h

@[simp] theorem places_endRestart {c : Chip} (h : PlacesInTable c) : PlacesInTable (endRestart c) := by
  unfold endRestart; split
  · exact ⟨h.table, h.pointer, h.writes, h.marks, h.spi, h.reading, by simp, h.decisions⟩
  · exact h

theorem RingAgrees.startRestart {c : Chip} (a : RingAgrees c) (r : c.pins.running = true) :
    RingAgrees (startRestart c) := by
  unfold Machine.startRestart
  split
  · have s := a.runs r
    by_cases i : c.rp.ring = .isolated
    · refine a.of_view ?_
      simp [ringView, restartAll, Rp.restart, i]
    · have b : c.pins.byp = false := by
        cases e : c.pins.byp with
        | false => rfl
        | true => rw [e] at s; exact absurd (s.trans (by simp [ringStateOf])) i
      constructor <;> simp [restartAll, Rp.restart, i, ringStateOf, r, b]
  · exact a

theorem RingAgrees.endRestart {c : Chip} (a : RingAgrees c) : RingAgrees (endRestart c) := by
  unfold Machine.endRestart
  split
  · exact RingAgrees.of_view (d := c) (by rfl) a
  · exact a

end Sys2Proof.Machine
end

