-- ==== Sys2Proof/Laws/RequestSpecs.lean ====
section
/-! SUPPORT. What the assembly of requests, the raising of TX-OVERFLOW and the tables' own checks do, case by case: one
lemma for each clause of the statements on them. -/

namespace Sys2Proof.Machine

/-- An answer with no words is one part (R197, R207). -/
theorem answerOnly_eq (origin : Byte) (tag : Key) (code : Byte) (st : Status) (c : Chip) :
    answerOnly origin tag code st c = (rpHand
      { kind := .mgmtAns, dest := origin, source := .answer false,
        items := [mkItem tag (BitVec.ofNat 32 (code.toNat * 16777216 + st.number * 65536 + 1))] } c).1 := by
  have hs : st.number < 256 := by cases st <;> decide
  have hc : code.toNat < 256 := code.isLt
  have h : answerHeader code st 0 true = BitVec.ofNat 32 (code.toNat * 16777216 + st.number * 65536 + 1) := by
    apply BitVec.eq_of_toNat_eq
    simp only [answerHeader, BitVec.toNat_append, BitVec.toNat_ofNat, if_true]
    rw [Nat.mod_eq_of_lt (show st.number < 2 ^ 8 by omega),
      Nat.mod_eq_of_lt (show code.toNat * 16777216 + st.number * 65536 + 1 < 2 ^ 32 by omega)]
    rw [← Nat.shiftLeft_add_eq_or_of_lt (show st.number < 2 ^ 8 by omega),
      ← Nat.shiftLeft_add_eq_or_of_lt (show 0 % 2 ^ 8 < 2 ^ 8 by decide),
      ← Nat.shiftLeft_add_eq_or_of_lt (show (1 : Byte).toNat < 2 ^ 8 by decide)]
    simp only [Nat.shiftLeft_eq]
    simp
    omega
  simp [answerOnly, handAnswer, partCount, answerPart, h]

/-- Assembly of a request (R196) and its entry into the queue (R197). -/
theorem spec_parts :
    ∀ (p : Part) (c : Chip) (answer : Byte → Key → Byte → Nat → Chip → Chip) (enter : Assembly → Chip → Chip),
      (∀ origin tag code st d, answer origin tag code st d = (rpHand
        { kind := .mgmtAns, dest := origin, source := .answer false,
          items := [mkItem tag (BitVec.ofNat 32 (code.toNat * 16777216 + st * 65536 + 1))] } d).1) →
      (∀ a d, (d.ma.queue.length < 4 → enter a d = { d with ma := { d.ma with
          queue := d.ma.queue ++ [{ origin := a.origin, tag := a.tag, code := a.code, words := a.words }] } }) ∧
        (4 ≤ d.ma.queue.length → enter a d = answer a.origin a.tag a.code 10 d)) →
      (p.count ≠ p.words.length → takePart p c = answer p.origin p.tag p.code 1 c) ∧
      (p.count = p.words.length → p.number = 0 → ∀ a d,
        a = { origin := p.origin, tag := p.tag, code := p.code, words := p.words, last := 0, started := c.clock.ms } →
        (c.ma.assembly = none → d = c) →
        (∀ b, c.ma.assembly = some b →
          d = answer b.origin b.tag b.code 1 { c with ma := { c.ma with assembly := none } }) →
        (p.last = false → takePart p c = { d with ma := { d.ma with assembly := some a } }) ∧
        (p.last = true → takePart p c = enter a { d with ma := { d.ma with assembly := none } })) ∧
      (p.count = p.words.length → p.number ≠ 0 → ∀ a b, c.ma.assembly = some a → a.origin = p.origin → a.tag = p.tag →
        p.number = a.last + 1 → p.number ≤ 7 → b = { a with words := a.words ++ p.words, last := p.number } →
        (p.last = false → takePart p c = { c with ma := { c.ma with assembly := some b } }) ∧
        (p.last = true → takePart p c = enter b { c with ma := { c.ma with assembly := none } })) ∧
      (p.count = p.words.length → p.number ≠ 0 →
        (∀ a, c.ma.assembly = some a →
          ¬ (a.origin = p.origin ∧ a.tag = p.tag ∧ p.number = a.last + 1 ∧ p.number ≤ 7)) →
        takePart p c = answer p.origin p.tag p.code 1 c) := by
  intro p c answer enter ha he
  have an : ∀ o t k (st : Status) d, answerOnly o t k st d = answer o t k st.number d := by
    intro o t k st d; rw [answerOnly_eq, ha]
  have en : ∀ a d, completeRequest a d = enter a d := by
    intro a d
    by_cases q : d.ma.queue.length < 4
    · rw [(he a d).1 q]; exact if_pos q
    · rw [(he a d).2 (by omega)]
      exact (if_neg q).trans (an ..)
  refine ⟨?_, ?_, ?_, ?_⟩
  · intro h; exact (if_pos h).trans (an ..)
  · intro h h0 a d hea h1 h2
    have e : dropAssembly c = d := by
      unfold dropAssembly
      cases hc : c.ma.assembly with
      | none => exact (h1 hc).symm
      | some b => rw [h2 b hc]; exact an ..
    have t : takePart p c = continueAssembly a p.last d := by
      subst hea
      unfold takePart
      rw [if_neg (not_not.mpr h), if_pos h0, e]
    refine ⟨?_, ?_⟩ <;> intro hl <;> rw [t, hl]
    · rfl
    · exact en ..
  · intro h h0 a b hc h1 h2 h3 h4 hb
    have j : partJoins a p = true := by simp [partJoins, h1, h2, h3]; omega
    have t : takePart p c = continueAssembly b p.last c := by
      subst hb
      unfold takePart
      rw [if_neg (not_not.mpr h), if_neg h0, hc]
      exact if_pos j
    refine ⟨?_, ?_⟩ <;> intro hl <;> rw [t, hl]
    · rfl
    · exact en ..
  · intro h h0 hn
    unfold takePart
    rw [if_neg (not_not.mpr h), if_neg h0]
    cases hc : c.ma.assembly with
    | none => exact an ..
    | some a =>
      have j : ¬ partJoins a p = true := by
        intro q
        simp only [partJoins, Bool.and_eq_true, beq_iff_eq, decide_eq_true_eq, and_assoc] at q
        exact hn a hc q
      exact (if_neg j).trans (an ..)

/-! ## Raising TX-OVERFLOW -/

theorem pendingAlert_set {c : Chip} {k : AlertKind} (a : Option PendingAlert) (h : c.ma.pending.length = 19) :
    pendingAlert (setAlert k a c) k = a := by
  have : k.index < 19 := by cases k <;> decide
  simp [pendingAlert, setAlert, evalStopN, h, this]

theorem rpOffer_ma (f : OwnFrame) (c : Chip) : (rpOffer f c).1.ma = c.ma := by
  unfold rpOffer
  split
  · rfl
  split
  · rfl
  have k (d : Chip) : (acceptFrame f d).ma = d.ma := by unfold acceptFrame; split <;> rfl
  split
  · exact k c
  split
  · unfold reportHandedBack; split <;> exact k _
  · rfl

/-- A frame is handed to RP (R9, R10). -/
theorem spec_discarded :
    (∀ (f : OwnFrame) (c d : Chip),
      (rpOffer f c = (d, .taken) → rpHand f c = (d, true)) ∧
      (rpOffer f c = (d, .refused) → rpHand f c = (d, false)) ∧
      (rpOffer f c = (d, .overflow) → rpHand f c = (raiseOverflow d, false))) ∧
    ∀ c : Chip, TablesSized c →
      (∀ a, pendingAlert c .txOverflow = some a → raiseOverflow c = evalStopN { c with ma := { c.ma with
        pending := c.ma.pending.set 18 (some { a with count := min (a.count + 1) 65535 }) } }) ∧
      (pendingAlert c .txOverflow = none → (routeOf c .txOverflow).dest = none → raiseOverflow c =
        evalStopN { c with ma := { c.ma with
          pending := c.ma.pending.set 18 (some { count := 1, subjectType := .none, subject := 0, line := c.clock.line, unsent := false }) } }) ∧
      ∀ b e o, pendingAlert c .txOverflow = none → (routeOf c .txOverflow).dest = some b →
        rpOffer { kind := .alert, dest := b, source := .alert .txOverflow,
                  items := [mkItem 19 0, mkItem 1 (BitVec.ofNat 32 c.clock.line),
                            mkItem (if c.rp.epochPresent then 1 else 0) c.rp.epoch] }
          (evalStopN { c with ma := { c.ma with
            pending := c.ma.pending.set 18 (some { count := 1, subjectType := .none, subject := 0, line := c.clock.line, unsent := false }) } })
          = (e, o) →
        raiseOverflow c = evalStopN { e with ma := { e.ma with
          lastHanding := some e.clock.line
          pending := e.ma.pending.set 18
            (some { count := if o = .overflow then 2 else 1, subjectType := .none, subject := 0, line := c.clock.line,
                    unsent := decide (o ≠ .taken) }) } } := by
  refine ⟨?_, ?_⟩
  · intro f c d
    refine ⟨?_, ?_, ?_⟩ <;> intro h <;> simp only [rpHand, h]
  · intro c hc
    have hl : c.ma.pending.length = 19 := by
      have := hc; simp only [TablesSized, tableSizes, List.cons.injEq, and_true] at this; tauto
    have hp : pendingAlert (addAlert .txOverflow .none 0 c) .txOverflow =
        some { count := 1, subjectType := .none, subject := 0, line := c.clock.line, unsent := false } :=
      pendingAlert_set _ hl
    have hr : routeOf (addAlert .txOverflow .none 0 c) .txOverflow = routeOf c .txOverflow := rfl
    refine ⟨?_, ?_, ?_⟩
    · intro a h
      unfold raiseOverflow countAlert
      rw [h]
      rfl
    · intro h hd
      have : handAlert .txOverflow (addAlert .txOverflow .none 0 c) = (addAlert .txOverflow .none 0 c, false) := by
        unfold handAlert
        rw [hp, hr, hd]
      unfold raiseOverflow
      rw [h]
      dsimp only
      rw [this]
      rfl
    · intro b e o h hd ho
      have he : e.ma.pending.length = 19 := by
        rw [← show (rpOffer _ _).1 = e from congrArg Prod.fst ho, rpOffer_ma]
        simpa [evalStopN] using hl
      have hA : addAlert .txOverflow .none 0 c = evalStopN { c with ma := { c.ma with
          pending := c.ma.pending.set 18 (some
            { count := 1, subjectType := .none, subject := 0, line := c.clock.line, unsent := false }) } } := by
        simp only [addAlert, setAlert, AlertKind.index]
      have ho' := ho
      rw [← hA] at ho'
      have hf : alertFrame .txOverflow
          { count := 1, subjectType := .none, subject := 0, line := c.clock.line, unsent := false } b
          (addAlert .txOverflow .none 0 c) =
          { kind := .alert, dest := b, source := .alert .txOverflow,
            items := [mkItem 19 0, mkItem 1 (BitVec.ofNat 32 c.clock.line),
                      mkItem (if c.rp.epochPresent then 1 else 0) c.rp.epoch] } := by
        simp [alertFrame, AlertKind.index, SubjectType.number, addAlert, setAlert, evalStopN]
        rfl
      have q : handAlert .txOverflow (addAlert .txOverflow .none 0 c) =
          (setAlert .txOverflow (some
            { count := 1, subjectType := .none, subject := 0, line := c.clock.line, unsent := decide (o ≠ .taken) }) { e with ma := { e.ma with lastHanding := some e.clock.line } },
            decide (o = .overflow)) := by
        unfold handAlert
        rw [hp, hr, hd]
        dsimp only
        rw [hf, ho']
      unfold raiseOverflow
      rw [h]
      dsimp only
      rw [q]
      cases o with
      | taken => rfl
      | refused => rfl
      | overflow =>
        have r := pendingAlert_set (c := { e with ma := { e.ma with lastHanding := some e.clock.line } })
          (k := .txOverflow) (some { count := 1, subjectType := .none, subject := 0, line := c.clock.line, unsent := true })
          he
        have r' : countAlert .txOverflow (setAlert .txOverflow (some
              { count := 1, subjectType := .none, subject := 0, line := c.clock.line, unsent := true })
              { e with ma := { e.ma with lastHanding := some e.clock.line } }) =
            setAlert .txOverflow (some
              { count := inc16 1, subjectType := .none, subject := 0, line := c.clock.line, unsent := true })
              (setAlert .txOverflow (some
                { count := 1, subjectType := .none, subject := 0, line := c.clock.line, unsent := true })
                { e with ma := { e.ma with lastHanding := some e.clock.line } }) := by
          unfold countAlert
          rw [r]
        refine Eq.trans r' ?_
        simp only [setAlert, evalStopN, List.set_set]
        rfl

/-! ## The tables' own checks -/

theorem all_zipIdx {α : Type} (l : List α) (f : α × Nat → Bool) :
    l.zipIdx.all f = true ↔ ∀ i x, l[i]? = some x → f (x, i) = true := by
  rw [List.all_eq_true]
  constructor
  · intro h i x hx; exact h (x, i) (List.mem_zipIdx_iff_getElem?.2 hx)
  · rintro h ⟨x, i⟩ hx; exact h i x (List.mem_zipIdx_iff_getElem?.1 hx)

/-- The channel map as it would stand (R23). -/
theorem spec_mapChecks :
    ∀ map : List IntakeCfg, mapValid map = true ↔
      (∀ k ∈ map, ((∃ z, k.role = some (.zoneTemp z)) ∨ k.role = some .chillTemp ∨ k.role = some .exitTemp ∨
          k.role = some .dockTemp) → -500 ≤ k.low ∧ k.low ≤ k.high ∧ k.high ≤ 1500) ∧
      (∀ (i : Nat) (k : IntakeCfg) (p : Nat), map[i]? = some k → k.partner = some p → ∃ (z : Nat) (q : IntakeCfg), k.role = some (.zoneTemp z) ∧ map[p]? = some q ∧ p ≠ i ∧
        q.role = some (.zoneTemp z) ∧ q.partner = some i) ∧
      ∀ (i j : Nat) (a b : IntakeCfg), map[i]? = some a → map[j]? = some b → i ≠ j → a.enabled = true → b.enabled = true → a.role = b.role →
        a.role = some .marker ∨ a.role = some (.encoder none) ∨
          ((∃ z, a.role = some (.zoneTemp z)) ∧ a.partner = some j ∧ b.partner = some i) := by
  intro map
  simp only [mapValid, allPairs, Bool.and_eq_true, all_zipIdx, and_assoc]
  rw [List.all_eq_true]
  refine and_congr ?_ (and_congr ?_ ?_)
  · refine forall₂_congr fun k _ => ?_
    unfold clampsOk
    cases hr : k.role with
    | none => simp
    | some r => cases r <;> simp [Role.isTemperature, and_assoc]
  · refine forall₂_congr fun i k => ?_
    unfold partnerOk
    cases hp : k.partner with
    | none => simp
    | some p =>
      simp only [Option.some.injEq]
      cases hr : k.role with
      | none => simp
      | some r =>
        cases r <;> simp
        rename_i z
        cases hm : map[p]? with
        | none => simp
        | some q => simp [and_assoc]
  · refine forall_congr' fun i => ?_
    constructor
    · intro h j a b ha hb hij h1 h2 h3
      have := h a ha j b hb
      unfold togetherOk at this
      rw [if_pos ⟨hij, h1, h2, h3⟩] at this
      revert this
      cases hr : a.role with
      | none => simp
      | some r =>
        cases r <;> simp
        rename_i o; cases o <;> simp
    · intro h a ha j b hb
      unfold togetherOk
      split
      · rename_i q
        rcases h j a b ha hb q.1 q.2.1 q.2.2.1 q.2.2.2 with x | x | ⟨⟨z, x⟩, y, w⟩
        · rw [x]
        · rw [x]
        · rw [x]; simp [y, w]
      · rfl

/-- The track channel table as it would stand (R41). -/
theorem spec_trackChecks :
    ∀ (c : Chip) (table : List TrackCfg), tracksValid c table = true ↔ ∀ (n : Nat) (k : TrackCfg), table[n]? = some k →
      ((k.mode = .cut ∨ k.mode = .capture) → k.source ≠ .milliseconds) ∧
      (k.mode = .interval → ∀ e, k.source ≠ .encoder e) ∧
      ((k.mode = .cut ∨ k.mode = .interval) → k.trigger = .command) ∧
      (k.mode = .capture → ∃ m e, k.trigger = .marker m e) ∧
      (k.cond = .bagNotAccepted → k.mode = .gate ∧ k.trigger = .bagMade) ∧
      (∀ m, k.trigger = .master m → m < n ∧ ∃ q : TrackCfg, table[m]? = some q ∧ q.mode ≠ .off ∧ q.source = k.source) ∧
      ∀ o, k.output = some o →
        (k.mode = .delay ∨ k.mode = .gate) ∧
        (∀ s ∈ c.td.shuttles, s.written = true → s.point ≠ o.key) ∧
        (∀ p, c.ma.config.pausePoint = some p → p.index ≠ n) ∧
        ∀ (m : Nat) (q : TrackCfg), table[m]? = some q → m ≠ n → ∀ p, q.output = some p → p.key ≠ o.key := by
  intro c table
  simp only [tracksValid, allPairs, Bool.and_eq_true, all_zipIdx]
  rw [List.all_eq_true]
  have kinds : ∀ k : TrackCfg, trackKindsOk k = true ↔
      ((k.mode = .cut ∨ k.mode = .capture) → k.source ≠ .milliseconds) ∧
      (k.mode = .interval → ∀ e, k.source ≠ .encoder e) ∧
      ((k.mode = .cut ∨ k.mode = .interval) → k.trigger = .command) ∧
      (k.mode = .capture → ∃ m e, k.trigger = .marker m e) ∧
      (k.cond = .bagNotAccepted → k.mode = .gate ∧ k.trigger = .bagMade) ∧
      (k.output ≠ none → k.mode = .delay ∨ k.mode = .gate) := by
    rintro ⟨mode, source, length, delay, width, trigger, policy, cond, output⟩
    cases mode <;> cases source <;> cases trigger <;> cases cond <;> cases output <;> simp [trackKindsOk]
  have masters : ∀ n (k : TrackCfg), masterOk table n k = true ↔
      ∀ m, k.trigger = .master m → m < n ∧ ∃ q : TrackCfg, table[m]? = some q ∧ q.mode ≠ .off ∧ q.source = k.source := by
    intro n k
    unfold masterOk
    cases ht : k.trigger <;> simp
    rename_i m
    cases hm : table[m]? <;> simp [and_assoc]
  have outs : ∀ n (k : TrackCfg), outputOk c n k = true ↔ ∀ o, k.output = some o →
      (∀ s ∈ c.td.shuttles, s.written = true → s.point ≠ o.key) ∧
      ∀ p, c.ma.config.pausePoint = some p → p.index ≠ n := by
    intro n k
    unfold outputOk
    cases ho : k.output with
    | none => simp
    | some o =>
      simp only [Bool.and_eq_true, Option.some.injEq, forall_eq']
      refine and_congr ?_ ?_
      · simp [commandPoint]
      · cases c.ma.config.pausePoint <;> simp
  have differ : ∀ n (a : TrackCfg) m (b : TrackCfg), outputsDiffer n a m b = true ↔
      ∀ o, a.output = some o → m ≠ n → ∀ p, b.output = some p → p.key ≠ o.key := by
    intro n a m b
    unfold outputsDiffer outputKey
    by_cases q : n = m
    · subst q; simp
    · cases ha : a.output <;> cases hb : b.output <;> simp [q]
      rename_i x y
      constructor
      · intro h _ e; exact h e.symm
      · intro h e; exact h (fun z => q z.symm) e.symm
  constructor
  · rintro ⟨⟨h1, h2⟩, h3⟩ n k hk
    obtain ⟨a1, a2, a3, a4, a5, a6⟩ := (kinds k).1 (h1 k (List.mem_of_getElem? hk))
    have b := h2 n k hk
    refine ⟨a1, a2, a3, a4, a5, (masters n k).1 b.1, ?_⟩
    intro o ho
    obtain ⟨d1, d2⟩ := (outs n k).1 b.2 o ho
    exact ⟨a6 (by simp [ho]), d1, d2, fun m q hq => (differ n k m q).1 (h3 n k hk m q hq) o ho⟩
  · intro h
    refine ⟨⟨?_, ?_⟩, ?_⟩
    · intro k hk
      obtain ⟨n, hn⟩ := List.getElem?_of_mem hk
      obtain ⟨a1, a2, a3, a4, a5, a6, a7⟩ := h n k hn
      refine (kinds k).2 ⟨a1, a2, a3, a4, a5, ?_⟩
      intro q
      cases ho : k.output with
      | none => exact absurd ho q
      | some o => exact (a7 o ho).1
    · intro n k hk
      obtain ⟨a1, a2, a3, a4, a5, a6, a7⟩ := h n k hk
      exact ⟨(masters n k).2 a6, (outs n k).2 fun o ho => ⟨(a7 o ho).2.1, (a7 o ho).2.2.1⟩⟩
    · intro n k hk m q hq
      obtain ⟨a1, a2, a3, a4, a5, a6, a7⟩ := h n k hk
      exact (differ n k m q).2 fun o ho => (a7 o ho).2.2.2 m q hq

theorem rising_iff (l : List Nat) : rising l = true ↔ l.Pairwise (· < ·) := by
  rw [← List.isChain_iff_pairwise]
  induction l with
  | nil => simp [rising]
  | cons a l ih =>
    cases l with
    | nil => simp [rising]
    | cons b l => simp [rising, ih]

theorem notFalling_iff (l : List Nat) : notFalling l = true ↔ l.Pairwise (· ≤ ·) := by
  rw [← List.isChain_iff_pairwise]
  induction l with
  | nil => simp [notFalling]
  | cons a l ih =>
    cases l with
    | nil => simp [notFalling]
    | cons b l => simp [notFalling, ih]

/-- The geometry as it would stand (R58). -/
theorem spec_geometryChecks :
    ∀ (c : Chip) (s : St) (starts : List Nat), starts = 0 :: s.blanch.zoneStarts.take (s.blanch.zones - 1) →
      (geometryOk c s = true ↔
        (s.blanch.written = true → s.chill.written = true → s.blanch.encoder ≠ s.chill.encoder) ∧
        (s.blanch.written = true → s.freeze.written = true → s.blanch.encoder ≠ s.freeze.encoder) ∧
        (s.chill.written = true → s.freeze.written = true → s.chill.encoder ≠ s.freeze.encoder) ∧
        (s.blanch.written = true →
          starts.Pairwise (· < ·) ∧ (s.blanch.zones = 1 ∨ s.blanch.segLen < s.blanch.zoneStarts.getD 0 0) ∧
          starts.getLastD 0 < s.blanch.decision ∧ s.blanch.segLen < s.blanch.decision ∧
          s.blanch.decision < s.blanch.length ∧ (trackChan c s.blanch.cutChannel).cfg.mode = .cut ∧
          (trackChan c s.blanch.cutChannel).cfg.length = s.blanch.segLen) ∧
        (s.chill.written = true → s.chill.entry < s.chill.length) ∧
        (s.freeze.written = true → s.freeze.entry < s.freeze.winStart ∧ s.freeze.winStart ≤ s.freeze.winEnd ∧
          s.freeze.winEnd ≤ s.freeze.decision ∧ s.freeze.decision < s.freeze.length)) := by
  rintro c s starts rfl
  cases h1 : s.blanch.written <;> cases h2 : s.chill.written <;> cases h3 : s.freeze.written <;>
    simp [geometryOk, h1, h2, h3, blanchOk, chillOk, freezeOk, rising_iff, and_assoc]

/-- The checks of guards, recipes, shuttles and the line configuration (R185, R78, R109, R166, R201). -/
theorem spec_otherChecks :
    (∀ g : Guard, guardOk g = true ↔ (g.action = .clamp → g.low.toInt ≤ g.high.toInt)) ∧
    (∀ r : Recipe, recipeOk r = true ↔ r.table.Pairwise (· ≤ ·) ∧ r.bagsPerCase * r.casesPerPallet ≤ 480) ∧
    (∀ (c : Chip) (key : Key), pointFree c key = true ↔
      ∀ n k v, n < 8 → ownedPoint c n = some (k, v) → k ≠ key) ∧
    ∀ (c : Chip) (k : LineConfig), pauseOk c k = true ↔ ∀ p, k.pausePoint = some p →
      (trackChan c p.index).cfg.output = none ∧ (∀ t ∈ c.tc.chans, ∀ o, t.cfg.output = some o → o.key ≠ p.key) ∧
      ∀ s ∈ c.td.shuttles, s.written = true → s.point ≠ p.key := by
  refine ⟨?_, ?_, ?_, ?_⟩
  · intro g
    simp only [guardOk, Bool.or_eq_true, bne_iff_ne, decide_eq_true_eq]
    by_cases q : g.action = .clamp <;> simp [q]
  · intro r; simp only [recipeOk, Bool.and_eq_true, notFalling_iff, decide_eq_true_eq]
  · intro c key
    simp only [pointFree, List.all_eq_true, List.mem_range]
    refine forall_congr' fun n => ?_
    constructor
    · intro h k v hn ho
      have := h hn
      rw [ho] at this
      simpa using this
    · intro h hn
      cases ho : ownedPoint c n with
      | none => rfl
      | some x => obtain ⟨k, v⟩ := x; simpa using h k v hn ho
  · intro c k
    unfold pauseOk
    cases hp : k.pausePoint with
    | none => simp
    | some p =>
      simp only [Bool.and_eq_true, Option.some.injEq, forall_eq', and_assoc, Option.isNone_iff_eq_none]
      refine and_congr Iff.rfl (and_congr ?_ ?_)
      · simp only [outputKey, Bool.not_eq_true', List.any_eq_false, beq_iff_eq, Option.map_eq_some_iff, not_exists, not_and]
      · simp [commandPoint]

theorem rangeOk_nat (lo hi : Nat) (w : Word) : (Field.nat lo hi).rangeOk w = true ↔ lo ≤ w.toNat ∧ w.toNat ≤ hi := by
  simp [Field.rangeOk]

theorem rangeOk_int (lo hi : Int) (w : Word) : (Field.int lo hi).rangeOk w = true ↔ lo ≤ w.toInt ∧ w.toInt ≤ hi := by
  simp [Field.rangeOk]

theorem rangeOk_mark (w : Word) : Field.mark.rangeOk w = true ↔ w.toNat ≤ 1 := by simp [Field.rangeOk]

theorem rangeOk_any (w : Word) : Field.any.rangeOk w = true := rfl

theorem rangeOk_enum (w : Word) (n : Nat) : (Field.enum n).rangeOk w = true := rfl

theorem rangeOk_if (p : Prop) [Decidable p] (f : Field) (w : Word) :
    (if p then f else .any).rangeOk w = true ↔ (p → f.rangeOk w = true) := by
  by_cases h : p <;> simp [h, Field.rangeOk]

theorem fieldsRange_cons (f : Field) (fs : List Field) (w : Word) (ws : List Word) :
    fieldsRange (f :: fs) (w :: ws) = true ↔ f.rangeOk w = true ∧ fieldsRange fs ws = true := by
  simp [fieldsRange]

theorem fieldsRange_nil : fieldsRange [] [] = true := rfl

/-- The ranges of the entries of the tables (R22, R26, R40, R57, R78, R96, R109, R185, R166, R204, R201, R198). -/
theorem spec_ranges :
    (∀ (t : Table) (es : List (Nat × List Word)), entriesRange t es = true ↔ ∀ x ∈ es, entriesRange t [x] = true) ∧
    (∀ (i : Nat) (on filter mask role binding offset gain low high fresh stale mark partner : Word),
      entriesRange .channelMap
        [(i, [on, filter, mask, role, binding, offset, gain, low, high, fresh, stale, mark, partner])] = true ↔
      filter.toNat ≤ 65535 ∧ mask.toNat ≤ 65535 ∧
      (role.toNat = 1 → binding.toNat ≤ 5) ∧ (role.toNat = 12 → binding.toNat ≤ 3) ∧
      (role.toNat = 13 → binding.toNat ≤ 7) ∧
      (role.toNat ≠ 1 → role.toNat ≠ 6 → role.toNat ≠ 12 → role.toNat ≠ 13 → binding.toNat = 0) ∧
      (-32768 ≤ gain.toInt ∧ gain.toInt ≤ 32767) ∧ (1 ≤ fresh.toNat ∧ fresh.toNat ≤ 600) ∧
      (1 ≤ stale.toNat ∧ stale.toNat ≤ 3000) ∧ mark.toNat ≤ 1 ∧ (mark.toNat = 1 → partner.toNat ≤ 47)) ∧
    (∀ (i : Nat) (mode source channel length delay width trigger marker edge master stage policy cond mark key on off
        timeout : Word),
      entriesRange .tracks [(i, [mode, source, channel, length, delay, width, trigger, marker, edge, master, stage, policy,
        cond, mark, key, on, off, timeout])] = true ↔
      (source.toNat = 1 → channel.toNat ≤ 47) ∧
      (mode.toNat = 2 ∨ mode.toNat = 6 → 1 ≤ length.toNat ∧ length.toNat ≤ 65535) ∧
      (mode.toNat = 3 ∨ mode.toNat = 4 → delay.toNat ≤ 16777215) ∧
      (mode.toNat = 4 → 1 ≤ width.toNat ∧ width.toNat ≤ 65535) ∧ (trigger.toNat = 2 → marker.toNat ≤ 47) ∧
      mark.toNat ≤ 1 ∧
      (mark.toNat = 1 → key.toNat ≤ 65535 ∧ 10 ≤ timeout.toNat ∧ timeout.toNat ≤ 5000)) ∧
    (∀ encoder length segLen cut void zones z1 z2 z3 z4 z5 decision gate : Word,
      entriesRange .geometry
        [(0, [encoder, length, segLen, cut, void, zones, z1, z2, z3, z4, z5, decision, gate])] = true ↔
      encoder.toNat ≤ 47 ∧ 1 ≤ length.toNat ∧ (1 ≤ segLen.toNat ∧ segLen.toNat ≤ 65535) ∧ cut.toNat ≤ 7 ∧
      (1 ≤ zones.toNat ∧ zones.toNat ≤ 6) ∧ gate.toNat ≤ 7) ∧
    (∀ encoder length entry : Word, entriesRange .geometry [(1, [encoder, length, entry])] = true ↔
      encoder.toNat ≤ 47 ∧ 1 ≤ length.toNat) ∧
    (∀ encoder length entry decision gate first last : Word,
      entriesRange .geometry [(2, [encoder, length, entry, decision, gate, first, last])] = true ↔
      encoder.toNat ≤ 47 ∧ 1 ≤ length.toNat ∧ gate.toNat ≤ 7) ∧
    (∀ (i : Nat) (on filter mask cond action low high force : Word),
      entriesRange .guards [(i, [on, filter, mask, cond, action, low, high, force])] = true ↔
      filter.toNat ≤ 65535 ∧ mask.toNat ≤ 65535) ∧
    (∀ (i : Nat) (point load airlock delivery : Word),
      entriesRange .shuttles [(i, [point, load, airlock, delivery])] = true ↔
      (256 ≤ point.toNat ∧ point.toNat ≤ 65279) ∧ (1 ≤ load.toNat ∧ load.toNat ≤ 600) ∧
      (1 ≤ airlock.toNat ∧ airlock.toNat ≤ 600) ∧ (1 ≤ delivery.toNat ∧ delivery.toNat ≤ 1800)) ∧
    (∀ (i : Nat) (a b : Word), (entriesRange .routes [(i, [a, b])] = true ↔ a.toNat ≤ 255 ∧ b.toNat ≤ 1) ∧
      (entriesRange .authority [(i, [a, b])] = true ↔ a.toNat ≤ 1 ∧ (a.toNat = 1 → 1 ≤ b.toNat ∧ b.toNat ≤ 254))) ∧
    (∀ (i : Nat) (returns recovery split reserve bag mark point key pause resume timeout dest : Word),
      entriesRange .line
        [(i, [returns, recovery, split, reserve, bag, mark, point, key, pause, resume, timeout, dest])] = true ↔
      (1 ≤ returns.toNat ∧ returns.toNat ≤ 255) ∧ (1 ≤ recovery.toNat ∧ recovery.toNat ≤ 600) ∧
      (1 ≤ split.toNat ∧ split.toNat ≤ 100) ∧ reserve.toNat ≤ 64 ∧ (50 ≤ bag.toNat ∧ bag.toNat ≤ 5000) ∧
      mark.toNat ≤ 1 ∧
      (mark.toNat = 1 →
        point.toNat ≤ 7 ∧ key.toNat ≤ 65535 ∧ 10 ≤ timeout.toNat ∧ timeout.toNat ≤ 5000) ∧
      (1 ≤ dest.toNat ∧ dest.toNat ≤ 255)) ∧
    ∀ (i : Nat) (product valid tbase target maximum window limit allowance dwell exit bag tare under overweight required
        permille bags cases budget reference dock : Word) (table : List Word), table.length = 64 →
      (entriesRange .recipes [(i, [product, valid, tbase] ++ table ++ [target, maximum, window, limit, allowance, dwell,
        exit, bag, tare, under, overweight, required, permille, bags, cases, budget, reference, dock])] = true ↔
      product.toNat ≤ 65535 ∧ valid.toNat ≤ 1 ∧ (-500 ≤ tbase.toInt ∧ tbase.toInt ≤ 1185) ∧
      (∀ e ∈ table, e.toNat ≤ 1048575) ∧ (1 ≤ target.toNat ∧ target.toNat ≤ 65535) ∧
      (target.toNat ≤ maximum.toNat ∧ maximum.toNat ≤ 65535) ∧ (1 ≤ window.toNat ∧ window.toNat ≤ 65535) ∧
      (-500 ≤ limit.toInt ∧ limit.toInt ≤ 1500) ∧ allowance.toNat ≤ 65535 ∧ (1 ≤ dwell.toNat ∧ dwell.toNat ≤ 65535) ∧
      (-500 ≤ exit.toInt ∧ exit.toInt ≤ 1500) ∧ (1 ≤ bag.toNat ∧ bag.toNat ≤ 65535) ∧ tare.toNat ≤ 65535 ∧
      under.toNat ≤ bag.toNat ∧ overweight.toNat ≤ 65535 ∧ required.toNat ≤ 7 ∧
      (800 ≤ permille.toNat ∧ permille.toNat ≤ 1500) ∧ (1 ≤ bags.toNat ∧ bags.toNat ≤ 48) ∧
      (1 ≤ cases.toNat ∧ cases.toNat ≤ 120) ∧ (1 ≤ budget.toNat ∧ budget.toNat ≤ 65535) ∧
      (-500 ≤ reference.toInt ∧ reference.toInt ≤ 1500) ∧ (-500 ≤ dock.toInt ∧ dock.toInt ≤ 1500)) := by
  have one : ∀ t i ws, entriesRange t [(i, ws)] = fieldsRange (t.fields i ws) ws := by
    intro t i ws; simp [entriesRange]
  refine ⟨?_, ?_, ?_, ?_, ?_, ?_, ?_, ?_, ?_, ?_, ?_⟩
  · intro t es
    simp only [entriesRange, List.all_cons, List.all_nil, Bool.and_true, List.all_eq_true]
  · intro i on filter mask role binding offset gain low high fresh stale mark partner
    have hb : (bindingField role.toNat).rangeOk binding = true ↔ (role.toNat = 1 → binding.toNat ≤ 5) ∧
        (role.toNat = 12 → binding.toNat ≤ 3) ∧ (role.toNat = 13 → binding.toNat ≤ 7) ∧
        (role.toNat ≠ 1 → role.toNat ≠ 6 → role.toNat ≠ 12 → role.toNat ≠ 13 → binding.toNat = 0) := by
      unfold bindingField
      split <;> simp_all [Field.rangeOk]
    rw [one]
    simp [Table.fields, intakeFields, wNat, wMark, Field.half, fieldsRange_cons, fieldsRange_nil, rangeOk_nat, rangeOk_int,
      rangeOk_mark, rangeOk_any, rangeOk_enum, rangeOk_if, hb, and_assoc]
  · intro i mode source channel length delay width trigger marker edge master stage policy cond mark key on off timeout
    rw [one]
    simp only [Table.fields, trackFields, fieldsRange_cons, fieldsRange_nil, rangeOk_nat, rangeOk_mark,
      rangeOk_any, rangeOk_enum, rangeOk_if, Field.half]
    simp [wNat, wMark]
    intros
    constructor <;> intro h
    · exact fun q => ⟨h.1 q, h.2 q⟩
    · exact ⟨fun q => (h q).1, fun q => (h q).2⟩
  · intros; rw [one]; simp [Table.fields, blanchFields, fieldsRange_cons, fieldsRange_nil, rangeOk_nat, rangeOk_any,
      and_assoc]
    omega
  · intros; rw [one]; simp [Table.fields, chillFields, fieldsRange_cons, fieldsRange_nil, rangeOk_nat, rangeOk_any]
    omega
  · intros; rw [one]; simp [Table.fields, freezeFields, fieldsRange_cons, fieldsRange_nil, rangeOk_nat, rangeOk_any]
    omega
  · intros; rw [one]; simp [Table.fields, guardFields, Field.half, fieldsRange_cons, fieldsRange_nil, rangeOk_nat, rangeOk_any, rangeOk_enum]
  · intros; rw [one]; simp [Table.fields, shuttleFields, fieldsRange_cons, fieldsRange_nil, rangeOk_nat,
      and_assoc]
  · intro i a b
    refine ⟨?_, ?_⟩
    · rw [one]; simp [Table.fields, routeFields, fieldsRange_cons, fieldsRange_nil, rangeOk_nat, rangeOk_mark]
    · rw [one]; simp [Table.fields, authorityFields, wMark, wNat, fieldsRange_cons, fieldsRange_nil, rangeOk_nat, rangeOk_mark,
      rangeOk_if]
  · intro i returns recovery split reserve bag mark point key pause resume timeout dest
    rw [one]
    simp only [Table.fields, lineFields, Field.half, fieldsRange_cons, fieldsRange_nil, rangeOk_nat,
      rangeOk_mark, rangeOk_any, rangeOk_if]
    simp [wMark, wNat, and_assoc]
    intros
    constructor
    · exact fun h => ⟨fun q => ⟨h.1 q, h.2.1 q, h.2.2.1 q⟩, h.2.2.2⟩
    · exact fun h => ⟨fun q => (h.1 q).1, fun q => (h.1 q).2.1, fun q => (h.1 q).2.2, h.2⟩
  · intro i product valid tbase target maximum window limit allowance dwell exit bag tare under overweight required
      permille bags cases budget reference dock table hl
    rw [one]
    have h67 : wNat ([product, valid, tbase] ++ table ++ [target, maximum, window, limit, allowance, dwell, exit, bag, tare,
        under, overweight, required, permille, bags, cases, budget, reference, dock]) 67 = target.toNat := by
      simp [wNat, hl]
    have h74 : wNat ([product, valid, tbase] ++ table ++ [target, maximum, window, limit, allowance, dwell, exit, bag, tare,
        under, overweight, required, permille, bags, cases, budget, reference, dock]) 74 = bag.toNat := by
      simp [wNat, hl]
    have ht : ((List.replicate 64 (Field.nat 0 1048575)).zip table).all (fun x => x.1.rangeOk x.2) = true ↔
        ∀ e ∈ table, e.toNat ≤ 1048575 := by
      rw [← hl]
      clear hl h67 h74
      induction table with
      | nil => simp
      | cons a l ih =>
        simp only [List.length_cons, List.replicate_succ, List.zip_cons_cons, List.all_cons, Bool.and_eq_true, ih,
          rangeOk_nat, List.forall_mem_cons, Nat.zero_le, true_and]
    have hf : Table.fields .recipes i ([product, valid, tbase] ++ table ++ [target, maximum, window, limit, allowance,
        dwell, exit, bag, tare, under, overweight, required, permille, bags, cases, budget, reference, dock]) =
        [.half, .mark, .int (-500) 1185] ++ List.replicate 64 (.nat 0 1048575) ++
        [.nat 1 65535, .nat target.toNat 65535, .nat 1 65535, .temperature, .half, .nat 1 65535, .temperature, .nat 1 65535,
         .half, .nat 0 bag.toNat, .half, .nat 0 7, .nat 800 1500, .nat 1 48, .nat 1 120, .nat 1 65535, .temperature,
         .temperature] := by
      simp only [Table.fields, recipeFields, h67, h74]
    rw [hf]
    unfold fieldsRange
    rw [List.zip_append (by simp [hl]), List.zip_append (by simp)]
    simp only [List.all_append, Bool.and_eq_true]
    rw [show (fun (x : Field × Word) => match x with | (f, w) => f.rangeOk w) = fun x => x.1.rangeOk x.2 from rfl, ht]
    simp [Field.half, Field.temperature, Field.rangeOk, and_assoc]

/-- The items of a SAMPLE frame, in item order (R24), and the part header of a MGMT-REQ (R207). -/
theorem spec_frameItems :
    (∀ c : Chip, takeItems [] c = c) ∧
    (∀ (it : Item) (rest : List Item) (c : Chip), takeItems (it :: rest) c = takeItems rest (takeItem it c)) ∧
    (∀ origin : Byte, readPart origin [] = none) ∧
    ∀ (origin : Byte) (h : Item) (rest : List Item), ∃ p, readPart origin (h :: rest) = some p ∧
      p.origin = origin ∧ p.tag = h.key ∧ p.code.toNat = h.value.toNat / 16777216 ∧
      p.number = h.value.toNat / 65536 % 256 ∧ (p.last = true ↔ h.value.toNat / 256 % 256 ≠ 0) ∧
      p.count = h.value.toNat % 256 ∧ p.words = rest.map (·.value) := by
  refine ⟨fun _ => rfl, fun _ _ _ => rfl, fun _ => rfl, fun origin h rest => ⟨_, rfl, rfl, rfl, ?_, ?_, ?_, ?_, rfl⟩⟩
  · have := h.value.isLt
    simp only [BitVec.extractLsb'_toNat, Nat.shiftRight_eq_div_pow]; omega
  · simp only [BitVec.extractLsb'_toNat, Nat.shiftRight_eq_div_pow]
  · simp only [decide_eq_true_eq, ne_eq, BitVec.toNat_eq, BitVec.extractLsb'_toNat, Nat.shiftRight_eq_div_pow]
    simp
  · simp only [BitVec.extractLsb'_toNat]; simp

/-- The unsent alerts, handed again in the order of their kinds (R203). -/
theorem spec_handAllUnsent :
    AlertKind.all.map (·.index) = List.range 19 ∧
    (∀ c : Chip, handAllUnsent c = AlertKind.all.foldl (fun d k => handUnsent k d) c) ∧
    ∀ (k : AlertKind) (c : Chip),
      ((∀ a, pendingAlert c k = some a → a.unsent = false ∨ (routeOf c k).dest = none) → handUnsent k c = c) ∧
      ∀ a dest d o e, pendingAlert c k = some a → a.unsent = true → (routeOf c k).dest = some dest →
        rpOffer { kind := .alert, dest := dest, source := .alert k,
                  items := [mkItem (BitVec.ofNat 16 (k.index + 1 + 256 * a.subjectType.number)) a.subject,
                            mkItem (BitVec.ofNat 16 a.count) (BitVec.ofNat 32 a.line),
                            mkItem (if c.rp.epochPresent then 1 else 0) c.rp.epoch] } c = (d, o) →
        e = evalStopN { d with ma := { d.ma with lastHanding := some d.clock.line
                                                 pending := d.ma.pending.set k.index
                                                   (some { a with unsent := decide (o ≠ .taken) }) } } →
        (o ≠ .overflow → handUnsent k c = e) ∧ (o = .overflow → handUnsent k c = raiseOverflow e) := by
  refine ⟨rfl, fun _ => rfl, fun k c => ⟨fun h => ?_, ?_⟩⟩
  · refine if_neg ?_
    unfold unsentAlert
    cases hp : pendingAlert c k with
    | none => simp
    | some a => rcases h a hp with h | h <;> simp [h]
  · intro a dest d o e hp hu hd ho he
    have u : unsentAlert c k = true := by simp [unsentAlert, hp, hu, hd]
    have f : handAlert k c = (e, decide (o = .overflow)) := by
      subst he
      simp only [handAlert, hp, hd, alertFrame, ho]
      rfl
    unfold handUnsent
    rw [if_pos u, f]
    cases o <;> simp

/-- ST's gap set after the close of a lot (R63). -/
theorem spec_leaveGap :
    ∀ (i : Nat) (c : Chip) (gap : BitVec 8), i < 8 →
      (∀ j, j < 8 → gap.getLsbD j = (c.st.gapSet.getLsbD j && decide (j ≠ i))) →
      leaveGap i c = { c with st := { c.st with gapSet := gap } } := by
  intro i c gap hi h
  have e : c.st.gapSet &&& ~~~(BitVec.ofNat 8 (2 ^ i)) = gap := by
    apply BitVec.eq_of_getLsbD_eq
    intro j hj
    rw [h j hj]
    have : (BitVec.ofNat 8 (2 ^ i)).getLsbD j = decide (j = i) := by
      have hj' : j < 8 := hj
      rw [BitVec.getLsbD_ofNat, Nat.testBit_two_pow]; simp [hj', eq_comm]
    rw [BitVec.getLsbD_and, BitVec.getLsbD_not, this]
    by_cases q : j = i <;> simp [q]
    omega
  unfold leaveGap
  rw [e]

/-- The frames of the two reports (R116, R175, R207). -/
theorem spec_reportFrames :
    (∀ (key : Key) (w : Word), mkItem key w = { key := key, value := w, quality := 0 }) ∧
    (∀ (i : Nat) (l : Lot) (c : Chip) (marks : Nat),
      marks = (if l.closeTime.isSome = true then 1 else 0) + (if c.rp.epochPresent = true then 16 else 0) →
      lotReport i l c = { kind := .report, dest := c.ma.config.reportDest, source := .lotReport i, items :=
        [mkItem 2 l.number, mkItem (BitVec.ofNat 16 l.recipe) (BitVec.ofNat 32 (recipeOfLot c i).product),
         mkItem (BitVec.setWidth 16 (lotHold c i)) (BitVec.ofNat 32 l.openTime),
         mkItem (BitVec.ofNat 16 marks) (BitVec.ofNat 32 (l.closeTime.getD 0)),
         mkItem 0 (BitVec.ofNat 32 (l.finishTime.getD 0)), mkItem 0 c.rp.epoch,
         mkItem 0 (BitVec.ofNat 32 l.counts.segmentsCut), mkItem 1 (BitVec.ofNat 32 l.counts.massCut),
         mkItem 2 (BitVec.ofNat 32 l.counts.massDiverted), mkItem 3 (BitVec.ofNat 32 l.counts.untrackedMass),
         mkItem 4 (BitVec.ofNat 32 l.counts.tailMass), mkItem 5 (BitVec.ofNat 32 l.counts.overblanch),
         mkItem 6 (BitVec.ofNat 32 l.counts.bagsAccepted), mkItem 7 (BitVec.ofNat 32 l.counts.bagsRejected),
         mkItem 8 (BitVec.ofNat 32 l.counts.palletsClosed), mkItem 9 (BitVec.ofNat 32 l.counts.palletsDelivered)] }) ∧
    (∀ (i : Nat) (c : Chip), (lotAt c i = none → lotHold c i = 0) ∧ ∀ l, lotAt c i = some l →
      lotHold c i = if l.manual = true then HoldReason.manual.only else 0) ∧
    ∀ (p : Pallet) (c : Chip) (marks : Nat) (number : Word) (code : Option Destination → Nat),
      marks = (if p.short = true then 1 else 0) + (if p.exhausted = true then 2 else 0) +
        (if p.firstPlace.isSome = true then 4 else 0) + (if p.lastPlace.isSome = true then 8 else 0) +
        (if c.rp.epochPresent = true then 16 else 0) →
      (∀ l, lotAt c p.lot = some l → number = l.number) → (lotAt c p.lot = none → number = 0) →
      code none = 0 → code (some .store) = 1 → code (some .quarantine) = 2 →
      deliveryReport p c = { kind := .report, dest := c.ma.config.reportDest, source := .deliveryReport p.id p.revision,
                             items :=
        [mkItem 1 number, mkItem (BitVec.ofNat 16 p.id) (BitVec.ofNat 32 p.revision),
         mkItem (BitVec.ofNat 16 marks) (BitVec.setWidth 32 p.hold),
         mkItem (BitVec.ofNat 16 p.bags) (BitVec.ofNat 32 p.cases),
         mkItem (BitVec.ofNat 16 (p.firstPlace.getD 0)) (BitVec.ofNat 32 (p.lastPlace.getD 0)),
         mkItem 0 (BitVec.ofNat 32 (p.closeTime.getD 0)), mkItem 0 (BitVec.ofNat 32 (p.delTime.getD 0)),
         mkItem 0 (BitVec.ofNat 32 c.clock.line), mkItem 0 c.rp.epoch, mkItem 0 (BitVec.ofNat 32 p.exposure),
         mkItem (BitVec.ofNat 16 (code p.dest)) (BitVec.ofNat 32 (code p.delDest))] } := by
  refine ⟨fun _ _ => rfl, ?_, ?_, ?_⟩
  · rintro i l c marks rfl
    rfl
  · intro i c
    exact ⟨fun h => by simp only [lotHold, h], fun l h => by simp only [lotHold, h]⟩
  · rintro p c marks number code rfl hn h0 c0 c1 c2
    have hc : ∀ d, code d = destNumber d := by rintro (_ | _ | _) <;> assumption
    cases h : lotAt c p.lot with
    | none => rw [h0 h]; simp only [deliveryReport, h, hc, maskBit] <;> rfl
    | some l => rw [hn l h]; simp only [deliveryReport, h, hc, maskBit] <;> rfl

end Sys2Proof.Machine
end

