-- ==== Sys2Proof/Laws/FormatSpecs.lean ====
section
/-! SUPPORT. The form of a WRITE-TABLE (R198, R207) and the parts of an answer (R197, R207). -/

namespace Sys2Proof.Machine

/-- Entries of one width: each is its stretch of the words. -/
theorem cutEntries_all {t : Table} {w : Nat} (hw : ∀ i, t.width i = w) (p : Nat × List Word → Bool) :
    ∀ (n i : Nat) (ws : List Word), (cutEntries t n i ws).all p = true ↔
      ∀ k, k < n → p (i + k, (ws.drop (k * w)).take w) = true := by
  intro n
  induction n with
  | zero => intro i ws; simp [cutEntries]
  | succ n ih =>
    intro i ws
    simp only [cutEntries, List.all_cons, Bool.and_eq_true, ih, hw]
    constructor
    · rintro ⟨a, b⟩ k hk
      cases k with
      | zero => simpa using a
      | succ k =>
        have := b k (by omega)
        rw [List.drop_drop] at this
        rw [show i + (k + 1) = i + 1 + k by omega, show (k + 1) * w = w + k * w by rw [Nat.succ_mul]; omega]
        exact this
    · intro h
      refine ⟨by simpa using h 0 (by omega), fun k hk => ?_⟩
      have := h (k + 1) (by omega)
      rw [List.drop_drop]
      rw [show i + (k + 1) = i + 1 + k by omega, show (k + 1) * w = w + k * w by rw [Nat.succ_mul]; omega] at this
      exact this

theorem fieldsFormat_cons (f : Field) (fs : List Field) (w : Word) (ws : List Word) :
    fieldsFormat (f :: fs) (w :: ws) = (f.formatOk w && fieldsFormat fs ws) := rfl

/-- Fields none of which is enumerated have no form to check. -/
theorem fieldsFormat_none {fs : List Field} (h : ∀ f ∈ fs, ∀ n, f ≠ .enum n) (ws : List Word) :
    fieldsFormat fs ws = true := by
  refine List.all_eq_true.mpr fun x hx => ?_
  have m := (List.of_mem_zip hx).1
  obtain ⟨f, w⟩ := x
  cases f with
  | enum n => exact absurd rfl (h _ m n)
  | _ => rfl

/-- A list of a known length, element by element. -/
theorem list_length_succ {α : Type} {l : List α} {n : Nat} (h : l.length = n + 1) : ∃ a t, l = a :: t ∧ t.length = n := by
  cases l with
  | nil => cases h
  | cons a t => exact ⟨a, t, rfl, by simpa using h⟩

/-- The enumerated fields of a map entry (R22, R26). -/
theorem intakeFormat {v : List Word} (he : v.length = 13) :
    fieldsFormat (intakeFields v) v = true ↔ 1 ≤ wNat v 0 ∧ wNat v 0 ≤ 2 ∧ 1 ≤ wNat v 3 ∧ wNat v 3 ≤ 13 ∧
        (wNat v 3 = 6 → 1 ≤ wNat v 4 ∧ wNat v 4 ≤ 4) := by
  obtain ⟨e0, t0, rfl, l0⟩ := list_length_succ he
  obtain ⟨e1, t1, rfl, l1⟩ := list_length_succ l0
  obtain ⟨e2, t2, rfl, l2⟩ := list_length_succ l1
  obtain ⟨e3, t3, rfl, l3⟩ := list_length_succ l2
  obtain ⟨e4, e, rfl, l4⟩ := list_length_succ l3
  have tail : fieldsFormat [.any, .int (-32768) 32767, .any, .any, .nat 1 600, .nat 1 3000, .mark,
      if wMark (e0 :: e1 :: e2 :: e3 :: e4 :: e) 11 then .nat 0 47 else .any] e = true :=
    fieldsFormat_none (by split <;> simp) e
  have b : (bindingField e3.toNat).formatOk e4 = true ↔ (e3.toNat = 6 → 1 ≤ e4.toNat ∧ e4.toNat ≤ 4) := by
    unfold bindingField
    split <;> simp_all [Field.formatOk]
  simp only [intakeFields, fieldsFormat_cons, tail, Bool.and_true]
  simp only [wNat, List.getD_cons_succ, List.getD_cons_zero, Bool.and_eq_true, b]
  simp [Field.formatOk, Field.half, and_assoc]

/-- The enumerated fields of a track channel's record (R40). -/
theorem trackFormat {v : List Word} (he : v.length = 18) :
    fieldsFormat (trackFields v) v = true ↔ 1 ≤ wNat v 0 ∧ wNat v 0 ≤ 6 ∧ 1 ≤ wNat v 1 ∧ wNat v 1 ≤ 2 ∧
        1 ≤ wNat v 6 ∧ wNat v 6 ≤ 5 ∧ (wNat v 6 = 2 → 1 ≤ wNat v 8 ∧ wNat v 8 ≤ 3) ∧
        (wNat v 6 = 4 → 1 ≤ wNat v 10 ∧ wNat v 10 ≤ 2) ∧ 1 ≤ wNat v 11 ∧ wNat v 11 ≤ 3 ∧ 1 ≤ wNat v 12 ∧
        wNat v 12 ≤ 2 := by
  obtain ⟨e0, t0, rfl, l0⟩ := list_length_succ he
  obtain ⟨e1, t1, rfl, l1⟩ := list_length_succ l0
  obtain ⟨e2, t2, rfl, l2⟩ := list_length_succ l1
  obtain ⟨e3, t3, rfl, l3⟩ := list_length_succ l2
  obtain ⟨e4, t4, rfl, l4⟩ := list_length_succ l3
  obtain ⟨e5, t5, rfl, l5⟩ := list_length_succ l4
  obtain ⟨e6, t6, rfl, l6⟩ := list_length_succ l5
  obtain ⟨e7, t7, rfl, l7⟩ := list_length_succ l6
  obtain ⟨e8, t8, rfl, l8⟩ := list_length_succ l7
  obtain ⟨e9, t9, rfl, l9⟩ := list_length_succ l8
  obtain ⟨e10, t10, rfl, l10⟩ := list_length_succ l9
  obtain ⟨e11, t11, rfl, l11⟩ := list_length_succ l10
  obtain ⟨e12, e, rfl, l12⟩ := list_length_succ l11
  have formatOk_if (p : Prop) [Decidable p] (f g : Field) (w : Word) :
      (if p then f else g).formatOk w = if p then f.formatOk w else g.formatOk w := by split <;> rfl
  have tail (m : Bool) : fieldsFormat [.mark, if m then .half else .any, .any, .any,
      if m then .nat 10 5000 else .any] e = true := fieldsFormat_none (by cases m <;> simp [Field.half]) e
  simp only [trackFields, fieldsFormat_cons, tail, Bool.and_true, formatOk_if]
  simp only [wNat, List.getD_cons_succ, List.getD_cons_zero]
  simp [Field.formatOk, and_assoc]
  by_cases h2 : e6.toNat = 2 <;> by_cases h4 : e6.toNat = 4 <;> simp [h2, h4]

/-- The enumerated fields of a guard entry (R185). -/
theorem guardFormat {v : List Word} (he : v.length = 8) :
    fieldsFormat guardFields v = true ↔
      1 ≤ wNat v 0 ∧ wNat v 0 ≤ 2 ∧ 1 ≤ wNat v 3 ∧ wNat v 3 ≤ 7 ∧ 1 ≤ wNat v 4 ∧ wNat v 4 ≤ 5 := by
  obtain ⟨e0, t0, rfl, l0⟩ := list_length_succ he
  obtain ⟨e1, t1, rfl, l1⟩ := list_length_succ l0
  obtain ⟨e2, t2, rfl, l2⟩ := list_length_succ l1
  obtain ⟨e3, t3, rfl, l3⟩ := list_length_succ l2
  obtain ⟨e4, e, rfl, l4⟩ := list_length_succ l3
  have tail : fieldsFormat [.any, .any, .any] e = true := fieldsFormat_none (by simp) e
  simp only [guardFields, fieldsFormat_cons, tail, Bool.and_true]
  simp [Field.formatOk, Field.half, and_assoc, wNat]

/-- The form of a WRITE-TABLE (R198, R207): the number of its words, and every enumerated field. -/
theorem spec_writeFormat :
    (∀ r : Request, r.code = 3 → (formatOk r = true ↔ 3 ≤ r.words.length ∧
      ∃ t, tableArg r = some t ∧ entriesFormat t (argNat r 1) (argNat r 2) (r.words.drop 3) = true)) ∧
    (∀ (t : Table) (first count : Nat) (ws : List Word) (width : Nat) (named : List Word → Prop),
      ((t = .channelMap ∧ width = 13 ∧ named = fun e => 1 ≤ wNat e 0 ∧ wNat e 0 ≤ 2 ∧ 1 ≤ wNat e 3 ∧
          wNat e 3 ≤ 13 ∧ (wNat e 3 = 6 → 1 ≤ wNat e 4 ∧ wNat e 4 ≤ 4)) ∨
        (t = .tracks ∧ width = 18 ∧ named = fun e => 1 ≤ wNat e 0 ∧ wNat e 0 ≤ 6 ∧ 1 ≤ wNat e 1 ∧
          wNat e 1 ≤ 2 ∧ 1 ≤ wNat e 6 ∧ wNat e 6 ≤ 5 ∧ (wNat e 6 = 2 → 1 ≤ wNat e 8 ∧ wNat e 8 ≤ 3) ∧
          (wNat e 6 = 4 → 1 ≤ wNat e 10 ∧ wNat e 10 ≤ 2) ∧ 1 ≤ wNat e 11 ∧ wNat e 11 ≤ 3 ∧
          1 ≤ wNat e 12 ∧ wNat e 12 ≤ 2) ∨
        (t = .guards ∧ width = 8 ∧ named = fun e => 1 ≤ wNat e 0 ∧ wNat e 0 ≤ 2 ∧ 1 ≤ wNat e 3 ∧
          wNat e 3 ≤ 7 ∧ 1 ≤ wNat e 4 ∧ wNat e 4 ≤ 5) ∨
        ((t, width) ∈ [(Table.recipes, 85), (.shuttles, 4), (.routes, 2), (.line, 12), (.authority, 2)] ∧
          named = fun _ => True)) →
      (entriesFormat t first count ws = true ↔ ws.length = count * width ∧
        ∀ k, k < count → named ((ws.drop (k * width)).take width))) ∧
    ∀ (first count : Nat) (ws : List Word),
      ((3 ≤ first ∨ 3 < first + count) → entriesFormat .geometry first count ws = true) ∧
      (first < 3 → first + count ≤ 3 →
        (entriesFormat .geometry first count ws = true ↔ ws.length = (([13, 3, 7].drop first).take count).sum)) := by
  refine ⟨?_, ?_, ?_⟩
  · intro r h
    have c : r.code.toNat = 3 := by rw [h]; rfl
    unfold formatOk
    rw [c]
    simp only [Bool.and_eq_true, decide_eq_true_eq]
    cases q : tableArg r <;> simp
  · intro t first count ws width named h
    have gen : ∀ (fields : List Word → List Field), t ≠ .geometry → (∀ i, t.width i = width) →
        (∀ i e, t.fields i e = fields e) →
        (∀ e : List Word, e.length = width → (fieldsFormat (fields e) e = true ↔ named e)) →
        (entriesFormat t first count ws = true ↔ ws.length = count * width ∧
          ∀ k, k < count → named ((ws.drop (k * width)).take width)) := by
      intro fields ng hw hf he
      have len : ws.length = count * width → ∀ k, k < count → ((ws.drop (k * width)).take width).length = width := by
        intro hl k hk
        rw [List.length_take, List.length_drop, hl]
        have : (k + 1) * width ≤ count * width := Nat.mul_le_mul_right _ (by omega)
        rw [Nat.succ_mul] at this
        omega
      unfold entriesFormat
      rw [if_neg (fun q => ng q.1), if_neg ng, hw, Bool.and_eq_true, decide_eq_true_eq]
      refine and_congr_right fun hl => ?_
      rw [cutEntries_all hw]
      refine forall_congr' fun k => imp_congr_right fun hk => ?_
      rw [← he _ (len hl k hk), ← hf (first + k)]
    rcases h with ⟨rfl, rfl, rfl⟩ | ⟨rfl, rfl, rfl⟩ | ⟨rfl, rfl, rfl⟩ | ⟨h, rfl⟩
    · exact gen _ (by simp) (fun _ => rfl) (fun _ _ => rfl) fun v he => intakeFormat he
    · exact gen _ (by simp) (fun _ => rfl) (fun _ _ => rfl) fun v he => trackFormat he
    · exact gen _ (by simp) (fun _ => rfl) (fun _ _ => rfl) fun v he => guardFormat he
    · simp only [List.mem_cons, List.not_mem_nil, or_false, Prod.mk.injEq] at h
      rcases h with ⟨rfl, rfl⟩ | ⟨rfl, rfl⟩ | ⟨rfl, rfl⟩ | ⟨rfl, rfl⟩ | ⟨rfl, rfl⟩
      · refine gen _ (by simp) (fun _ => rfl) (fun _ _ => rfl) fun e he => iff_true_intro ?_ |>.trans (by simp)
        exact fieldsFormat_none (by simp [Field.half, Field.temperature]) e
      · refine gen _ (by simp) (fun _ => rfl) (fun _ _ => rfl) fun e he => iff_true_intro ?_ |>.trans (by simp)
        exact fieldsFormat_none (by simp) e
      · refine gen _ (by simp) (fun _ => rfl) (fun _ _ => rfl) fun e he => iff_true_intro ?_ |>.trans (by simp)
        exact fieldsFormat_none (by simp) e
      · refine gen _ (by simp) (fun _ => rfl) (fun _ _ => rfl) fun e he => iff_true_intro ?_ |>.trans (by simp)
        exact fieldsFormat_none (by cases wMark e 5 <;> simp [Field.half]) e
      · refine gen _ (by simp) (fun _ => rfl) (fun _ _ => rfl) fun e he => iff_true_intro ?_ |>.trans (by simp)
        exact fieldsFormat_none (by cases wMark e 0 <;> simp) e
  · intro first count ws
    refine ⟨fun h => ?_, fun a b => ?_⟩
    · refine if_pos ⟨rfl, ?_⟩
      simp only [beyondTable, Bool.or_eq_true, decide_eq_true_eq]
      exact h
    · have n : ¬ (Table.geometry = .geometry ∧ beyondTable .geometry first count = true) := by
        rintro ⟨_, q⟩
        simp only [beyondTable, Bool.or_eq_true, decide_eq_true_eq] at q
        simp only [Table.size] at q
        omega
      have f : ∀ es : List (Nat × List Word), es.all (fun (i, e) => fieldsFormat (Table.fields .geometry i e) e) = true := by
        intro es
        refine List.all_eq_true.mpr fun x _ => fieldsFormat_none ?_ _
        unfold Table.fields
        dsimp only
        split
        · simp [blanchFields]
        · split
          · simp [chillFields]
          · simp [freezeFields]
      unfold entriesFormat
      rw [if_neg n, f, Bool.and_true, decide_eq_true_eq, if_pos rfl]
      have : entriesWidth .geometry count first = (([13, 3, 7].drop first).take count).sum := by
        have hf : first = 0 ∨ first = 1 ∨ first = 2 := by omega
        have hc : count = 0 ∨ count = 1 ∨ count = 2 ∨ count = 3 := by omega
        rcases hf with rfl | rfl | rfl <;> rcases hc with rfl | rfl | rfl | rfl <;> rfl
      rw [this]

/-- An answer in its parts (R197, R207): 15 words to a part, and one part for an answer with no words. -/
theorem spec_answerParts :
    ∀ (r : Request) (st : Status) (ws : List Word) (c d : Chip) (parts : Nat),
      parts = max 1 ((ws.length + 14) / 15) →
      d = (List.range parts).foldl (fun e k => (rpHand
        { kind := .mgmtAns, dest := r.origin, source := .answer false,
          items := mkItem r.tag (BitVec.ofNat 32 (r.code.toNat * 16777216 + st.number * 65536 + k % 256 * 256 +
              if k + 1 = parts then 1 else 0)) ::
            ((ws.drop (15 * k)).take 15).zipIdx.map (fun x => mkItem (BitVec.ofNat 16 (15 * k + x.2)) x.1) } e).1) c →
      endRequest r st ws c = { d with ma := { d.ma with queue := d.ma.queue.tail, phase := .idle } } := by
  intro r st ws c d parts hp hd
  have hs : st.number < 256 := by cases st <;> decide
  have hc : r.code.toNat < 256 := r.code.isLt
  have h : ∀ k (b : Bool), answerHeader r.code st k b =
      BitVec.ofNat 32 (r.code.toNat * 16777216 + st.number * 65536 + k % 256 * 256 + if b = true then 1 else 0) := by
    intro k b
    have hk := Nat.mod_lt k (show 0 < 256 by decide)
    apply BitVec.eq_of_toNat_eq
    simp only [answerHeader, BitVec.toNat_append, BitVec.toNat_ofNat]
    rw [Nat.mod_eq_of_lt (show st.number < 2 ^ 8 by omega), show k % 2 ^ 8 = k % 256 from rfl,
      Nat.mod_eq_of_lt (show r.code.toNat * 16777216 + st.number * 65536 + k % 256 * 256 + (if b = true then 1 else 0) <
        2 ^ 32 by split <;> omega)]
    rw [← Nat.shiftLeft_add_eq_or_of_lt (show st.number < 2 ^ 8 by omega),
      ← Nat.shiftLeft_add_eq_or_of_lt (show k % 256 < 2 ^ 8 by omega),
      ← Nat.shiftLeft_add_eq_or_of_lt (show (if b = true then (1 : Byte) else 0).toNat < 2 ^ 8 by split <;> decide)]
    simp only [Nat.shiftLeft_eq]
    cases b <;> simp <;> omega
  subst hp hd
  unfold endRequest handAnswer
  have e : (fun acc k => (rpHand (answerPart r st ws false k) acc).1) =
      fun e k => (rpHand
        { kind := .mgmtAns, dest := r.origin, source := .answer false,
          items := mkItem r.tag (BitVec.ofNat 32 (r.code.toNat * 16777216 + st.number * 65536 + k % 256 * 256 +
              if k + 1 = max 1 ((ws.length + 14) / 15) then 1 else 0)) ::
            ((ws.drop (15 * k)).take 15).zipIdx.map (fun x => mkItem (BitVec.ofNat 16 (15 * k + x.2)) x.1) } e).1 := by
    funext acc k
    simp only [answerPart, h, decide_eq_true_eq]
    rfl
  rw [e]
  rfl

end Sys2Proof.Machine
end

