-- ==== Sys2Proof/Laws/GuardSpecs.lean ====
section
/-! SUPPORT. What the actuation guard's operations do, case by case: one lemma for each clause of the statements on
conditions, owned points, the shadow table, confirmations and their sources. -/

namespace Sys2Proof.Machine

/-- A guard's condition, as it stands at the check (R186). -/
theorem spec_conditions :
    ∀ c : Chip,
      conditionHolds c .always = true ∧
      (conditionHolds c .poolLow = true ↔ 256 - (liveSegments c.st).length < c.ma.config.reserve) ∧
      (conditionHolds c .noLot = true ↔ ∀ l, some l ∈ c.lh.lots → l.state ≠ .opened) ∧
      (conditionHolds c .zoneStale = true ↔ ∃ z v, z < (if c.st.blanch.written = true then c.st.blanch.zones else 6) ∧
        c.si.zones[z]? = some v ∧ v.state ≠ .fresh) ∧
      (conditionHolds c .traceBacklog = true ↔ c.tm.holding ≠ none) ∧
      (conditionHolds c .palletFull = true ↔ ∃ b, some b ∈ c.ba.slots ∧ b.state = .palletWait) ∧
      (conditionHolds c .lotHeld = true ↔ ∃ l, some l ∈ c.lh.lots ∧ l.manual = true) := by
  intro c
  refine ⟨rfl, ?_, ?_, ?_, ?_, ?_, ?_⟩
  · exact decide_eq_true_iff
  · simp only [conditionHolds, openLot?, Option.isNone_iff_eq_none, List.findIdx?_eq_none_iff]
    constructor
    · intro h l hl; simpa using h (some l) hl
    · intro h l hl
      cases l with
      | none => rfl
      | some e => simpa using h e hl
  · simp only [conditionHolds, zonesInUse, List.any_eq_true, bne_iff_ne]
    constructor
    · rintro ⟨v, hv, h⟩
      obtain ⟨i, hi, rfl⟩ := List.getElem_of_mem hv
      simp only [List.length_take] at hi
      refine ⟨i, _, by omega, ?_, h⟩
      rw [List.getElem_take, List.getElem?_eq_getElem (by omega)]
    · rintro ⟨z, v, hz, hv, h⟩
      refine ⟨v, ?_, h⟩
      rw [List.mem_iff_getElem?]
      exact ⟨z, by rw [List.getElem?_take_of_lt hz, hv]⟩
  · simp [conditionHolds, traceBacklog, Option.isSome_iff_ne_none]
  · simp only [conditionHolds, palletFull, List.any_eq_true]
    constructor
    · rintro ⟨s, hs, h⟩
      cases s with
      | none => cases h
      | some b => exact ⟨b, hs, by simpa using h⟩
    · rintro ⟨b, hb, h⟩
      exact ⟨some b, hb, by simpa using h⟩
  · simp only [conditionHolds, List.any_eq_true]
    constructor
    · rintro ⟨s, hs, h⟩
      cases s with
      | none => cases h
      | some l => exact ⟨l, hs, h⟩
    · rintro ⟨l, hl, h⟩
      exact ⟨some l, hl, h⟩

/-- The owned point of a key (R52, R184): of two with one key the lower-numbered (log entry 37). -/
theorem spec_ownedPoints :
    (∀ (c : Chip) (key : Key),
      (∀ w, ownedByKey c key = some w ↔ ∃ n, n < 8 ∧ ownedPoint c n = some (key, w) ∧
        ∀ m, m < n → ∀ v, ownedPoint c m ≠ some (key, v)) ∧
      (ownedByKey c key = none ↔ ∀ n, n < 8 → ∀ v, ownedPoint c n ≠ some (key, v))) ∧
    ∀ (c : Chip) (n : Nat) (k : TrackChan), k = trackChan c n →
      (∀ o, k.cfg.output = some o → k.cfg.mode = .gate → k.dyn.state = .opened →
        ownedPoint c n = some (o.key, o.onValue)) ∧
      (∀ o, k.cfg.output = some o → (k.cfg.mode ≠ .gate ∨ k.dyn.state ≠ .opened) →
        ownedPoint c n = some (o.key, o.offValue)) ∧
      (∀ p, k.cfg.output = none → c.ma.config.pausePoint = some p → p.index = n →
        ownedPoint c n = some (p.key, if c.tm.holding ≠ none then p.pause else p.resume)) ∧
      (k.cfg.output = none → (∀ p, c.ma.config.pausePoint = some p → p.index ≠ n) → ownedPoint c n = none) := by
  refine ⟨?_, ?_⟩
  · intro c key
    have f (n : Nat) (w : Word) : (match ownedPoint c n with
        | some (k, v) => if k = key then some v else none
        | none => none) = some w ↔ ownedPoint c n = some (key, w) := by
      cases ownedPoint c n with
      | none => simp
      | some p =>
        obtain ⟨a, b⟩ := p
        by_cases h : a = key <;> simp [h]
    have g (n : Nat) : (match ownedPoint c n with
        | some (k, v) => if k = key then some v else none
        | none => none) = none ↔ ∀ v, ownedPoint c n ≠ some (key, v) := by
      rw [Option.eq_none_iff_forall_ne_some]
      exact forall_congr' fun v => not_congr (f n v)
    have nn : ownedByKey c key = none ↔ ∀ n, n < 8 → ∀ v, ownedPoint c n ≠ some (key, v) := by
      unfold ownedByKey
      rw [List.findSome?_eq_none_iff]
      simp only [List.mem_range]
      exact forall_congr' fun n => forall_congr' fun _ => g n
    refine ⟨?_, nn⟩
    intro w
    unfold ownedByKey
    rw [List.findSome?_eq_some_iff]
    constructor
    · rintro ⟨l1, n, l2, h, hn, hl⟩
      have hr : ∀ i, i < 8 → (l1 ++ n :: l2)[i]? = some i := by
        intro i hi; rw [← h]; simp [List.getElem?_range hi]
      have len : (l1 ++ n :: l2).length = 8 := by rw [← h]; simp
      have hn1 : n = l1.length := by
        have := hr l1.length (by simp at len; omega)
        simpa using this
      have h8 : n < 8 := by simp at len; omega
      refine ⟨n, h8, (f n w).mp hn, ?_⟩
      intro m hm
      refine (g m).mp (hl m ?_)
      have := hr m (by omega)
      rw [List.getElem?_append_left (by omega)] at this
      exact List.mem_of_getElem? this
    · rintro ⟨n, h8, hn, hl⟩
      refine ⟨List.range n, n, (List.range (8 - n - 1)).map (fun i => n + 1 + i), ?_, (f n w).mpr hn, ?_⟩
      · have : ∀ n, n < 8 → List.range 8 = List.range n ++ n :: (List.range (8 - n - 1)).map (fun i => n + 1 + i) := by
          decide
        exact this n h8
      · intro m hm
        exact (g m).mpr (hl m (List.mem_range.mp hm))
  · intro c n k hk
    subst hk
    refine ⟨?_, ?_, ?_, ?_⟩
    · intro o h a b; simp only [ownedPoint, h, a, b, and_self, if_true]
    · intro o h a
      simp only [ownedPoint, h]
      rw [if_neg]
      rintro ⟨x, y⟩
      rcases a with a | a
      · exact a x
      · exact a y
    · intro p h q i
      simp only [ownedPoint, h, q, i, if_true, traceBacklog]
      simp [Option.isSome_iff_ne_none]
    · intro h q
      simp only [ownedPoint, h]
      cases hp : c.ma.config.pausePoint with
      | none => rfl
      | some p => exact if_neg (q p hp)

/-- The shadow table after a checked item (R189; log entry 38). -/
theorem spec_shadow :
    (∀ (mayEnter : Bool) (key : Key) (received : Word) (result : Option Word) (c : Chip)
        (forwarded : Option (Word × Nat) → Option (Word × Nat)),
      (∀ v old, result = some v → forwarded old = some (v, c.clock.line)) →
      (∀ old, result = none → forwarded old = old) →
      ((∃ e ∈ c.ag.shadows, e.key = key) → shadowItem mayEnter key received result c =
        { c with ag := { c.ag with shadows := c.ag.shadows.map fun e => if e.key = key
          then { e with received := received, receivedAt := c.clock.line, forwarded := forwarded e.forwarded } else e } }) ∧
      ((∀ e ∈ c.ag.shadows, e.key ≠ key) →
        (mayEnter = false → shadowItem mayEnter key received result c = c) ∧
        (mayEnter = true → c.ag.shadows.length < 32 → shadowItem mayEnter key received result c =
          { c with ag := { c.ag with shadows := c.ag.shadows ++
            [{ key := key, received := received, receivedAt := c.clock.line, forwarded := forwarded none }] } }) ∧
        (mayEnter = true → 32 ≤ c.ag.shadows.length → shadowItem mayEnter key received result c =
          { c with ag := { c.ag with unshadowed := min (c.ag.unshadowed + 1) 65535 } }))) ∧
    ∀ (c : Chip) (key : Key), guarded c key = true ↔
      ∃ g ∈ c.ag.guards, g.enabled = true ∧ (key ^^^ g.filter) &&& g.mask = 0 := by
  refine ⟨?_, ?_⟩
  · intro mayEnter key received result c forwarded h1 h2
    obtain rfl : forwarded = forwardedBy result c.clock.line := by
      funext old
      cases result with
      | none => exact h2 old rfl
      | some v => exact h1 v old rfl
    refine ⟨?_, ?_⟩
    · rintro ⟨e, he, hk⟩
      have a : (c.ag.shadows.any fun e => e.key == key) = true := List.any_eq_true.mpr ⟨e, he, by simpa using hk⟩
      exact if_pos a
    · intro hk
      have a : ¬ (c.ag.shadows.any fun e => e.key == key) = true := by
        rw [List.any_eq_true]
        rintro ⟨e, he, q⟩
        exact hk e he (by simpa using q)
      unfold shadowItem
      rw [if_neg a]
      refine ⟨?_, ?_, ?_⟩
      · intro m; subst m; rfl
      · intro m l
        subst m
        exact (if_pos rfl).trans (if_pos l)
      · intro m l
        subst m
        exact (if_pos rfl).trans (if_neg (Nat.not_lt.mpr l))
  · intro c key
    simp [guarded, keyMatches]

/-- The owned-point override (R184), with its trap record (R188) and its shadow entry (R189). -/
theorem spec_ownedItem :
    ∀ (key : Key) (v w : Word) (c d : Chip) (result : Word), c.ag.mode ≠ .offline → ownedByKey c key = some w →
      (c.ag.mode = .production → result = w) → (c.ag.mode = .commission → result = v) → (v = w → d = c) →
      (v ≠ w → d = { c with ag := { c.ag with
        traps := ({ line := c.clock.line, key := key, received := v, verdict := .owned, applied := some w, entry := .owned,
                    mode := c.ag.mode } :: c.ag.traps).take 32,
        trapCount := min (c.ag.trapCount + 1) 65535 } }) →
      checkItem key v c = (shadowItem false key v (some result) d, some result) := by
  intro key v w c d result hm ho hp hc he hn
  have r : (if c.ag.mode = .production then w else v) = result := by
    cases q : c.ag.mode with
    | offline => exact absurd q hm
    | commission => exact (hc q).symm
    | production => exact (hp q).symm
  have t : (if v = w then c else addTrap
      { line := c.clock.line, key := key, received := v, verdict := .owned, applied := some w, entry := .owned,
        mode := c.ag.mode } c) = d := by
    by_cases q : v = w
    · rw [if_pos q, he q]
    · rw [if_neg q, hn q]; rfl
  unfold checkItem
  split
  · next q => exact absurd q hm
  · simp only [ho, r, t]

/-- The source of a settled value is told (R54, R192, R193). -/
theorem spec_tellSource :
    (∀ (e : Confirm) (o : Outcome4) (c : Chip),
      (∀ n token, e.source = .channel n → e.serves = some token → tellSource e o c = settleToken n token o c) ∧
      ((e.source = .pause ∨ e.serves = none) → tellSource e o c = c)) ∧
    ∀ (n token : Nat) (o : Outcome4) (c : Chip) (k : TrackChan), k = trackChan c n →
      (∀ p, k.dyn.pulse = some p → p.token = token → p.outcome = .pending →
        settleToken n token o c = settlePulse n o c) ∧
      ((∀ p, k.dyn.pulse = some p → p.token ≠ token ∨ p.outcome ≠ .pending) →
        (∀ before after p r, k.dyn.awaiting = before ++ p :: after → p.token = token → (∀ q ∈ before, q.token ≠ token) →
          o.report? = some r → settleToken n token o c = reportAll r p.served
            (modTrack n (fun d => { d with awaiting := d.awaiting.filter fun q => q.token != token }) c)) ∧
        ((∀ q ∈ k.dyn.awaiting, q.token ≠ token) → settleToken n token o c = c)) := by
  refine ⟨?_, ?_⟩
  · intro e o c
    refine ⟨?_, ?_⟩
    · intro n token a b; simp only [tellSource, a, b]
    · intro h
      unfold tellSource
      split
      · rename_i n token a b
        rcases h with h | h
        · rw [h] at a; cases a
        · rw [h] at b; cases b
      · rfl
  · intro n token o c k hk
    subst hk
    refine ⟨?_, ?_⟩
    · intro p h t q
      have a : awaitsToken token (trackChan c n).dyn.pulse = true := by simp [awaitsToken, h, t, q]
      exact if_pos a
    · intro h
      have a : ¬ awaitsToken token (trackChan c n).dyn.pulse = true := by
        cases hp : (trackChan c n).dyn.pulse with
        | none => simp [awaitsToken]
        | some p =>
          simp only [awaitsToken, Bool.and_eq_true, beq_iff_eq]
          rintro ⟨x, y⟩
          rcases h p hp with h | h
          · exact h x
          · exact h y
      refine ⟨?_, ?_⟩
      · intro before after p r hl ht hb hr
        have f : (trackChan c n).dyn.awaiting.find? (fun p => p.token == token) = some p := by
          rw [hl, List.find?_append, List.find?_eq_none.mpr (by simpa using hb)]
          simp [ht]
        unfold settleToken
        rw [if_neg a]
        simp only [f, hr]
      · intro hq
        have f : (trackChan c n).dyn.awaiting.find? (fun p => p.token == token) = none :=
          List.find?_eq_none.mpr (by simpa using hq)
        unfold settleToken
        rw [if_neg a]
        simp only [f]

/-- A taken value that meets a full confirmation list (R191, R193): it has failed at once. -/
theorem spec_fullList :
    ∀ (n : Nat) (key : Key) (v : Word) (src : ConfSource) (serves : Option Nat) (timeout : Nat) (c d : Chip),
      c.rp.ring ≠ .isolated → c.ag.mode = .production →
      rpHand { kind := .actuate, dest := BitVec.ofNat 8 (key.toNat / 256), items := [mkItem key v],
               source := .ownActuation } c = (d, true) →
      (findRole (setUnsent n false d) (.pointEcho n)).isSome = true → 8 ≤ d.ag.confirms.length →
      sendValue n key v src serves timeout c = (raiseNat .gateFault .point n { setUnsent n false d with ag := { d.ag with
        confOverflow := min (d.ag.confOverflow + 1) 65535
        faults := d.ag.faults.modify n (fun x => min (x + 1) 65535) } }, .failed) := by
  intro n key v src serves timeout c d h1 h2 h3 h4 h5
  obtain ⟨k, hk⟩ := Option.isSome_iff_exists.mp h4
  have hl : ¬ (setUnsent n false d).ag.confirms.length < 8 := Nat.not_lt.mpr h5
  simp only [sendValue, if_neg h1, agOwn, if_pos h2, h3, agConfirm, hk, if_neg hl]
  rfl

/-- AG's check of a frame's items (R7, R183): one after the other, each on the state the items before it left. -/
theorem spec_checkItems :
    (∀ c : Chip, checkItems [] c = (c, [])) ∧
    ∀ (i : Item) (rest : List Item) (c d : Chip),
      (∀ v, checkItem i.key i.value c = (d, some v) →
        checkItems (i :: rest) c = ((checkItems rest d).1, { i with value := v } :: (checkItems rest d).2)) ∧
      (checkItem i.key i.value c = (d, none) → checkItems (i :: rest) c = checkItems rest d) := by
  refine ⟨fun _ => rfl, fun i rest c d => ⟨fun v h => ?_, fun h => ?_⟩⟩
  · simp only [checkItems, h]
  · simp only [checkItems, h]

end Sys2Proof.Machine
end

