-- ==== Sys2Proof/Laws/ReadSpecs.lean ====
section
/-! SUPPORT. What the read-class requests answer: the words of fields, the figures of each block's status, the records and
the entries of the nine tables; and that READ-TABLE gives back the words WRITE-TABLE put. -/

namespace Sys2Proof.Machine

/-- The words of one field (R207), and the values of each enumerated field in the order their rule lists them. -/
theorem spec_fieldWords :
    ((∀ n : Nat, natW n = BitVec.ofNat 32 n) ∧ (∀ v : Int, intW v = BitVec.ofInt 32 v) ∧
     (∀ k : Key, keyW k = BitVec.setWidth 32 k) ∧ (markW true = 1 ∧ markW false = 0 ∧ onW true = 1 ∧ onW false = 2) ∧
     (optNat none = [0, 0] ∧ ∀ n, optNat (some n) = [1, natW n]) ∧
     (optInt none = [0, 0] ∧ ∀ v, optInt (some v) = [1, intW v]) ∧ (optW none = [0, 0] ∧ ∀ w, optW (some w) = [1, w]) ∧
     (∀ n, optsW n none = 0 :: List.replicate n 0) ∧ (∀ n ws, optsW n (some ws) = 1 :: ws) ∧
     (∀ ms, listW ms = natW ms.length :: ms.flatten) ∧
     (∀ (α : Type) [BEq α] [LawfulBEq α] (l : List α) (k : Nat) (x : α), l.Nodup → l[k]? = some x →
       positionOf l x = BitVec.ofNat 32 (k + 1)) ∧
     Mode.list = [.offline, .commission, .production] ∧ Freshness.list = [.fresh, .stale, .staleHeld] ∧
     ChanMode.list = [.off, .cut, .delay, .gate, .capture, .interval] ∧ Edge.list = [.rising, .falling, .both] ∧
     Policy.list = [.ignore, .restart, .queue] ∧ FireCond.list = [.always, .bagNotAccepted] ∧
     ChanState.list = [.stopped, .armed, .delaying, .opened, .running] ∧
     Outcome4.list = [.notSent, .pending, .confirmed, .failed] ∧
     Condition.list = [.always, .poolLow, .noLot, .zoneStale, .traceBacklog, .palletFull, .lotHeld] ∧
     GuardAction.list = [.pass, .block, .clamp, .clampFreezer, .force] ∧
     RingState.list = [.active, .passive, .isolated] ∧ Stage.list = [.blanch, .chill, .freeze, .surge] ∧
     Disposition.list = [.pending, .divert, .diverting, .pass] ∧ Decision.list = [.gathering, .accepted, .rejected] ∧
     PalletState.list = [.building, .closed, .assigned, .inTransfer, .delivered, .faulted] ∧
     Destination.list = [.store, .quarantine] ∧
     PlaceState.list = [.archived, .free, .pending, .stored, .poisoned] ∧
     ShuttleState.list = [.offline, .idle, .assigned, .loaded, .inAirlock, .fault] ∧
     Verdict.list = [.block, .clamp, .clampFreezer, .force, .owned, .suppressed] ∧
     encoderBindings = [some .blanch, some .chill, some .freeze, none] ∧
     (packIds [] = [] ∧ (∀ a, packIds [a] = [natW (a * 65536)]) ∧
       ∀ a b rest, packIds (a :: b :: rest) = natW (a * 65536 + b) :: packIds rest) ∧
     ∀ (bs rest : List Byte) (k : Nat) (a b c d : Byte), bs.drop (4 * k) = a :: b :: c :: d :: rest →
       (bytesWord bs k).toNat = ((a.toNat * 256 + b.toNat) * 256 + c.toNat) * 256 + d.toNat) := by
  refine ⟨fun _ => rfl, fun _ => rfl, fun _ => rfl, ⟨rfl, rfl, rfl, rfl⟩, ⟨rfl, fun _ => rfl⟩, ⟨rfl, fun _ => rfl⟩,
    ⟨rfl, fun _ => rfl⟩, fun _ => rfl, fun _ _ => rfl, fun _ => rfl, ?_, rfl, rfl, rfl, rfl, rfl, rfl, rfl, rfl, rfl, rfl, rfl,
    rfl, rfl, rfl, rfl, rfl, rfl, rfl, rfl, rfl, ⟨rfl, fun _ => rfl, fun _ _ _ => rfl⟩, ?_⟩
  · intro α _ _ l k x hn hx
    have hk := (List.getElem?_eq_some_iff.mp hx)
    obtain ⟨h, rfl⟩ := hk
    unfold positionOf natW
    rw [hn.idxOf_getElem]
  · intro bs rest k a b c d h
    have := a.isLt; have := b.isLt; have := c.isLt; have := d.isLt
    simp only [bytesWord, h, BitVec.toNat_ofNat, beNat, List.take_succ_cons, List.take_zero, List.foldl_cons, List.foldl_nil]
    omega

/-- The figures of READ-STATUS, block by block (R14, R22, R75, R80, R97, R124, R146, R159, R178, R194, R200, R203). -/
theorem spec_status :
    (∀ c : Chip,
      statusOf 1 c = some [positionOf RingState.list c.rp.ring, natW c.rp.rxErr, natW c.rp.txErr, natW c.rp.overflow,
        natW c.rp.txQueue.length, natW c.rp.returnList.length] ∧
      statusOf 2 c = some (c.si.zones.flatMap fun z => optInt z.temp ++ [positionOf Freshness.list z.state]) ∧
      statusOf 3 c = some ((c.tc.chans.flatMap fun k => [positionOf ChanState.list k.dyn.state, natW k.dyn.pend.length]) ++
        listW ((List.range 8).filterMap fun n =>
          (ownedPoint c n).map fun p => [keyW p.1, p.2, markW (c.tc.unsent.getD n false)])) ∧
      statusOf 4 c = some [natW c.st.qBlanch.length, natW c.st.qChill.length, natW c.st.qFreeze.length,
        natW c.st.qSurge.length, natW (freeRecords c.st), markW (poolLow c), BitVec.setWidth 32 c.st.gapSet,
        natW c.st.stray, natW c.st.lastNominal, markW c.st.totalRef.isSome, markW (geometryValid c.st)] ∧
      statusOf 5 c = some ((c.de.zones.zip c.si.zones).flatMap fun x => [positionOf Freshness.list x.1.state] ++
        optNat x.1.creditTime ++ optInt x.1.lastTemp ++
        [natW x.1.credits, natW x.1.skipped, natW x.1.gaps, natW x.1.staleZones] ++
        (optInt x.2.temp ++ [positionOf Freshness.list x.2.state])) ∧
      statusOf 6 c = some ([positionOf Freshness.list c.fv.chillState] ++
        optsW 2 (c.fv.prevChill.map fun x => [intW x.1, natW x.2]) ++ [positionOf Freshness.list c.fv.exitState] ++
        listW (c.fv.window.map fun id => [natW id]) ++ [natW c.fv.lateChill, natW c.fv.warmChill, natW c.fv.underDwell,
          natW c.fv.noExit, natW c.fv.warmExit, natW c.fv.unapplied] ++ optNat (freezerLimit c)) ∧
      (∀ lotState : Option Lot → Word, lotState none = 1 → (∀ l : Lot, (l.state = .opened → lotState (some l) = 2) ∧
          (l.state = .draining → lotState (some l) = 3) ∧ (l.state = .finished → lotState (some l) = 4)) →
        statusOf 7 c = some (optNat (openLot? c) ++ c.lh.lots.map lotState ++
          [natW (c.lh.lots.filter (·.isNone)).length, natW (waitingLots c).length])) ∧
      (∀ slotState : Option Slot → Word, slotState none = 1 → (∀ s : Slot, (s.state = .gathering → slotState (some s) = 2) ∧
          (s.state = .palletWait → slotState (some s) = 3) ∧ (s.state = .decided → slotState (some s) = 4)) →
        statusOf 8 c = some (c.ba.slots.map slotState ++ [markW (palletFull c), natW (24 - c.ba.pallets.length)] ++
          (c.lh.lots.flatMap fun l => optNat (l.bind (·.building))) ++ optNat c.ba.lastOverrun ++
          [natW c.ba.overruns, natW c.ba.lostRecords, natW c.ba.lotless, natW c.ba.orphans, natW c.ba.strayGate] ++
          listW (c.ba.decisions.map fun e => [natW e.seq, positionOf Decision.list e.decision]))) ∧
      statusOf 9 c = some ([natW c.tm.pointer, natW c.tm.writeQueue.length, markW (traceBacklog c)] ++
        ([.archived, .free, .pending, .stored, .poisoned] : List PlaceState).map
          (fun st => natW (c.tm.places.filter fun e => e.state == st).length) ++
        [natW c.tm.verifyFail, natW c.tm.corrected, natW c.tm.uncorrectable]) ∧
      (∀ (temp : Option Int) (state : Freshness), (findRole c .dockTemp = none → temp = none ∧ state = .stale) →
        (∀ k, findRole c .dockTemp = some k → state = k.dyn.fresh ∧
          (k.dyn.fresh = .fresh → temp = k.dyn.latest.map (·.value)) ∧ (k.dyn.fresh ≠ .fresh → temp = none)) →
        statusOf 10 c = some (c.td.shuttles.map (fun s => positionOf ShuttleState.list s.state) ++
          [natW c.td.dock.length, natW (waitingDeliveries c).length, natW c.td.lost] ++ optInt temp ++
          [positionOf Freshness.list state])) ∧
      statusOf 11 c = some ([positionOf Mode.list c.ag.mode, natW c.ag.trapCount, natW c.ag.traps.length,
        natW c.ag.shadows.length, natW c.ag.unshadowed, natW c.ag.confirms.length, natW c.ag.confOverflow] ++
        c.ag.faults.map natW ++
        ([.always, .poolLow, .noLot, .zoneStale, .traceBacklog, .palletFull, .lotHeld] : List Condition).map
          (fun k => markW (conditionHolds c k))) ∧
      statusOf 12 c = some (listW (AlertKind.all.filterMap fun k => (pendingAlert c k).map fun a =>
          [natW (k.index + 1), natW a.count, a.subject, natW a.subjectType.number, natW a.line, markW a.unsent]) ++
        [markW c.pins.stopN, natW c.ma.queue.length])) := by
  refine fun c => ⟨rfl, rfl, rfl, rfl, rfl, rfl, ?_, ?_, rfl, ?_, rfl, rfl⟩
  · intro f h0 h
    have e : lotStateW = f := by
      funext l
      cases l with
      | none => exact h0.symm
      | some l =>
        obtain ⟨a, b, d⟩ := h l
        show l.state.position = _
        cases q : l.state <;> simp only [LotState.position, a, b, d, q]
    rw [← e]; rfl
  · intro f h0 h
    have e : slotStateW = f := by
      funext l
      cases l with
      | none => exact h0.symm
      | some l =>
        obtain ⟨a, b, d⟩ := h l
        show l.state.position = _
        cases q : l.state <;> simp only [SlotState.position, a, b, d, q]
    rw [← e]; rfl
  · intro temp state hn hs
    show some (statusTd c) = _
    unfold statusTd
    cases h : findRole c .dockTemp with
    | none => obtain ⟨rfl, rfl⟩ := hn h; rfl
    | some k =>
      obtain ⟨rfl, a, b⟩ := hs k h
      dsimp only
      by_cases q : k.dyn.fresh = .fresh
      · rw [if_pos q, a q]
      · rw [if_neg q, b q]

/-- The words of each record of READ-RECORD (R60, R75, R22, R40, R51, R127, R146, R155, R140, R162, R178, R111, R124, R166,
R188, R189). -/
theorem spec_records :
    ((∀ (g : Segment) (st : Stage) (pos : Nat) (flags : Nat) (flag : Nat → Bool → Nat),
       (∀ k, flag k true = 2 ^ k ∧ flag k false = 0) →
       flags = flag 0 g.flags.gap + flag 1 g.flags.aboveTable + flag 2 g.flags.overblanch + flag 3 g.flags.massEst →
       segmentWords g st pos = [natW g.id, natW g.lot, positionOf Stage.list st] ++ optNat g.head ++
         [natW g.nominal, natW g.remaining, natW g.cutTime] ++ optNat g.blanchExit ++ optNat g.freezerEntry ++
         optNat g.freezerExit ++ optNat g.zone ++ optNat g.zoneEntry ++ optNat g.credited ++
         [natW g.dose, natW (g.dose / 4096), natW flags, natW g.warmChill] ++ optInt g.warmest ++
         [positionOf Disposition.list g.disp, BitVec.setWidth 32 g.hold, natW pos]) ∧
     (∀ (d : IntakeDyn) (latest : List Word), (d.latest = none → latest = [0, 0, 0, 0, 0]) →
       (∀ v, d.latest = some v → latest = [1, intW v.value, natW ((if v.suspect = true then 1 else 0) +
         (if v.clampLow = true then 2 else 0) + (if v.clampHigh = true then 4 else 0)), natW v.line, v.ms]) →
       intakeRecord d = latest ++ [positionOf Freshness.list d.fresh] ++ optNat d.freshTimer ++ optNat d.staleTimer ++
         optW (d.ref.map fun r => BitVec.setWidth 32 r) ++
         [natW d.accepted, natW d.bad, natW d.suspects, natW d.clamps]) ∧
     (∀ (k : TrackChan) (served : Served → List Word) (captured : Option Captured → List Word) (level : Option Bool → List Word),
       (∀ id, served (.segment id) = [1, natW id] ∧ served (.bag id) = [2, natW id]) →
       captured none = [0, 0, 0, 0, 0, 0] →
       (∀ p, captured (some p) = [1, p.point] ++ [1, natW p.line] ++ [1, p.ms]) →
       (level none = [0, 0] ∧ level (some true) = [1, 1] ∧ level (some false) = [1, 0]) →
       trackRecord k = [positionOf ChanState.list k.dyn.state] ++
         listW (k.dyn.pend.map fun s => s.point :: optsW 2 (s.served.map served)) ++ [k.dyn.onEnd] ++
         listW (((k.dyn.pulse.map (·.served)).getD []).map served) ++
         [positionOf Outcome4.list ((k.dyn.pulse.map (·.outcome)).getD .notSent)] ++
         listW (k.dyn.awaiting.map fun p => listW (p.served.map served) ++ [(k.cfg.output.map (·.onValue)).getD 0]) ++
         [natW k.dyn.remainder, k.dyn.nextFire] ++ level k.dyn.lastLevel ++ level k.dyn.filtered ++
         captured k.dyn.capture.last ++ captured k.dyn.capture.prev ++ optNat k.dyn.capture.counts ++
         optW k.dyn.capture.interval ++ [markW k.dyn.capture.overflow, markW k.dyn.capture.span, natW k.dyn.fires,
           natW k.dyn.refused, natW k.dyn.skipped]) ∧
     (slotWords none = [1] ∧ ∀ (s : Slot) (state : Word) (result : Option Bool → List Word),
       (s.state = .gathering → state = 2) → (s.state = .palletWait → state = 3) → (s.state = .decided → state = 4) →
       (result none = [0, 0] ∧ result (some false) = [1, 1] ∧ result (some true) = [1, 2]) →
       slotWords (some s) = [state, natW s.seq, natW s.lot, natW s.madeLine, s.madeMs, s.deadline] ++ optNat s.weight ++
         result s.codeFail ++ result s.metalFail ++ [BitVec.setWidth 32 s.conflict] ++
         listW (s.draws.map fun d => [natW d.segment, natW d.grams]) ++
         [BitVec.setWidth 32 s.hold, positionOf Decision.list s.decision, BitVec.setWidth 32 s.reasons] ++
         optNat s.pallet) ∧
     (∀ (e : Place) (mark : Bool) (record : List Byte) (result : ReadResult) (fields : List Word) (read : Word),
       (e.fields = none → fields = []) →
       (∀ f, e.fields = some f → fields = [natW f.seq, natW f.lot] ++ optNat f.pallet ++
         [if f.rejected = true then 2 else 1, BitVec.setWidth 32 f.hold, markW mark, markW f.freeAtCompletion]) →
       (result = .good → read = 1) → (result = .corrected → read = 2) → (result = .uncorrectable → read = 3) →
       placeWords e mark record result =
         positionOf PlaceState.list e.state :: fields ++ (List.range 16).map (bytesWord record) ++ [read]) ∧
     (∀ (p : Pallet) (remaining report : Word), (p.report = .none → report = 1) → (p.report = .queued → report = 2) →
       (p.report = .waiting → report = 3) →
       palletWords p remaining = [natW p.id, natW p.lot, positionOf PalletState.list p.state, markW p.short, natW p.bags,
         natW p.cases] ++ optNat p.firstPlace ++ optNat p.lastPlace ++ [BitVec.setWidth 32 p.hold] ++
         optNat p.closeTime ++ [natW p.exposure] ++ optW (p.dest.map (positionOf Destination.list)) ++
         optNat p.shuttle ++ [markW p.reportPending, natW p.expTime, intW p.expTemp, markW p.exhausted] ++
         optW (p.delDest.map (positionOf Destination.list)) ++ optNat p.delTime ++
         [report, natW p.revision, remaining]) ∧
     (∀ (l : Lot) (state report : Word), (l.state = .opened → state = 2) → (l.state = .draining → state = 3) →
       (l.state = .finished → state = 4) → (l.report = .none → report = 1) → (l.report = .waiting → report = 2) →
       (l.report = .queued → report = 3) →
       lotWords l = [l.number, natW l.recipe, state, natW l.openTime] ++ optNat l.closeTime ++ optNat l.finishTime ++
         [BitVec.setWidth 32 (if l.manual = true then HoldReason.manual.only else 0), natW l.counts.segmentsCut,
          natW l.counts.massCut, natW l.counts.massDiverted, natW l.counts.untrackedMass, natW l.counts.tailMass,
          natW l.counts.overblanch, natW l.counts.bagsAccepted, natW l.counts.bagsRejected, natW l.counts.palletsClosed,
          natW l.counts.palletsDelivered] ++ optNat l.building ++
         [natW l.live, natW l.openBags, natW l.unwritten, natW l.inFlight, report, markW l.drained]) ∧
     (∀ s : Shuttle, shuttleRecord s = [positionOf ShuttleState.list s.state, markW s.enabled] ++ optNat s.pallet ++
       optNat s.deadline ++ [natW s.late, natW s.mismatch, natW s.faults, markW s.written, keyW s.point, natW s.load,
         natW s.airlock, natW s.delivery]) ∧
     (∀ (t : Trap) (entry : List Word), (∀ i, t.entry = .guard i → entry = [1, natW i]) →
       (t.entry = .owned → entry = [2, 0]) → (t.entry = .ownSuppressed → entry = [3, 0]) →
       trapWords t = [natW t.line, keyW t.key, t.received, positionOf Verdict.list t.verdict] ++ optW t.applied ++ entry ++
         [positionOf Mode.list t.mode]) ∧
     ∀ e : Shadow, shadowWords e = [keyW e.key, e.received, natW e.receivedAt] ++
       optsW 2 (e.forwarded.map fun x => [x.1, natW x.2])) := by
  refine ⟨?_, ?_, ?_, ⟨rfl, ?_⟩, ?_, ?_, ?_, fun _ => ?_, ?_, fun _ => rfl⟩
  · intro g st pos flags flag hf e
    have m : ∀ k b, maskBit k b = flag k b := by
      intro k b; cases b
      · exact (hf k).2.symm
      · exact (hf k).1.symm
    subst e
    simp only [segmentWords, m]
  · intro d latest h0 h
    unfold intakeRecord
    cases q : d.latest with
    | none => rw [h0 q]; rfl
    | some v => rw [h v q]; rfl
  · intro k served captured level hs c0 c1 hl
    have e1 : servedWords = served := by
      funext x; cases x with
      | segment id => exact (hs id).1.symm
      | bag id => exact (hs id).2.symm
    have e2 : capturedWords = captured := by
      funext x; cases x with
      | none => exact c0.symm
      | some p => exact (c1 p).symm
    have e3 : levelW = level := by
      funext x; rcases x with _ | _ | _
      · exact hl.1.symm
      · exact hl.2.2.symm
      · exact hl.2.1.symm
    subst e1 e2 e3
    unfold trackRecord
    dsimp only
    cases k.cfg.output <;> cases k.dyn.pulse <;> simp
  · intro s state result a b d hr
    have e1 : resultW = result := by
      funext x; rcases x with _ | _ | _
      · exact hr.1.symm
      · exact hr.2.1.symm
      · exact hr.2.2.symm
    subst e1
    have : state = s.state.position := by
      cases q : s.state <;> first | exact a q | exact b q | exact d q
    subst this
    rfl
  · intro e mark record result fields read h0 h a b d
    have : read = result.position := by
      cases result <;> first | exact a rfl | exact b rfl | exact d rfl
    subst this
    unfold placeWords
    cases q : e.fields with
    | none => rw [h0 q]
    | some f => rw [h f q]
  · intro p remaining report a b d
    have : report = p.report.ofPallet := by
      cases q : p.report <;> first | exact a q | exact b q | exact d q
    subst this
    rfl
  · intro l state report a b d e f g
    have : report = l.report.ofLot := by
      cases q : l.report <;> first | exact e q | exact f q | exact g q
    subst this
    have : state = l.state.position := by
      cases q : l.state <;> first | exact a q | exact b q | exact d q
    subst this
    simp [lotWords]
  · simp [shuttleRecord, shuttleWords]
  · intro t entry a b d
    unfold trapWords
    cases q : t.entry with
    | guard i => rw [a i q]
    | owned => rw [b q]
    | ownSuppressed => rw [d q]

/-- The words of each table's entry (R22, R26, R40, R57, R78, R96, R109, R166, R185, R198, R199, R201, R204). -/
theorem spec_entries :
    ((∀ (k : IntakeCfg) (role : List Word),
       (k.role = none → role = [0, 0]) → (∀ z, k.role = some (.zoneTemp z) → role = [1, natW z]) →
       (∀ r n, (r, n) ∈ [(Role.chillTemp, 2), (.exitTemp, 3), (.dockTemp, 4), (.infeedMass, 5), (.marker, 7), (.bagMade, 8),
         (.bagWeight, 9), (.bagCode, 10), (.bagMetal, 11)] → k.role = some r → role = [n, 0]) →
       (∀ b, k.role = some (.encoder b) → role = [6, positionOf encoderBindings b]) →
       (∀ n, k.role = some (.shuttleStatus n) → role = [12, natW n]) →
       (∀ n, k.role = some (.pointEcho n) → role = [13, natW n]) →
       intakeWords k = [onW k.enabled, keyW k.filter, keyW k.mask] ++ role ++ [intW k.offset, intW k.gain, intW k.low,
         intW k.high, natW k.freshTimeout, natW k.staleTimeout] ++ optNat k.partner) ∧
     (∀ (k : TrackCfg) (source trigger : List Word),
       (k.source = .unset → source = [0, 0]) → (∀ e, k.source = .encoder e → source = [1, natW e]) →
       (k.source = .milliseconds → source = [2, 0]) → (k.trigger = .command → trigger = [1, 0, 0, 0, 0]) →
       (∀ m e, k.trigger = .marker m e → trigger = [2, natW m, positionOf Edge.list e, 0, 0]) →
       (∀ n, k.trigger = .master n → trigger = [3, 0, 0, natW n, 0]) →
       (∀ b, k.trigger = .segmentDecision b → trigger = [4, 0, 0, 0, if b = .freeze then 2 else 1]) →
       (k.trigger = .bagMade → trigger = [5, 0, 0, 0, 0]) →
       trackWords k = [positionOf ChanMode.list k.mode] ++ source ++ [natW k.length, natW k.delay, natW k.width] ++ trigger ++
         [positionOf Policy.list k.policy, positionOf FireCond.list k.cond] ++
         optsW 4 (k.output.map fun o => [keyW o.key, o.onValue, o.offValue, natW o.timeout])) ∧
     (∀ g : BlanchGeo, blanchWords g = [natW g.encoder, natW g.length, natW g.segLen, natW g.cutChannel, natW g.void,
       natW g.zones] ++ g.zoneStarts.map natW ++ [natW g.decision, natW g.gate]) ∧
     (∀ g : ChillGeo, chillWords g = [natW g.encoder, natW g.length, natW g.entry]) ∧
     (∀ g : FreezeGeo, freezeWords g = [natW g.encoder, natW g.length, natW g.entry, natW g.decision, natW g.gate,
       natW g.winStart, natW g.winEnd]) ∧
     (∀ g : Guard, guardWords g = [onW g.enabled, keyW g.filter, keyW g.mask, positionOf Condition.list g.cond,
       positionOf GuardAction.list g.action, g.low, g.high, g.force]) ∧
     (∀ r : Recipe, recipeWords r = [natW r.product, markW r.valid, intW r.tbase] ++ r.table.map natW ++
       [natW r.target, natW r.maximum, natW r.chillWindow, intW r.chillLimit, natW r.warmAllowance, natW r.dwell,
        intW r.exitLimit, natW r.bagTarget, natW r.tare, natW r.under, natW r.overweight,
        natW ((if r.needWeight = true then 1 else 0) + (if r.needCode = true then 2 else 0) +
          (if r.needMetal = true then 4 else 0)), natW r.permille, natW r.bagsPerCase, natW r.casesPerPallet,
        natW r.budget, intW r.expReference, intW r.assumedDock]) ∧
     (∀ s : Shuttle, shuttleWords s = [keyW s.point, natW s.load, natW s.airlock, natW s.delivery]) ∧
     (∀ (stop : Bool) (d : Byte), routeWords { dest := none, stop := stop } = [0, markW stop] ∧
       routeWords { dest := some d, stop := stop } = [natW d.toNat, markW stop]) ∧
     (∀ k : LineConfig, lineWords k = [natW k.returnTimeout, natW k.recovery, natW k.split, natW k.reserve,
       natW k.bagDeadline] ++ optsW 5 (k.pausePoint.map fun p =>
         [natW p.index, keyW p.key, p.pause, p.resume, natW p.timeout]) ++ [natW k.reportDest.toNat]) ∧
     (∀ a : Option Byte, authorityWords a = optNat (a.map (·.toNat))) ∧
     ∀ (i : Nat) (c : Chip), entryWords .channelMap i c = intakeWords (intakeChan c i).cfg ∧
       entryWords .tracks i c = trackWords (trackChan c i).cfg ∧ entryWords .geometry 0 c = blanchWords c.st.blanch ∧
       entryWords .geometry 1 c = chillWords c.st.chill ∧ entryWords .geometry 2 c = freezeWords c.st.freeze ∧
       entryWords .guards i c = guardWords (c.ag.guards.getD i .power) ∧
       entryWords .recipes i c = recipeWords (c.lh.recipes.getD i .power) ∧
       entryWords .shuttles i c = shuttleWords (shuttleAt c i) ∧
       (∀ r, c.ma.routes[i]? = some r → entryWords .routes i c = routeWords r) ∧
       entryWords .line i c = lineWords c.ma.config ∧ entryWords .authority i c = authorityWords (c.ma.authority.getD i none)) := by
  refine ⟨?_, ?_, fun _ => rfl, fun _ => rfl, fun _ => rfl, fun _ => rfl, fun _ => rfl, fun _ => rfl,
    fun _ _ => ⟨rfl, rfl⟩, fun _ => rfl, fun a => by cases a <;> rfl,
    fun i c => ⟨rfl, rfl, rfl, rfl, rfl, rfl, rfl, rfl, ?_, rfl, rfl⟩⟩
  · intro k role h0 hz hp he hs hc
    have : role = roleWords k.role := by
      cases q : k.role with
      | none => exact h0 q
      | some r =>
        cases r with
        | zoneTemp z => exact hz z q
        | encoder b => exact he b q
        | shuttleStatus n => exact hs n q
        | pointEcho n => exact hc n q
        | _ => exact hp _ _ (by simp) q
    subst this
    simp only [intakeWords, optNat]
  · intro k source trigger s0 s1 s2 t1 t2 t3 t4 t5
    have : source = sourceWords k.source := by
      cases q : k.source with
      | unset => exact s0 q
      | encoder e => exact s1 e q
      | milliseconds => exact s2 q
    subst this
    have : trigger = triggerWords k.trigger := by
      cases q : k.trigger with
      | command => exact t1 q
      | marker m e => exact t2 m e q
      | master n => exact t3 n q
      | segmentDecision b => exact t4 b q
      | bagMade => exact t5 q
    subst this
    rfl
  · intro r h
    simp only [entryWords, List.getD_eq_getElem?_getD, h, Option.getD_some]

/-! ## What is written is read -/

theorem natW_toNat (w : Word) : natW w.toNat = w := by simp [natW]

theorem intW_toInt (w : Word) : intW w.toInt = w := by simp [intW]

theorem keyW_half {w : Word} (h : w.toNat ≤ 65535) : keyW (BitVec.setWidth 16 w) = w := by
  apply BitVec.eq_of_toNat_eq
  simp only [keyW, BitVec.toNat_setWidth]
  omega

theorem markW_one {w : Word} (h : w.toNat ≤ 1) : markW (decide (w.toNat = 1)) = w := by
  apply BitVec.eq_of_toNat_eq
  by_cases q : w.toNat = 1
  · simp [q, markW]
  · have : w.toNat = 0 := by omega
    simp [this, markW]

theorem onW_one {w : Word} (h1 : 1 ≤ w.toNat) (h2 : w.toNat ≤ 2) : onW (decide (w.toNat = 1)) = w := by
  apply BitVec.eq_of_toNat_eq
  by_cases q : w.toNat = 1
  · simp [q, onW]
  · have : w.toNat = 2 := by omega
    simp [this, onW]

/-- The position of the member at a position is that position. -/
theorem positionOf_atPosition {α : Type} [BEq α] [LawfulBEq α] (l : List α) (d : α) {w : Word} (hn : l.Nodup) (h1 : 1 ≤ w.toNat)
    (h2 : w.toNat ≤ l.length) : positionOf l (atPosition l d w.toNat) = w := by
  have h : w.toNat - 1 < l.length := by omega
  have e : atPosition l d w.toNat = l[w.toNat - 1] := by simp [atPosition, List.getD_eq_getElem?_getD, h]
  rw [e, positionOf, hn.idxOf_getElem, show w.toNat - 1 + 1 = w.toNat by omega, natW_toNat]

theorem word_zero {w : Word} (h : w.toNat = 0) : w = 0 := BitVec.eq_of_toNat_eq (by simpa using h)

/-- Role and binding are read as they were written (R22, R26). -/
theorem roleWords_roleOf {r b : Word} (hr : 1 ≤ r.toNat ∧ r.toNat ≤ 13) (hf : (bindingField r.toNat).formatOk b = true)
    (hb : (bindingField r.toNat).rangeOk b = true) : roleWords (roleOf r.toNat b.toNat) = [r, b] := by
  obtain ⟨h1, h2⟩ := hr
  have e : natW r.toNat = r := natW_toNat r
  generalize r.toNat = n at *
  have : n = 1 ∨ n = 2 ∨ n = 3 ∨ n = 4 ∨ n = 5 ∨ n = 6 ∨ n = 7 ∨ n = 8 ∨ n = 9 ∨ n = 10 ∨ n = 11 ∨ n = 12 ∨ n = 13 := by
    omega
  rcases this with rfl | rfl | rfl | rfl | rfl | rfl | rfl | rfl | rfl | rfl | rfl | rfl | rfl <;> subst e
  case inr.inr.inr.inr.inr.inl =>
    simp only [bindingField, Field.formatOk, Bool.and_eq_true, decide_eq_true_eq] at hf
    exact congrArg (fun x => [(6 : Word), x]) (positionOf_atPosition encoderBindings none (by decide) hf.1 hf.2)
  all_goals
    first
    | exact congrArg (fun x => [_, x]) (natW_toNat b)
    | (simp only [bindingField, rangeOk_nat] at hb
       rw [word_zero (Nat.le_zero.mp hb.2)]
       rfl)

/-- A map entry is read as it was written (R22, R26). -/
theorem roundTrip_intake {ws : List Word} (hl : ws.length = 13) (hf : fieldsFormat (intakeFields ws) ws = true)
    (hr : fieldsRange (intakeFields ws) ws = true) (hu : wNat ws 11 = 0 → ws.getD 12 0 = 0) :
    intakeWords (intakeOf ws) = ws := by
  obtain ⟨e0, t0, rfl, l0⟩ := list_length_succ hl
  obtain ⟨e1, t1, rfl, l1⟩ := list_length_succ l0
  obtain ⟨e2, t2, rfl, l2⟩ := list_length_succ l1
  obtain ⟨e3, t3, rfl, l3⟩ := list_length_succ l2
  obtain ⟨e4, t4, rfl, l4⟩ := list_length_succ l3
  obtain ⟨e5, t5, rfl, l5⟩ := list_length_succ l4
  obtain ⟨e6, t6, rfl, l6⟩ := list_length_succ l5
  obtain ⟨e7, t7, rfl, l7⟩ := list_length_succ l6
  obtain ⟨e8, t8, rfl, l8⟩ := list_length_succ l7
  obtain ⟨e9, t9, rfl, l9⟩ := list_length_succ l8
  obtain ⟨e10, t10, rfl, l10⟩ := list_length_succ l9
  obtain ⟨e11, t11, rfl, l11⟩ := list_length_succ l10
  obtain ⟨e12, t12, rfl, l12⟩ := list_length_succ l11
  obtain rfl := List.length_eq_zero_iff.mp l12
  simp only [intakeFields, fieldsFormat_cons, fieldsRange_cons, Bool.and_eq_true, rangeOk_nat, rangeOk_mark, Field.half]
    at hf hr
  obtain ⟨f0, -, -, f3, f4, -⟩ := hf
  obtain ⟨-, r1, r2, -, r4, -, -, -, -, -, -, r11, -⟩ := hr
  simp only [Field.formatOk, Bool.and_eq_true, decide_eq_true_eq] at f0 f3
  have rb := roleWords_roleOf f3 f4 r4
  have part : optW ((if e11.toNat = 1 then some e12.toNat else none).map natW) = [e11, e12] := by
    by_cases q : e11.toNat = 1
    · rw [if_pos q]
      simp only [Option.map_some, optW, natW_toNat]
      rw [show e11 = 1 from BitVec.eq_of_toNat_eq q]
    · have z : e11 = 0 := word_zero (by omega)
      have : e12 = 0 := hu (by rw [z]; rfl)
      rw [if_neg q, z, this]; rfl
  show [onW (decide (e0.toNat = 1)), keyW (BitVec.setWidth 16 e1), keyW (BitVec.setWidth 16 e2)] ++
    roleWords (roleOf e3.toNat e4.toNat) ++ [intW e5.toInt, intW e6.toInt, intW e7.toInt, intW e8.toInt, natW e9.toNat,
      natW e10.toNat] ++ optW ((if decide (e11.toNat = 1) = true then some e12.toNat else none).map natW) = _
  rw [rb, onW_one f0.1 f0.2, keyW_half r1.2, keyW_half r2.2]
  simp only [decide_eq_true_eq, part, intW_toInt, natW_toNat]
  rfl

/-- An optional field's words are read as they were written, the value being 0 while absent. -/
theorem optW_field {m v : Word} (hm : m.toNat ≤ 1) (hu : m.toNat = 0 → v = 0) :
    optW (if m.toNat = 1 then some v else none) = [m, v] := by
  by_cases q : m.toNat = 1
  · rw [if_pos q, show m = 1 from BitVec.eq_of_toNat_eq q]; rfl
  · rw [if_neg q, hu (by omega), word_zero (w := m) (by omega)]; rfl

/-- A guard entry is read as it was written (R185). -/
theorem roundTrip_guard {ws : List Word} (hl : ws.length = 8) (hf : fieldsFormat guardFields ws = true)
    (hr : fieldsRange guardFields ws = true) : guardWords (guardOf ws) = ws := by
  obtain ⟨e0, t0, rfl, l0⟩ := list_length_succ hl
  obtain ⟨e1, t1, rfl, l1⟩ := list_length_succ l0
  obtain ⟨e2, t2, rfl, l2⟩ := list_length_succ l1
  obtain ⟨e3, t3, rfl, l3⟩ := list_length_succ l2
  obtain ⟨e4, t4, rfl, l4⟩ := list_length_succ l3
  obtain ⟨e5, t5, rfl, l5⟩ := list_length_succ l4
  obtain ⟨e6, t6, rfl, l6⟩ := list_length_succ l5
  obtain ⟨e7, t7, rfl, l7⟩ := list_length_succ l6
  obtain rfl := List.length_eq_zero_iff.mp l7
  simp only [guardFields, fieldsFormat_cons, fieldsRange_cons, Bool.and_eq_true, rangeOk_nat, Field.half, Field.formatOk,
    decide_eq_true_eq] at hf hr
  show [onW (decide (e0.toNat = 1)), keyW (BitVec.setWidth 16 e1), keyW (BitVec.setWidth 16 e2),
    positionOf Condition.list (atPosition Condition.list .always e3.toNat),
    positionOf GuardAction.list (atPosition GuardAction.list .pass e4.toNat), e5, e6, e7] = _
  rw [onW_one hf.1.1 hf.1.2, keyW_half hr.2.1.2, keyW_half hr.2.2.1.2,
    positionOf_atPosition Condition.list .always (by decide) hf.2.2.2.1.1 hf.2.2.2.1.2,
    positionOf_atPosition GuardAction.list .pass (by decide) hf.2.2.2.2.1.1 hf.2.2.2.2.1.2]

/-- A shuttle entry is read as it was written (R166). -/
theorem roundTrip_shuttle {ws : List Word} (hl : ws.length = 4) (hr : fieldsRange shuttleFields ws = true) (s : Shuttle) :
    shuttleWords (shuttleOf s ws) = ws := by
  obtain ⟨e0, t0, rfl, l0⟩ := list_length_succ hl
  obtain ⟨e1, t1, rfl, l1⟩ := list_length_succ l0
  obtain ⟨e2, t2, rfl, l2⟩ := list_length_succ l1
  obtain ⟨e3, t3, rfl, l3⟩ := list_length_succ l2
  obtain rfl := List.length_eq_zero_iff.mp l3
  simp only [shuttleFields, fieldsRange_cons, rangeOk_nat] at hr
  show [keyW (BitVec.setWidth 16 e0), natW e1.toNat, natW e2.toNat, natW e3.toNat] = _
  rw [keyW_half (Nat.le_trans hr.1.2 (by decide))]
  simp only [natW_toNat]

/-- An alert route is read as it was written (R204). -/
theorem roundTrip_route {ws : List Word} (hl : ws.length = 2) (hr : fieldsRange routeFields ws = true) :
    routeWords (routeFrom ws) = ws := by
  obtain ⟨e0, t0, rfl, l0⟩ := list_length_succ hl
  obtain ⟨e1, t1, rfl, l1⟩ := list_length_succ l0
  obtain rfl := List.length_eq_zero_iff.mp l1
  simp only [routeFields, fieldsRange_cons, rangeOk_nat, rangeOk_mark] at hr
  have h : routeWords (routeFrom [e0, e1]) =
      [match (if e0.toNat = 0 then none else some (BitVec.ofNat 8 e0.toNat)) with | some d => natW d.toNat | none => 0,
       markW (decide (e1.toNat = 1))] := rfl
  rw [h, markW_one hr.2.1]
  by_cases q : e0.toNat = 0
  · rw [if_pos q, word_zero q]
  · rw [if_neg q]
    simp only [BitVec.toNat_ofNat]
    rw [Nat.mod_eq_of_lt (by omega), natW_toNat]

/-- An authority entry is read as it was written (R198). -/
theorem roundTrip_authority {ws : List Word} (hl : ws.length = 2) (hr : fieldsRange (authorityFields ws) ws = true)
    (hu : wNat ws 0 = 0 → ws.getD 1 0 = 0) : authorityWords (authorityOf ws) = ws := by
  obtain ⟨e0, t0, rfl, l0⟩ := list_length_succ hl
  obtain ⟨e1, t1, rfl, l1⟩ := list_length_succ l0
  obtain rfl := List.length_eq_zero_iff.mp l1
  simp only [authorityFields, fieldsRange_cons, rangeOk_mark, rangeOk_if, rangeOk_nat] at hr
  obtain ⟨r0, r1, -⟩ := hr
  have h : authorityWords (authorityOf [e0, e1]) =
      optW ((if decide (e0.toNat = 1) = true then some (BitVec.ofNat 8 e1.toNat) else none).map fun n => natW n.toNat) := rfl
  have e : (if decide (e0.toNat = 1) = true then some (BitVec.ofNat 8 e1.toNat) else none).map (fun n => natW n.toNat) =
      if e0.toNat = 1 then some e1 else none := by
    by_cases q : e0.toNat = 1
    · have := r1 (by simpa [wMark, wNat] using q)
      simp only [q, decide_true, if_true, Option.map_some, BitVec.toNat_ofNat]
      rw [Nat.mod_eq_of_lt (by omega), natW_toNat]
    · simp [q]
  rw [h, e]
  exact optW_field r0 hu

/-- The line configuration is read as it was written (R201). -/
theorem roundTrip_line {ws : List Word} (hl : ws.length = 12) (hr : fieldsRange (lineFields ws) ws = true)
    (hu : wNat ws 5 = 0 → ws.getD 6 0 = 0 ∧ ws.getD 7 0 = 0 ∧ ws.getD 8 0 = 0 ∧ ws.getD 9 0 = 0 ∧ ws.getD 10 0 = 0) :
    lineWords (lineOf ws) = ws := by
  obtain ⟨e0, t0, rfl, l0⟩ := list_length_succ hl
  obtain ⟨e1, t1, rfl, l1⟩ := list_length_succ l0
  obtain ⟨e2, t2, rfl, l2⟩ := list_length_succ l1
  obtain ⟨e3, t3, rfl, l3⟩ := list_length_succ l2
  obtain ⟨e4, t4, rfl, l4⟩ := list_length_succ l3
  obtain ⟨e5, t5, rfl, l5⟩ := list_length_succ l4
  obtain ⟨e6, t6, rfl, l6⟩ := list_length_succ l5
  obtain ⟨e7, t7, rfl, l7⟩ := list_length_succ l6
  obtain ⟨e8, t8, rfl, l8⟩ := list_length_succ l7
  obtain ⟨e9, t9, rfl, l9⟩ := list_length_succ l8
  obtain ⟨e10, t10, rfl, l10⟩ := list_length_succ l9
  obtain ⟨e11, t11, rfl, l11⟩ := list_length_succ l10
  obtain rfl := List.length_eq_zero_iff.mp l11
  simp only [lineFields, fieldsRange_cons, rangeOk_mark, rangeOk_if, rangeOk_nat, Field.half] at hr
  obtain ⟨-, -, -, -, -, r5, -, r7, -, -, -, r11, -⟩ := hr
  have h : lineWords (lineOf [e0, e1, e2, e3, e4, e5, e6, e7, e8, e9, e10, e11]) =
      [natW e0.toNat, natW e1.toNat, natW e2.toNat, natW e3.toNat, natW e4.toNat] ++
        optsW 5 ((if decide (e5.toNat = 1) = true then some (PausePoint.mk e6.toNat (BitVec.setWidth 16 e7) e8 e9 e10.toNat)
          else none).map pauseWords) ++ [natW (BitVec.ofNat 8 e11.toNat).toNat] := rfl
  rw [h]
  simp only [natW_toNat, BitVec.toNat_ofNat, Nat.mod_eq_of_lt (show e11.toNat < 2 ^ 8 by omega)]
  by_cases q : e5.toNat = 1
  · have k := r7 (by simpa [wMark, wNat] using q)
    simp only [q, decide_true, if_true, Option.map_some, optsW, pauseWords, natW_toNat, keyW_half k.2]
    rw [show e5 = 1 from BitVec.eq_of_toNat_eq q]
    rfl
  · have z := word_zero (show e5.toNat = 0 by omega)
    subst z
    obtain ⟨h6, h7, h8, h9, h10⟩ := hu rfl
    simp only [List.getD_cons_succ, List.getD_cons_zero] at h6 h7 h8 h9 h10
    subst h6 h7 h8 h9 h10
    rfl

/-- BLANCH's geometry is read as it was written (R57). -/
theorem roundTrip_blanch {ws : List Word} (hl : ws.length = 13) : blanchWords (blanchOf ws) = ws := by
  obtain ⟨e0, t0, rfl, l0⟩ := list_length_succ hl
  obtain ⟨e1, t1, rfl, l1⟩ := list_length_succ l0
  obtain ⟨e2, t2, rfl, l2⟩ := list_length_succ l1
  obtain ⟨e3, t3, rfl, l3⟩ := list_length_succ l2
  obtain ⟨e4, t4, rfl, l4⟩ := list_length_succ l3
  obtain ⟨e5, t5, rfl, l5⟩ := list_length_succ l4
  obtain ⟨e6, t6, rfl, l6⟩ := list_length_succ l5
  obtain ⟨e7, t7, rfl, l7⟩ := list_length_succ l6
  obtain ⟨e8, t8, rfl, l8⟩ := list_length_succ l7
  obtain ⟨e9, t9, rfl, l9⟩ := list_length_succ l8
  obtain ⟨e10, t10, rfl, l10⟩ := list_length_succ l9
  obtain ⟨e11, t11, rfl, l11⟩ := list_length_succ l10
  obtain ⟨e12, t12, rfl, l12⟩ := list_length_succ l11
  obtain rfl := List.length_eq_zero_iff.mp l12
  show [natW e0.toNat, natW e1.toNat, natW e2.toNat, natW e3.toNat, natW e4.toNat, natW e5.toNat] ++
    [e6.toNat, e7.toNat, e8.toNat, e9.toNat, e10.toNat].map natW ++ [natW e11.toNat, natW e12.toNat] = _
  simp only [List.map_cons, List.map_nil, natW_toNat]
  rfl

/-- CHILL's geometry is read as it was written (R57). -/
theorem roundTrip_chill {ws : List Word} (hl : ws.length = 3) : chillWords (chillOf ws) = ws := by
  obtain ⟨e0, t0, rfl, l0⟩ := list_length_succ hl
  obtain ⟨e1, t1, rfl, l1⟩ := list_length_succ l0
  obtain ⟨e2, t2, rfl, l2⟩ := list_length_succ l1
  obtain rfl := List.length_eq_zero_iff.mp l2
  show [natW e0.toNat, natW e1.toNat, natW e2.toNat] = _
  simp only [natW_toNat]

/-- FREEZE's geometry is read as it was written (R57). -/
theorem roundTrip_freeze {ws : List Word} (hl : ws.length = 7) : freezeWords (freezeOf ws) = ws := by
  obtain ⟨e0, t0, rfl, l0⟩ := list_length_succ hl
  obtain ⟨e1, t1, rfl, l1⟩ := list_length_succ l0
  obtain ⟨e2, t2, rfl, l2⟩ := list_length_succ l1
  obtain ⟨e3, t3, rfl, l3⟩ := list_length_succ l2
  obtain ⟨e4, t4, rfl, l4⟩ := list_length_succ l3
  obtain ⟨e5, t5, rfl, l5⟩ := list_length_succ l4
  obtain ⟨e6, t6, rfl, l6⟩ := list_length_succ l5
  obtain rfl := List.length_eq_zero_iff.mp l6
  show [natW e0.toNat, natW e1.toNat, natW e2.toNat, natW e3.toNat, natW e4.toNat, natW e5.toNat, natW e6.toNat] = _
  simp only [natW_toNat]

/-- A track channel's record is read as it was written (R40). -/
theorem roundTrip_track {ws : List Word} (hl : ws.length = 18) (hf : fieldsFormat (trackFields ws) ws = true)
    (hr : fieldsRange (trackFields ws) ws = true) (hs : wNat ws 1 = 2 → ws.getD 2 0 = 0)
    (h2 : wNat ws 6 ≠ 2 → ws.getD 7 0 = 0 ∧ ws.getD 8 0 = 0) (h3 : wNat ws 6 ≠ 3 → ws.getD 9 0 = 0)
    (h4 : wNat ws 6 ≠ 4 → ws.getD 10 0 = 0)
    (hu : wNat ws 13 = 0 → ws.getD 14 0 = 0 ∧ ws.getD 15 0 = 0 ∧ ws.getD 16 0 = 0 ∧ ws.getD 17 0 = 0) :
    trackWords (trackOf ws) = ws := by
  rw [trackFormat hl] at hf
  obtain ⟨e0, t0, rfl, l0⟩ := list_length_succ hl
  obtain ⟨e1, t1, rfl, l1⟩ := list_length_succ l0
  obtain ⟨e2, t2, rfl, l2⟩ := list_length_succ l1
  obtain ⟨e3, t3, rfl, l3⟩ := list_length_succ l2
  obtain ⟨e4, t4, rfl, l4⟩ := list_length_succ l3
  obtain ⟨e5, t5, rfl, l5⟩ := list_length_succ l4
  obtain ⟨e6, t6, rfl, l6⟩ := list_length_succ l5
  obtain ⟨e7, t7, rfl, l7⟩ := list_length_succ l6
  obtain ⟨e8, t8, rfl, l8⟩ := list_length_succ l7
  obtain ⟨e9, t9, rfl, l9⟩ := list_length_succ l8
  obtain ⟨e10, t10, rfl, l10⟩ := list_length_succ l9
  obtain ⟨e11, t11, rfl, l11⟩ := list_length_succ l10
  obtain ⟨e12, t12, rfl, l12⟩ := list_length_succ l11
  obtain ⟨e13, t13, rfl, l13⟩ := list_length_succ l12
  obtain ⟨e14, t14, rfl, l14⟩ := list_length_succ l13
  obtain ⟨e15, t15, rfl, l15⟩ := list_length_succ l14
  obtain ⟨e16, t16, rfl, l16⟩ := list_length_succ l15
  obtain ⟨e17, t17, rfl, l17⟩ := list_length_succ l16
  obtain rfl := List.length_eq_zero_iff.mp l17
  simp only [trackFields, fieldsRange_cons, rangeOk_mark, rangeOk_if, rangeOk_nat, Field.half] at hr
  obtain ⟨-, -, -, -, -, -, -, -, -, -, -, -, -, r13, r14, -⟩ := hr
  simp only [wNat, List.getD_cons_succ, List.getD_cons_zero] at hf hs h2 h3 h4 hu
  obtain ⟨f0, f0', f1, f1', f6, f6', f8, f10, f11, f11', f12, f12'⟩ := hf
  have source : sourceWords (sourceOf e1.toNat e2.toNat) = [e1, e2] := by
    have e : natW e1.toNat = e1 := natW_toNat e1
    generalize e1.toNat = n at *
    have : n = 1 ∨ n = 2 := by omega
    rcases this with rfl | rfl <;> subst e
    · exact congrArg (fun x => [(1 : Word), x]) (natW_toNat e2)
    · rw [hs rfl]; rfl
  have trigger : triggerWords (triggerFrom e6.toNat e7.toNat e8.toNat e9.toNat e10.toNat) = [e6, e7, e8, e9, e10] := by
    have e : natW e6.toNat = e6 := natW_toNat e6
    generalize e6.toNat = n at *
    have : n = 1 ∨ n = 2 ∨ n = 3 ∨ n = 4 ∨ n = 5 := by omega
    rcases this with rfl | rfl | rfl | rfl | rfl <;> subst e
    · rw [(h2 (by decide)).1, (h2 (by decide)).2, h3 (by decide), h4 (by decide)]; rfl
    · rw [h3 (by decide), h4 (by decide)]
      show [_, natW e7.toNat, positionOf Edge.list (atPosition Edge.list .rising e8.toNat), 0, 0] = _
      rw [natW_toNat, positionOf_atPosition Edge.list .rising (by decide) (f8 rfl).1 (f8 rfl).2]
      rfl
    · rw [(h2 (by decide)).1, (h2 (by decide)).2, h4 (by decide)]
      show [_, 0, 0, natW e9.toNat, 0] = _
      rw [natW_toNat]; rfl
    · rw [(h2 (by decide)).1, (h2 (by decide)).2, h3 (by decide)]
      have e : natW e10.toNat = e10 := natW_toNat e10
      generalize e10.toNat = m at *
      have : m = 1 ∨ m = 2 := by have := f10 rfl; omega
      rcases this with rfl | rfl <;> subst e <;> rfl
    · rw [(h2 (by decide)).1, (h2 (by decide)).2, h3 (by decide), h4 (by decide)]; rfl
  have h : trackWords (trackOf [e0, e1, e2, e3, e4, e5, e6, e7, e8, e9, e10, e11, e12, e13, e14, e15, e16, e17]) =
      [positionOf ChanMode.list (atPosition ChanMode.list .off e0.toNat)] ++ sourceWords (sourceOf e1.toNat e2.toNat) ++
        [natW e3.toNat, natW e4.toNat, natW e5.toNat] ++
        triggerWords (triggerFrom e6.toNat e7.toNat e8.toNat e9.toNat e10.toNat) ++
        [positionOf Policy.list (atPosition Policy.list .ignore e11.toNat),
         positionOf FireCond.list (atPosition FireCond.list .always e12.toNat)] ++
        optsW 4 ((if decide (e13.toNat = 1) = true then some (Output.mk (BitVec.setWidth 16 e14) e15 e16 e17.toNat)
          else none).map outputWords) := rfl
  rw [h, source, trigger, positionOf_atPosition ChanMode.list .off (by decide) f0 f0',
    positionOf_atPosition Policy.list .ignore (by decide) f11 f11',
    positionOf_atPosition FireCond.list .always (by decide) f12 f12']
  simp only [natW_toNat]
  by_cases q : e13.toNat = 1
  · have k := r14 (by simpa [wMark, wNat] using q)
    simp only [q, decide_true, if_true, Option.map_some, optsW, outputWords, natW_toNat, keyW_half k.2]
    rw [show e13 = 1 from BitVec.eq_of_toNat_eq q]
    rfl
  · have z := word_zero (show e13.toNat = 0 by omega)
    subst z
    obtain ⟨h14, h15, h16, h17⟩ := hu rfl
    subst h14 h15 h16 h17
    rfl

theorem wNat_append (a b : List Word) (k : Nat) : wNat (a ++ b) (a.length + k) = wNat b k := by
  simp [wNat, List.getD_eq_getElem?_getD, List.getElem?_append_right]

/-- The three marks of a set below 8. -/
theorem maskBits_three {w : Word} (h : w.toNat ≤ 7) :
    natW (maskBit 0 (w.getLsbD 0) + maskBit 1 (w.getLsbD 1) + maskBit 2 (w.getLsbD 2)) = w := by
  have e : w = BitVec.ofNat 32 w.toNat := by simp
  generalize w.toNat = n at *
  subst e
  have : n = 0 ∨ n = 1 ∨ n = 2 ∨ n = 3 ∨ n = 4 ∨ n = 5 ∨ n = 6 ∨ n = 7 := by omega
  rcases this with rfl | rfl | rfl | rfl | rfl | rfl | rfl | rfl <;> decide

/-- A recipe is read as it was written (R78, R96, R109). -/
theorem roundTrip_recipe {ws : List Word} (hl : ws.length = 85) (hr : fieldsRange (recipeFields ws) ws = true) :
    recipeWords (recipeOf ws) = ws := by
  have valid : (wNat ws 1) ≤ 1 ∧ wNat ws 78 ≤ 7 := by
    have g : ∀ k f, (recipeFields ws)[k]? = some f → k < 85 → f.rangeOk (ws.getD k 0) = true := by
      intro k f hf hk
      refine List.all_eq_true.mp hr (f, ws.getD k 0) ?_
      refine List.mem_of_getElem? (i := k) ?_
      rw [List.getElem?_zip_eq_some]
      exact ⟨hf, by simp [List.getD_eq_getElem?_getD, hl, hk]⟩
    have a := g 1 .mark rfl (by decide)
    have b := g 78 (.nat 0 7) rfl (by decide)
    exact ⟨(rangeOk_mark _).mp a, ((rangeOk_nat _ _ _).mp b).2⟩
  clear hr
  obtain ⟨e0, t0, rfl, l0⟩ := list_length_succ hl
  obtain ⟨e1, t1, rfl, l1⟩ := list_length_succ l0
  obtain ⟨e2, t2, rfl, l2⟩ := list_length_succ l1
  have h64 : (t2.take 64).length = 64 := by rw [List.length_take, l2]; rfl
  have h18 : (t2.drop 64).length = 18 := by rw [List.length_drop, l2]
  have split : t2 = t2.take 64 ++ t2.drop 64 := (List.take_append_drop 64 t2).symm
  generalize t2.take 64 = m at *
  generalize t2.drop 64 = u at *
  subst split
  have lit : ∀ k, (e0 :: e1 :: e2 :: (m ++ u)).getD (67 + k) 0 = u.getD k 0 := fun k =>
    BitVec.eq_of_toNat_eq (by simpa [wNat, h64] using wNat_append (e0 :: e1 :: e2 :: m) u k)
  have table : (((e0 :: e1 :: e2 :: (m ++ u)).drop 3).take 64).map (·.toNat) = m.map (·.toNat) := by
    rw [show (e0 :: e1 :: e2 :: (m ++ u)).drop 3 = m ++ u from rfl, ← h64, List.take_left]
  obtain ⟨u0, q0, rfl, k0⟩ := list_length_succ h18
  obtain ⟨u1, q1, rfl, k1⟩ := list_length_succ k0
  obtain ⟨u2, q2, rfl, k2⟩ := list_length_succ k1
  obtain ⟨u3, q3, rfl, k3⟩ := list_length_succ k2
  obtain ⟨u4, q4, rfl, k4⟩ := list_length_succ k3
  obtain ⟨u5, q5, rfl, k5⟩ := list_length_succ k4
  obtain ⟨u6, q6, rfl, k6⟩ := list_length_succ k5
  obtain ⟨u7, q7, rfl, k7⟩ := list_length_succ k6
  obtain ⟨u8, q8, rfl, k8⟩ := list_length_succ k7
  obtain ⟨u9, q9, rfl, k9⟩ := list_length_succ k8
  obtain ⟨u10, q10, rfl, k10⟩ := list_length_succ k9
  obtain ⟨u11, q11, rfl, k11⟩ := list_length_succ k10
  obtain ⟨u12, q12, rfl, k12⟩ := list_length_succ k11
  obtain ⟨u13, q13, rfl, k13⟩ := list_length_succ k12
  obtain ⟨u14, q14, rfl, k14⟩ := list_length_succ k13
  obtain ⟨u15, q15, rfl, k15⟩ := list_length_succ k14
  obtain ⟨u16, q16, rfl, k16⟩ := list_length_succ k15
  obtain ⟨u17, q17, rfl, k17⟩ := list_length_succ k16
  obtain rfl := List.length_eq_zero_iff.mp k17
  have back : (m.map (·.toNat)).map natW = m := by
    rw [List.map_map]
    conv_rhs => rw [← List.map_id m]
    exact List.map_congr_left fun w _ => natW_toNat w
  simp only [recipeWords, recipeOf, wInt, wMark, table, back]
  simp only [wNat, lit 0, lit 1, lit 2, lit 3, lit 4, lit 5, lit 6, lit 7, lit 8, lit 9, lit 10, lit 11, lit 12, lit 13, lit 14,
    lit 15, lit 16, lit 17] at valid ⊢
  simp only [List.getD_cons_succ, List.getD_cons_zero, natW_toNat, intW_toInt] at valid ⊢
  rw [markW_one valid.1, maskBits_three valid.2]
  simp

/-- READ-TABLE gives back the words WRITE-TABLE put (R199): the words of an entry of a known form and in its ranges, a word
that carries nothing being 0, are those of the entry they spell. -/
theorem spec_readBack :
    (∀ (t : Table) (i : Nat) (ws : List Word), ws.length = t.width i → fieldsFormat (t.fields i ws) ws = true →
      fieldsRange (t.fields i ws) ws = true →
      (t = .channelMap → (wNat ws 11 = 0 → ws.getD 12 0 = 0) → intakeWords (intakeOf ws) = ws) ∧
      (t = .tracks → (wNat ws 1 = 2 → ws.getD 2 0 = 0) →
        (wNat ws 6 ≠ 2 → ws.getD 7 0 = 0 ∧ ws.getD 8 0 = 0) → (wNat ws 6 ≠ 3 → ws.getD 9 0 = 0) →
        (wNat ws 6 ≠ 4 → ws.getD 10 0 = 0) →
        (wNat ws 13 = 0 → ws.getD 14 0 = 0 ∧ ws.getD 15 0 = 0 ∧ ws.getD 16 0 = 0 ∧ ws.getD 17 0 = 0) →
        trackWords (trackOf ws) = ws) ∧
      (t = .geometry → (i = 0 → blanchWords (blanchOf ws) = ws) ∧ (i = 1 → chillWords (chillOf ws) = ws) ∧
        (i = 2 → freezeWords (freezeOf ws) = ws)) ∧
      (t = .guards → guardWords (guardOf ws) = ws) ∧ (t = .recipes → recipeWords (recipeOf ws) = ws) ∧
      (t = .shuttles → ∀ s, shuttleWords (shuttleOf s ws) = ws) ∧ (t = .routes → routeWords (routeFrom ws) = ws) ∧
      (t = .line → (wNat ws 5 = 0 → ws.getD 6 0 = 0 ∧ ws.getD 7 0 = 0 ∧ ws.getD 8 0 = 0 ∧ ws.getD 9 0 = 0 ∧
        ws.getD 10 0 = 0) → lineWords (lineOf ws) = ws) ∧
      (t = .authority → (wNat ws 0 = 0 → ws.getD 1 0 = 0) → authorityWords (authorityOf ws) = ws)) := by
  intro t i ws hl hf hr
  refine ⟨?_, ?_, ?_, ?_, ?_, ?_, ?_, ?_, ?_⟩
  · rintro rfl; exact roundTrip_intake hl hf hr
  · rintro rfl; exact roundTrip_track hl hf hr
  · rintro rfl
    exact ⟨by rintro rfl; exact roundTrip_blanch hl, by rintro rfl; exact roundTrip_chill hl,
      by rintro rfl; exact roundTrip_freeze hl⟩
  · rintro rfl; exact roundTrip_guard hl hf hr
  · rintro rfl; exact roundTrip_recipe hl hr
  · rintro rfl; exact roundTrip_shuttle hl hr
  · rintro rfl; exact roundTrip_route hl hr
  · rintro rfl; exact roundTrip_line hl hr
  · rintro rfl; exact roundTrip_authority hl hr

end Sys2Proof.Machine
end

