-- ==== Sys2Proof/Laws/Requests.lean ====
section
/-! SUPPORT. The requests: every place stays in the table, the ring state agrees with the error counts; and what each kind
of command leaves alone around the part. -/

namespace Sys2Proof.Machine

set_option Elab.async false

/-! ## Places -/

@[simp] theorem places_holdPallet {c : Chip} (id f) (h : PlacesInTable c) : PlacesInTable (holdPallet id f c) := by
  unfold holdPallet
  repeat' split
  all_goals simp [h]

@[simp] theorem places_holdLot (i b) (c : Chip) : PlacesInTable (holdLot i b c) ↔ PlacesInTable c := by
  unfold holdLot
  exact places_iff ((tmv_foldl (fun c x => tmv_evalDestination x c) _ _).trans (tmv_modLot ..))

theorem places_changeHold {c : Chip} (k id f) (h : PlacesInTable c) : PlacesInTable (changeHold k id f c).1 := by
  unfold changeHold
  repeat' first | split | dsimp only
  all_goals first
    | exact h
    | (simp [h]; done)
    | exact places_amendPlace (by omega) h

theorem places_refreshUnsent {c : Chip} (b) (h : PlacesInTable c) : PlacesInTable (refreshUnsent b c) :=
  places_foldl (fun c x h => by split <;> simp [h]) _ c h

theorem places_writeEntries {c : Chip} (t es) (h : PlacesInTable c) : PlacesInTable (writeEntries t es c).1 := by
  cases t with
  | channelMap =>
    unfold writeEntries writeMap
    dsimp only
    split
    · refine places_foldl (fun d x hd => ?_) _ _ ((places_siDe ..).mpr h)
      have r (q) (e : Chip) (he : PlacesInTable e) : PlacesInTable (rederiveRole q e) := by
        unfold rederiveRole; split <;> simp [he]
      have w (i k) (e : Chip) (he : PlacesInTable e) : PlacesInTable (tellWritten i k e) := by
        unfold tellWritten; split <;> simp [he]
      exact r _ _ (r _ _ (w _ _ _ (w _ _ _ hd)))
    · exact h
  | tracks =>
    unfold writeEntries writeTracks
    dsimp only
    split
    · refine places_refreshUnsent _ ((places_tc ..).mpr ?_)
      exact places_foldl (fun d x hd => places_stopChannel _ hd) _ _ h
    · exact h
  | line =>
    unfold writeEntries writeLine
    dsimp only
    split
    · exact places_recover (places_refreshUnsent _ ((places_ma ..).mpr h))
    · exact h
  | _ =>
    simp only [writeEntries, writeGeometry, writeGuards, writeRecipes, writeShuttles, writeRoutes, writeAuthority]
    repeat' split
    all_goals first
      | exact h
      | exact (places_st ..).mpr h
      | exact (places_ag ..).mpr h
      | exact (places_lh ..).mpr h
      | exact (places_td ..).mpr h
      | exact (places_ma ..).mpr h
      | exact (places_evalStopN _).mpr ((places_ma ..).mpr h)

theorem places_writeTable {c : Chip} (t f n ws) (h : PlacesInTable c) : PlacesInTable (writeTable t f n ws c).1 := by
  unfold writeTable
  repeat' split
  all_goals first | exact h | exact places_writeEntries _ _ h

/-- Executing a request keeps the places in the table if its own execution does. -/
theorem places_executeWith {c : Chip} {mine : Request → Bool} {run : Request → Chip → Chip}
    (k : ∀ r d, formatOk r = true → PlacesInTable d → PlacesInTable (run r d)) (h : PlacesInTable c) :
    PlacesInTable (executeWith mine run c) := by
  unfold executeWith
  split
  · next r _ =>
    split
    · split
      · simpa using h
      · next e =>
        refine k r c ?_ h
        unfold earlyStatus at e
        split at e
        · exact absurd e (by simp)
        · next q => simpa using q
    · exact h
  · exact h

theorem places_replyWith {c : Chip} {f : Request → Chip → Reply} {r : Request}
    (k : PlacesInTable (f r c).1) : PlacesInTable (replyWith f r c) := by
  unfold replyWith
  split
  next c1 st ws e =>
    rw [e] at k
    simpa using k

/-- What SET-MODE can leave (R181, R182). -/
theorem setMode_cases (m) (c : Chip) : (setMode m c).1 = c ∨ (setMode m c).1 = withMode .commission c ∨
    (setMode m c).1 = resendUnsent (arbitrate (withMode .production c)) := by
  cases m <;> cases e : c.ag.mode <;> first | (simp [setMode, e]; done) | skip
  cases r : productionReady c <;> simp [setMode, e, r]

theorem places_setMode {c : Chip} (m) (h : PlacesInTable c) : PlacesInTable (setMode m c).1 := by
  have w (m) : PlacesInTable (withMode m c) := h.same rfl rfl
  rcases setMode_cases m c with e | e | e <;> rw [e]
  · exact h
  · exact w _
  · exact places_resendUnsent ((places_arbitrate _).mpr (w _))

@[simp] theorem places_drainLot {c : Chip} (i) (h : PlacesInTable c) : PlacesInTable (drainLot i c) := by simp [drainLot, h]

theorem places_openLot {c : Chip} (n i) (h : PlacesInTable c) : PlacesInTable (openLot n i c).1 := by
  unfold openLot
  repeat' first | split | dsimp only
  all_goals first | exact h | exact (places_lh ..).mpr (places_drainLot _ h) | exact (places_lh ..).mpr h

theorem places_readRecordOf {c : Chip} (k id) (h : PlacesInTable c) : PlacesInTable (readRecordOf k id c).1 := by
  have f (o) : (found c o).1 = c := by unfold found; split <;> rfl
  have i (n id o) : (indexed c n id o).1 = c := by unfold indexed; split; rfl; exact f _
  unfold readRecordOf
  repeat' split
  all_goals first
    | (rw [f]; exact h)
    | (rw [i]; exact h)
    | exact h
    | skip
  next c1 w e =>
    unfold signedWord at e
    split at e
    · exact (show c1 = c from (congrArg Prod.fst e).symm) ▸ h
    · exact h.same (congrArg (fun x : Chip × Word => x.1.tm) e).symm (congrArg (fun x : Chip × Word => x.1.ba.decisions) e).symm

theorem places_runReadRecord {c : Chip} (r) (h : PlacesInTable c) : PlacesInTable (runReadRecord r c) := by
  unfold runReadRecord
  dsimp only
  split
  · split
    · simpa using h
    · split
      · simpa using h
      · refine ⟨h.table, h.pointer, h.writes, h.marks, h.spi, ?_, h.restart, h.decisions⟩
        intro p e
        have : argNat r 1 = p := Option.some.inj e
        omega
  · exact places_replyWith (places_readRecordOf _ _ h)

theorem places_runRestart {c : Chip} (r) (h : PlacesInTable c) : PlacesInTable (runRestart r c) := by
  have k := (places_rpHand (answerPart r .ok [] true 0) c).mpr h
  unfold runRestart
  split
  next c1 b e => rw [e] at k; exact (places_ma ..).mpr k

/-! ## Ring state -/

theorem RingAgrees.executeWith {c : Chip} {mine : Request → Bool} {run : Request → Chip → Chip}
    (k : ∀ r d, RingAgrees d → RingAgrees (run r d)) (h : RingAgrees c) : RingAgrees (executeWith mine run c) := by
  unfold Machine.executeWith
  repeat' split
  all_goals first
    | exact h
    | exact k _ _ h
    | exact h.of_front (by simp)

theorem RingAgrees.replyWith {f : Request → Chip → Reply} {r : Request} {c : Chip}
    (k : RingAgrees (f r c).1) : RingAgrees (replyWith f r c) := by
  unfold Machine.replyWith
  split
  next c1 st ws e =>
    rw [e] at k
    exact k.of_front (front_endRequest ..)

theorem ringView_replyWith {f : Request → Chip → Reply} {r : Request} {c : Chip}
    (k : ringView (f r c).1 = ringView c) : ringView (replyWith f r c) = ringView c := by
  unfold replyWith
  split
  next c1 st ws e =>
    rw [e] at k
    exact (ringView_of_front (front_endRequest ..)).trans k

theorem ringView_foldl {α : Type} {f : Chip → α → Chip} (h : ∀ c x, ringView (f c x) = ringView c) (l : List α)
    (c : Chip) : ringView (l.foldl f c) = ringView c := by
  induction l generalizing c with
  | nil => rfl
  | cons x l ih => rw [List.foldl_cons, ih, h]

theorem front_refreshUnsent (b) (c : Chip) : front (refreshUnsent b c) = front c :=
  front_foldl (fun c x => by split <;> simp) _ c

/-- The writes but for the line configuration's, which may complete the recovery timer (R201). -/
theorem ringView_writeEntries {t} (q : t ≠ .line) (es) (c : Chip) :
    ringView (writeEntries t es c).1 = ringView c := by
  cases t with
  | channelMap =>
    unfold writeEntries writeMap
    dsimp only
    split
    · refine (ringView_of_front (front_foldl (fun d x => ?_) _ _)).trans rfl
      have r (q) (e : Chip) : front (rederiveRole q e) = front e := by unfold rederiveRole; split <;> simp
      have w (i k) (e : Chip) : front (tellWritten i k e) = front e := by unfold tellWritten; split <;> simp
      exact (r _ _).trans ((r _ _).trans ((w _ _ _).trans (w _ _ _)))
    · rfl
  | tracks =>
    unfold writeEntries writeTracks
    dsimp only
    split
    · refine ringView_of_front ((front_refreshUnsent _ _).trans ((front_tc _ _).trans ?_))
      exact front_foldl (fun d x => front_stopChannel _ d) _ _
    · rfl
  | line => exact absurd rfl q
  | _ =>
    simp only [writeEntries, writeGeometry, writeGuards, writeRecipes, writeShuttles, writeRoutes, writeAuthority]
    repeat' split
    all_goals rfl

theorem RingAgrees.writeEntries {c : Chip} (t es) (a : RingAgrees c) : RingAgrees (writeEntries t es c).1 := by
  by_cases q : t = .line
  · subst q
    unfold Machine.writeEntries writeLine
    dsimp only
    split
    · exact RingAgrees.recover (RingAgrees.of_view (d := c) ((ringView_of_front (front_refreshUnsent _ _)).trans rfl) a)
    · exact a
  · exact a.of_view (ringView_writeEntries q es c)

theorem RingAgrees.writeTable {c : Chip} (t f n ws) (a : RingAgrees c) : RingAgrees (writeTable t f n ws c).1 := by
  unfold Machine.writeTable
  repeat' split
  all_goals first | exact a | exact a.writeEntries _ _

theorem ringView_setMode (m) (c : Chip) : ringView (setMode m c).1 = ringView c := by
  rcases setMode_cases m c with e | e | e <;> rw [e]
  · rfl
  · refine (ringView_of_front (d := withMode .production c) ?_).trans rfl
    rw [front_resendUnsent, front_arbitrate]

theorem front_changeHold (k id f) (c : Chip) : front (changeHold k id f c).1 = front c := by
  have p (id f) : front (holdPallet id f c) = front c := by
    unfold holdPallet
    repeat' split
    all_goals simp
  have l (i b) : front (holdLot i b c) = front c :=
    (front_foldl (fun c x => front_evalDestination x c) _ _).trans (front_modLot ..)
  unfold changeHold
  repeat' first | split | dsimp only
  all_goals simp [p, l]

theorem ringView_openLot (n i) (c : Chip) : ringView (openLot n i c).1 = ringView c := by
  have k (d : Chip) (x) : ringView { d with lh := x } = ringView d := rfl
  unfold openLot
  repeat' first | split | dsimp only
  all_goals first | rfl | exact (k _ _).trans (ringView_of_front (front_drainLot ..))

end Sys2Proof.Machine
end

