-- ==== Sys2Proof/Laws/RestartSpecs.lean ====
section
/-! SUPPORT. What the entry into ISOLATED (R15, R197, R206), the recovery timer (R16), the refresh of unsent marks and the
shares of the blocks in a warm restart (R206) leave. -/

namespace Sys2Proof.Machine

set_option Elab.async false

/-! ## The part while ISOLATED -/

/-- RP takes no frame while ISOLATED (R15). -/
theorem rpOffer_isolated {f : OwnFrame} {c : Chip} (h : c.rp.ring = .isolated) : rpOffer f c = (c, .refused) := if_pos h

theorem rpHand_isolated {f : OwnFrame} {c : Chip} (h : c.rp.ring = .isolated) : rpHand f c = (c, false) := by
  unfold rpHand; rw [rpOffer_isolated h]

/-- An alert raised while ISOLATED changes the pending set, MA's last handing and STOP_N alone (R203, R204). -/
theorem raise_isolated {k : AlertKind} {t : SubjectType} {w : Word} {c : Chip} (h : c.rp.ring = .isolated) :
    ∃ stop pending last, raise k t w c = { c with
      pins := { c.pins with stopN := stop }, ma := { c.ma with pending := pending, lastHanding := last } } := by
  unfold raise
  split
  · unfold countAlert
    split
    · exact ⟨_, _, _, rfl⟩
    · exact ⟨_, _, _, rfl⟩
  · unfold handAlert
    have a : (addAlert k t w c).rp.ring = .isolated := h
    split
    next c1 q =>
      split at q
      · rw [rpOffer_isolated a] at q; simp at q
      · simp at q
    next c1 q =>
      split at q
      · rw [rpOffer_isolated a] at q
        simp only [Prod.mk.injEq] at q
        rw [← q.1]
        exact ⟨_, _, _, rfl⟩
      · simp only [Prod.mk.injEq] at q
        rw [← q.1]
        exact ⟨_, _, _, rfl⟩

/-- An alert that is raised is pending (R203). -/
theorem pending_raise {k : AlertKind} {t : SubjectType} {w : Word} {c : Chip} (h : c.rp.ring = .isolated)
    (l : c.ma.pending.length = 19) : (pendingAlert (raise k t w c) k).isSome = true := by
  have n : k.index < c.ma.pending.length := by rw [l]; cases k <;> decide
  unfold raise
  split
  · next a e =>
    simp only [countAlert, e]
    simp [pendingAlert, setAlert, evalStopN, List.getD_eq_getElem?_getD, n]
  · have a : (addAlert k t w c).rp.ring = .isolated := h
    have p : pendingAlert (addAlert k t w c) k =
        some { count := 1, subjectType := t, subject := w, line := c.clock.line, unsent := false } := by
      simp [pendingAlert, addAlert, setAlert, evalStopN, List.getD_eq_getElem?_getD, n]
    have m : k.index < (addAlert k t w c).ma.pending.length := by simpa [addAlert, setAlert, evalStopN] using n
    unfold handAlert
    rw [p]
    split
    next c1 q =>
      split at q
      · rw [rpOffer_isolated a] at q; simp at q
      · simp at q
    next c1 q =>
      split at q
      · rw [rpOffer_isolated a] at q
        simp only [Prod.mk.injEq] at q
        rw [← q.1]
        simp [pendingAlert, setAlert, evalStopN, List.getD_eq_getElem?_getD, m]
      · simp only [Prod.mk.injEq] at q
        rw [← q.1, p]; rfl

/-- The end of a request while ISOLATED: its answer is lost (R197, log entry 22). -/
theorem endRequest_isolated {r : Request} {st : Status} {ws : List Word} {c : Chip} (h : c.rp.ring = .isolated) :
    endRequest r st ws c = { c with ma := { c.ma with queue := c.ma.queue.tail, phase := .idle } } := by
  have e : handAnswer r st ws c = c := by
    unfold handAnswer
    induction List.range (partCount ws) with
    | nil => rfl
    | cons k l ih => rw [List.foldl_cons, rpHand_isolated h]; exact ih
  unfold endRequest
  rw [e]

/-- The grants while ISOLATED (R8, R152): they concern TM, and MA where a place read ends. -/
theorem settle_isolated {c : Chip} (h : c.rp.ring = .isolated) :
    ∃ tm queue phase, settle c = { c with tm := tm, ma := { c.ma with queue := queue, phase := phase } } ∧
      ((c.ma.phase ≠ .reading ∨ c.tm.readWaiting = none) → queue = c.ma.queue ∧ phase = c.ma.phase) := by
  have tx (d : Chip) (r : d.rp.ring = .isolated) : txGrant d = d := if_pos (.inl r)
  have work (d : Chip) : ∃ tm, grantWork d = { d with tm := tm } := by
    unfold grantWork; repeat' split
    all_goals exact ⟨_, rfl⟩
  have read (p : Nat) (d : Chip) (r : d.rp.ring = .isolated) : ∃ tm queue phase,
      grantRead p d = { d with tm := tm, ma := { d.ma with queue := queue, phase := phase } } ∧
        (d.ma.phase ≠ .reading → queue = d.ma.queue ∧ phase = d.ma.phase) := by
    unfold grantRead
    split
    · unfold answerRead
      dsimp only
      split
      · next e _ =>
        exact ⟨_, _, _, endRequest_isolated (c := { d with tm := { d.tm with readWaiting := none } }) r, fun n => absurd e n⟩
      · exact ⟨_, _, _, rfl, fun _ => ⟨rfl, rfl⟩⟩
    · exact ⟨_, _, _, rfl, fun _ => ⟨rfl, rfl⟩⟩
  have spi : ∃ tm queue phase, spiGrant c = { c with tm := tm, ma := { c.ma with queue := queue, phase := phase } } ∧
      ((c.ma.phase ≠ .reading ∨ c.tm.readWaiting = none) → queue = c.ma.queue ∧ phase = c.ma.phase) := by
    have same (d : Chip) (q : ∃ tm, d = { c with tm := tm }) : ∃ tm queue phase,
        d = { c with tm := tm, ma := { c.ma with queue := queue, phase := phase } } ∧
        ((c.ma.phase ≠ .reading ∨ c.tm.readWaiting = none) → queue = c.ma.queue ∧ phase = c.ma.phase) := by
      obtain ⟨tm, q⟩ := q
      exact ⟨tm, _, _, q, fun _ => ⟨rfl, rfl⟩⟩
    unfold spiGrant
    split
    · exact same _ ⟨_, rfl⟩
    · split
      · refine same _ ?_
        unfold grantRestart
        split <;> exact ⟨_, rfl⟩
      · split
        · next p e =>
          split
          · obtain ⟨tm, queue, phase, q, f⟩ := read p c h
            dsimp only
            split
            · exact ⟨tm, queue, phase, q, fun a => f (a.resolve_right (by simp [e]))⟩
            · obtain ⟨tm2, w⟩ := work (grantRead p c)
              rw [w, q]
              exact ⟨tm2, queue, phase, rfl, fun a => f (a.resolve_right (by simp [e]))⟩
          · obtain ⟨tm2, w⟩ := work c
            dsimp only
            split
            · exact same _ ⟨tm2, w⟩
            · rw [w]
              obtain ⟨tm, queue, phase, q, f⟩ := read p { c with tm := tm2 } h
              exact ⟨tm, queue, phase, q, fun a => f (a.resolve_right (by simp [e]))⟩
        · exact same _ (work c)
  unfold settle
  rw [tx c h]
  obtain ⟨tm, queue, phase, q, f⟩ := spi
  exact ⟨tm, queue, phase, by rw [q]; exact tx _ h, f⟩

/-! ## The entry into ISOLATED -/

/-- The entry into ISOLATED (R15), with LH's and TD's reports (R117, R176) and MA's queue and phase (R197, R206). -/
theorem spec_isolatedEntry :
    ∀ (c : Chip) (queue : List Request) (phase : MaPhase) (waits : ReportState → ReportState),
      (c.ma.phase = .reading → queue = c.ma.queue.take 1) → (c.ma.phase ≠ .reading → queue = []) →
      (c.ma.phase = .restartWait → phase = .restartReady) → (c.ma.phase ≠ .restartWait → phase = c.ma.phase) →
      waits .queued = .waiting → waits .waiting = .waiting → waits .none = .none →
      isolatedEntry c = raise .ringIsolated .none 0 { c with
        pins := { c.pins with rly := false }
        rp := { c.rp with ring := .isolated, txQueue := [], returnList := [], forward := [],
                          rx := c.rp.rx.map (fun r => { r with fwd := .notForwarded }), tx := none }
        ma := { c.ma with assembly := none, queue := queue, phase := phase }
        lh := { c.lh with lots := c.lh.lots.map fun l => l.map fun e => { e with report := waits e.report } }
        ba := { c.ba with pallets := c.ba.pallets.map fun p => { p with report := waits p.report } } } := by
  intro c queue phase waits h1 h2 h3 h4 w1 w2 w3
  have w : (fun r : ReportState => if r = .queued then .waiting else r) = waits := by
    funext r; cases r <;> simp [w1, w2, w3]
  have q : (if c.ma.phase = .reading then c.ma.queue.take 1 else []) = queue := by
    by_cases x : c.ma.phase = .reading
    · rw [if_pos x, h1 x]
    · rw [if_neg x, h2 x]
  have p : (if c.ma.phase = .restartWait then .restartReady else c.ma.phase) = phase := by
    by_cases x : c.ma.phase = .restartWait
    · rw [if_pos x, h3 x]
    · rw [if_neg x, h4 x]
  rw [← w, ← q, ← p]
  rfl

/-- BYP rises in a running part that is not ISOLATED (R15, R17). -/
theorem spec_bypAssert :
    ∀ s : State, s.chip.pins.running = true → s.chip.rp.ring ≠ .isolated → TablesSized s.chip →
      ∃ t, execBypAssert s = .next t ∧
        t.chip.pins.rly = false ∧ t.chip.rp.ring = .isolated ∧ t.chip.rp.txQueue = [] ∧ t.chip.rp.returnList = [] ∧
        t.chip.rp.forward = [] ∧ t.chip.rp.tx = none ∧
        t.chip.rp.rx = s.chip.rp.rx.map (fun r => { r with fwd := .notForwarded }) ∧ t.chip.rp.rxErr = s.chip.rp.rxErr ∧
        t.chip.rp.txErr = s.chip.rp.txErr ∧ t.chip.rp.recovery = s.chip.rp.recovery ∧
        t.chip.rp.overflow = s.chip.rp.overflow ∧ (pendingAlert t.chip .ringIsolated).isSome = true ∧
        (∀ l, some l ∈ t.chip.lh.lots → l.report ≠ .queued) ∧ (∀ p ∈ t.chip.ba.pallets, p.report ≠ .queued) ∧
        t.chip.ma.assembly = none ∧ (s.chip.ma.phase ≠ .reading → t.chip.ma.queue = []) ∧
        (s.chip.ma.phase = .reading → s.chip.tm.readWaiting = none →
          t.chip.ma.queue = s.chip.ma.queue.take 1 ∧ t.chip.ma.phase = .reading) ∧
        (s.chip.ma.phase = .restartWait → t.chip.ma.phase = .restartReady) := by
  intro s run ring sized
  obtain ⟨_, _, c⟩ := s
  dsimp only at run ring sized ⊢
  refine ⟨_, rfl, ?_⟩
  dsimp only
  unfold driveByp whileRunning
  rw [if_pos (by exact run)]
  have e : evalRing { c with pins := { c.pins with byp := true } } =
      isolatedEntry { c with pins := { c.pins with byp := true } } := by
    unfold evalRing
    have b : ringStateOf c.rp.txErr c.rp.rxErr true = .isolated := by simp [ringStateOf]
    dsimp only
    rw [b]
    cases x : c.rp.ring with
    | isolated => exact absurd x ring
    | active => rfl
    | passive => rfl
  rw [e]
  unfold isolatedEntry
  dsimp only
  set d := reportsWait
    { c with
      pins := { c.pins with byp := true, rly := false },
      rp := { c.rp with ring := .isolated, txQueue := [], returnList := [], forward := [],
                        rx := c.rp.rx.map fun r => { r with fwd := .notForwarded }, tx := none },
      ma := maIsolated c.ma } with hd
  have di : d.rp.ring = .isolated := rfl
  have size : d.ma.pending.length = 19 := by
    have : c.ma.pending.length = 19 := by
      have := sized
      simp only [TablesSized, tableSizes, List.cons.injEq] at this
      omega
    exact this
  have alert := pending_raise (k := .ringIsolated) (t := .none) (w := 0) di size
  obtain ⟨stop, pend, last, r⟩ := raise_isolated (k := .ringIsolated) (t := .none) (w := 0) di
  rw [r] at alert ⊢
  obtain ⟨tm, queue, phase, q, f⟩ := settle_isolated (c := { d with
    pins := { d.pins with stopN := stop }, ma := { d.ma with pending := pend, lastHanding := last } }) di
  rw [q]
  refine ⟨rfl, rfl, rfl, rfl, rfl, rfl, rfl, rfl, rfl, rfl, rfl, alert, ?_, ?_, rfl, ?_, ?_, ?_⟩
  · intro l hl
    obtain ⟨o, ho, e⟩ := List.mem_map.mp (show some l ∈ d.lh.lots from hl)
    cases o with
    | none => simp at e
    | some m =>
      simp only [Option.map_some, Option.some.injEq] at e
      rw [← e]
      dsimp only
      split
      · decide
      · assumption
  · intro p hp
    obtain ⟨o, ho, e⟩ := List.mem_map.mp (show p ∈ d.ba.pallets from hp)
    rw [← e]
    dsimp only
    split
    · decide
    · assumption
  · intro n
    have k : d.ma.phase ≠ .reading := by
      show (if c.ma.phase = .restartWait then MaPhase.restartReady else c.ma.phase) ≠ .reading
      split
      · decide
      · exact n
    exact (f (.inl k)).1.trans (if_neg n)
  · intro n w
    obtain ⟨a, b⟩ := f (.inr w)
    refine ⟨a.trans (if_pos n), b.trans ?_⟩
    show (if c.ma.phase = .restartWait then MaPhase.restartReady else c.ma.phase) = .reading
    rw [if_neg (by rw [n]; decide), n]
  · intro n
    have k : d.ma.phase = .restartReady := if_pos n
    exact (f (.inl (by show d.ma.phase ≠ _; rw [k]; decide))).2.trans k

/-! ## The recovery timer and the refresh of unsent marks -/

/-- The recovery timer completes where its interval is reached (R16, R201). -/
theorem spec_recover :
    ∀ c : Chip,
      (∀ t, c.rp.recovery = some t → reached c.clock.ms (t + BitVec.ofNat 32 (1000 * c.ma.config.recovery)) = true →
        recover c = setErrors 0 0 c) ∧
      ((∀ t, c.rp.recovery = some t → reached c.clock.ms (t + BitVec.ofNat 32 (1000 * c.ma.config.recovery)) = false) →
        recover c = c) := by
  intro c
  refine ⟨fun t h q => ?_, fun h => ?_⟩
  · exact if_pos (by simpa [recoveryDue, h] using q)
  · refine if_neg ?_
    cases e : c.rp.recovery with
    | none => simp [recoveryDue, e]
    | some t => simp [recoveryDue, e, h t e]

/-- A point that keeps its key keeps its unsent mark (R52, R55, log entry 17). -/
theorem spec_refreshUnsent :
    ∀ before c : Chip, refreshUnsent before c = (List.range 8).foldl (fun d n =>
      if (ownedPoint before n).map (·.1) = (ownedPoint d n).map (·.1) then d
      else { d with tc := { d.tc with unsent := d.tc.unsent.set n false } }) c := fun _ _ => rfl

/-! ## The warm restart -/

/-- Every block's share in a warm restart (R21, R39, R56, R77, R95, R108, R125, R148, R161, R179, R195, R206). -/
theorem spec_restartAll :
    ∀ c d : Chip, d = restartAll c →
      d.clock = c.clock ∧ d.pins = { c.pins with stopN := true } ∧ d.freeCount = c.freeCount ∧
      (c.rp.ring = .isolated → d.rp = { c.rp with txQueue := [], returnList := [] }) ∧
      (c.rp.ring ≠ .isolated → d.rp = { c.rp with
        txQueue := [], returnList := [], ring := .active, txErr := 0, rxErr := 0, recovery := none }) ∧
      d.rp.tx = c.rp.tx ∧ d.rp.rx = c.rp.rx ∧ d.rp.forward = c.rp.forward ∧ d.rp.epoch = c.rp.epoch ∧
      d.rp.epochPresent = c.rp.epochPresent ∧
      d.si.chans.map (·.cfg) = c.si.chans.map (·.cfg) ∧ (∀ k ∈ d.si.chans, k.dyn = IntakeDyn.clear) ∧
      d.si.zones = List.replicate 6 { temp := none, state := .stale } ∧
      d.tc.chans.map (·.cfg) = c.tc.chans.map (·.cfg) ∧ (∀ k ∈ d.tc.chans, k.dyn = TrackDyn.clear) ∧
      d.tc.unsent = List.replicate 8 false ∧ d.tc.positions = List.replicate 48 0 ∧ d.tc.nextToken = c.tc.nextToken ∧
      d.st = { c.st with qBlanch := [], qChill := [], qFreeze := [], qSurge := [], totalRef := none, gapSet := 0,
                         lastNominal := 0, stray := 0 } ∧
      d.de.zones = List.replicate 6
        { write := .none, state := .stale, creditTime := none, lastTemp := none, credits := 0, skipped := 0, gaps := 0,
          staleZones := 0 } ∧
      d.fv = { chillState := .stale, prevChill := none, exitState := .stale, window := [], lateChill := 0, warmChill := 0,
               underDwell := 0, noExit := 0, warmExit := 0, unapplied := 0 } ∧
      d.lh = { recipes := c.lh.recipes, lots := List.replicate 8 none, lastHanding := none } ∧
      d.ba = { slots := [none, none, none, none], pallets := [], nextPallet := c.ba.nextPallet, decisions := [],
               carried := List.replicate 8 0, keptMade := none, keptWeight := none, keptCode := none, keptMetal := none,
               lastOverrun := none, overruns := 0, lostRecords := 0, lotless := 0, orphans := 0, strayGate := 0,
               serial := 0 } ∧
      (∃ w, d.tm = { c.tm with places := List.replicate 1024 { state := .archived, fields := none }, marks := [],
                               writeQueue := [], holding := none, readWaiting := none, restart := some w } ∧
        w.writes = c.tm.writeQueue ∧ w.held = c.tm.holding ∧
        w.rewrites.map (·.1) = c.tm.marks.filter (fun p =>
          decide ((placeAt c p).state = .stored) && (placeAt c p).fields.isSome) ∧
        ∀ x ∈ w.rewrites, (placeAt c x.1).fields.map (·.hold) = some x.2) ∧
      d.tm.spi = c.tm.spi ∧ d.tm.pointer = c.tm.pointer ∧ d.tm.verifyFail = c.tm.verifyFail ∧
      d.tm.corrected = c.tm.corrected ∧ d.tm.uncorrectable = c.tm.uncorrectable ∧
      d.td.shuttles.map shuttleWords = c.td.shuttles.map shuttleWords ∧
      d.td.shuttles.map (·.written) = c.td.shuttles.map (·.written) ∧
      (∀ u ∈ d.td.shuttles, u.state = .offline ∧ u.enabled = false ∧ u.pallet = none ∧ u.deadline = none ∧ u.late = 0 ∧
        u.mismatch = 0 ∧ u.faults = 0) ∧
      d.td.dock = [] ∧ d.td.lost = 0 ∧ d.td.lastHanding = none ∧
      d.ag = { mode := .offline, guards := c.ag.guards, traps := [], trapCount := 0, shadows := [], unshadowed := 0,
               confirms := [], confOverflow := 0, faults := List.replicate 8 0 } ∧
      d.ma = { c.ma with pending := List.replicate 19 none, lastHanding := none, assembly := none,
                         phase := .restartRunning } := by
  intro c d h
  subst h
  have q : (restartAll c).rp = Rp.restart c.rp := rfl
  have r1 (e : c.rp.ring = .isolated) : Rp.restart c.rp = { c.rp with txQueue := [], returnList := [] } := if_pos e
  have r2 (e : c.rp.ring ≠ .isolated) : Rp.restart c.rp = { c.rp with
      txQueue := [], returnList := [], ring := .active, txErr := 0, rxErr := 0, recovery := none } := if_neg e
  have keep {α : Type} (f : Rp → α) (a : ∀ r : Rp, f { r with txQueue := [], returnList := [] } = f r)
      (b : ∀ r : Rp, f { r with txQueue := [], returnList := [], ring := .active, txErr := 0, rxErr := 0,
                                recovery := none } = f r) : f (Rp.restart c.rp) = f c.rp := by
    by_cases e : c.rp.ring = .isolated
    · rw [r1 e, a]
    · rw [r2 e, b]
  refine ⟨rfl, rfl, rfl, r1, r2, keep Rp.tx (fun _ => rfl) (fun _ => rfl), keep Rp.rx (fun _ => rfl) (fun _ => rfl),
    keep Rp.forward (fun _ => rfl) (fun _ => rfl), keep Rp.epoch (fun _ => rfl) (fun _ => rfl),
    keep Rp.epochPresent (fun _ => rfl) (fun _ => rfl), ?_, ?_, rfl, ?_, ?_, rfl, rfl, rfl, rfl, rfl, rfl, rfl, rfl,
    ⟨_, rfl, rfl, rfl, (markedRewrites_places c).1, (markedRewrites_places c).2⟩, rfl, rfl, rfl, rfl, rfl, ?_, ?_, ?_, rfl,
    rfl, rfl, rfl, rfl⟩
  · simp [restartAll, Si.restart, Function.comp_def]
  · intro k hk
    obtain ⟨m, _, e⟩ := List.mem_map.mp hk
    rw [← e]
  · simp [restartAll, Tc.restart, Function.comp_def]
  · intro k hk
    obtain ⟨m, _, e⟩ := List.mem_map.mp hk
    rw [← e]
  · simp [restartAll, Td.restart, Function.comp_def, shuttleWords, Shuttle.restart]
  · simp [restartAll, Td.restart, Function.comp_def, Shuttle.restart]
  · intro u hu
    obtain ⟨m, _, e⟩ := List.mem_map.mp hu
    rw [← e]
    exact ⟨rfl, rfl, rfl, rfl, rfl, rfl, rfl⟩

end Sys2Proof.Machine
end

