-- ==== Sys2Proof/Laws/SegmentSpecs.lean ====
section
/-! SUPPORT. What the operations on segments, zones and the freeze verifier do, case by case: one lemma for each clause of
the statements on cuts, belts, diverts, zones and freezer checks. -/

namespace Sys2Proof.Machine

/-- An id is taken as R59 and R140 say. -/
theorem freshId_at (used : List Nat) : ∀ (k n i : Nat), n < 65536 → i ≤ k →
    (∀ j, j < i → (n + j) % 65536 ∈ used) → (n + i) % 65536 ∉ used → freshId used k n = (n + i) % 65536
  | 0, n, i, hn, hi, _, _ => by
    obtain rfl : i = 0 := by omega
    simp [freshId, Nat.mod_eq_of_lt hn]
  | k + 1, n, 0, hn, _, _, h => by
    simp only [Nat.add_zero, Nat.mod_eq_of_lt hn] at h ⊢
    simp [freshId, h]
  | k + 1, n, i + 1, hn, hi, hb, h => by
    have h0 : n ∈ used := by simpa [Nat.mod_eq_of_lt hn] using hb 0 (by omega)
    have ih := freshId_at used k ((n + 1) % 65536) i (Nat.mod_lt _ (by omega)) (by omega)
      (fun j hj => by have := hb (j + 1) (by omega); rw [Nat.mod_add_mod]; rwa [show n + 1 + j = n + (j + 1) by omega])
      (by rw [Nat.mod_add_mod]; rwa [show n + 1 + i = n + (i + 1) by omega])
    rw [Nat.mod_add_mod] at ih
    simp only [freshId, List.contains_iff_mem, h0, if_true]
    rw [show n + (i + 1) = n + 1 + i by omega]
    simpa using ih

/-- The mass of a cut (R62). -/
theorem spec_cutMass :
    ∀ c : Chip,
      (∀ k v, findRole c .infeedMass = some k → k.dyn.fresh = .fresh → k.dyn.latest = some v →
        (∀ ref, c.st.totalRef = some ref →
          cutMass c = (((v.value - ref) % 4294967296).toNat, false, some v.value.toNat)) ∧
        (c.st.totalRef = none → cutMass c = (c.st.lastNominal, true, some v.value.toNat))) ∧
      ((∀ k, findRole c .infeedMass = some k → k.dyn.fresh ≠ .fresh) → cutMass c = (c.st.lastNominal, true, none)) := by
  intro c
  refine ⟨?_, ?_⟩
  · intro k v h1 h2 h3
    refine ⟨?_, ?_⟩
    · intro ref h; simp only [cutMass, h1, h2, h3, h]
    · intro h; simp only [cutMass, h1, h2, h3, h]
  · intro h
    cases hk : findRole c .infeedMass with
    | none => simp only [cutMass, hk]
    | some k =>
      have := h k hk
      cases hf : k.dyn.fresh <;> simp_all [cutMass]

/-- A cut (R63, R64). -/
theorem spec_cut :
    (∀ (n beyond mass : Nat) (estimated : Bool) (ref : Option Nat) (c d : Chip), cutMass c = (mass, estimated, ref) →
      d = { c with st := { c.st with totalRef := ref } } →
      (mass < c.st.blanch.void → cut n beyond c = d) ∧
      (c.st.blanch.void ≤ mass → openLot? c = none → cut n beyond c = raise .untracked .stage 0 d) ∧
      (∀ lot, c.st.blanch.void ≤ mass → openLot? c = some lot → 256 ≤ (liveSegments c.st).length →
        ∀ e, e = raiseNat .untracked .lot lot (reportLot lot (.untracked mass) d) →
        cut n beyond c = { e with st := { e.st with gapSet := e.st.gapSet ||| BitVec.ofNat 8 (2 ^ lot) } }) ∧
      (∀ lot, c.st.blanch.void ≤ mass → openLot? c = some lot → (liveSegments c.st).length < 256 →
        cut n beyond c = createSegment n lot mass estimated beyond d)) ∧
    (∀ (n lot mass beyond id : Nat) (estimated : Bool) (c d : Chip) (g : Segment),
      id = freshId ((liveSegments c.st).map (·.id)) 256 c.st.nextId →
      g = { id := id, lot := lot, head := some c.st.blanch.segLen, nominal := mass, remaining := mass,
            cutTime := c.clock.line, blanchExit := none, freezerEntry := none, freezerExit := none, zone := some 0,
            zoneEntry := some c.clock.line, credited := some c.clock.line, dose := 0,
            flags := { gap := false, aboveTable := false, overblanch := false, massEst := estimated }, warmChill := 0,
            warmest := none, disp := .pending,
            hold := (if c.ag.mode = .production then 0 else HoldReason.unverified.only) |||
              (if c.st.gapSet.getLsbD lot = true then HoldReason.untrackedGap.only else 0) } →
      d = { c with st := { c.st with
        qBlanch := c.st.qBlanch ++ [g], nextId := (id + 1) % 65536, lastNominal := mass,
        gapSet := c.st.gapSet &&& ~~~ BitVec.ofNat 8 (2 ^ lot) } } →
      createSegment n lot mass estimated beyond c = advanceSegment .blanch beyond (.sweeping n) id
        (zoneEntered 0 id (joinSilent .blanch id (reportLot lot (.segmentCreated mass) d)))) ∧
    ∀ (used : List Nat) (next i k : Nat), next < 65536 → i ≤ k → (∀ j, j < i → (next + j) % 65536 ∈ used) →
      (next + i) % 65536 ∉ used → freshId used k next = (next + i) % 65536 := by
  refine ⟨?_, ?_, fun u n i k a b e f => freshId_at u k n i a b e f⟩
  · intro n beyond mass estimated ref c d hm hd
    subst hd
    refine ⟨?_, ?_, ?_, ?_⟩
    · intro h; simp only [cut, hm, if_pos h]
    · intro h ho
      simp only [cut, hm, if_neg (Nat.not_lt.mpr h), ho]
    · intro lot h ho hf e he
      have : freeRecords c.st = 0 := by simp only [freeRecords]; omega
      subst he
      simp only [cut, hm, if_neg (Nat.not_lt.mpr h), ho]
      rw [if_pos (show freeRecords c.st = 0 from this)]
    · intro lot h ho hf
      have : ¬ freeRecords c.st = 0 := by simp only [freeRecords]; omega
      simp only [cut, hm, if_neg (Nat.not_lt.mpr h), ho]
      rw [if_neg (show ¬ freeRecords c.st = 0 from this)]
  · intro n lot mass beyond id estimated c d g hi hg hd
    have e : newSegment c id lot mass estimated = g := by
      rw [hg]
      simp only [newSegment, HoldSet.place]
      by_cases h : c.st.gapSet.getLsbD lot = true
      · simp only [h, if_true]
      · have h' : c.st.gapSet.getLsbD lot = false := by simpa using h
        simp only [h']
        simp
    subst hd
    simp only [createSegment, liveIds, ← hi, e, leaveGap]

/-- A delta reaches a belt (R66). -/
theorem spec_advanceStage :
    (∀ (b : Belt) (channel delta : Nat) (c : Chip),
      (c.st.blanch.written = true → c.st.chill.written = true → c.st.freeze.written = true → encoderOf c.st b = channel →
        advanceStage b channel delta c = ((queueOf c.st b.stage).map (·.id)).foldl
          (fun d id => advanceSegment b delta (.beforeSweep delta) id d) c) ∧
      ((c.st.blanch.written = false ∨ c.st.chill.written = false ∨ c.st.freeze.written = false ∨
        encoderOf c.st b ≠ channel) → advanceStage b channel delta c = c)) ∧
    ∀ (b : Belt) (delta id : Nat) (moment : Moment) (c : Chip),
      (segmentIn c b.stage id = none → advanceSegment b delta moment id c = c) ∧
      ∀ g before after d, segmentIn c b.stage id = some g → before = g.head.getD 0 → after = before + delta →
        d = crossAll b id moment before after (modSegment id (fun s => { s with head := some after }) c) →
        (stageLength c.st b ≤ after → advanceSegment b delta moment id c = stageEnd b id d) ∧
        (after < stageLength c.st b → advanceSegment b delta moment id c = d) := by
  refine ⟨?_, ?_⟩
  · intro b channel delta c
    refine ⟨?_, ?_⟩
    · intro h1 h2 h3 h4
      simp only [advanceStage, geometryValid, h1, h2, h3, h4, Bool.and_self, and_self, if_true]
    · intro h
      have : ¬ (geometryValid c.st = true ∧ encoderOf c.st b = channel) := by
        simp only [geometryValid, Bool.and_eq_true]
        rintro ⟨⟨⟨a, b⟩, d⟩, e⟩
        simp_all
      simp only [advanceStage, if_neg this]
  · intro b delta id moment c
    refine ⟨?_, ?_⟩
    · intro h; simp only [advanceSegment, h]
    · intro g before after d hg hb ha hd
      subst hb ha
      refine ⟨?_, ?_⟩
      · intro h; simp only [advanceSegment, hg, ← hd, if_pos h]
      · intro h; simp only [advanceSegment, hg, ← hd, if_neg (Nat.not_le.mpr h)]

/-- The crossings of a step (R66, R67, R102). -/
theorem spec_crossings :
    ∀ (id before after : Nat) (moment : Moment) (c : Chip),
      crossAll .chill id moment before after c = c ∧
      (∀ d, d = (List.range 6).foldl (fun d z =>
          if 0 < z ∧ z < c.st.blanch.zones ∧ before < c.st.blanch.zoneStarts.getD (z - 1) 0 ∧
            c.st.blanch.zoneStarts.getD (z - 1) 0 ≤ after
          then zoneEntered z id (modSegment id (fun s => { s with
            zone := some z, zoneEntry := some d.clock.line, credited := some d.clock.line }) d)
          else d) c →
        crossAll .blanch id moment before after c =
          if before < c.st.blanch.decision ∧ c.st.blanch.decision ≤ after
          then decideSegment .blanch id moment (after - c.st.blanch.decision) d else d) ∧
      (∀ d e, d = (if before < c.st.freeze.winStart ∧ c.st.freeze.winStart ≤ after then enterWindow id c else c) →
        e = (if before ≤ c.st.freeze.winEnd ∧ c.st.freeze.winEnd < after then leaveWindow id d else d) →
        crossAll .freeze id moment before after c =
          if before < c.st.freeze.decision ∧ c.st.freeze.decision ≤ after
          then decideSegment .freeze id moment (after - c.st.freeze.decision) e else e) ∧
      enterWindow id c = { c with fv := { c.fv with
        window := if id ∈ c.fv.window then c.fv.window else c.fv.window ++ [id] } } ∧
      leaveWindow id c = { c with fv := { c.fv with window := c.fv.window.filter (fun x => decide (x ≠ id)) } } := by
  intro id before after moment c
  refine ⟨rfl, ?_, ?_, ?_, rfl⟩
  · intro d hd
    have e : crossZones id before after c = d := by
      rw [hd, crossZones]
      congr 1
      funext x z
      simp only [crosses, enterZone, Bool.and_eq_true, decide_eq_true_eq]
    simp only [crossAll, e, crosses, Bool.and_eq_true, decide_eq_true_eq]
  · intro d e hd he
    subst hd he
    simp only [crossAll, crosses, Bool.and_eq_true, decide_eq_true_eq]
  · simp only [enterWindow, modFv, List.contains_iff_mem]

/-- Stage ends (R71, R72, R74, R73). -/
theorem spec_stageEnds :
    ∀ (id : Nat) (c : Chip),
      (∀ (g h : Segment), h = (if g.disp = .diverting
          then { g with disp := .pass, hold := g.hold ||| HoldReason.gateUnconfirmed.only } else g) →
        (∀ d, d = checkOverblanch id c → segmentIn d .blanch id = some g →
          stageEnd .blanch id c = chillArrival id (joinSilent .chill id (joinQueue .chill
            { h with head := some d.st.chill.entry, blanchExit := some c.clock.line, zone := none, zoneEntry := none,
                     credited := none }
            (removeSegment id d)))) ∧
        (segmentIn c .chill id = some g →
          stageEnd .chill id c = checkChillWindow id (joinSilent .freeze id (joinQueue .freeze
            { h with head := some c.st.freeze.entry, freezerEntry := some c.clock.line } (removeSegment id c)))) ∧
        (segmentIn c .freeze id = some g → ∀ d, d = checkDwell id (leaveWindow id (joinQueue .surge
            { h with head := none, freezerExit := some c.clock.line } (removeSegment id c))) →
          ∀ s, segmentAt d id = some s →
          (s.remaining = 0 → stageEnd .freeze id c = freeSegment id false d) ∧
          (s.remaining ≠ 0 → stageEnd .freeze id c = d))) ∧
      (∀ b, (encoderHeld c b = true ↔ (intakeChan c (encoderOf c.st b)).cfg.enabled = true ∧
          (intakeChan c (encoderOf c.st b)).cfg.role = some (.encoder (some b)) ∧
          (intakeChan c (encoderOf c.st b)).dyn.fresh = .staleHeld) ∧
        (encoderHeld c b = true → joinSilent b id c =
          modSegment id (fun s => { s with hold := s.hold ||| HoldReason.untrackedGap.only }) c) ∧
        (encoderHeld c b = false → joinSilent b id c = c)) := by
  intro id c
  refine ⟨?_, ?_⟩
  · intro g h hh
    subst hh
    refine ⟨?_, ?_, ?_⟩
    · intro d hd hg
      simp only [stageEnd, if_true, ← hd]
      rw [show segmentIn d Belt.blanch.stage id = some g from hg]
      rfl
    · intro hg
      simp only [stageEnd, if_neg (show ¬ Belt.chill = Belt.blanch by decide)]
      rw [show segmentIn c Belt.chill.stage id = some g from hg]
      rfl
    · intro hg d hd s hs
      have e : stageEnd .freeze id c = surgeArrival id d := by
        simp only [stageEnd, if_neg (show ¬ Belt.freeze = Belt.blanch by decide)]
        rw [show segmentIn c Belt.freeze.stage id = some g from hg, hd]
        rfl
      simp only [e, surgeArrival, hs]
      exact ⟨fun h => if_pos h, fun h => if_neg h⟩
  · intro b
    refine ⟨?_, ?_, ?_⟩
    · simp only [encoderHeld, Bool.and_eq_true, beq_iff_eq, and_assoc]
    · intro h; simp only [joinSilent, h, if_true]; rfl
    · intro h; simp [joinSilent, h]

/-- A segment joins a queue, leaves the queues, and leaves the pool (R59, R102, R112). -/
theorem spec_segmentPool :
    ∀ (id : Nat) (g : Segment) (c : Chip),
      joinQueue .chill g c = { c with st := { c.st with qChill := c.st.qChill ++ [g] } } ∧
      joinQueue .freeze g c = { c with st := { c.st with qFreeze := c.st.qFreeze ++ [g] } } ∧
      joinQueue .surge g c = { c with st := { c.st with qSurge := c.st.qSurge ++ [g] } } ∧
      (∀ keep : Segment → Bool, (∀ x, keep x = true ↔ x.id ≠ id) → removeSegment id c = { c with st := { c.st with
        qBlanch := c.st.qBlanch.filter keep, qChill := c.st.qChill.filter keep, qFreeze := c.st.qFreeze.filter keep,
        qSurge := c.st.qSurge.filter keep } }) ∧
      (segmentAt c id = none → freeSegment id false c = c) ∧
      (segmentAt c id = some g → freeSegment id false c =
        reportLot g.lot .segmentDrawn (leaveWindow id (removeSegment id c))) := by
  intro id g c
  refine ⟨rfl, rfl, rfl, ?_, ?_, ?_⟩
  · intro keep h
    obtain rfl : (fun s : Segment => decide (s.id ≠ id)) = keep := by
      funext x; rw [Bool.eq_iff_iff, h]; simp
    rfl
  · intro h; simp only [freeSegment, h]
  · intro h; simp [freeSegment, h]

/-- A decision and a divert (R69, R44). -/
theorem spec_diverts :
    (∀ (b : Belt) (gate id overshoot : Nat) (moment : Moment) (c : Chip) (st : Start) (c0 missed : Chip) (serves : Prop),
      c0 = modSegment id (fun s => { s with disp := .divert }) c →
      st = { point := decisionPoint c gate moment overshoot, served := some (.segment id) } →
      (serves ↔ ((trackChan c gate).cfg.mode = .delay ∨ (trackChan c gate).cfg.mode = .gate) ∧
        (trackChan c gate).cfg.trigger = .segmentDecision b ∧
        ((trackChan c gate).cfg.source = .encoder (encoderOf c.st b) ∨ (trackChan c gate).cfg.source = .milliseconds)) →
      (∀ d, serves → enterStart gate st c0 = (d, true) →
        divertSegment b gate id moment overshoot c = settleStart (sweepLimit c gate moment) gate st.point
          (modSegment id (fun s => { s with disp := .diverting }) d)) ∧
      (∀ d, (serves → enterStart gate st c0 = (d, false)) → (¬ serves → d = modTrack gate (fun k => { k with
        refused := min (k.refused + 1) 65535 }) c0) →
        missed = modSegment id (fun s => { s with disp := .pass, hold := s.hold ||| HoldReason.divertMissed.only }) d →
        divertSegment b gate id moment overshoot c = raiseNat .divertMissed .segment id missed)) ∧
    (∀ (c : Chip) (n overshoot : Nat) (moment : Moment),
      ((trackChan c n).cfg.source = .milliseconds → decisionPoint c n moment overshoot = c.clock.ms) ∧
      (∀ e delta, (trackChan c n).cfg.source = .encoder e → moment = .beforeSweep delta →
        decisionPoint c n moment overshoot =
          c.tc.positions.getD e 0 + BitVec.ofNat 32 delta - BitVec.ofNat 32 overshoot) ∧
      (∀ e m, (trackChan c n).cfg.source = .encoder e → moment = .sweeping m →
        decisionPoint c n moment overshoot = c.tc.positions.getD e 0 - BitVec.ofNat 32 overshoot)) ∧
    ∀ (id overshoot : Nat) (moment : Moment) (c : Chip) (g : Segment), segmentAt c id = some g →
      (blanchVerdict c g = true → decideSegment .blanch id moment overshoot c =
        modSegment id (fun s => { s with disp := .pass }) (checkOverblanch id c)) ∧
      (blanchVerdict c g = false → decideSegment .blanch id moment overshoot c =
        divertSegment .blanch c.st.blanch.gate id moment overshoot (checkOverblanch id c)) ∧
      (∀ d, freezeVerdict g c = (d, true) → decideSegment .freeze id moment overshoot c =
        modSegment id (fun s => { s with disp := .pass }) d) ∧
      (∀ d, freezeVerdict g c = (d, false) → decideSegment .freeze id moment overshoot c =
        divertSegment .freeze c.st.freeze.gate id moment overshoot d) ∧
      ((recipeOfLot c g.lot).maximum * 4096 < g.dose → g.flags.overblanch = false → checkOverblanch id c =
        reportLot g.lot .overblanched
          (modSegment id (fun s => { s with flags := { s.flags with overblanch := true } }) c)) ∧
      ((g.dose ≤ (recipeOfLot c g.lot).maximum * 4096 ∨ g.flags.overblanch = true) → checkOverblanch id c = c) := by
  refine ⟨?_, ?_, ?_⟩
  · intro b gate id overshoot moment c st c0 missed serves h0 hst hs
    subst h0 hst
    have e : servesDecision c b gate = true ↔ serves := by
      rw [hs]; simp [servesDecision, and_assoc]
    refine ⟨?_, ?_⟩
    · intro d h he
      have := e.2 h
      simp only [divertSegment, this, if_true, he]
    · intro d h1 h2 hm
      subst hm
      by_cases h : serves
      · have := e.2 h
        simp only [divertSegment, this, if_true, h1 h]; rfl
      · have : servesDecision c b gate = false := by simpa [← e] using h
        rw [h2 h]
        simp only [divertSegment, this]; rfl
  · intro c n overshoot moment
    refine ⟨?_, ?_, ?_⟩
    · intro h; simp only [decisionPoint, h]
    · rintro e delta h rfl; simp only [decisionPoint, h, Moment.ahead, sourcePos]
    · rintro e m h rfl; simp only [decisionPoint, h, Moment.ahead, sourcePos]; simp
  · intro id overshoot moment c g hg
    refine ⟨?_, ?_, ?_, ?_, ?_, ?_⟩
    · intro h; simp only [decideSegment, hg, h, if_true]
    · intro h; simp [decideSegment, hg, h]
    · intro d h; simp only [decideSegment, hg, h]
    · intro d h; simp only [decideSegment, hg, h]
    · intro h1 h2; simp [checkOverblanch, hg, h1, h2]
    · intro h
      have : ¬ ((recipeOfLot c g.lot).maximum * 4096 < g.dose ∧ ¬ g.flags.overblanch = true) := by
        rintro ⟨a, b⟩; rcases h with h | h
        · omega
        · exact b h
      simp only [checkOverblanch, hg, if_neg this]

/-- The outcome of a divert (R70). -/
theorem spec_divertOutcome :
    ∀ (id : Nat) (r : Report) (c : Chip),
      ((∀ g, segmentAt c id = some g → g.disp ≠ .diverting) →
        segmentOutcome id r c = { c with st := { c.st with stray := min (c.st.stray + 1) 65535 } }) ∧
      ∀ g, segmentAt c id = some g → g.disp = .diverting →
        segmentOutcome id .confirmed c = reportLot g.lot (.divertConfirmed g.remaining)
          (leaveWindow id (removeSegment id c)) ∧
        segmentOutcome id .failed c = modSegment id (fun s => { s with
          disp := .pass, hold := s.hold ||| HoldReason.gateUnconfirmed.only }) c ∧
        segmentOutcome id .notSent c = modSegment id (fun s => { s with
          disp := .pass, hold := s.hold ||| HoldReason.unverified.only }) c ∧
        segmentOutcome id .refused c = raiseNat .divertMissed .segment id (modSegment id (fun s => { s with
          disp := .pass, hold := s.hold ||| HoldReason.divertMissed.only }) c) := by
  intro id r c
  refine ⟨?_, ?_⟩
  · intro h
    cases hg : segmentAt c id with
    | none => simp only [segmentOutcome, hg, inc16]
    | some g => simp only [segmentOutcome, hg, if_neg (h g hg), inc16]
  · intro g hg hd
    refine ⟨?_, ?_, ?_, ?_⟩ <;> simp only [segmentOutcome, hg, hd, if_true] <;> try rfl
    simp only [freeSegment, hg, if_true]

/-- The freezer checks (R98, R106) and a placed reason that is counted where it is new (R97). -/
theorem spec_freezerChecks :
    ∀ (id : Nat) (c : Chip) (g : Segment), segmentAt c id = some g →
      (∀ late, late = g.freezerEntry.getD 0 - g.blanchExit.getD 0 →
        ((recipeOfLot c g.lot).chillWindow < late → g.hold.has .lateChill = false → checkChillWindow id c =
          modFv (fun f => { f with lateChill := min (f.lateChill + 1) 65535 })
            (modSegment id (fun s => { s with hold := s.hold ||| HoldReason.lateChill.only }) c)) ∧
        ((late ≤ (recipeOfLot c g.lot).chillWindow ∨ g.hold.has .lateChill = true) → checkChillWindow id c = c)) ∧
      ∀ dwell, dwell = g.freezerExit.getD 0 - g.freezerEntry.getD 0 →
        (dwell < (recipeOfLot c g.lot).dwell → g.hold.has .underDwell = false → checkDwell id c =
          modFv (fun f => { f with underDwell := min (f.underDwell + 1) 65535 })
            (modSegment id (fun s => { s with hold := s.hold ||| HoldReason.underDwell.only }) c)) ∧
        (((recipeOfLot c g.lot).dwell ≤ dwell ∨ g.hold.has .underDwell = true) → checkDwell id c = c) := by
  intro id c g hg
  refine ⟨?_, ?_⟩
  · intro late hl
    subst hl
    refine ⟨?_, ?_⟩
    · intro h1 h2
      simp only [checkChillWindow, hg, if_pos h1, holdCounted, h2]
      rfl
    · rintro (h | h)
      · simp only [checkChillWindow, hg, if_neg (Nat.not_lt.mpr h)]
      · simp only [checkChillWindow, hg, holdCounted, h, if_true, ite_self]
  · intro dwell hl
    subst hl
    refine ⟨?_, ?_⟩
    · intro h1 h2
      simp only [checkDwell, hg, if_pos h1, holdCounted, h2]
      rfl
    · rintro (h | h)
      · simp only [checkDwell, hg, if_neg (Nat.not_lt.mpr h)]
      · simp only [checkDwell, hg, holdCounted, h, if_true, ite_self]

/-- Warm chill (R99 to R101) and exit temperatures (R103). -/
theorem spec_freezerItems :
    (∀ (v : Int) (c : Chip),
      (c.fv.prevChill = none → chillItem v c = modFv (fun f => { f with prevChill := some (v, c.clock.line) }) c) ∧
      ∀ p t, c.fv.prevChill = some (p, t) → chillItem v c =
        modFv (fun f => { f with prevChill := some (v, c.clock.line) })
          ((c.st.qChill.map (·.id)).foldl (fun d id => chargeWarm v p (min (c.clock.line - t) 50) id d) c)) ∧
    (∀ (v p : Int) (interval id : Nat) (c : Chip) (g : Segment) (r : Recipe) (warm : Nat) (d : Chip),
      segmentIn c .chill id = some g → r = recipeOfLot c g.lot → warm = min (g.warmChill + interval) 65535 →
      d = modSegment id (fun s => { s with warmChill := warm }) c →
      ((v ≤ r.chillLimit ∨ p ≤ r.chillLimit) → chargeWarm v p interval id c = c) ∧
      (r.chillLimit < v → r.chillLimit < p → warm ≤ r.warmAllowance → chargeWarm v p interval id c = d) ∧
      (r.chillLimit < v → r.chillLimit < p → r.warmAllowance < warm → chargeWarm v p interval id c = holdWarmChill id d)) ∧
    (∀ (id : Nat) (c : Chip) (g : Segment), segmentAt c id = some g →
      (g.hold.has .warmChill = true → holdWarmChill id c = c) ∧
      (g.hold.has .warmChill = false → holdWarmChill id c =
        modFv (fun f => { f with warmChill := min (f.warmChill + 1) 65535 })
          (modSegment id (fun s => { s with hold := s.hold ||| HoldReason.warmChill.only }) c))) ∧
    ∀ (v : Int) (c : Chip),
      (c.fv.window = [] → exitItem v c = modFv (fun f => { f with unapplied := min (f.unapplied + 1) 65535 }) c) ∧
      (c.fv.window ≠ [] → exitItem v c = c.fv.window.foldl (fun d id => modSegment id (fun s => { s with
        warmest := some (match s.warmest with | some w => max w v | none => v) }) d) c) := by
  refine ⟨?_, ?_, ?_, ?_⟩
  · intro v c
    refine ⟨?_, ?_⟩
    · intro h; simp only [chillItem, h]
    · intro p t h; simp only [chillItem, h]
  · intro v p interval id c g r warm d hg hr hw hd
    subst hr hw hd
    refine ⟨?_, ?_, ?_⟩
    · intro h
      have : ¬ ((recipeOfLot c g.lot).chillLimit < v ∧ (recipeOfLot c g.lot).chillLimit < p) := by
        rintro ⟨a, b⟩; rcases h with h | h <;> omega
      simp only [chargeWarm, hg, if_neg this]
    · intro a b h; simp only [chargeWarm, hg, a, b, and_self, if_true, if_neg (Nat.not_lt.mpr h)]
    · intro a b h; simp only [chargeWarm, hg, a, b, and_self, if_true, if_pos h]
  · intro id c g hg
    refine ⟨?_, ?_⟩
    · intro h; simp only [holdWarmChill, holdCounted, hg, h, if_true]
    · intro h; simp only [holdWarmChill, holdCounted, hg, h]; rfl
  · intro v c
    refine ⟨?_, ?_⟩
    · intro h; simp [exitItem, h, inc16]
    · intro h
      have : c.fv.window.isEmpty = false := by simpa using h
      simp only [exitItem, this]; rfl

/-- The least of a list, as the freezer limit keeps it. -/
theorem foldl_least (l : List Nat) : ∀ b : Option Nat, ∀ m,
    l.foldl (fun best n => match best with | none => some n | some b => some (min b n)) b = some m ↔
      m ∈ b.toList ++ l ∧ ∀ n ∈ b.toList ++ l, m ≤ n := by
  induction l with
  | nil => intro b m; cases b <;> simp; constructor
           · rintro rfl; exact ⟨rfl, le_rfl⟩
           · rintro ⟨h, _⟩; exact h.symm
  | cons a l ih =>
    intro b m
    rw [List.foldl_cons, ih]
    cases b with
    | none => simp
    | some x =>
      simp only [Option.toList_some, List.singleton_append, List.mem_cons, forall_eq_or_imp]
      constructor
      · rintro ⟨h1, h2, h3⟩
        refine ⟨?_, by omega, by omega, h3⟩
        rcases h1 with h | h
        · omega
        · exact Or.inr (Or.inr h)
      · rintro ⟨h1, h2, h3, h4⟩
        refine ⟨?_, by omega, h4⟩
        rcases h1 with h | h | h
        · left; omega
        · left; omega
        · exact Or.inr h

/-- The freezer speed limit (R107). -/
theorem spec_freezerLimit :
    ∀ (c : Chip) (limits : List Nat),
      limits = (c.st.qFreeze.map (·.lot) ++ (openLot? c).toList).map (fun lot =>
        min ((c.st.freeze.length - c.st.freeze.entry) * 100 / (recipeOfLot c lot).dwell) 2147483647) →
      ((c.st.blanch.written = false ∨ c.st.chill.written = false ∨ c.st.freeze.written = false) →
        freezerLimit c = none) ∧
      (c.st.blanch.written = true → c.st.chill.written = true → c.st.freeze.written = true →
        (limits = [] → freezerLimit c = none) ∧
        ∀ m, freezerLimit c = some m ↔ m ∈ limits ∧ ∀ n ∈ limits, m ≤ n) := by
  intro c limits hl
  refine ⟨?_, ?_⟩
  · intro h
    have : geometryValid c.st = false := by
      simp only [geometryValid]
      rcases h with h | h | h <;> simp [h]
    simp [freezerLimit, this]
  · intro a b d
    have e : freezerLimit c =
        limits.foldl (fun best n => match best with | none => some n | some b => some (min b n)) none := by
      simp only [freezerLimit, geometryValid, a, b, d, Bool.and_self, if_true, hl, recipeLimit] <;> rfl
    refine ⟨?_, ?_⟩
    · intro h; rw [e, h]; rfl
    · intro m; rw [e, foldl_least]; simp

/-- Zone updates (R81, R82) and the entry of a zone (R86). -/
theorem spec_zoneUpdates :
    (∀ (z : Nat) (before : Option Int) (after : Int) (c : Chip) (ids : List Nat),
      ids = (c.st.qBlanch.filter (fun g => g.zone == some z)).map (·.id) →
      ((before = none ∨ (c.de.zones.getD z .clear).write ≠ .none) →
        zoneUpdate z before after c = modDose z (fun d => { d with
            write := .none, creditTime := some c.clock.line, skipped := min (d.skipped + 1) 65535 })
          (ids.foldl (fun d id => modSegment id (fun s => { s with credited := some c.clock.line }) d) c)) ∧
      ∀ x temp, before = some x → (c.de.zones.getD z .clear).write = .none → temp = min x after →
        zoneUpdate z before after c = modDose z (fun d => { d with
            write := .none, creditTime := some c.clock.line, lastTemp := some temp, credits := (d.credits + 1) % 65536 })
          (ids.foldl (fun d id => creditSegment z temp (c.de.zones.getD z .clear).creditTime id d) c)) ∧
    ∀ (z id : Nat) (c : Chip),
      ((c.de.zones.getD z .clear).state = .staleHeld → zoneEntered z id c =
        modDose z (fun d => { d with staleZones := min (d.staleZones + 1) 65535 })
          (modSegment id (fun s => { s with hold := s.hold ||| HoldReason.staleZone.only }) c)) ∧
      ((c.de.zones.getD z .clear).state ≠ .staleHeld → zoneEntered z id c = c) := by
  refine ⟨?_, ?_⟩
  · intro z before after c ids hi
    subst hi
    refine ⟨fun h => ?_, ?_⟩
    · have e : doseBefore z before c = none := by
        unfold doseBefore doseZone
        rcases h with rfl | h
        · split <;> rfl
        · exact if_neg h
      simp only [zoneUpdate, e]
      rfl
    · rintro x temp rfl hw rfl
      have e : doseBefore z (some x) c = some x := if_pos hw
      simp only [zoneUpdate, e]
      rfl
  · intro z id c
    refine ⟨?_, ?_⟩
    · intro h; simp only [zoneEntered, doseZone, h, if_true]; rfl
    · intro h; exact if_neg h

/-- The derivation of a zone (R34) and the taking of a ZONE-TEMP item (R34 to R36). -/
theorem spec_zones :
    (∀ (z : Nat) (chans : List IntakeChan) (serve : List IntakeChan),
      serve = chans.filter (fun k => k.cfg.enabled && k.cfg.role == some (.zoneTemp z) && k.dyn.latest.isSome) →
      (serve = [] → servingZone chans z = { temp := none, state := .stale }) ∧
      (∀ a, serve = [a] → servingZone chans z =
        { state := a.dyn.fresh, temp := if a.dyn.fresh = .fresh then a.dyn.latest.map (·.value) else none }) ∧
      ∀ a b va vb rest, serve = a :: b :: rest → a.dyn.latest = some va → b.dyn.latest = some vb →
        (a.dyn.fresh = .fresh → b.dyn.fresh = .fresh →
          servingZone chans z = { state := .fresh, temp := some (min va.value vb.value) }) ∧
        (a.dyn.fresh = .fresh → b.dyn.fresh ≠ .fresh → servingZone chans z = { state := .fresh, temp := some va.value }) ∧
        (a.dyn.fresh ≠ .fresh → b.dyn.fresh = .fresh → servingZone chans z = { state := .fresh, temp := some vb.value }) ∧
        (a.dyn.fresh = .staleHeld → b.dyn.fresh = .staleHeld →
          servingZone chans z = { state := .staleHeld, temp := none }) ∧
        (a.dyn.fresh ≠ .fresh → b.dyn.fresh ≠ .fresh → (a.dyn.fresh = .stale ∨ b.dyn.fresh = .stale) →
          servingZone chans z = { state := .stale, temp := none })) ∧
    (∀ (z : Nat) (c d : Chip) (new : Zone), new = servingZone c.si.chans z →
      d = { c with si := { c.si with zones := c.si.zones.set z new } } →
      (new.state = (c.si.zones.getD z .clear).state → rederiveZone z c = d) ∧
      (new.state ≠ (c.si.zones.getD z .clear).state → rederiveZone z c = tellZone z new.state d)) ∧
    ∀ (z i : Nat) (before : Option Int) (c d : Chip), d = rederiveZone z c →
      ((d.si.zones.getD z .clear).temp = none → zoneItem z i before c = checkSplit z i d) ∧
      ∀ after, (d.si.zones.getD z .clear).temp = some after →
        zoneItem z i before c = checkSplit z i (zoneUpdate z before after d) := by
  refine ⟨?_, ?_, ?_⟩
  · intro z chans serve hs
    refine ⟨?_, ?_, ?_⟩
    · intro h; simp only [servingZone, servesZone, ← hs, h]; rfl
    · intro a h; simp only [servingZone, servesZone, ← hs, h, freshValue]
    · intro a b va vb rest h ha hb
      have p : servingZone chans z = pairZone a.dyn b.dyn := by simp only [servingZone, servesZone, ← hs, h]
      rw [p]
      clear p h hs
      refine ⟨?_, ?_, ?_, ?_, ?_⟩
      · intro x y; simp only [pairZone, x, y, freshValue, if_true, ha, hb]; rfl
      · intro x y; cases e : b.dyn.fresh <;> simp_all [pairZone, freshValue]
      · intro x y; cases e : a.dyn.fresh <;> simp_all [pairZone, freshValue]
      · intro x y; simp only [pairZone, x, y]
      · intro x y q
        cases e : a.dyn.fresh <;> cases f : b.dyn.fresh <;> simp_all [pairZone]
  · intro z c d new hn hd
    subst hd hn
    refine ⟨?_, ?_⟩
    · intro h; exact if_pos h
    · intro h; exact if_neg h
  · intro z i before c d hd
    subst hd
    refine ⟨?_, ?_⟩
    · intro h; simp only [zoneItem, zoneAt, h]
    · intro after h; simp only [zoneItem, zoneAt, h]

/-- DE's records of the zones after a write of the channel map (R81, R93). -/
theorem spec_doseZonesAfter (written : List Nat) (before after : List IntakeChan) (marks : List DoseZone) (z : Nat)
    (m : DoseZone) (h : marks[z]? = some m) :
    (doseZonesAfter written before after marks).length = marks.length ∧
    ∀ touched : Prop,
      (touched ↔ ∃ i ∈ written, ∃ k, (k = before.getD i .power ∨ k = after.getD i .power) ∧ k.cfg.enabled = true ∧
        k.cfg.role = some (.zoneTemp z)) →
      (¬ touched → (doseZonesAfter written before after marks)[z]? = some m) ∧
      (touched → (servingZone after z).state = .fresh →
        (doseZonesAfter written before after marks)[z]? = some { m with write := .written }) ∧
      (touched → (servingZone after z).state ≠ .fresh → (m.state = .fresh ∨ m.write = .silenced) →
        (doseZonesAfter written before after marks)[z]? = some { m with write := .silenced }) ∧
      (touched → (servingZone after z).state ≠ .fresh → m.state ≠ .fresh → m.write ≠ .silenced →
        (doseZonesAfter written before after marks)[z]? = some { m with write := .written }) := by
  refine ⟨List.length_mapIdx, ?_⟩
  intro touched ht
  have e : (written.any fun i => servesZone z (before.getD i .power).cfg || servesZone z (after.getD i .power).cfg) =
      true ↔ touched := by
    rw [ht, List.any_eq_true]
    simp only [servesZone, Bool.or_eq_true, Bool.and_eq_true, beq_iff_eq]
    constructor
    · rintro ⟨i, hi, h | h⟩
      · exact ⟨i, hi, _, .inl rfl, h.1, h.2⟩
      · exact ⟨i, hi, _, .inr rfl, h.1, h.2⟩
    · rintro ⟨i, hi, k, rfl | rfl, a, b⟩
      · exact ⟨i, hi, .inl ⟨a, b⟩⟩
      · exact ⟨i, hi, .inr ⟨a, b⟩⟩
  simp only [doseZonesAfter, List.getElem?_mapIdx, h, Option.map_some]
  refine ⟨?_, ?_, ?_, ?_⟩
  · intro t; rw [if_neg (fun q => t (e.mp q))]
  · intro t f; rw [if_pos (e.mpr t), zoneWritten, if_neg (by simp [f])]
  · intro t f s; rw [if_pos (e.mpr t), zoneWritten, if_pos ⟨decide_eq_false f, s⟩]
  · intro t f a b; rw [if_pos (e.mpr t), zoneWritten, if_neg (fun q => q.2.elim a b)]

/-- DE's records after a write, known by their length and by what each zone's becomes. -/
theorem eq_doseZonesAfter {written : List Nat} {before after : List IntakeChan} {marks zones : List DoseZone}
    (hl : zones.length = marks.length)
    (h : ∀ z m, marks[z]? = some m → ∀ touched : Prop,
      (touched ↔ ∃ i ∈ written, ∃ k, (k = before.getD i .power ∨ k = after.getD i .power) ∧ k.cfg.enabled = true ∧
        k.cfg.role = some (.zoneTemp z)) →
      (¬ touched → zones[z]? = some m) ∧
      (touched → (servingZone after z).state = .fresh → zones[z]? = some { m with write := .written }) ∧
      (touched → (servingZone after z).state ≠ .fresh → (m.state = .fresh ∨ m.write = .silenced) →
        zones[z]? = some { m with write := .silenced }) ∧
      (touched → (servingZone after z).state ≠ .fresh → m.state ≠ .fresh → m.write ≠ .silenced →
        zones[z]? = some { m with write := .written })) :
    zones = doseZonesAfter written before after marks := by
  refine List.ext_getElem? fun z => ?_
  cases hm : marks[z]? with
  | none =>
    have := List.getElem?_eq_none_iff.mp hm
    rw [List.getElem?_eq_none (by omega), List.getElem?_eq_none]
    rw [doseZonesAfter, List.length_mapIdx]; exact this
  | some m =>
    obtain ⟨a1, a2, a3, a4⟩ := h z m hm _ Iff.rfl
    obtain ⟨b1, b2, b3, b4⟩ := (spec_doseZonesAfter written before after marks z m hm).2 _ Iff.rfl
    by_cases t : ∃ i ∈ written, ∃ k, (k = before.getD i .power ∨ k = after.getD i .power) ∧ k.cfg.enabled = true ∧
        k.cfg.role = some (.zoneTemp z)
    · by_cases f : (servingZone after z).state = .fresh
      · rw [a2 t f, b2 t f]
      · by_cases s : m.state = .fresh ∨ m.write = .silenced
        · rw [a3 t f s, b3 t f s]
        · obtain ⟨u, v⟩ := not_or.mp s
          rw [a4 t f u v, b4 t f u v]
    · rw [a1 t, b1 t]

/-- What follows the write of one entry (R33): the consumers of its roles are told, its zones re-evaluated. -/
theorem spec_afterMapWrite :
    (∀ (before : List IntakeChan) (i : Nat) (c : Chip) (old new : IntakeCfg), old = (before.getD i .power).cfg →
      new = (intakeChan c i).cfg → afterMapWrite before i c =
        rederiveRole new.role (rederiveRole old.role (tellWritten i new (tellWritten i old c)))) ∧
    (∀ (r : Option Role) (c : Chip),
      (∀ z, r = some (.zoneTemp z) → rederiveRole r c = rederiveZone z c) ∧
      ((∀ z, r ≠ some (.zoneTemp z)) → rederiveRole r c = c)) ∧
    ∀ (i : Nat) (k : IntakeCfg) (c : Chip),
      (k.role ≠ some .chillTemp → k.role ≠ some .exitTemp → tellWritten i k c = tellFreshness i k.role .stale c) ∧
      ∀ r, (r = .chillTemp ∨ r = .exitTemp) → k.role = some r →
        ((k.enabled = true ∨ ∀ q ∈ c.si.chans, q.cfg.enabled = true → q.cfg.role ≠ some r) →
          tellWritten i k c = tellFreshness i k.role .stale c) ∧
        (k.enabled = false → (∃ q ∈ c.si.chans, q.cfg.enabled = true ∧ q.cfg.role = some r) →
          tellWritten i k c = c) := by
  refine ⟨?_, ?_, ?_⟩
  · intro before i c old new ho hn
    subst ho hn
    rfl
  · intro r c
    refine ⟨fun z h => by subst h; rfl, fun h => ?_⟩
    unfold rederiveRole
    split
    · rename_i z; exact absurd rfl (h z)
    · rfl
  · intro i k c
    have f (r : Role) : (findRole c r).isNone = true ↔ ∀ q ∈ c.si.chans, q.cfg.enabled = true → q.cfg.role ≠ some r := by
      simp [findRole, List.find?_eq_none]
    have g {r : Role} (n : ∃ q ∈ c.si.chans, q.cfg.enabled = true ∧ q.cfg.role = some r) : (findRole c r).isNone = false := by
      rw [Bool.eq_false_iff, ne_eq, f r]
      obtain ⟨q, hq, e, hr⟩ := n
      exact fun h => h q hq e hr
    refine ⟨?_, ?_⟩
    · intro a b
      refine if_pos ?_
      unfold toldOfWrite
      split
      · rename_i h; exact absurd h a
      · rename_i h; exact absurd h b
      · rfl
    · rintro r hr h
      refine ⟨?_, ?_⟩
      · intro n
        refine if_pos ?_
        rw [← f r] at n
        rcases hr with rfl | rfl <;> simp only [toldOfWrite, h, Bool.or_eq_true] <;> exact n
      · intro e n
        refine if_neg ?_
        rcases hr with rfl | rfl <;> simp only [toldOfWrite, h, e, g n] <;> simp

/-- The consumer of a role is told of a freshness state (R32, R42, R45, R51, R73, R101). -/
theorem spec_tellings :
    (∀ (i : Nat) (st : Freshness) (c : Chip),
      (∀ z, tellFreshness i (some (.zoneTemp z)) st c = rederiveZone z c) ∧
      tellFreshness i (some .chillTemp) st c = tellChill st (intakeChan c i).dyn.latest.isSome c ∧
      tellFreshness i (some .exitTemp) st c = { c with fv := { c.fv with exitState := st } } ∧
      tellFreshness i (some .dockTemp) st c = (if st = .stale then exposeAll c else c) ∧
      tellFreshness i (some .marker) st c = (if st = .stale then markerStale i c else c) ∧
      (∀ belt, tellFreshness i (some (.encoder belt)) .stale c = encoderStale i c ∧
        tellFreshness i (some (.encoder belt)) .fresh c = c) ∧
      tellFreshness i (some (.encoder none)) .staleHeld c = c ∧
      (∀ b, (encoderOf c.st b ≠ i → tellFreshness i (some (.encoder (some b))) .staleHeld c = c) ∧
        (encoderOf c.st b = i → tellFreshness i (some (.encoder (some b))) .staleHeld c =
          ((queueOf c.st b.stage).map (·.id)).foldl (fun d id =>
            modSegment id (fun s => { s with hold := s.hold ||| HoldReason.untrackedGap.only }) d) c)) ∧
      (∀ n, tellFreshness i (some (.shuttleStatus n)) st c = c ∧ tellFreshness i (some (.pointEcho n)) st c = c) ∧
      ∀ r, (r = .infeedMass ∨ r = .bagMade ∨ r = .bagWeight ∨ r = .bagCode ∨ r = .bagMetal) →
        tellFreshness i (some r) st c = c) ∧
    (∀ (e : Nat) (c : Chip), encoderStale e c = (List.range 8).foldl (fun d n =>
      if (trackChan d n).cfg.source = .encoder e
      then modTrack n (fun x => { x with capture := { x.capture with span := false } }) d else d) c) ∧
    (∀ (m : Nat) (c : Chip) (forget : Nat → Chip → Chip),
      (∀ n d, (∀ e, triggerOf (trackChan d n) = some (.marker m e) →
          forget n d = modTrack n (fun x => { x with lastLevel := none, filtered := none }) d) ∧
        ((∀ e, triggerOf (trackChan d n) ≠ some (.marker m e)) → forget n d = d)) →
      markerStale m c = (List.range 8).foldl (fun d n => forget n d) c) ∧
    (∀ (z : Nat) (st told : Freshness) (c d : Chip) (silent : Nat → Chip → Chip),
      (told = .staleHeld → (c.de.zones.getD z .clear).write = .silenced → st = .stale) →
      ((told ≠ .staleHeld ∨ (c.de.zones.getD z .clear).write ≠ .silenced) → st = told) →
      d = modDose z (fun x => { x with state := st }) c →
      (∀ id e, (segmentIn e .blanch id = none → silent id e = e) ∧
        ∀ g, segmentIn e .blanch id = some g →
          (g.hold.has .staleZone = true → silent id e = e) ∧
          (g.hold.has .staleZone = false → silent id e =
            modDose z (fun x => { x with staleZones := min (x.staleZones + 1) 65535 })
              (modSegment id (fun s => { s with hold := s.hold ||| HoldReason.staleZone.only }) e))) →
      (st ≠ .staleHeld → tellZone z told c = d) ∧
      (st = .staleHeld → tellZone z told c =
        ((c.st.qBlanch.filter (fun g => g.zone == some z)).map (·.id)).foldl (fun e id => silent id e) d)) ∧
    ∀ (z i p : Nat) (c : Chip) (k q : IntakeChan), k = intakeChan c i → q = intakeChan c p →
      (k.cfg.partner = none → checkSplit z i c = c) ∧
      (k.cfg.partner = some p → (k.dyn.fresh ≠ .fresh ∨ q.dyn.fresh ≠ .fresh ∨ q.cfg.enabled = false) →
        checkSplit z i c = c) ∧
      ∀ v w, k.cfg.partner = some p → k.dyn.fresh = .fresh → q.dyn.fresh = .fresh → q.cfg.enabled = true →
        k.dyn.latest = some v → q.dyn.latest = some w →
        (c.ma.config.split < (v.value - w.value).natAbs → checkSplit z i c = raiseNat .probeSplit .zone z c) ∧
        ((v.value - w.value).natAbs ≤ c.ma.config.split → checkSplit z i c = c) := by
  refine ⟨?_, ?_, ?_, ?_, ?_⟩
  · intro i st c
    refine ⟨fun _ => rfl, rfl, rfl, rfl, rfl, fun _ => ⟨rfl, rfl⟩, rfl, ?_, fun _ => ⟨rfl, rfl⟩, ?_⟩
    · intro b
      exact ⟨fun h => if_neg h, fun h => (if_pos h).trans rfl⟩
    · rintro r (rfl | rfl | rfl | rfl | rfl) <;> rfl
  · intro e c; rfl
  · intro m c forget h
    unfold markerStale
    congr 1
    funext d n
    obtain ⟨a, b⟩ := h n d
    split
    · rename_i ch e t
      split
      · rename_i q; subst q; exact (a e t).symm
      · rename_i q
        refine (b fun f u => q ?_).symm
        rw [t] at u; cases u; rfl
    · rename_i t
      exact (b fun e u => t m e u).symm
  · intro z st told c d silent h1 h2 hd hs
    have e : recordedState z told c = st := by
      unfold recordedState doseZone
      split
      · rename_i q; exact (h1 q.1 q.2).symm
      · rename_i q; exact (h2 (by rcases Decidable.not_and_iff_not_or_not.mp q with q | q; exacts [.inl q, .inr q])).symm
    subst hd
    unfold tellZone
    rw [e]
    refine ⟨fun h => if_neg h, ?_⟩
    rintro rfl
    rw [if_pos rfl]
    show List.foldl _ _ (zoneSegments c z) = List.foldl _ _ (zoneSegments c z)
    congr 1
    funext e id
    obtain ⟨a, b⟩ := hs id e
    split
    · rename_i g hg
      split
      · rename_i q; exact ((b g hg).1 q).symm
      · rename_i q; exact ((b g hg).2 (by simpa using q)).symm
    · rename_i hg; exact (a hg).symm
  · intro z i p c k q hk hq
    subst hk hq
    refine ⟨?_, ?_, ?_⟩
    · intro h; simp only [checkSplit, h]
    · intro h n
      simp only [checkSplit, h, freshValue]
      split
      · rename_i x y hx hy
        refine if_neg ?_
        rintro ⟨en, _⟩
        rcases n with n | n | n
        · rw [if_neg n] at hx; cases hx
        · rw [if_neg n] at hy; cases hy
        · rw [n] at en; cases en
      · rfl
    · intro v w h a b e hv hw
      simp only [checkSplit, h, freshValue, a, b, if_true, hv, hw, Option.map_some, e, true_and]
      exact ⟨fun l => if_pos l, fun l => if_neg (by omega)⟩

/-- The chill input (R101): a change of its freshness, and a segment that joins the CHILL queue. -/
theorem spec_chillInput :
    (∀ (hasValue : Bool) (c : Chip),
      tellChill .fresh hasValue c = { c with fv := { c.fv with chillState := .fresh } } ∧
      tellChill .stale true c = { c with fv := { c.fv with chillState := .stale } } ∧
      tellChill .stale false c = { c with fv := { c.fv with chillState := .stale, prevChill := none } } ∧
      tellChill .staleHeld hasValue c = (c.st.qChill.map (·.id)).foldl (fun d id => holdWarmChill id d)
        { c with fv := { c.fv with chillState := .staleHeld } }) ∧
    ∀ (id : Nat) (c : Chip),
      (c.fv.chillState = .staleHeld → chillArrival id c = holdWarmChill id c) ∧
      (c.fv.chillState ≠ .staleHeld → chillArrival id c = c) :=
  ⟨fun _ _ => ⟨rfl, rfl, rfl, rfl⟩, fun _ _ => ⟨fun h => if_pos h, fun h => if_neg h⟩⟩

/-- A start that a divert has given (R44, R69): which channels the sweep under way has still to handle. -/
theorem spec_settleStart :
    (∀ (limit n : Nat) (point : Word) (c : Chip) (due : Prop),
      (due ↔ n < limit ∧ reached (channelPos c n) (point + BitVec.ofNat 32 (trackChan c n).cfg.delay) = true) →
      (due → settleStart limit n point c = handleSlaves limit n (handleChannel n c)) ∧
      (¬ due → settleStart limit n point c = c)) ∧
    ∀ (c : Chip) (n delta m : Nat),
      sweepLimit c n (.beforeSweep delta) = 8 ∧
      sweepLimit c n (.sweeping m) = (if (trackChan c n).cfg.source = (trackChan c m).cfg.source then m else 8) := by
  refine ⟨?_, fun _ _ _ _ => ⟨rfl, rfl⟩⟩
  intro limit n point c due h
  exact ⟨fun d => if_pos (h.mp d), fun d => if_neg fun q => d (h.mpr q)⟩

/-- An accepted item (R25, R28, R30 to R32, R35): OVER-RANGE, the channel's new dynamic state, the telling of FRESH,
then the handing on. -/
theorem spec_acceptItem :
    ∀ (i : Nat) (suspect : Bool) (w : Word) (c c0 c1 : Chip) (k : IntakeChan) (t : Taken) (before : Option Int),
      k = intakeChan c i → t = takeValue k.cfg w →
      (∀ z, k.cfg.role = some (.zoneTemp z) → before = (c.si.zones.getD z .clear).temp) →
      ((∀ z, k.cfg.role ≠ some (.zoneTemp z)) → before = none) →
      (t.high = true → ((∃ z, k.cfg.role = some (.zoneTemp z)) ∨ k.cfg.role = some .exitTemp) →
        c0 = raiseNat .overRange .channel i c) →
      ((t.high = false ∨ ((∀ z, k.cfg.role ≠ some (.zoneTemp z)) ∧ k.cfg.role ≠ some .exitTemp)) → c0 = c) →
      c1 = modIntake i (acceptDyn k.cfg t suspect c.clock) c0 →
      (k.dyn.fresh = .fresh → acceptItem i suspect w c = handOn i k.cfg.role before t.value w c1) ∧
      (k.dyn.fresh ≠ .fresh → acceptItem i suspect w c =
        handOn i k.cfg.role before t.value w (tellFreshness i k.cfg.role .fresh c1)) := by
  intro i suspect w c c0 c1 k t before hk ht hb hb0 ho ho0 h1
  have b : before = (match k.cfg.role with | some (.zoneTemp z) => (zoneAt c z).temp | _ => none) := by
    split
    · rename_i z r; exact hb z r
    · rename_i r; exact hb0 r
  have o : c0 = overRange i k.cfg.role t c := by
    unfold overRange
    split
    · rename_i q
      split
      · rename_i z r; exact ho q (.inl ⟨z, r⟩)
      · rename_i r; exact ho q (.inr r)
      · rename_i r1 r2; exact ho0 (.inr ⟨r1, r2⟩)
    · rename_i q; exact ho0 (.inl (by simpa using q))
  subst hk ht h1
  rw [b, o]
  unfold acceptItem
  exact ⟨fun f => by simp only [f, if_true] <;> rfl, fun f => by simp only [f, if_false] <;> rfl⟩

/-- A delta of an intake channel reaches the track channels (R42). -/
theorem spec_advanceSource :
    ∀ (e delta n : Nat) (c : Chip),
      advanceSource e delta c = (List.range 8).foldl (fun d n =>
        if (trackChan d n).cfg.source = .encoder e then handleChannel n (advanceCut n delta d) else d)
        { c with tc := { c.tc with positions := c.tc.positions.modify e fun p => p + BitVec.ofNat 32 delta } } ∧
      handleChannel n c = handlePoints n 18 c := fun _ _ _ _ => ⟨rfl, rfl⟩

end Sys2Proof.Machine
end

