-- ==== Sys2Proof/Laws/Sizes.lean ====
section
/-! SUPPORT. Every operation keeps the sizes of the tables. -/

namespace Sys2Proof.Machine

set_option Elab.async false

theorem sizes_foldl {α : Type} {f : Chip → α → Chip} (h : ∀ c x, tableSizes (f c x) = tableSizes c) (l : List α) (c : Chip) :
    tableSizes (l.foldl f c) = tableSizes c := by
  induction l generalizing c with
  | nil => rfl
  | cons x l ih => rw [List.foldl_cons, ih, h]

section Updates
variable (c : Chip)
@[simp] theorem sizes_modLot (i f) : tableSizes (modLot i f c) = tableSizes c := by simp [tableSizes, modLot]
@[simp] theorem sizes_modPallet (i f) : tableSizes (modPallet i f c) = tableSizes c := by simp [tableSizes, modPallet]
@[simp] theorem sizes_modPlace (i f) : tableSizes (modPlace i f c) = tableSizes c := by simp [tableSizes, modPlace]
@[simp] theorem sizes_modFields (i f) : tableSizes (modFields i f c) = tableSizes c := by simp [tableSizes, modFields]
@[simp] theorem sizes_setAlert (k a) : tableSizes (setAlert k a c) = tableSizes c := by simp [tableSizes, setAlert]
@[simp] theorem sizes_addTrap (t) : tableSizes (addTrap t c) = tableSizes c := by simp [tableSizes, addTrap]
@[simp] theorem sizes_setUnsent (n b) : tableSizes (setUnsent n b c) = tableSizes c := by simp [tableSizes, setUnsent]
@[simp] theorem sizes_takeFree : tableSizes (takeFree c).1 = tableSizes c := by simp [tableSizes, takeFree]
@[simp] theorem sizes_evalStopN : tableSizes (evalStopN c) = tableSizes c := by simp [tableSizes, evalStopN]
end Updates

@[simp] theorem sizes_reportHandedBack (s : FrameSource) (c : Chip) :
    tableSizes (reportHandedBack s c) = tableSizes c := by
  cases s <;> simp [reportHandedBack]

@[simp] theorem sizes_acceptFrame (f : OwnFrame) (c : Chip) : tableSizes (acceptFrame f c) = tableSizes c := by
  unfold acceptFrame; split <;> rfl

theorem sizes_rp (c : Chip) (s) : tableSizes { c with rp := s } = tableSizes c := rfl

@[simp] theorem sizes_rpOffer (f : OwnFrame) (c : Chip) : tableSizes (rpOffer f c).1 = tableSizes c := by
  unfold rpOffer
  repeat' split
  all_goals first | rfl | simp [sizes_rp]

@[simp] theorem sizes_handAlert (k : AlertKind) (c : Chip) : tableSizes (handAlert k c).1 = tableSizes c := by
  unfold handAlert
  split
  · next a d _ _ =>
    have h := sizes_rpOffer (alertFrame k a d c) c
    dsimp only
    rw [sizes_setAlert]
    exact h
  · rfl

@[simp] theorem sizes_countAlert (k : AlertKind) (c : Chip) : tableSizes (countAlert k c) = tableSizes c := by
  unfold countAlert; split <;> simp

@[simp] theorem sizes_addAlert (k t w) (c : Chip) : tableSizes (addAlert k t w c) = tableSizes c := by
  simp [tableSizes, addAlert]

@[simp] theorem sizes_raiseOverflow (c : Chip) : tableSizes (raiseOverflow c) = tableSizes c := by
  grind [raiseOverflow, sizes_countAlert, sizes_handAlert, sizes_addAlert]

@[simp] theorem sizes_raise (k t w) (c : Chip) : tableSizes (raise k t w c) = tableSizes c := by
  grind [raise, sizes_countAlert, sizes_handAlert, sizes_addAlert, sizes_raiseOverflow]

@[simp] theorem sizes_raiseNat (k t n) (c : Chip) : tableSizes (raiseNat k t n c) = tableSizes c := sizes_raise ..

@[simp] theorem sizes_rpHand (f : OwnFrame) (c : Chip) : tableSizes (rpHand f c).1 = tableSizes c := by
  grind [rpHand, sizes_rpOffer, sizes_raiseOverflow]

/-! ## Own actuations -/

@[simp] theorem sizes_agOwn (k v) (c : Chip) : tableSizes (agOwn k v c).1 = tableSizes c := by
  grind [agOwn, sizes_rpHand, sizes_addTrap]

@[simp] theorem sizes_gateFault (n) (c : Chip) : tableSizes (gateFault n c) = tableSizes c := by
  unfold gateFault; rw [sizes_raiseNat]; simp [tableSizes]

@[simp] theorem sizes_agConfirm (n v s m t) (c : Chip) : tableSizes (agConfirm n v s m t c).1 = tableSizes c := by
  unfold agConfirm
  repeat' split
  all_goals first | rfl | (rw [sizes_gateFault]; rfl)

@[simp] theorem sizes_sendValue (n k v s m t) (c : Chip) : tableSizes (sendValue n k v s m t c).1 = tableSizes c := by
  grind [sendValue, sizes_agOwn, sizes_agConfirm, sizes_setUnsent]

@[simp] theorem sizes_sendPause (c : Chip) : tableSizes (sendPause c) = tableSizes c := by
  grind [sendPause, sizes_sendValue]

@[simp] theorem sizes_sendIntended (n) (c : Chip) : tableSizes (sendIntended n c) = tableSizes c := by
  grind [sendIntended, sizes_sendValue]

/-! ## The dock -/

@[simp] theorem sizes_evalDestination (id) (c : Chip) : tableSizes (evalDestination id c) = tableSizes c := by
  simp [evalDestination]
@[simp] theorem sizes_changePalletHold (id f) (c : Chip) : tableSizes (changePalletHold id f c) = tableSizes c := by
  simp [changePalletHold]
@[simp] theorem sizes_enterDock (id) (c : Chip) : tableSizes (enterDock id c) = tableSizes c := by
  simp [tableSizes, enterDock]
@[simp] theorem sizes_modShuttle (n f) (c : Chip) : tableSizes (modShuttle n f c) = tableSizes c := by
  simp [tableSizes, modShuttle]

@[simp] theorem sizes_checkExhausted (id) (c : Chip) : tableSizes (checkExhausted id c) = tableSizes c := by
  grind [checkExhausted, sizes_raiseNat, sizes_changePalletHold, sizes_modPallet]

@[simp] theorem sizes_exposePallet (id) (c : Chip) : tableSizes (exposePallet id c) = tableSizes c := by
  grind [exposePallet, sizes_checkExhausted, sizes_modPallet]

@[simp] theorem sizes_exposeAll (c : Chip) : tableSizes (exposeAll c) = tableSizes c :=
  sizes_foldl (fun c x => sizes_exposePallet x c) _ c

theorem sizes_dock (c : Chip) (d) : tableSizes { c with td := { c.td with dock := d } } = tableSizes c := rfl
theorem sizes_lost (c : Chip) (n) : tableSizes { c with td := { c.td with lost := n } } = tableSizes c := rfl

@[simp] theorem sizes_assignPallet (p n) (c : Chip) : tableSizes (assignPallet p n c).1 = tableSizes c := by
  grind [assignPallet, sizes_agOwn, sizes_modPallet, sizes_modShuttle, sizes_evalDestination, sizes_enterDock, sizes_dock,
    sizes_lost]

@[simp] theorem sizes_arbitrationLoop (k) (c : Chip) : tableSizes (arbitrationLoop k c) = tableSizes c := by
  induction k generalizing c with
  | zero => rfl
  | succ k ih => grind [arbitrationLoop, sizes_assignPallet]

@[simp] theorem sizes_arbitrate (c : Chip) : tableSizes (arbitrate c) = tableSizes c := by
  grind [arbitrate, sizes_arbitrationLoop, sizes_exposeAll]

@[simp] theorem sizes_takePallet (id) (c : Chip) : tableSizes (takePallet id c) = tableSizes c := by
  grind [takePallet, sizes_arbitrate, sizes_modPallet, sizes_evalDestination, sizes_enterDock]

/-! ## The trace memory controller -/

theorem sizes_tm (c : Chip) (t : Tm) : tableSizes { c with tm := t } = tableSizes c := rfl
theorem sizes_ba (c : Chip) (b : Ba) (h1 : b.slots.length = c.ba.slots.length)
    (h2 : b.carried.length = c.ba.carried.length) : tableSizes { c with ba := b } = tableSizes c := by
  simp [tableSizes, h1, h2]

@[simp] theorem sizes_setMark (p) (c : Chip) : tableSizes (setMark p c) = tableSizes c := by simp [tableSizes, setMark]
@[simp] theorem sizes_clearMark (p) (c : Chip) : tableSizes (clearMark p c) = tableSizes c := by
  simp [tableSizes, clearMark]
@[simp] theorem sizes_modQueued (p f) (c : Chip) : tableSizes (modQueued p f c) = tableSizes c := by
  simp [tableSizes, modQueued]
@[simp] theorem sizes_freePlace (p) (c : Chip) : tableSizes (freePlace p c) = tableSizes c := by
  simp [freePlace]

@[simp] theorem sizes_setSpi (o b) (c : Chip) : tableSizes (setSpi o b c) = tableSizes c := rfl

@[simp] theorem sizes_grantWork (c : Chip) : tableSizes (grantWork c) = tableSizes c := by
  unfold grantWork
  repeat' split
  all_goals simp

@[simp] theorem sizes_whenWaiting (c d : Chip) : tableSizes (whenWaiting c d) = tableSizes d := by
  unfold whenWaiting; split <;> simp

@[simp] theorem sizes_placeReport (r p) (c : Chip) : tableSizes (placeReport r p c) = tableSizes c := by
  grind [placeReport, sizes_modPallet, sizes_ba]

@[simp] theorem sizes_placeRecord (p r) (c : Chip) : tableSizes (placeRecord p r c) = tableSizes c := by
  grind [placeRecord, sizes_placeReport, sizes_whenWaiting, sizes_modPlace, sizes_tm]

@[simp] theorem sizes_backlogRises (c : Chip) : tableSizes (backlogRises c) = tableSizes c := by
  unfold backlogRises
  split
  · rw [sizes_sendPause, sizes_raiseNat]
  · rw [sizes_sendPause, sizes_raise]; rfl

@[simp] theorem sizes_takeRecord (r) (c : Chip) : tableSizes (takeRecord r c).1 = tableSizes c := by
  grind [takeRecord, sizes_placeRecord, sizes_backlogRises, sizes_tm]

@[simp] theorem sizes_placeHeld (c : Chip) : tableSizes (placeHeld c).1 = tableSizes c := by
  grind [placeHeld, sizes_sendPause, sizes_placeRecord, sizes_tm]

@[simp] theorem sizes_amendPlace (p f) (c : Chip) : tableSizes (amendPlace p f c) = tableSizes c := by
  grind [amendPlace, sizes_modFields, sizes_setMark, sizes_modQueued, sizes_whenWaiting]

@[simp] theorem sizes_amendBag (l s f) (c : Chip) : tableSizes (amendBag l s f c) = tableSizes c := by
  grind [amendBag, sizes_amendPlace, sizes_tm]

@[simp] theorem sizes_faultPallet (p) (c : Chip) : tableSizes (faultPallet p c) = tableSizes c := by
  cases p <;> grind [faultPallet, sizes_changePalletHold]

@[simp] theorem sizes_poisonPlace (p) (c : Chip) : tableSizes (poisonPlace p c) = tableSizes c := by
  grind [poisonPlace, sizes_faultPallet, sizes_clearMark, sizes_modPlace]

/-! ## The holding slot, places freed, a lot retired -/

@[simp] theorem sizes_modSlot (k f) (c : Chip) : tableSizes (modSlot k f c) = tableSizes c := by
  simp [tableSizes, modSlot]
@[simp] theorem sizes_setSlot (k s) (c : Chip) : tableSizes (setSlot k s c) = tableSizes c := by
  simp [tableSizes, setSlot]
@[simp] theorem sizes_modDecisions (t f) (c : Chip) : tableSizes (modDecisions t f c) = tableSizes c := by
  simp [tableSizes, modDecisions]

@[simp] theorem sizes_handSlot (k) (c : Chip) : tableSizes (handSlot k c).1 = tableSizes c := by
  grind [handSlot, sizes_takeRecord, sizes_modDecisions, sizes_setSlot]

@[simp] theorem sizes_handDecided (l) (c : Chip) : tableSizes (handDecided l c) = tableSizes c := by
  induction l generalizing c with
  | nil => rfl
  | cons k l ih => grind [handDecided, sizes_handSlot]

@[simp] theorem sizes_checkHolding (c : Chip) : tableSizes (checkHolding c) = tableSizes c := by
  grind [checkHolding, sizes_placeHeld, sizes_handDecided]

@[simp] theorem sizes_releasePlace (p) (c : Chip) : tableSizes (releasePlace p c) = tableSizes c := by
  unfold releasePlace; split <;> simp

@[simp] theorem sizes_releasePalletPlace (p) (c : Chip) : tableSizes (releasePalletPlace p c) = tableSizes c := by
  unfold releasePalletPlace; split <;> simp

@[simp] theorem sizes_freePalletPlaces (id) (c : Chip) : tableSizes (freePalletPlaces id c) = tableSizes c :=
  (sizes_checkHolding _).trans (sizes_foldl (fun c p => sizes_releasePalletPlace p c) _ c)

@[simp] theorem sizes_freeLotPlaces (i) (c : Chip) : tableSizes (freeLotPlaces i c) = tableSizes c :=
  (sizes_checkHolding _).trans (sizes_foldl (fun c p => sizes_releasePlace p c) _ c)

@[simp] theorem sizes_retireLot (i) (c : Chip) : tableSizes (retireLot i c) = tableSizes c := by
  rw [← sizes_freeLotPlaces i c]
  simp [tableSizes, retireLot]

/-! ## The lots -/

theorem sizes_lhHanding (c : Chip) (t) :
    tableSizes { c with lh := { c.lh with lastHanding := t } } = tableSizes c := rfl

theorem sizes_baSerial (c : Chip) (n) : tableSizes { c with ba := { c.ba with serial := n } } = tableSizes c := rfl

@[simp] theorem sizes_closePallet (id) (c : Chip) : tableSizes (closePallet id c) = tableSizes c := by
  grind [closePallet, sizes_takePallet, sizes_modPallet, sizes_modLot, sizes_baSerial]

@[simp] theorem sizes_closeShort (id) (c : Chip) : tableSizes (closeShort id c) = tableSizes c := by
  grind [closeShort, sizes_closePallet, sizes_modPallet]

@[simp] theorem sizes_checkDrain (i) (c : Chip) : tableSizes (checkDrain i c) = tableSizes c := by
  grind [checkDrain, sizes_closeShort, sizes_modLot]

@[simp] theorem sizes_handLot (i) (c : Chip) : tableSizes (handLot i c) = tableSizes c := by
  grind [handLot, sizes_rpHand, sizes_modLot, sizes_lhHanding, sizes_retireLot]

@[simp] theorem sizes_checkFinish (i) (c : Chip) : tableSizes (checkFinish i c) = tableSizes c := by
  grind [checkFinish, sizes_handLot, sizes_modLot]

@[simp] theorem sizes_reportLot (i r) (c : Chip) : tableSizes (reportLot i r c) = tableSizes c := by
  simp [reportLot]

@[simp] theorem sizes_handWaitingLots (c : Chip) : tableSizes (handWaitingLots c) = tableSizes c :=
  sizes_foldl (fun c x => sizes_handLot x c) _ c

/-! ## The bags -/

@[simp] theorem sizes_addDecision (e) (c : Chip) : tableSizes (addDecision e c) = tableSizes c := by
  simp [tableSizes, addDecision]

@[simp] theorem sizes_gateReasonToPallet (l h) (c : Chip) : tableSizes (gateReasonToPallet l h c) = tableSizes c := by
  grind [gateReasonToPallet, sizes_changePalletHold, sizes_ba]

@[simp] theorem sizes_gateReasonToSlot (k h) (c : Chip) : tableSizes (gateReasonToSlot k h c) = tableSizes c := by
  simp [gateReasonToSlot]

@[simp] theorem sizes_settleRejected (k) (c : Chip) : tableSizes (settleRejected k c) = tableSizes c := by
  grind [settleRejected, sizes_handSlot, sizes_modSlot, sizes_gateReasonToPallet, sizes_gateReasonToSlot, sizes_reportLot]

@[simp] theorem sizes_createPallet (l) (c : Chip) : tableSizes (createPallet l c).1 = tableSizes c := by
  grind [createPallet, sizes_reportLot, sizes_modLot, sizes_ba]

@[simp] theorem sizes_countCase (id) (c : Chip) : tableSizes (countCase id c) = tableSizes c := by
  grind [countCase, sizes_closePallet, sizes_modPallet]

@[simp] theorem sizes_joinPallet (k id) (c : Chip) : tableSizes (joinPallet k id c) = tableSizes c := by
  grind [joinPallet, sizes_handSlot, sizes_modSlot, sizes_countCase, sizes_reportLot, sizes_modPallet]

@[simp] theorem sizes_tryJoin (k) (c : Chip) : tableSizes (tryJoin k c).1 = tableSizes c := by
  grind [tryJoin, sizes_joinPallet, sizes_createPallet]

@[simp] theorem sizes_settleAccepted (k) (c : Chip) : tableSizes (settleAccepted k c) = tableSizes c := by
  grind [settleAccepted, sizes_tryJoin, sizes_modSlot, sizes_raiseNat]

@[simp] theorem sizes_decideBag (k) (c : Chip) : tableSizes (decideBag k c) = tableSizes c := by
  grind [decideBag, sizes_settleRejected, sizes_settleAccepted, sizes_modDecisions, sizes_modSlot, sizes_baSerial]

@[simp] theorem sizes_resumeWaiting (c : Chip) : tableSizes (resumeWaiting c) = tableSizes c :=
  sizes_foldl (fun c x => sizes_tryJoin x c) _ c

@[simp] theorem sizes_fireCheck (s) (c : Chip) : tableSizes (fireCheck s c).1 = tableSizes c := by
  grind [fireCheck, sizes_decideBag]

@[simp] theorem sizes_bagOutcome (s r) (c : Chip) : tableSizes (bagOutcome s r c) = tableSizes c := by
  unfold bagOutcome
  repeat' split
  all_goals first | rfl | simp

/-! ## Delivery reports -/

@[simp] theorem sizes_palletReportLeft (id r) (c : Chip) : tableSizes (palletReportLeft id r c) = tableSizes c := by
  unfold palletReportLeft
  repeat' first | split | dsimp only
  all_goals simp [sizes_ba]

theorem sizes_tdHanding (c : Chip) (t) :
    tableSizes { c with td := { c.td with lastHanding := t } } = tableSizes c := rfl
@[simp] theorem sizes_handDelivery (id) (c : Chip) : tableSizes (handDelivery id c) = tableSizes c := by
  grind [handDelivery, sizes_rpHand, sizes_modPallet, sizes_tdHanding, sizes_palletReportLeft]

@[simp] theorem sizes_handWaitingDeliveries (c : Chip) : tableSizes (handWaitingDeliveries c) = tableSizes c :=
  sizes_foldl (fun c x => sizes_handDelivery x c) _ c

@[simp] theorem sizes_reviseDelivery (id) (c : Chip) : tableSizes (reviseDelivery id c) = tableSizes c := by
  grind [reviseDelivery, sizes_handDelivery, sizes_modPallet]

/-! ## Segments -/

section Updates
variable (c : Chip)
@[simp] theorem sizes_modSegment (i f) : tableSizes (modSegment i f c) = tableSizes c := by
  simp [tableSizes, modSegment]
@[simp] theorem sizes_removeSegment (i) : tableSizes (removeSegment i c) = tableSizes c := by
  simp [tableSizes, removeSegment]
@[simp] theorem sizes_holdSegment (i r) : tableSizes (holdSegment i r c) = tableSizes c := by
  simp [tableSizes, holdSegment]
@[simp] theorem sizes_leaveWindow (i) : tableSizes (leaveWindow i c) = tableSizes c := by simp [tableSizes, leaveWindow]
@[simp] theorem sizes_leaveGap (i) : tableSizes (leaveGap i c) = tableSizes c := by simp [tableSizes, leaveGap]
@[simp] theorem sizes_modIntake (i f) : tableSizes (modIntake i f c) = tableSizes c := by simp [tableSizes, modIntake]
@[simp] theorem sizes_modTrack (i f) : tableSizes (modTrack i f c) = tableSizes c := by simp [tableSizes, modTrack]
@[simp] theorem sizes_modDose (i f) : tableSizes (modDose i f c) = tableSizes c := by simp [tableSizes, modDose]
@[simp] theorem sizes_modFv (f) : tableSizes (modFv f c) = tableSizes c := by simp [tableSizes, modFv]
@[simp] theorem sizes_joinQueue (s g) : tableSizes (joinQueue s g c) = tableSizes c := by simp [tableSizes, joinQueue]
theorem sizes_pins (s) : tableSizes { c with pins := s } = tableSizes c := rfl
theorem sizes_st (s) : tableSizes { c with st := s } = tableSizes c := rfl
theorem sizes_si (b : Si) (h1 : b.chans.length = c.si.chans.length) (h2 : b.zones.length = c.si.zones.length) :
    tableSizes { c with si := b } = tableSizes c := by
  simp [tableSizes, h1, h2]
theorem sizes_shadows (x y) :
    tableSizes { c with ag := { c.ag with shadows := x, unshadowed := y } } = tableSizes c := rfl
theorem sizes_confirms (x) : tableSizes { c with ag := { c.ag with confirms := x } } = tableSizes c := rfl
end Updates

@[simp] theorem sizes_freeSegment (i b) (c : Chip) : tableSizes (freeSegment i b c) = tableSizes c := by
  grind [freeSegment, sizes_reportLot, sizes_leaveWindow, sizes_removeSegment]

@[simp] theorem sizes_segmentOutcome (i r) (c : Chip) : tableSizes (segmentOutcome i r c) = tableSizes c := by
  unfold segmentOutcome
  repeat' first | split | dsimp only
  all_goals simp [sizes_st]

@[simp] theorem sizes_reportServed (r) (c : Chip) (s) : tableSizes (reportServed r c s) = tableSizes c := by
  cases s <;> simp [reportServed]

@[simp] theorem sizes_drainLot (i) (c : Chip) : tableSizes (drainLot i c) = tableSizes c := by simp [drainLot]

@[simp] theorem sizes_drawLoop (k fuel need) (c : Chip) : tableSizes (drawLoop k fuel need c).1 = tableSizes c := by
  induction fuel generalizing need c with
  | zero => rfl
  | succ n ih => grind [drawLoop, sizes_freeSegment, sizes_modSegment, sizes_modSlot]

@[simp] theorem sizes_drawBag (k) (c : Chip) : tableSizes (drawBag k c) = tableSizes c := by
  grind [drawBag, sizes_drawLoop, sizes_reportLot, sizes_modSlot]

/-! ## Track channels -/

@[simp] theorem sizes_reportAll (r l) (c : Chip) : tableSizes (reportAll r l c) = tableSizes c :=
  sizes_foldl (fun c x => sizes_reportServed r c x) l c

@[simp] theorem sizes_refuseStart (n) (c : Chip) : tableSizes (refuseStart n c) = tableSizes c := by simp [refuseStart]
@[simp] theorem sizes_pushStart (n s) (c : Chip) : tableSizes (pushStart n s c) = tableSizes c := by simp [pushStart]

@[simp] theorem sizes_enterStart (n s) (c : Chip) : tableSizes (enterStart n s c).1 = tableSizes c := by
  grind [enterStart, sizes_pushStart, sizes_refuseStart, sizes_reportAll, sizes_modTrack]

@[simp] theorem sizes_startSlaves (n p) (c : Chip) : tableSizes (startSlaves n p c) = tableSizes c :=
  sizes_foldl (fun c x => by split <;> simp) _ c

@[simp] theorem sizes_fireEvent (n p) (c : Chip) : tableSizes (fireEvent n p c) = tableSizes c := by simp [fireEvent]

@[simp] theorem sizes_sendOutput (n b s) (c : Chip) : tableSizes (sendOutput n b s c).1 = tableSizes c := by
  grind [sendOutput, sizes_sendValue]

@[simp] theorem sizes_takeToken (c : Chip) : tableSizes (takeToken c).1 = tableSizes c := by
  simp [tableSizes, takeToken]

@[simp] theorem sizes_settlePulse (n o) (c : Chip) : tableSizes (settlePulse n o c) = tableSizes c := by
  grind [settlePulse, sizes_reportAll, sizes_modTrack]

@[simp] theorem sizes_settleToken (n t o) (c : Chip) : tableSizes (settleToken n t o c) = tableSizes c := by
  grind [settleToken, sizes_settlePulse, sizes_reportAll, sizes_modTrack]

@[simp] theorem sizes_joinPulse (n s) (c : Chip) : tableSizes (joinPulse n s c) = tableSizes c := by
  grind [joinPulse, sizes_reportServed, sizes_modTrack]

@[simp] theorem sizes_popStart (n) (c : Chip) : tableSizes (popStart n c) = tableSizes c := by simp [popStart]

@[simp] theorem sizes_fireDelay (n s) (c : Chip) : tableSizes (fireDelay n s c) = tableSizes c := by
  grind [fireDelay, sizes_sendOutput, sizes_takeToken, sizes_reportAll, sizes_modTrack]

@[simp] theorem sizes_fireGate (n s p) (c : Chip) : tableSizes (fireGate n s p c) = tableSizes c := by
  grind [fireGate, sizes_sendOutput, sizes_takeToken, sizes_joinPulse, sizes_settlePulse, sizes_modTrack]

@[simp] theorem sizes_fireStart (n s p) (c : Chip) : tableSizes (fireStart n s p c) = tableSizes c := by
  grind [fireStart, sizes_fireDelay, sizes_fireGate, sizes_fireEvent, sizes_popStart, sizes_fireCheck, sizes_modTrack]

@[simp] theorem sizes_closeGate (n) (c : Chip) : tableSizes (closeGate n c) = tableSizes c := by simp [closeGate]

@[simp] theorem sizes_handlePoints (n k) (c : Chip) : tableSizes (handlePoints n k c) = tableSizes c := by
  induction k generalizing c with
  | zero => rfl
  | succ k ih => grind [handlePoints, sizes_fireStart, sizes_closeGate]

@[simp] theorem sizes_handleChannel (n) (c : Chip) :
    tableSizes (handleChannel n c) = tableSizes c := sizes_handlePoints ..

@[simp] theorem sizes_handleSlaves (l n) (c : Chip) : tableSizes (handleSlaves l n c) = tableSizes c :=
  sizes_foldl (fun c x => by split <;> simp) _ c

@[simp] theorem sizes_settleStart (l n p) (c : Chip) : tableSizes (settleStart l n p c) = tableSizes c := by
  unfold settleStart
  repeat' first | split | dsimp only
  all_goals simp

@[simp] theorem sizes_startNow (n s) (c : Chip) : tableSizes (startNow n s c).1 = tableSizes c := by
  grind [startNow, sizes_enterStart, sizes_settleStart]

@[simp] theorem sizes_captureAt (n) (c : Chip) : tableSizes (captureAt n c) = tableSizes c := by simp [captureAt]

@[simp] theorem sizes_markerChannel (n e l) (c : Chip) : tableSizes (markerChannel n e l c) = tableSizes c := by
  unfold markerChannel
  repeat' first | split | dsimp only
  all_goals simp

@[simp] theorem sizes_markerItem (m l) (c : Chip) : tableSizes (markerItem m l c) = tableSizes c :=
  sizes_foldl (fun c x => by repeat' split
                             all_goals simp) _ c

@[simp] theorem sizes_markerStale (m) (c : Chip) : tableSizes (markerStale m c) = tableSizes c :=
  sizes_foldl (fun c x => by repeat' split
                             all_goals simp) _ c

@[simp] theorem sizes_encoderStale (m) (c : Chip) : tableSizes (encoderStale m c) = tableSizes c :=
  sizes_foldl (fun c x => by repeat' split
                             all_goals simp) _ c

@[simp] theorem sizes_fireIntervals (n k) (c : Chip) : tableSizes (fireIntervals n k c) = tableSizes c := by
  induction k generalizing c with
  | zero => rfl
  | succ k ih => simp [fireIntervals, ih]

@[simp] theorem sizes_handleMilliseconds (c : Chip) : tableSizes (handleMilliseconds c) = tableSizes c :=
  sizes_foldl (fun c x => by split <;> simp) _ c

@[simp] theorem sizes_commandStart (n) (c : Chip) : tableSizes (commandStart n c).1 = tableSizes c := by
  grind [commandStart, sizes_startNow]

@[simp] theorem sizes_startChannel (n) (c : Chip) : tableSizes (startChannel n c).1 = tableSizes c := by
  unfold startChannel
  repeat' first | split | dsimp only
  all_goals simp

@[simp] theorem sizes_stopChannel (n) (c : Chip) : tableSizes (stopChannel n c) = tableSizes c := by
  unfold stopChannel
  repeat' first | split | dsimp only
  all_goals simp [*]

@[simp] theorem sizes_resendAll (c : Chip) : tableSizes (resendAll c) = tableSizes c :=
  sizes_foldl (fun c x => sizes_sendIntended x c) _ c

@[simp] theorem sizes_resendUnsent (c : Chip) : tableSizes (resendUnsent c) = tableSizes c :=
  sizes_foldl (fun c x => by split <;> simp) _ c

/-! ## Dose engine and freeze verifier -/

@[simp] theorem sizes_creditSegment (z t ct id) (c : Chip) : tableSizes (creditSegment z t ct id c) = tableSizes c := by
  unfold creditSegment
  repeat' first | split | dsimp only
  all_goals simp

@[simp] theorem sizes_zoneUpdate (z b a) (c : Chip) : tableSizes (zoneUpdate z b a c) = tableSizes c := by
  unfold zoneUpdate
  split
  · simp only [sizes_modDose]; exact sizes_foldl (fun c x => sizes_modSegment c x _) _ c
  · simp only [sizes_modDose]; exact sizes_foldl (fun c x => sizes_creditSegment z _ _ x c) _ c

@[simp] theorem sizes_zoneEntered (z id) (c : Chip) : tableSizes (zoneEntered z id c) = tableSizes c := by
  unfold zoneEntered
  repeat' first | split | dsimp only
  all_goals simp

@[simp] theorem sizes_tellZone (z s) (c : Chip) : tableSizes (tellZone z s c) = tableSizes c := by
  unfold tellZone
  dsimp only
  split
  · rw [sizes_foldl (fun c x => by repeat' split
                                   all_goals simp)]
    simp
  · simp

@[simp] theorem sizes_checkOverblanch (id) (c : Chip) : tableSizes (checkOverblanch id c) = tableSizes c := by
  unfold checkOverblanch
  repeat' first | split | dsimp only
  all_goals simp

@[simp] theorem sizes_holdCounted (id r f) (c : Chip) : tableSizes (holdCounted id r f c) = tableSizes c := by
  unfold holdCounted
  repeat' first | split | dsimp only
  all_goals simp

@[simp] theorem sizes_holdWarmChill (id) (c : Chip) :
    tableSizes (holdWarmChill id c) = tableSizes c := sizes_holdCounted ..

@[simp] theorem sizes_checkChillWindow (id) (c : Chip) : tableSizes (checkChillWindow id c) = tableSizes c := by
  unfold checkChillWindow
  repeat' first | split | dsimp only
  all_goals simp

@[simp] theorem sizes_chargeWarm (v p i id) (c : Chip) : tableSizes (chargeWarm v p i id c) = tableSizes c := by
  unfold chargeWarm
  repeat' first | split | dsimp only
  all_goals simp

@[simp] theorem sizes_chillItem (v) (c : Chip) : tableSizes (chillItem v c) = tableSizes c := by
  unfold chillItem
  simp only [sizes_modFv]
  split
  · exact sizes_foldl (fun c x => sizes_chargeWarm v _ _ x c) _ c
  · rfl

@[simp] theorem sizes_tellChill (s b) (c : Chip) : tableSizes (tellChill s b c) = tableSizes c := by
  unfold tellChill
  split
  · split <;> simp
  · rw [sizes_foldl (fun c x => sizes_holdWarmChill x c)]; simp
  · simp

@[simp] theorem sizes_chillArrival (id) (c : Chip) : tableSizes (chillArrival id c) = tableSizes c := by
  unfold chillArrival
  repeat' first | split | dsimp only
  all_goals simp

@[simp] theorem sizes_exitItem (v) (c : Chip) : tableSizes (exitItem v c) = tableSizes c := by
  unfold exitItem
  split
  · simp
  · exact sizes_foldl (fun c x => sizes_modSegment c x _) _ c

@[simp] theorem sizes_tellExit (s) (c : Chip) : tableSizes (tellExit s c) = tableSizes c := by
  simp [tableSizes, tellExit]
@[simp] theorem sizes_enterWindow (i) (c : Chip) : tableSizes (enterWindow i c) = tableSizes c := by
  simp [tableSizes, enterWindow]

@[simp] theorem sizes_freezeVerdict (g) (c : Chip) : tableSizes (freezeVerdict g c).1 = tableSizes c := by
  unfold freezeVerdict
  repeat' first | split | dsimp only
  all_goals simp

@[simp] theorem sizes_checkDwell (id) (c : Chip) : tableSizes (checkDwell id c) = tableSizes c := by
  unfold checkDwell
  repeat' first | split | dsimp only
  all_goals simp

/-! ## Segment tracker -/

@[simp] theorem sizes_joinSilent (b id) (c : Chip) : tableSizes (joinSilent b id c) = tableSizes c := by
  unfold joinSilent
  repeat' first | split | dsimp only
  all_goals simp

@[simp] theorem sizes_divertSegment (b g id a o) (c : Chip) :
    tableSizes (divertSegment b g id a o c) = tableSizes c := by
  have h := fun st d => sizes_enterStart g st d
  unfold divertSegment
  simp only
  split <;> split at * <;> grind [sizes_modSegment, sizes_raiseNat, sizes_settleStart, sizes_refuseStart, sizes_enterStart]

@[simp] theorem sizes_decideSegment (b id a o) (c : Chip) : tableSizes (decideSegment b id a o c) = tableSizes c := by
  grind [decideSegment, sizes_divertSegment, sizes_modSegment, sizes_checkOverblanch, sizes_freezeVerdict]

@[simp] theorem sizes_surgeArrival (id) (c : Chip) : tableSizes (surgeArrival id c) = tableSizes c := by
  grind [surgeArrival, sizes_freeSegment]

@[simp] theorem sizes_stageEnd (b id) (c : Chip) : tableSizes (stageEnd b id c) = tableSizes c := by
  unfold stageEnd
  cases b <;> simp only <;> split <;> simp

@[simp] theorem sizes_enterZone (z id) (c : Chip) : tableSizes (enterZone z id c) = tableSizes c := by simp [enterZone]

@[simp] theorem sizes_crossZones (id b a) (c : Chip) : tableSizes (crossZones id b a c) = tableSizes c :=
  sizes_foldl (fun c x => by split <;> simp) _ c

@[simp] theorem sizes_crossAll (b id h x y) (c : Chip) : tableSizes (crossAll b id h x y c) = tableSizes c := by
  unfold crossAll
  cases b <;> simp only <;> repeat' split
  all_goals simp

@[simp] theorem sizes_advanceSegment (b d a id) (c : Chip) : tableSizes (advanceSegment b d a id c) = tableSizes c := by
  unfold advanceSegment
  repeat' first | split | dsimp only
  all_goals simp

@[simp] theorem sizes_advanceStage (b ch d) (c : Chip) : tableSizes (advanceStage b ch d c) = tableSizes c := by
  unfold advanceStage
  split
  · exact sizes_foldl (fun c x => sizes_advanceSegment b d _ x c) _ c
  · rfl

@[simp] theorem sizes_createSegment (n l m e b) (c : Chip) : tableSizes (createSegment n l m e b c) = tableSizes c := by
  simp [createSegment, sizes_st]

@[simp] theorem sizes_cut (n b) (c : Chip) : tableSizes (cut n b c) = tableSizes c := by
  unfold cut
  split
  repeat' first | split | dsimp only
  all_goals simp [sizes_st]

@[simp] theorem sizes_fireCuts (n l k r) (c : Chip) : tableSizes (fireCuts n l k r c) = tableSizes c := by
  induction k generalizing r c with
  | zero => rfl
  | succ k ih => unfold fireCuts; split <;> simp [ih]

@[simp] theorem sizes_advanceCut (n d) (c : Chip) : tableSizes (advanceCut n d c) = tableSizes c := by
  unfold advanceCut
  repeat' first | split | dsimp only
  all_goals simp

@[simp] theorem sizes_advanceSource (e d) (c : Chip) : tableSizes (advanceSource e d c) = tableSizes c := by
  unfold advanceSource
  rw [sizes_foldl (fun c x => by split <;> simp)]
  simp [tableSizes]

@[simp] theorem sizes_encoderSilent (b) (c : Chip) : tableSizes (encoderSilent b c) = tableSizes c :=
  sizes_foldl (fun c x => sizes_holdSegment c x _) _ c

/-! ## Bag items -/

@[simp] theorem sizes_issueBagStarts (s) (c : Chip) : tableSizes (issueBagStarts s c) = tableSizes c :=
  sizes_foldl (fun c x => by grind [sizes_startNow, sizes_bagOutcome]) _ c

@[simp] theorem sizes_lotlessBag (s) (c : Chip) : tableSizes (lotlessBag s c) = tableSizes c := by
  simp [lotlessBag, sizes_ba]

@[simp] theorem sizes_overrunBag (s l) (c : Chip) : tableSizes (overrunBag s l c) = tableSizes c := by
  have h (d : Chip) : tableSizes (takeRecord (overrunRecord s l c) d).1 = tableSizes d := sizes_takeRecord ..
  unfold overrunBag
  dsimp only
  split
  · next c4 e => rw [sizes_reportLot, sizes_reportLot, sizes_reportLot, show c4 = _ from (congrArg Prod.fst e).symm, h]; simp [sizes_ba]
  · next c4 e =>
    refine (sizes_ba c4 _ rfl rfl).trans ?_
    rw [show c4 = _ from (congrArg Prod.fst e).symm, h]; simp [sizes_ba]

@[simp] theorem sizes_gatherBag (s l k) (c : Chip) : tableSizes (gatherBag s l k c) = tableSizes c := by
  unfold gatherBag
  repeat' first | split | dsimp only
  all_goals simp

@[simp] theorem sizes_newBag (s) (c : Chip) : tableSizes (newBag s c) = tableSizes c := by
  unfold newBag
  repeat' first | split | dsimp only
  all_goals simp

@[simp] theorem sizes_bagMade (w) (c : Chip) : tableSizes (bagMade w c) = tableSizes c := by
  unfold bagMade
  repeat' first | split | dsimp only
  all_goals simp [sizes_ba]

@[simp] theorem sizes_contribute (f s v) (c : Chip) : tableSizes (contribute f s v c) = tableSizes c := by
  unfold contribute
  repeat' first | split | dsimp only
  all_goals simp [sizes_ba]

@[simp] theorem sizes_bagField (f w) (c : Chip) : tableSizes (bagField f w c) = tableSizes c := by
  unfold bagField
  repeat' first | split | dsimp only
  all_goals simp [sizes_ba]

/-! ## Transfer dispatcher -/

@[simp] theorem sizes_airlockEntry (n id) (c : Chip) : tableSizes (airlockEntry n id c) = tableSizes c := by
  simp [airlockEntry]

@[simp] theorem sizes_deliver (n id d) (c : Chip) : tableSizes (deliver n id d c) = tableSizes c := by
  unfold deliver
  repeat' first | split | dsimp only
  all_goals simp

@[simp] theorem sizes_faultTransfer (n) (c : Chip) : tableSizes (faultTransfer n c) = tableSizes c := by
  unfold faultTransfer
  repeat' first | split | dsimp only
  all_goals simp

@[simp] theorem sizes_faultIdle (n) (c : Chip) : tableSizes (faultIdle n c) = tableSizes c := by simp [faultIdle]

@[simp] theorem sizes_phaseStatus (n m p) (c : Chip) : tableSizes (phaseStatus n m p c) = tableSizes c := by
  unfold phaseStatus
  repeat' first | split | dsimp only
  all_goals simp

@[simp] theorem sizes_shuttleStatus (n w) (c : Chip) : tableSizes (shuttleStatus n w c) = tableSizes c := by
  unfold shuttleStatus
  repeat' first | split | dsimp only
  all_goals simp

@[simp] theorem sizes_enableShuttle (n) (c : Chip) : tableSizes (enableShuttle n c).1 = tableSizes c := by
  unfold enableShuttle
  repeat' first | split | dsimp only
  all_goals simp

@[simp] theorem sizes_requeuePallet (id) (c : Chip) : tableSizes (requeuePallet id c).1 = tableSizes c := by
  unfold requeuePallet
  repeat' first | split | dsimp only
  all_goals simp

/-! ## Actuation guard -/

@[simp] theorem sizes_shadowItem (b k r v) (c : Chip) : tableSizes (shadowItem b k r v c) = tableSizes c := by
  unfold shadowItem
  repeat' first | split | dsimp only
  all_goals rfl

@[simp] theorem sizes_checkItem (k v) (c : Chip) : tableSizes (checkItem k v c).1 = tableSizes c := by
  unfold checkItem
  repeat' first | split | dsimp only
  all_goals simp

@[simp] theorem sizes_checkItems (l) (c : Chip) : tableSizes (checkItems l c).1 = tableSizes c := by
  induction l generalizing c with
  | nil => rfl
  | cons i l ih => grind [checkItems, sizes_checkItem]

@[simp] theorem sizes_tellSource (e o) (c : Chip) : tableSizes (tellSource e o c) = tableSizes c := by
  unfold tellSource
  repeat' first | split | dsimp only
  all_goals simp

@[simp] theorem sizes_pointEcho (n w) (c : Chip) : tableSizes (pointEcho n w c) = tableSizes c := by
  unfold pointEcho
  repeat' first | split | dsimp only
  all_goals simp [sizes_confirms]

@[simp] theorem sizes_expireConfirm (i) (c : Chip) : tableSizes (expireConfirm i c) = tableSizes c := by
  unfold expireConfirm
  repeat' first | split | dsimp only
  all_goals simp [sizes_confirms]

/-! ## Sample intake -/

@[simp] theorem sizes_rederiveZone (z) (c : Chip) : tableSizes (rederiveZone z c) = tableSizes c := by
  unfold rederiveZone
  repeat' first | split | dsimp only
  all_goals simp [sizes_si]

@[simp] theorem sizes_tellFreshness (i r s) (c : Chip) : tableSizes (tellFreshness i r s c) = tableSizes c := by
  unfold tellFreshness
  repeat' first | split | dsimp only
  all_goals simp

@[simp] theorem sizes_checkSplit (z i) (c : Chip) : tableSizes (checkSplit z i c) = tableSizes c := by
  unfold checkSplit
  repeat' first | split | dsimp only
  all_goals simp

@[simp] theorem sizes_zoneItem (z i b) (c : Chip) : tableSizes (zoneItem z i b c) = tableSizes c := by
  unfold zoneItem; simp only [sizes_checkSplit]; split <;> simp

@[simp] theorem sizes_encoderItem (i b n) (c : Chip) : tableSizes (encoderItem i b n c) = tableSizes c := by
  unfold encoderItem
  repeat' first | split | dsimp only
  all_goals simp

@[simp] theorem sizes_handOn (i r b v w) (c : Chip) : tableSizes (handOn i r b v w c) = tableSizes c := by
  unfold handOn
  repeat' first | split | dsimp only
  all_goals simp

@[simp] theorem sizes_overRange (i r t) (c : Chip) : tableSizes (overRange i r t c) = tableSizes c := by
  unfold overRange
  repeat' first | split | dsimp only
  all_goals simp

@[simp] theorem sizes_acceptItem (i b w) (c : Chip) : tableSizes (acceptItem i b w c) = tableSizes c := by
  unfold acceptItem; simp only [sizes_handOn]; split <;> simp

@[simp] theorem sizes_takeItem (it) (c : Chip) : tableSizes (takeItem it c) = tableSizes c := by
  unfold takeItem
  repeat' first | split | dsimp only
  all_goals simp

@[simp] theorem sizes_takeItems (l) (c : Chip) : tableSizes (takeItems l c) = tableSizes c :=
  sizes_foldl (fun c x => sizes_takeItem x c) l c

@[simp] theorem sizes_expireFreshness (i) (c : Chip) : tableSizes (expireFreshness i c) = tableSizes c := by
  unfold expireFreshness
  repeat' first | split | dsimp only
  all_goals simp

@[simp] theorem sizes_expireStaleHold (i) (c : Chip) : tableSizes (expireStaleHold i c) = tableSizes c := by
  unfold expireStaleHold
  repeat' first | split | dsimp only
  all_goals simp


/-! ## Management -/

theorem sizes_ma (c : Chip) (m : Ma) (h1 : m.pending.length = c.ma.pending.length) (h2 : m.routes.length = c.ma.routes.length)
    (h3 : m.authority.length = c.ma.authority.length) : tableSizes { c with ma := m } = tableSizes c := by
  simp [tableSizes, h1, h2, h3]

@[simp] theorem sizes_handAnswer (r s w) (c : Chip) : tableSizes (handAnswer r s w c) = tableSizes c :=
  sizes_foldl (fun c _ => sizes_rpHand _ c) _ c

@[simp] theorem sizes_endRequest (r s w) (c : Chip) : tableSizes (endRequest r s w c) = tableSizes c :=
  sizes_handAnswer r s w c

@[simp] theorem sizes_answerOnly (o t k s) (c : Chip) : tableSizes (answerOnly o t k s c) = tableSizes c :=
  sizes_handAnswer ..

@[simp] theorem sizes_setAssembly (a) (c : Chip) : tableSizes (setAssembly a c) = tableSizes c := rfl

@[simp] theorem sizes_completeRequest (a) (c : Chip) : tableSizes (completeRequest a c) = tableSizes c := by
  unfold completeRequest
  split
  · rfl
  · simp

@[simp] theorem sizes_continueAssembly (a b) (c : Chip) : tableSizes (continueAssembly a b c) = tableSizes c := by
  unfold continueAssembly; split <;> simp

@[simp] theorem sizes_dropAssembly (c : Chip) : tableSizes (dropAssembly c) = tableSizes c := by
  unfold dropAssembly; split <;> simp

@[simp] theorem sizes_takePart (p) (c : Chip) : tableSizes (takePart p c) = tableSizes c := by
  unfold takePart
  repeat' first | split | dsimp only
  all_goals simp

@[simp] theorem sizes_handUnsent (k) (c : Chip) : tableSizes (handUnsent k c) = tableSizes c := by
  grind [handUnsent, sizes_handAlert, sizes_raiseOverflow]

@[simp] theorem sizes_handAllUnsent (c : Chip) : tableSizes (handAllUnsent c) = tableSizes c :=
  sizes_foldl (fun c k => sizes_handUnsent k c) _ c

/-! ## The ring -/

@[simp] theorem sizes_reportLeft (s) (c : Chip) : tableSizes (reportLeft s c) = tableSizes c := by
  cases s <;> simp [reportLeft]

@[simp] theorem sizes_txGrant (c : Chip) : tableSizes (txGrant c) = tableSizes c := by
  unfold txGrant sendOwn sendForward
  repeat' split
  all_goals first | rfl | (rw [sizes_reportLeft]; rfl)

@[simp] theorem sizes_ringActive (c : Chip) : tableSizes (ringActive c) = tableSizes c := by simp [ringActive]

@[simp] theorem sizes_isolatedEntry (c : Chip) : tableSizes (isolatedEntry c) = tableSizes c := by
  unfold isolatedEntry
  dsimp only
  rw [sizes_raise]
  simp [tableSizes, reportsWait, maIsolated]

@[simp] theorem sizes_isolatedExit (n) (c : Chip) : tableSizes (isolatedExit n c) = tableSizes c := by
  unfold isolatedExit
  simp only [sizes_arbitrate]
  split <;> simp <;> rfl

@[simp] theorem sizes_evalRing (c : Chip) : tableSizes (evalRing c) = tableSizes c := by
  unfold evalRing
  split <;> simp <;> rfl

@[simp] theorem sizes_setErrors (r t) (c : Chip) : tableSizes (setErrors r t c) = tableSizes c := sizes_evalRing _

@[simp] theorem sizes_recover (c : Chip) : tableSizes (recover c) = tableSizes c := by
  unfold recover; split <;> simp

@[simp] theorem sizes_answerOut (e) (c : Chip) : tableSizes (answerOut e c) = tableSizes c := by
  unfold answerOut; split <;> rfl

@[simp] theorem sizes_dropEntry (i) (c : Chip) : tableSizes (dropEntry i c) = tableSizes c := rfl

@[simp] theorem sizes_returnCheck (k s) (c : Chip) : tableSizes (returnCheck k s c) = tableSizes c := by
  unfold returnCheck
  repeat' first | split | dsimp only
  all_goals simp

@[simp] theorem sizes_expireReturn (s) (c : Chip) : tableSizes (expireReturn s c) = tableSizes c := by
  unfold expireReturn
  repeat' first | split | dsimp only
  all_goals simp

@[simp] theorem sizes_takeHeader (h) (c : Chip) : tableSizes (takeHeader h c) = tableSizes c := by
  unfold takeHeader
  repeat' split
  all_goals rfl

@[simp] theorem sizes_takeEpoch (i) (c : Chip) : tableSizes (takeEpoch i c) = tableSizes c := by cases i <;> rfl

@[simp] theorem sizes_dispose (h l) (c : Chip) : tableSizes (dispose h l c) = tableSizes c := by
  unfold dispose
  repeat' first | split | dsimp only
  all_goals simp

@[simp] theorem sizes_completeReception (p g) (c : Chip) : tableSizes (completeReception p g c) = tableSizes c := by
  unfold completeReception
  repeat' first | split | dsimp only
  all_goals simp [sizes_rp]

@[simp] theorem sizes_checkHeldFrame (c : Chip) : tableSizes (checkHeldFrame c) = tableSizes c := by
  unfold checkHeldFrame
  split
  · split
    · next e _ => exact sizes_checkItems e.frame.items c
    · rfl
  · rfl

@[simp] theorem sizes_completeTransmit (c : Chip) : tableSizes (completeTransmit c) = tableSizes c := by
  unfold completeTransmit
  repeat' split
  all_goals rfl

/-! ## Grants -/

@[simp] theorem sizes_answerRead (w) (c : Chip) : tableSizes (answerRead w c) = tableSizes c := by
  unfold answerRead; split <;> simp

@[simp] theorem sizes_grantRead (p) (c : Chip) : tableSizes (grantRead p c) = tableSizes c := by
  unfold grantRead; dsimp only; split <;> simp [sizes_tm]

@[simp] theorem sizes_grantRestart (w) (c : Chip) : tableSizes (grantRestart w c) = tableSizes c := by
  unfold grantRestart
  repeat' first | split | dsimp only
  all_goals simp [sizes_tm]

@[simp] theorem sizes_spiGrant (c : Chip) : tableSizes (spiGrant c) = tableSizes c := by
  unfold spiGrant
  repeat' first | split | dsimp only
  all_goals simp

@[simp] theorem sizes_settle (c : Chip) : tableSizes (settle c) = tableSizes c := by simp [settle]

/-! ## Completions and the warm restart -/

@[simp] theorem sizes_countVerifyFail (c : Chip) : tableSizes (countVerifyFail c) = tableSizes c := rfl
@[simp] theorem sizes_traceFault (p) (c : Chip) : tableSizes (traceFault p c) = tableSizes c := sizes_raiseNat ..
@[simp] theorem sizes_failPlace (p) (c : Chip) : tableSizes (failPlace p c) = tableSizes c := by simp [failPlace]

@[simp] theorem sizes_finishWrite (b p r) (c : Chip) : tableSizes (finishWrite b p r c) = tableSizes c := by
  unfold finishWrite
  repeat' first | split | dsimp only
  all_goals simp [sizes_tm]

@[simp] theorem sizes_finishRewrite (b p) (c : Chip) : tableSizes (finishRewrite b p c) = tableSizes c := by
  unfold finishRewrite
  repeat' first | split | dsimp only
  all_goals simp [sizes_tm]

@[simp] theorem sizes_finishRead (x b p e) (c : Chip) : tableSizes (finishRead x b p e c) = tableSizes c := by
  unfold finishRead
  repeat' first | split | dsimp only
  all_goals simp [sizes_tm]

/-- The warm restart puts each table of the power-on state, or keeps its length. -/
theorem TablesSized.restartAll {c : Chip} (h : TablesSized c) : TablesSized (restartAll c) := by
  simp only [TablesSized, tableSizes, List.cons.injEq] at h ⊢
  simp [Machine.restartAll, Si.restart, Tc.restart, De.power, Lh.restart, Ba.restart, Ba.power, Td.restart, Ag.restart,
    Ag.power, Ma.restart, h]

theorem TablesSized.power (b g) : TablesSized (Chip.power b g) := by
  simp [TablesSized, tableSizes, Chip.power, Si.power, Tc.power, De.power, Lh.power, Ba.power, Td.power, Ag.power, Ma.power]

/-! ## Requests -/

theorem length_putEntries {α : Type} (f : α → List Word → α) (es) (l : List α) :
    (putEntries f es l).length = l.length := by
  unfold putEntries
  induction es generalizing l with
  | nil => rfl
  | cons e es ih => rw [List.foldl_cons, ih, List.length_modify]

theorem sizes_refreshUnsent (b) (c : Chip) : tableSizes (refreshUnsent b c) = tableSizes c :=
  sizes_foldl (fun c x => by split <;> simp) _ c

theorem sizes_writeEntries (t es) (c : Chip) : tableSizes (writeEntries t es c).1 = tableSizes c := by
  cases t with
  | channelMap =>
    unfold writeEntries writeMap
    dsimp only
    split
    · have r (q) (e : Chip) : tableSizes (rederiveRole q e) = tableSizes e := by unfold rederiveRole; split <;> simp
      have w (i k) (e : Chip) : tableSizes (tellWritten i k e) = tableSizes e := by unfold tellWritten; split <;> simp
      refine (sizes_foldl (fun d x => (r _ _).trans ((r _ _).trans ((w _ _ _).trans (w _ _ _)))) _ _).trans ?_
      have l := length_putEntries (fun (_ : IntakeChan) ws => { cfg := intakeOf ws, dyn := .clear }) es c.si.chans
      simp only [tableSizes, l, doseZonesAfter, List.length_mapIdx]
    · rfl
  | tracks =>
    unfold writeEntries writeTracks
    dsimp only
    split
    · refine (sizes_refreshUnsent _ _).trans (Eq.trans ?_ (sizes_foldl (fun d (x : Nat × List Word) => sizes_stopChannel x.1 d) es c))
      simp [tableSizes, length_putEntries]
    · rfl
  | line =>
    unfold writeEntries writeLine
    dsimp only
    split
    · exact (sizes_recover _).trans ((sizes_refreshUnsent _ _).trans rfl)
    · rfl
  | _ =>
    simp only [writeEntries, writeGeometry, writeGuards, writeRecipes, writeShuttles, writeRoutes, writeAuthority]
    repeat' split
    all_goals simp [tableSizes, length_putEntries, evalStopN]

theorem sizes_writeTable (t f n ws) (c : Chip) : tableSizes (writeTable t f n ws c).1 = tableSizes c := by
  unfold writeTable
  repeat' split
  all_goals first | rfl | exact sizes_writeEntries _ _ _

theorem sizes_setMode (m) (c : Chip) : tableSizes (setMode m c).1 = tableSizes c := by
  rcases setMode_cases m c with e | e | e <;> rw [e]
  · rfl
  · rw [sizes_resendUnsent, sizes_arbitrate]; rfl

theorem sizes_changeHold (k id f) (c : Chip) : tableSizes (changeHold k id f c).1 = tableSizes c := by
  have p (id f) : tableSizes (holdPallet id f c) = tableSizes c := by
    unfold holdPallet
    repeat' split
    all_goals simp
  have l (i b) : tableSizes (holdLot i b c) = tableSizes c :=
    (sizes_foldl (fun c x => sizes_evalDestination x c) _ _).trans (sizes_modLot ..)
  unfold changeHold
  repeat' first | split | dsimp only
  all_goals simp [p, l]

theorem sizes_openLot (n i) (c : Chip) : tableSizes (openLot n i c).1 = tableSizes c := by
  have k (d : Chip) (i) (l) : tableSizes { d with lh := { d.lh with lots := d.lh.lots.set i l } } = tableSizes d := by
    simp [tableSizes]
  unfold openLot
  repeat' first | split | dsimp only
  all_goals first | rfl | exact (k _ _ _).trans (sizes_drainLot ..) | exact k _ _ _

theorem sizes_readRecordOf (k id) (c : Chip) : tableSizes (readRecordOf k id c).1 = tableSizes c := by
  have f (o) : (found c o).1 = c := by unfold found; split <;> rfl
  have i (n id o) : (indexed c n id o).1 = c := by unfold indexed; split; rfl; exact f _
  unfold readRecordOf
  repeat' split
  all_goals first
    | rw [f]
    | rw [i]
    | rfl
    | skip
  next c1 w e =>
    unfold signedWord at e
    split at e
    · rw [show c1 = c from (congrArg Prod.fst e).symm]
    · rw [show c1 = _ from (congrArg Prod.fst e).symm]; simp

theorem sizes_executeWith {mine : Request → Bool} {run : Request → Chip → Chip} (c : Chip)
    (k : ∀ r d, tableSizes (run r d) = tableSizes d) : tableSizes (executeWith mine run c) = tableSizes c := by
  unfold executeWith
  repeat' split
  all_goals first
    | rfl
    | exact k _ _
    | simp

theorem sizes_replyWith {f : Request → Chip → Reply} {r : Request} {c : Chip}
    (k : tableSizes (f r c).1 = tableSizes c) : tableSizes (replyWith f r c) = tableSizes c := by
  unfold replyWith
  split
  next c1 st ws e =>
    rw [e] at k
    simpa using k

theorem sizes_runReadRecord (r) (c : Chip) : tableSizes (runReadRecord r c) = tableSizes c := by
  unfold runReadRecord
  repeat' first | split | dsimp only
  all_goals first | (simp; done) | rfl | exact sizes_replyWith (sizes_readRecordOf ..)

theorem sizes_runRestart (r) (c : Chip) : tableSizes (runRestart r c) = tableSizes c := by
  have k := sizes_rpHand (answerPart r .ok [] true 0) c
  unfold runRestart
  split
  next c1 b e => rw [e] at k; exact k

end Sys2Proof.Machine
end

