-- ==== Sys2Proof/WellFormed.lean ====
section
/-! DEFINITION. Which commands are well formed: operands that name something the part has, and transfers no longer
than the link and the trace memory carry. -/

namespace Sys2Proof

/-- The checks a command's operands must pass. -/
def Instr.wellFormed : Instr → Bool
  | .powerOnReset => true
  | .rstNRise _ => true
  | .bypAssert => true
  | .bypDeassert => true
  | .downstreamRxFrame bytes => decide (bytes.length ≤ 1500)
  | .headerEnd _ => true
  | .receptionComplete payload _ => decide (payload.length ≤ 1495)
  | .actuateFrameCheck => true
  | .transmitComplete => true
  | .returnTimeout _ => true
  | .recoveryTimerExpiry => true
  | .freshnessTimerExpiry channel => decide (channel < 48)
  | .staleHoldTimerExpiry channel => decide (channel < 48)
  | .millisecondPointDue => true
  | .bagDeadline slot => decide (slot < 4)
  | .shuttleDeadlineExpiry shuttle => decide (shuttle < 4)
  | .confirmationDeadline entry => decide (entry < 8)
  | .assemblyTimeout => true
  | .lotReportRetry => true
  | .deliveryReportRetry => true
  | .alertRetry => true
  | .placeWriteComplete storeErr readErr => decide (storeErr.length ≤ 72 ∧ readErr.length ≤ 72)
  | .rewriteComplete readErr storeErr verifyErr =>
    decide (readErr.length ≤ 72 ∧ storeErr.length ≤ 72 ∧ verifyErr.length ≤ 72)
  | .traceReadComplete readErr => decide (readErr.length ≤ 72)
  | .warmRestart => true
  | .warmRestartComplete => true
  | .readStatus => true
  | .readTable => true
  | .writeChannelMap _ => true
  | .writeTrackChannels _ => true
  | .writeStageGeometry _ => true
  | .writeGuardTable _ => true
  | .writeRecipes _ => true
  | .writeShuttleTable _ => true
  | .writeAlertRoutes _ => true
  | .writeLineConfiguration _ => true
  | .writeAuthorityList _ => true
  | .setMode _ => true
  | .openLot _ => true
  | .closeLot _ => true
  | .placeHold _ => true
  | .releaseHold _ => true
  | .readRecord => true
  | .list => true
  | .startChannel _ => true
  | .stopChannel _ => true
  | .enableShuttle _ => true
  | .requeuePallet _ => true
  | .clearAlerts _ => true
  | .restart _ => true

end Sys2Proof
end

