-- ==== Sys2Proof/Tests/Slice0.lean ====
section
/-! SUPPORT. Tests: ill-formed commands refused, witnesses of the statements' hypotheses, figures of the spec, and one
step of each kind of command. -/

namespace Sys2Proof.Tests

set_option Elab.async false

open Sys2Proof Sys2Proof.Machine

/-! ## Small states -/

/-- A running part, node 9, CFG high, with an empty place index. -/
def live : Chip :=
  { Chip.power false true with
    pins := { rstN := true, running := true, node := 9, byp := false, cfg := true, rly := true, stopN := true }
    tm := { Tm.power with places := [] } }

def withRp (f : Rp → Rp) (c : Chip) : Chip := { c with rp := f c.rp }
def withTm (f : Tm → Tm) (c : Chip) : Chip := { c with tm := f c.tm }
def withMa (f : Ma → Ma) (c : Chip) : Chip := { c with ma := f c.ma }
def withBa (f : Ba → Ba) (c : Chip) : Chip := { c with ba := f c.ba }
def withAg (f : Ag → Ag) (c : Chip) : Chip := { c with ag := f c.ag }
def withTd (f : Td → Td) (c : Chip) : Chip := { c with td := f c.td }
def withSt (f : St → St) (c : Chip) : Chip := { c with st := f c.st }
def withLh (f : Lh → Lh) (c : Chip) : Chip := { c with lh := f c.lh }
def inMode (m : Mode) (c : Chip) : Chip := withAg (fun a => { a with mode := m }) c
def inRing (r : RingState) (c : Chip) : Chip := withRp (fun p => { p with ring := r }) c
def atTime (ms : Word) (line : Nat) (c : Chip) : Chip := { c with clock := { ms := ms, line := line, sub := 0 } }

def at_ (c : Chip) : State := { pending := [], mem := [], chip := c }

/-- One intake channel, number 0. -/
def intake0 (cfg : IntakeCfg) (dyn : IntakeDyn) (c : Chip) : Chip :=
  { c with si := { c.si with chans := [{ cfg := cfg, dyn := dyn }] } }

/-- One track channel, number 0. -/
def track0 (cfg : TrackCfg) (dyn : TrackDyn) (c : Chip) : Chip :=
  { c with tc := { c.tc with chans := [{ cfg := cfg, dyn := dyn }] } }

def record0 : BagRecord :=
  { seq := 258, lot := 1, lotNumber := 7, made := 100, epoch := 0, epochPresent := false, net := some (-2),
    codeFail := some false, metalFail := none, rejected := false, reasons := 0, draws := [{ segment := 513, grams := 400 }],
    hold := HoldReason.manual.only, pallet := some 5 }

def pallet0 : Pallet :=
  { id := 5, lot := 0, state := .closed, short := false, bags := 48, cases := 4, firstPlace := none, lastPlace := none,
    hold := 0, closeTime := some 0, exposure := 0, dest := some .store, shuttle := none, reportPending := false,
    expTime := 0, expTemp := 50, exhausted := false, delDest := none, delTime := none, report := .none, revision := 0,
    serial := 0 }

def lot0 : Lot := { newLot 77 0 0 with state := .opened }

def segment0 : Segment :=
  { id := 3, lot := 0, head := some 0, nominal := 1000, remaining := 1000, cutTime := 0, blanchExit := none,
    freezerEntry := none, freezerExit := none, zone := some 0, zoneEntry := some 0, credited := some 0, dose := 0,
    flags := { gap := false, aboveTable := false, overblanch := false, massEst := false }, warmChill := 0, warmest := none,
    disp := .pending, hold := 0 }

def slot0 : Slot :=
  { state := .gathering, seq := 4, lot := 0, madeLine := 0, madeMs := 0, deadline := 2000, weight := none,
    codeFail := none, metalFail := none, conflict := 0, draws := [], hold := 0, tail := false, decision := .gathering,
    reasons := 0, pallet := none, record := none, order := 0 }

def shuttle0 : Shuttle :=
  { Shuttle.power with written := true, point := 0x0501, load := 60, airlock := 60, delivery := 60, state := .assigned,
                       enabled := true, pallet := some 5, deadline := some 600 }

def confirm0 : Confirm := { point := 2, value := 1, source := .pause, serves := none, deadline := 100 }

def own (k : FrameKind) : OwnFrame := { kind := k, dest := 1, items := [], source := .ownActuation }

def header0 : Header := { kind := 1, origin := 3, dest := 255, seq := 0, count := 1 }

def entry0 (receiving unchecked : Bool) : ForwardEntry :=
  { frame := { kind := .actuate, origin := 3, dest := 4, seq := 0, items := [] }, receiving := receiving,
    unchecked := unchecked }

def request (code : Byte) (ws : List Word) : Request := { origin := 17, tag := 5, code := code, words := ws }

def asking (r : Request) : Chip := withMa (fun m => { m with queue := [r] }) live

/-! ## Ill-formed commands -/

theorem test_rejects_downstream_too_long : (Instr.downstreamRxFrame (List.replicate 1501 0)).wellFormed = false := by
  simp only [Instr.wellFormed, List.length_replicate]; decide

theorem test_rejects_payload_too_long :
    (Instr.receptionComplete (List.replicate 1496 0) true).wellFormed = false := by
  simp only [Instr.wellFormed, List.length_replicate]; decide

theorem test_rejects_channel_beyond_47 :
    (Instr.freshnessTimerExpiry 48).wellFormed = false ∧ (Instr.staleHoldTimerExpiry 48).wellFormed = false ∧
      (Instr.freshnessTimerExpiry 47).wellFormed = true := by decide

theorem test_rejects_slot_shuttle_entry :
    (Instr.bagDeadline 4).wellFormed = false ∧ (Instr.shuttleDeadlineExpiry 4).wellFormed = false ∧
      (Instr.confirmationDeadline 8).wellFormed = false := by decide

theorem test_rejects_long_masks :
    (Instr.placeWriteComplete (List.replicate 73 0) []).wellFormed = false ∧
    (Instr.placeWriteComplete [] (List.replicate 73 0)).wellFormed = false ∧
    (Instr.rewriteComplete (List.replicate 73 0) [] []).wellFormed = false ∧
    (Instr.rewriteComplete [] (List.replicate 73 0) []).wellFormed = false ∧
    (Instr.rewriteComplete [] [] (List.replicate 73 0)).wellFormed = false ∧
    (Instr.traceReadComplete (List.replicate 73 0)).wellFormed = false := by simp [Instr.wellFormed]

/-- The opcode table gives no bits, so no word spells a command. -/
theorem test_no_word_spells_a_command : decodeTableWord 0 0 = none ∧ decodeTableWord 32 0xFFFFFFFF = none := by decide

theorem test_fetch_word_changes_nothing : State.reset.withFetchWord 32 1 = State.reset := rfl

/-! ## Witnesses: the step, resets, what every step keeps -/

theorem test_witness_IdleStepLetsTimePass :
    (State.reset.pending = [] ∧ State.reset.chip.pins.running = false) ∧
    ((at_ (withMa (fun m => { m with phase := .restartReady }) live)).chip.pins.running = true ∧
      nextDue (withMa (fun m => { m with phase := .restartReady }) live) = some .warmRestart) ∧
    ((at_ live).chip.pins.running = true ∧ nextDue live = none) ∧
    nextDue { live with clock := { ms := 99, line := 0, sub := 99 } } = none := by
  refine ⟨⟨rfl, rfl⟩, ⟨rfl, rfl⟩, ⟨rfl, rfl⟩, rfl⟩

theorem test_witness_PowerOnSegments :
    (at_ (withMa (fun m => { m with phase := .restartReady }) live)).chip.pins.running = true ∧
    (at_ (withMa (fun m => { m with phase := .restartReady }) live)).chip.ma.phase = .restartReady := by decide

theorem test_witness_MemoryStaysCanonical : MemoryWf State.reset ∧ ∃ t, step State.reset = .next t :=
  ⟨rfl, _, rfl⟩

theorem test_witness_PlacesStayInTable : PlacesInTable State.reset.chip ∧ ∃ t, step State.reset = .next t :=
  ⟨PlacesInTable.power false false, _, rfl⟩

theorem test_witness_RingStateStaysTrue : RingAgrees State.reset.chip ∧ ∃ t, step State.reset = .next t :=
  ⟨RingAgrees.power false false, _, rfl⟩

theorem test_witness_TablesKeepTheirSizes : TablesSized State.reset.chip ∧ ∃ t, step State.reset = .next t :=
  ⟨TablesSized.power false false, _, rfl⟩

theorem test_witness_EveryCommandGoesOn : PlacesInTable State.reset.chip := PlacesInTable.power false false

theorem test_witness_StopsOutsideTraceMemory :
    (1024 ≤ 1024 ∧ (at_ live).chip.pins.running = true) ∧
    (withTm (fun t => { t with spi := some (.write 1024 record0) }) live).tm.spi = some (.write 1024 record0) ∧
    (withTm (fun t => { t with spi := some (.rewrite 1024 0) }) live).tm.spi = some (.rewrite 1024 0) ∧
    (withTm (fun t => { t with spi := some (.read 1024 .archived) }) live).tm.spi = some (.read 1024 .archived) := by
  decide

theorem test_witness_CommandsLeaveTheQueue : ∃ t, exec .powerOnReset State.reset = .next t := ⟨_, rfl⟩

theorem test_witness_StoresStayInTheirPlace :
    (∃ t, exec .powerOnReset State.reset = .next t) ∧
    (∃ t, exec (.placeWriteComplete [] []) (at_ (withTm (fun t => { t with spi := some (.write 1023 record0) }) live)) =
      .next t) ∧
    (∃ t, exec (.rewriteComplete [] [] []) (at_ (withTm (fun t => { t with spi := some (.rewrite 0 0) }) live)) =
      .next t) ∧
    (State.reset.chip.pins.running = false ∧ ∃ t, exec (.placeWriteComplete [] []) State.reset = .next t) ∧
    (live.tm.spi = none ∧ ∃ t, exec (.rewriteComplete [] [] []) (at_ live) = .next t) :=
  ⟨⟨_, rfl⟩, ⟨_, rfl⟩, ⟨_, rfl⟩, ⟨rfl, _, rfl⟩, ⟨rfl, _, rfl⟩⟩

theorem test_witness_HeldPartIgnoresCommands : State.reset.chip.pins.running = false ∧
    Instr.readStatus ≠ .powerOnReset ∧ Instr.readStatus ≠ .bypAssert ∧ Instr.readStatus ≠ .bypDeassert ∧
    ∀ n, Instr.readStatus ≠ .rstNRise n := ⟨rfl, nofun, nofun, nofun, nofun⟩

/-! ## Witnesses: pins -/

theorem test_witness_RiseOfResetStartsPart :
    (State.reset.chip.pins.rstN = false ∧ (1 : Byte) ≠ 0 ∧ (1 : Byte) ≠ 255 ∧ (254 : Byte) ≠ 0 ∧ (254 : Byte) ≠ 255 ∧
      State.reset.chip.pins.byp = false) ∧
    ((at_ (Chip.power true false)).chip.pins.rstN = false ∧ (at_ (Chip.power true false)).chip.pins.byp = true) ∧
    (at_ live).chip.pins.rstN = true := by decide

/-- A part with BYP high, isolated, at given counts. -/
def bypassed (rx tx : Nat) (recovery : Option Word) : Chip :=
  withRp (fun p => { p with ring := .isolated, rxErr := rx, txErr := tx, recovery := recovery })
    { live with pins := { live.pins with byp := true, rly := false } }

theorem agrees (c : Chip) (r : c.pins.running = true) (a : c.rp.rxErr ≤ 255) (b : c.rp.txErr ≤ 263)
    (d : c.rp.recovery.isSome = true ↔ 256 ≤ c.rp.txErr ∧ c.rp.rxErr = 0)
    (e : c.rp.ring = ringStateOf c.rp.txErr c.rp.rxErr c.pins.byp) : RingAgrees c :=
  { rx := a, tx := b, recovery := d, runs := fun _ => e, held := fun h => absurd (r.symm.trans h) (by decide) }

theorem test_witness_BypassFollowsItsPin :
    (live.pins.running = true ∧ live.rp.ring ≠ .isolated) ∧
    ((bypassed 0 0 none).pins.running = true ∧ (bypassed 0 0 none).rp.ring = .isolated) ∧
    (RingAgrees (bypassed 0 256 (some 0)) ∧ (bypassed 0 256 (some 0)).pins.byp = true) ∧
    (RingAgrees (bypassed 255 255 none) ∧ RingAgrees (bypassed 0 128 none) ∧ RingAgrees (bypassed 128 0 none)) ∧
    RingAgrees (bypassed 127 127 none) ∧ (RingAgrees live ∧ live.pins.byp = false) ∧
    State.reset.chip.pins.running = false := by
  refine ⟨by decide, by decide, ⟨agrees _ ?_ ?_ ?_ ?_ ?_, by decide⟩,
    ⟨agrees _ ?_ ?_ ?_ ?_ ?_, agrees _ ?_ ?_ ?_ ?_ ?_, agrees _ ?_ ?_ ?_ ?_ ?_⟩, agrees _ ?_ ?_ ?_ ?_ ?_,
    ⟨agrees _ ?_ ?_ ?_ ?_ ?_, by decide⟩, by decide⟩ <;> decide

theorem sized_live : TablesSized live := TablesSized.power false true

theorem test_witness_IsolationEmptiesTheRingPort :
    live.pins.running = true ∧ live.rp.ring ≠ .isolated ∧ TablesSized live := ⟨by decide, by decide, sized_live⟩

/-! ## Witnesses: the ring port -/

/-- The state of the ring that the counts ask for, as the statement writes it. -/
def asksFor (byp : Bool) (rx tx : Nat) : RingState :=
  if byp = true ∨ 256 ≤ tx then .isolated else if 127 < tx ∨ 127 < rx then .passive else .active

theorem test_witness_RingStateFollowsErrorCounts :
    (live.rp.ring = .active ∧ asksFor live.pins.byp 127 127 = .active) ∧
    (asksFor live.pins.byp 128 0 = .passive ∧ asksFor live.pins.byp 0 128 = .passive) ∧
    ((inRing .passive live).rp.ring = .passive ∧ asksFor live.pins.byp 0 0 = .active) ∧
    ((inRing .passive live).rp.ring ≠ .isolated ∧ asksFor live.pins.byp 0 256 = .isolated) ∧
    ((inRing .isolated live).rp.ring = .isolated ∧ asksFor live.pins.byp 0 255 = .passive) := by decide

theorem test_witness_FramesOutOfTurnAreDiscarded :
    (live.pins.running = true ∧ live.rp.rx = none) ∧
    (withRp (fun p => { p with rx := some { header := header0, fwd := .notForwarded } }) live).rp.rx =
      some { header := header0, fwd := .notForwarded } := by decide

theorem test_witness_HeaderDecidesForwarding :
    (live.pins.running = true ∧ live.rp.rx = none) ∧ (inRing .isolated live).rp.ring = .isolated ∧
    ((0 : Byte).toNat = 0 ∧ 7 < (8 : Byte).toNat ∧ 16 < (17 : Byte).toNat) ∧
    (frameKind? 1 = some .sample ∧ frameKind? 7 = some .time ∧ live.rp.ring ≠ .isolated ∧ 1 ≤ header0.count.toNat ∧
      (16 : Byte).toNat ≤ 16 ∧ header0.origin ≠ live.pins.node ∧ header0.dest ≠ live.pins.node) ∧
    (live.rp.forward = [] ∧ live.rp.tx = none) ∧
    (withRp (fun p => { p with forward := List.replicate 7 (entry0 false true) }) live).rp.forward.length < 8 ∧
    8 ≤ (withRp (fun p => { p with forward := List.replicate 8 (entry0 false true) }) live).rp.forward.length := by
  decide

/-- A frame in reception. -/
def receiving : Chip := withRp (fun p => { p with rx := some { header := header0, fwd := .notForwarded } }) live

theorem test_witness_ReceptionCountsAndDisposes :
    (receiving.pins.running = true ∧ receiving.rp.rx = some { header := header0, fwd := .notForwarded }) ∧
    goodItems header0 [1, 2, 3, 4, 5, 6, 0] false = none ∧ goodItems header0 [1, 2, 3, 4, 5, 6] true = none ∧
    (goodItems header0 [1, 2, 3, 4, 5, 6, 0] true = some [{ key := 0x0102, value := 0x03040506, quality := 0 }] ∧
      frameKind? header0.kind = some .sample) := by decide

def return0 : ReturnEntry := { seq := 3, kind := .alert, sentAt := 0, isRestart := false }

/-- A part that waits for the return of one frame. -/
def waiting (ms : Word) : Chip := atTime ms 0 (withRp (fun p => { p with returnList := [return0] }) live)

theorem test_witness_ReturnedFrameLeavesTheList :
    (waiting 0).rp.returnList = [] ++ return0 :: [] ∧ return0.seq = 3 ∧ return0.kind = .alert ∧
    live.rp.returnList = [] ∧ ∀ x ∈ (waiting 0).rp.returnList, ¬ (x.seq = 4 ∧ x.kind = .alert) := by decide

theorem test_witness_ExpiredEntryAddsEight :
    ((waiting 10).pins.running = true ∧ (waiting 10).rp.returnList = [] ++ return0 :: [] ∧
      reached (waiting 10).clock.ms (return0.sentAt + BitVec.ofNat 32 (waiting 10).ma.config.returnTimeout) = true) ∧
    ∀ x ∈ (waiting 9).rp.returnList, ¬ (x.seq = 3 ∧
      reached (waiting 9).clock.ms (x.sentAt + BitVec.ofNat 32 (waiting 9).ma.config.returnTimeout) = true) := by decide

/-- A part isolated by its transmit errors, its recovery timer running from 0. -/
def recovering (byp : Bool) (ms : Word) : Chip :=
  atTime ms 0 (withRp (fun p => { p with ring := .isolated, txErr := 263, recovery := some 0 })
    { live with pins := { live.pins with byp := byp } })

theorem test_witness_RecoveryClearsTheCounts :
    (RingAgrees (recovering false 60000) ∧ RingAgrees (recovering true 60000)) ∧
    (recovering false 60000).rp.recovery = some 0 ∧
    reached (recovering false 60000).clock.ms (0 + BitVec.ofNat 32 (1000 * live.ma.config.recovery)) = true ∧
    reached (recovering false 59999).clock.ms (0 + BitVec.ofNat 32 (1000 * live.ma.config.recovery)) = false := by
  refine ⟨⟨agrees _ ?_ ?_ ?_ ?_ ?_, agrees _ ?_ ?_ ?_ ?_ ?_⟩, ?_, ?_, ?_⟩ <;> decide

def held0 : Chip := withRp (fun p => { p with forward := [entry0 false true] }) live

theorem test_witness_HeldFrameIsRebuilt :
    (held0.pins.running = true ∧ held0.rp.forward = [] ++ entry0 false true :: [] ∧
      checkItems (entry0 false true).frame.items held0 = (held0, [])) ∧
    (live.pins.running = true ∧ live.rp.forward = []) := ⟨⟨rfl, rfl, rfl⟩, rfl, rfl⟩

def leaving0 (body : Option (List Byte)) : Chip :=
  withRp (fun p => { p with tx := some { header := header0, body := body, badCheck := false } }) live

theorem test_witness_TransmitterIsGranted :
    ((leaving0 (some [])).pins.running = true ∧
      (leaving0 (some [])).rp.tx = some { header := header0, body := some [], badCheck := false }) ∧
    (leaving0 none).rp.tx = some { header := header0, body := none, badCheck := false } ∧
    ((inRing .isolated live).rp.ring = .isolated ∧ (leaving0 none).rp.tx.isSome = true) ∧
    (live.rp.ring ≠ .isolated ∧ live.rp.tx = none ∧
      (withRp (fun p => { p with forward := [entry0 false false] }) live).rp.forward = entry0 false false :: []) ∧
    (live.rp.forward = [] ∧ (List.replicate 15 return0).length < 16 ∧
      (withRp (fun p => { p with txQueue := [own .alert] }) live).rp.txQueue = [] ++ own .alert :: [] ∧
      ¬ ((own .alert).kind = .report ∧ live.rp.ring = .passive)) ∧
    (16 ≤ (List.replicate 16 return0).length ∧ live.rp.txQueue = []) := by decide

def queued (n : Nat) (k : FrameKind) : Chip := withRp (fun p => { p with txQueue := List.replicate n (own k) }) live

theorem test_witness_TransmitQueueKeepsClassOrder :
    (inRing .isolated live).rp.ring = .isolated ∧
    ((inRing .passive live).rp.ring = .passive ∧ (own .report).kind = .report) ∧
    (live.rp.ring ≠ .isolated ∧ (queued 31 .report).rp.txQueue.length < 32) ∧
    ((queued 32 .report).rp.txQueue = List.replicate 31 (own .report) ++ [own .report] ∧ (own .alert).kind = .alert) ∧
    (32 ≤ (queued 32 .actuate).rp.txQueue.length ∧ (own .mgmtAns).kind = .mgmtAns ∧
      (queued 32 .actuate).rp.txQueue.getLast? = some (own .actuate)) ∧
    ([own .actuate, own .alert].Pairwise fun a b => classRank a.kind ≤ classRank b.kind) := by decide

theorem test_witness_GrantsLeaveTheLineAlone :
    (leaving0 none).rp.tx.isSome = true ∧
    (withTm (fun t => { t with spi := some (.rewrite 0 0) }) (leaving0 none)).tm.spi.isSome = true := by decide

def pendingOne : Chip :=
  withMa (fun m => { m with pending := m.pending.set 8 (some { count := 65535, subjectType := .bag, subject := 4,
                                                               line := 0, unsent := false }) }) live

def routedOne : Chip := withMa (fun m => { m with routes := m.routes.set 8 { dest := some 20, stop := true } }) live

theorem test_witness_RaisedAlertIsPending :
    (TablesSized pendingOne ∧ (pendingAlert pendingOne .bagOverrun).isSome = true) ∧
    (TablesSized live ∧ pendingAlert live .bagOverrun = none ∧ (routeOf live .bagOverrun).dest = none) ∧
    (TablesSized routedOne ∧ pendingAlert routedOne .bagOverrun = none ∧
      (routeOf routedOne .bagOverrun).dest = some 20 ∧ (rpOffer (own .alert) routedOne).2 ≠ .overflow) :=
  ⟨⟨rfl, rfl⟩, ⟨sized_live, rfl, rfl⟩, rfl, rfl, rfl, by decide⟩

/-! ## Witnesses: sample intake, track channels -/

def map0 (r : Role) : IntakeCfg :=
  { IntakeCfg.power with enabled := true, filter := 0x0305, mask := 0xFFFF, role := some r, offset := 10, gain := 2048,
                         low := -500, high := 1500, freshTimeout := 5, staleTimeout := 30 }

def item0 (q : Byte) : Item := { key := 0x0305, value := 100, quality := q }

theorem test_witness_LowestMatchingEntryTakesItem :
    ((intake0 (map0 .chillTemp) .clear live).si.chans[0]? = some { cfg := map0 .chillTemp, dyn := .clear } ∧
      (map0 .chillTemp).enabled = true ∧ ((item0 0).key ^^^ (map0 .chillTemp).filter) &&& (map0 .chillTemp).mask = 0) ∧
    ((item0 0).quality = 0 ∧ (item0 1).quality = 1 ∧ (item0 2).quality ≠ 0 ∧ (item0 2).quality ≠ 1) ∧
    ∀ m ∈ live.si.chans, m.cfg.enabled = false := by decide

theorem test_witness_TemperatureIsConverted :
    ((map0 (.zoneTemp 5)).role = some (.zoneTemp 5) ∧ (map0 .chillTemp).role = some .chillTemp ∧
      (map0 .exitTemp).role = some .exitTemp ∧ (map0 .dockTemp).role = some .dockTemp) ∧
    { map0 .chillTemp with gain := 1024, offset := 0 }.gain = 1024 ∧ { map0 .chillTemp with gain := 0 }.gain = 0 ∧
    { map0 .chillTemp with gain := -1 }.gain < 0 := by decide

theorem test_witness_OtherRolesPassUnconverted :
    (map0 .infeedMass).role = some .infeedMass ∧ (map0 (.encoder none)).role = some (.encoder none) ∧
    (map0 .marker).role = some .marker ∧ (map0 .bagMade).role = some .bagMade ∧
    (map0 (.shuttleStatus 3)).role = some (.shuttleStatus 3) ∧ (map0 (.pointEcho 7)).role = some (.pointEcho 7) := by
  decide

def silent (d : IntakeDyn) (line : Nat) : Chip := atTime 0 line (intake0 (map0 .exitTemp) d live)

theorem test_witness_SilentChannelBecomesStale :
    ((silent { IntakeDyn.clear with freshTimer := some 5 } 5).si.chans[0]?.bind (·.dyn.freshTimer)) = some 5 ∧
    5 ≤ (silent { IntakeDyn.clear with freshTimer := some 5 } 5).clock.line ∧
    ((silent { IntakeDyn.clear with staleTimer := some 5 } 5).si.chans[0]?.bind (·.dyn.staleTimer)) = some 5 ∧
    (silent { IntakeDyn.clear with freshTimer := some 5, staleTimer := some 5 } 4).clock.line < 5 := by decide

theorem test_witness_EncoderHandsPositiveDeltas :
    (IntakeDyn.clear.ref = none) ∧
    (((0 : BitVec 16).toNat + 65536 - (65535 : BitVec 16).toNat) % 65536 = 1 ∧
      ((7 : BitVec 16).toNat + 65536 - (7 : BitVec 16).toNat) % 65536 = 0 ∧
      ((32767 : BitVec 16).toNat + 65536 - (0 : BitVec 16).toNat) % 65536 = 32767 ∧
      ((32768 : BitVec 16).toNat + 65536 - (0 : BitVec 16).toNat) % 65536 = 32768) := by decide

/-- A part in PRODUCTION with an echo channel for point 2, and `n` confirmations pending. -/
def echoing (n : Nat) : Chip :=
  withAg (fun a => { a with mode := .production, confirms := List.replicate n confirm0 })
    (intake0 (map0 (.pointEcho 2)) .clear live)

theorem test_witness_SentValueHasItsOutcome :
    (inRing .isolated live).rp.ring = .isolated ∧
    (live.rp.ring ≠ .isolated ∧ live.ag.mode ≠ .production ∧ (inMode .commission live).ag.mode ≠ .production) ∧
    ((inMode .production live).ag.mode = .production ∧ (rpHand (own .actuate) (inMode .production (queued 32 .actuate))).2 = false) ∧
    ((rpHand (own .actuate) (inMode .production live)).2 = true ∧ findRole (inMode .production live) (.pointEcho 2) = none) ∧
    ((rpHand (own .actuate) (echoing 7)).2 = true ∧ (findRole (echoing 7) (.pointEcho 2)).isSome = true ∧
      (echoing 7).ag.confirms.length < 8 ∧ 8 ≤ (echoing 8).ag.confirms.length) := by
  decide

def interval0 : TrackCfg := { TrackCfg.power with mode := .interval, source := .milliseconds, length := 10 }

def interval (ms : Word) : Chip := atTime ms 0 (track0 interval0 { TrackDyn.clear with state := .running, nextFire := 10 } live)

theorem test_witness_MillisecondPointFiresInterval :
    (millisecondDue (interval 9) = false ∧ (interval 9).pins.running = true) ∧
    (reached (interval 10).clock.ms 10 = true ∧ ((19 : Word) - 10).toNat < interval0.length) ∧
    (∀ m, m < 8 → m ≠ 0 → (trackChan (interval 10) m).cfg.source ≠ .milliseconds) ∧
    ∀ m, m < 8 → triggerOf (trackChan (interval 10) m) ≠ some (.master 0) := by decide

/-! ## Witnesses: segments, bags -/

def recipe0 : Recipe :=
  { Recipe.power with valid := true, tbase := 700, table := 100 :: 200 :: List.replicate 62 300, target := 10, exitLimit := -180,
                      budget := 1, assumedDock := 50, expReference := 40, bagTarget := 400, under := 10, overweight := 10 }

/-- A part with one segment in each of BLANCH, one lot and one recipe. -/
def line0 (g : Segment) (line : Nat) : Chip :=
  atTime 0 line (withLh (fun h => { h with recipes := [recipe0], lots := [some lot0] })
    (withSt (fun s => { s with qBlanch := [g] }) live))

theorem test_witness_CreditAddsRateTimesInterval :
    (segmentIn (line0 segment0 50) .blanch 3 = some segment0 ∧ recipeOfLot (line0 segment0 50) 0 = recipe0) ∧
    ((line0 segment0 50).clock.line - max 0 0 = 50 ∧ (line0 segment0 51).clock.line - max 0 0 = 51) ∧
    ((699 : Int) < recipe0.tbase ∧ recipe0.tbase ≤ 700 ∧ (1015 : Int) - recipe0.tbase ≤ 315 ∧
      315 < (1016 : Int) - recipe0.tbase) ∧
    ((702 : Int) - recipe0.tbase = (5 * 0 + 2 : Nat) ∧
      (140 : Nat) = recipe0.table.getD 0 0 + (recipe0.table.getD 1 0 - recipe0.table.getD 0 0) * 2 / 5) ∧
    recipe0.table.getD 63 0 = 300 := by decide

theorem test_witness_DecisionPointsJudgeSegments :
    (segmentAt (line0 segment0 0) 3 = some segment0 ∧ segment0.warmest = none ∧ segment0.hold.has .noExitTemp = false) ∧
    { segment0 with hold := HoldReason.noExitTemp.only }.hold.has .noExitTemp = true ∧
    ((recipeOfLot (line0 segment0 0) 0).exitLimit < -179 ∧ -180 ≤ (recipeOfLot (line0 segment0 0) 0).exitLimit) := by
  decide

theorem test_witness_PoolLowComparesReserve :
    (withMa (fun m => { m with config := { m.config with reserve := 0 } }) live).ma.config.reserve = 0 ∧
    ([1, 1, 1, 65, 50, 0, 0, 0, 0, 0, 0, 1] : List Word).length = 12 ∧
    64 < (([1, 1, 1, 65, 50, 0, 0, 0, 0, 0, 0, 1] : List Word).getD 3 0).toNat := by decide

def bagged (ms : Word) : Chip := atTime ms 0 (withBa (fun b => { b with slots := [some slot0] }) live)

theorem test_witness_BagIsDecidedAtItsDeadline :
    ((bagged 2000).pins.running = true ∧ slotAt (bagged 2000) 0 = some slot0 ∧ slot0.state = .gathering ∧
      reached (bagged 2000).clock.ms slot0.deadline = true) ∧
    (reached (bagged 1999).clock.ms slot0.deadline = false ∧ slotAt live 0 = none) ∧
    (rejectReasons { recipe0 with needWeight := true } slot0).getLsbD 0 = true ∧
    rejectReasons recipe0 { slot0 with weight := some 390 } = 0 ∧
    rejectReasons recipe0 { slot0 with weight := some 389 } = 2 ∧
    rejectReasons recipe0 { slot0 with weight := some 411, conflict := 1, tail := true } = 0xA4 := by decide

theorem test_witness_LotlessBagIsRejected : live.st.qSurge = [] ∧ openLot? live = none := by decide

/-! ## Witnesses: trace memory -/

def place0 (st : PlaceState) : Place :=
  { state := st, fields := some { seq := 258, lot := 1, pallet := some 5, rejected := false, hold := 0,
                                  freeAtCompletion := false, placed := 0 } }

/-- A part with a place index of one place. -/
def traced (st : PlaceState) (f : Tm → Tm) : Chip := withTm (fun t => f { t with places := [place0 st] }) live

theorem test_witness_SpiMasterGranted :
    (live.tm.spi = none ∧ live.tm.restart = none ∧ (withTm (fun t => { t with spi := some (.rewrite 0 0) }) live).tm.spi =
      some (.rewrite 0 0)) ∧
    ((traced .stored fun t => { t with readWaiting := some 0 }).tm.readWaiting = some 0 ∧ live.tm.lastWasRead = false ∧
      (placeAt (traced .stored id) 0).state ≠ .pending) ∧
    ((pendingWordsOf 0 (traced .pending fun t => { t with writeQueue := [{ place := 0, record := record0 }] })).isSome = true) ∧
    ((traced .pending fun t => { t with writeQueue := [{ place := 0, record := record0 }] }).tm.writeQueue =
      { place := 0, record := record0 } :: [] ∧ live.tm.readWaiting = none) ∧
    ((traced .stored fun t => { t with marks := [7, 0] }).tm.marks = [7] ++ 0 :: [] ∧
      (placeAt (traced .stored id) 7).state ≠ .stored ∧ placeAt (traced .stored id) 0 = place0 .stored) ∧
    ((traced .stored fun t => { t with readWaiting := some 0, lastWasRead := true }).tm.lastWasRead = true ∧
      live.tm.writeQueue = [] ∧ live.tm.marks = []) := by decide

theorem test_witness_CheckCodeCorrects :
    ([1, 2, 3, 4, 5, 6, 7, 8] : List Byte).length = 8 ∧
    checkWord (flipBit 63 [1, 2, 3, 4, 5, 6, 7, 8]) (checkCode [1, 2, 3, 4, 5, 6, 7, 8]) = .corrected [1, 2, 3, 4, 5, 6, 7, 8] ∧
    checkWord [1, 2, 3, 4, 5, 6, 7, 8] (checkCode [1, 2, 3, 4, 5, 6, 7, 8] ^^^ 128) = .corrected [1, 2, 3, 4, 5, 6, 7, 8] := by
  decide +kernel

theorem test_witness_PlaceWriteCompletes :
    ((traced .pending fun t => { t with spi := some (.write 0 record0) }).tm.spi = some (.write 0 record0) ∧
      live.pins.running = true ∧ live.tm.restart = none ∧ (1023 : Nat) < 1024) ∧
    Memory.wf [] = true ∧ (∀ p r, live.tm.spi ≠ some (.write p r)) := ⟨by decide, rfl, nofun⟩

theorem test_witness_PlaceRewriteCompletes :
    ((traced .stored fun t => { t with spi := some (.rewrite 0 3) }).tm.spi = some (.rewrite 0 3) ∧ live.tm.restart = none) ∧
    ((readMemory 0 [] []).1 = .good ∧ (readMemory 0 [1] []).1 = .corrected ∧ (readMemory 0 [3] []).1 = .uncorrectable) ∧
    ((placeAt (traced .stored id) 0).state = .stored ∧ (placeAt (traced .free id) 0).state ≠ .stored) ∧
    ∀ p h, live.tm.spi ≠ some (.rewrite p h) := ⟨by decide, by decide +kernel, by decide, nofun⟩

theorem test_witness_PlaceReadCompletes :
    (∃ c : Chip, c.tm.spi = some (.read 0 (place0 .stored)) ∧ c.pins.running = true ∧ c.ma.phase = .reading ∧
      c.ma.queue = [request 9 [5, 0]]) ∧ ∀ p e, live.tm.spi ≠ some (.read p e) :=
  ⟨⟨withMa (fun m => { m with phase := .reading, queue := [request 9 [5, 0]] })
      (traced .stored fun t => { t with spi := some (.read 0 (place0 .stored)) }), rfl, rfl, rfl, rfl⟩, nofun⟩

/-! ## Witnesses: transfer, guard -/

def moving (line : Nat) : Chip :=
  atTime 0 line (withTd (fun t => { t with shuttles := [shuttle0] }) (withBa (fun b => { b with pallets := [pallet0] })
    (withLh (fun h => { h with recipes := [recipe0], lots := [some lot0] }) live)))

theorem test_witness_ShuttleDeadlineFaultsTransfer :
    ((moving 600).td.shuttles[0]? = some shuttle0 ∧ shuttle0.pallet = some 5 ∧ shuttle0.deadline = some 600 ∧
      600 ≤ (moving 600).clock.line) ∧ (moving 599).clock.line < 600 := by decide

theorem test_witness_ExposureFollowsTheWarmerEnd :
    ((findRole (intake0 (map0 .dockTemp) { IntakeDyn.clear with fresh := .fresh } live) .dockTemp).isSome = true ∧
      findRole live .dockTemp = none) ∧
    (palletAt (moving 600) 5 = some pallet0 ∧
      (max pallet0.expTemp (dockTemp (moving 600) 0) - (recipeOfLot (moving 600) 0).expReference).toNat * 600 = 6000 ∧
      (recipeOfLot (moving 600) 0).budget * 6000 = 6000 ∧
      (max pallet0.expTemp (dockTemp (moving 599) 0) - (recipeOfLot (moving 599) 0).expReference).toNat * 599 < 6000) ∧
    pallet0.state = .closed := by decide

def guard0 : Guard :=
  { enabled := true, filter := 0x0400, mask := 0xFF00, cond := .always, action := .clamp, low := 5, high := 10, force := 0 }

def guarded0 (m : Mode) : Chip := withAg (fun a => { a with mode := m, guards := [guard0] }) live

/-- A part with owned point 0 in use. -/
def owning (m : Mode) : Chip :=
  inMode m (track0 { TrackCfg.power with mode := .gate, output := some { key := 0x0401, onValue := 1, offValue := 0, timeout := 50 } }
    .clear live)

theorem test_witness_GuardDecidesItems :
    (live.ag.mode = .offline) ∧
    ((owning .production).ag.mode ≠ .offline ∧ ownedByKey (owning .production) 0x0401 = some 0 ∧
      ownedByKey (owning .commission) 0x0401 = some 0) ∧
    (ownedByKey (guarded0 .production) 0x0501 = none ∧ decidingGuard (guarded0 .production) 0x0501 = none) ∧
    (ownedByKey (guarded0 .production) 0x0401 = none ∧ decidingGuard (guarded0 .production) 0x0401 = some (guard0, 0)) ∧
    (guardVerdict live guard0 4 = (some 5, some .clamp) ∧ guardVerdict live guard0 5 = (some 5, none) ∧
      guardVerdict live guard0 11 = (some 10, some .clamp)) ∧
    ((guarded0 .production).ag.guards = [] ++ guard0 :: [] ∧ (0x04FF ^^^ guard0.filter) &&& guard0.mask = 0 ∧
      conditionHolds live guard0.cond = true) := by decide

def confirming (ms : Word) : Chip := atTime ms 0 (withAg (fun a => { a with confirms := [confirm0] }) live)

theorem test_witness_ConfirmationIsSettled :
    ((confirming 100).ag.confirms = [] ++ confirm0 :: [] ∧ reached (confirming 100).clock.ms confirm0.deadline = true) ∧
    reached (confirming 99).clock.ms confirm0.deadline = false ∧ confirm0.point = 2 ∧ confirm0.value = 1 ∧
    live.ag.confirms = [] := by decide

/-! ## Witnesses: requests, restart -/

def assembly0 : Assembly := { origin := 17, tag := 5, code := 4, words := [], last := 0, started := 0 }

theorem test_witness_AssemblyAndRetriesComeDue :
    (reached (1000 : Word) (assembly0.started + 1000) = true ∧ reached (999 : Word) (assembly0.started + 1000) = false) ∧
    (live.rp.ring = .active ∧ live.lh.lastHanding = none ∧ live.td.lastHanding = none ∧ live.ma.lastHanding = none) ∧
    ((atTime 0 10 (withLh (fun h => { h with lastHanding := some 0 }) live)).lh.lastHanding = some 0 ∧
      0 + 10 ≤ (atTime 0 10 live).clock.line ∧ (atTime 0 9 live).clock.line < 0 + 10) ∧
    (withTd (fun t => { t with lastHanding := some 0 }) live).td.lastHanding = some 0 ∧
    (withMa (fun t => { t with lastHanding := some 0 }) live).ma.lastHanding = some 0 ∧
    (inRing .isolated live).rp.ring = .isolated := by decide

theorem test_witness_RequestsAreCheckedFirst :
    (readCodeRow 1 = some .readStatus ∧ writeCodeRow 4 false = some (.setMode false) ∧
      Instr.writeRecipes true = writeRow .recipes true) ∧
    headRequest live = none ∧ headRequest (asking (request 4 [2])) = some (request 4 [2]) ∧
    (misnamed (request 0 []) = true ∧ misnamed (request 17 []) = true ∧ misnamed (request 3 [10, 0, 0]) = true ∧
      misnamed (request 3 [9, 0, 0]) = false) ∧
    (formatOk (request 4 [0]) = false ∧ formatOk (request 4 [3]) = true ∧ formatOk (request 4 [4]) = false) ∧
    ((request 4 [2]).code ≠ 1 ∧ some (request 4 [2]).origin ∉ live.ma.authority) ∧
    (List.replicate 15 (0 : Word)).length ≤ 15 := by decide

theorem test_witness_ReadsAreAnswered :
    (HasRequest (at_ (asking (request 1 [12]))) (request 1 [12]) ∧ formatOk (request 1 [12]) = true) ∧
    (formatOk (request 2 [9, 3, 1]) = true ∧ tableArg (request 2 [9, 3, 1]) = some .authority ∧ 3 < Table.authority.size) ∧
    (Table.authority.size < 3 + 2) ∧
    (formatOk (request 10 [5]) = true ∧ formatOk (request 9 [5, 1023]) = true ∧ formatOk (request 9 [10, 31]) = true) ∧
    (placeAt (traced .stored id) 0).state ≠ .pending ∧ palletAt (moving 0) 5 = some pallet0 ∧
    remainingBudget (moving 0) pallet0 = 6000 ∧
    remainingBudget (moving 0) { pallet0 with exposure := 2147489649 } < -2147483648 := by
  refine ⟨⟨⟨rfl, rfl⟩, rfl⟩, by decide, by decide, by decide, by decide, by decide, by decide, by decide⟩

theorem test_witness_TablesAreWritten :
    (HasRequest (at_ (asking (request 3 [9, 0, 1, 1, 254]))) (request 3 [9, 0, 1, 1, 254]) ∧
      formatOk (request 3 [9, 0, 1, 1, 254]) = true) ∧
    (entriesRange .authority (cutEntries .authority 1 0 [1, 254]) = true ∧
      entriesRange .authority (cutEntries .authority 1 0 [1, 255]) = false) ∧
    (Table.authority.size ≤ 4 ∧ Table.authority.size < 3 + 2 ∧ 3 + 1 ≤ Table.authority.size) ∧
    ((inMode .production live).ag.mode = .production ∧ Table.guards ∈ [Table.channelMap, .tracks, .geometry, .guards]) ∧
    (entriesRange .routes [(0, [255, 1])] = true ∧ entriesRange .routes [(0, [256, 1])] = false) ∧
    (entriesRange .shuttles [(0, [256, 600, 600, 1800])] = true ∧ entriesRange .shuttles [(0, [255, 1, 1, 1])] = false) ∧
    (entriesRange .guards [(0, [1, 0, 0, 7, 5, 0, 0, 0])] = true ∧ guardOk { guard0 with low := 11 } = false) ∧
    (mapValid [IntakeCfg.power] = true ∧ tracksValid live [TrackCfg.power] = true ∧ geometryOk live live.st = true ∧
      recipeOk recipe0 = true ∧ notFalling [2, 1] = false ∧ pauseOk live live.ma.config = true) := by
  refine ⟨⟨⟨rfl, rfl⟩, rfl⟩, by decide, by decide, by decide, by decide, by decide, by decide, by decide⟩

theorem test_witness_ModesLotsAndHoldsAreAnswered :
    (HasRequest (at_ (asking (request 4 [2]))) (request 4 [2]) ∧ formatOk (request 4 [2]) = true) ∧
    (formatOk (request 5 [77, 15]) = true ∧ (live.lh.recipes.getD 15 .power).valid = false ∧ recipe0.valid = true ∧
      live.lh.lots = [] ++ none :: List.replicate 7 none) ∧
    (formatOk (request 6 [7]) = true ∧ lotAt live 7 = none ∧ lotAt (moving 0) 0 = some lot0 ∧ lot0.state = .opened) ∧
    (formatOk (request 7 [7, 0]) = true ∧ formatOk (request 8 [5, 1023, 8192]) = true) ∧
    (segmentAt (line0 segment0 0) 3 = some segment0 ∧ segmentAt live 3 = none) ∧
    (placeLive (placeAt (traced .stored id) 0) = true ∧ placeLive (placeAt (traced .archived id) 0) = false) ∧
    (pallet0.hold ||| HoldReason.manual.only ≠ pallet0.hold ∧ productionReady live = false) := by
  refine ⟨⟨⟨rfl, rfl⟩, rfl⟩, by decide, by decide, by decide, by decide, by decide, by decide⟩

theorem test_witness_OperationsAreAnswered :
    (HasRequest (at_ (asking (request 11 [7]))) (request 11 [7]) ∧ formatOk (request 11 [7]) = true) ∧
    (formatOk (request 12 [8]) = true ∧ formatOk (request 13 [3]) = true ∧ formatOk (request 14 [5]) = true ∧
      formatOk (request 15 [524287]) = true) ∧
    ((trackChan live 0).cfg.mode = .off ∧ (trackChan (interval 0) 0).cfg.mode = .interval ∧
      (trackChan (owning .production) 0).cfg.mode = .gate ∧ (trackChan (owning .production) 0).dyn.state = .stopped) ∧
    ((shuttleAt live 3).written = false ∧ (shuttleAt (moving 0) 0).written = true ∧ shuttle0.state = .assigned) ∧
    (palletAt live 5 = none ∧ palletAt (moving 0) 5 = some pallet0 ∧ pallet0.state ≠ .faulted) ∧
    (524288 ≤ (524288 : Word).toNat ∧ (524287 : Word).toNat < 524288) := by
  refine ⟨⟨⟨rfl, rfl⟩, rfl⟩, by decide, by decide, by decide, by decide, by decide⟩

theorem test_witness_WarmRestartClearsThePart :
    (HasRequest (at_ (asking (request 16 []))) (request 16 []) ∧ formatOk (request 16 []) = true) ∧
    ((withMa (fun m => { m with phase := .restartReady }) live).ma.phase = .restartReady ∧ live.ma.phase ≠ .restartReady) ∧
    ((withTm (fun t => { t with restart := some { writes := [], rewrites := [], held := none } })
        (withMa (fun m => { m with phase := .restartRunning }) live)).tm.restart =
      some { writes := [], rewrites := [], held := none }) ∧
    ({ writes := [], rewrites := [], held := some record0 } : RestartWork) ≠ { writes := [], rewrites := [], held := none } := by
  refine ⟨⟨⟨rfl, rfl⟩, rfl⟩, by decide, by decide, by decide⟩

/-! ## Worked cases of the spec -/

/-- 1.7, error confinement: three frames out at a transmit error count of 120. -/
def confined (list : List ReturnEntry) (tx : Nat) (ring : RingState) (ms : Word) : State :=
  at_ (atTime ms 0 (withRp (fun p => { p with returnList := list, txErr := tx, ring := ring }) live))

def sent (n : Byte) : ReturnEntry := { seq := n, kind := .actuate, sentAt := 0, isRestart := false }

theorem test_error_confinement :
    (returnCheck .actuate 41 (confined [sent 41, sent 42, sent 43] 120 .active 1).chip).rp.txErr = 119 ∧
    (expireReturn 42 (confined [sent 42, sent 43] 119 .active 10).chip).rp.txErr = 127 ∧
    (expireReturn 42 (confined [sent 42, sent 43] 119 .active 10).chip).rp.ring = .active ∧
    (expireReturn 43 (confined [sent 43] 127 .active 10).chip).rp.txErr = 135 ∧
    (expireReturn 43 (confined [sent 43] 127 .active 10).chip).rp.ring = .passive ∧
    (pendingAlert (expireReturn 43 (confined [sent 43] 127 .active 10).chip) .ringDegraded).isSome = true ∧
    (expireReturn 43 (confined [sent 43] 255 .passive 10).chip).rp.ring = .isolated ∧
    (expireReturn 43 (confined [sent 43] 255 .passive 10).chip).pins.rly = false := by decide

/-- 2.4: a 4 to 20 mA probe. -/
def probe0 : IntakeCfg := { map0 (.zoneTemp 0) with offset := 8000, gain := 128, low := 600, high := 1050 }

theorem test_conversion_examples :
    takeValue probe0 4000 = { value := 600, low := true, high := false } ∧ convert probe0 4000 = -500 ∧
    takeValue probe0 7990 = { value := 600, low := true, high := false } ∧ convert probe0 7990 = -1 ∧
    takeValue probe0 15216 = { value := 902, low := false, high := false } ∧
    takeValue probe0 21000 = { value := 1050, low := false, high := true } ∧ convert probe0 21000 = 1625 := by decide

/-- 2.6: a pair of probes on zone 2. -/
def pairEntry (partner : Nat) (key : Key) (value : Int) : IntakeChan :=
  { cfg := { map0 (.zoneTemp 2) with filter := key, offset := 0, gain := 1024, partner := some partner }
    dyn := { IntakeDyn.clear with latest := some { value := value, suspect := false, clampLow := false, clampHigh := false,
                                                   line := 0, ms := 0 },
                                  fresh := .fresh } }

def pair0 : Chip :=
  { live with
    si := { chans := [pairEntry 1 4 905, pairEntry 0 5 911]
            zones := [.clear, .clear, { temp := some 905, state := .fresh }, .clear, .clear, .clear] }
    ma := { live.ma with config := { live.ma.config with split := 15 } } }

def pair1 : Chip := takeItem { key := 5, value := 918, quality := 0 } pair0
def pair2 : Chip := takeItem { key := 4, value := 902, quality := 0 } pair1

theorem test_probe_pair :
    (zoneAt pair1 2 = { temp := some 905, state := .fresh } ∧ pendingAlert pair1 .probeSplit = none) ∧
    (zoneAt pair2 2 = { temp := some 902, state := .fresh } ∧ (pendingAlert pair2 .probeSplit).isSome = true) := by
  decide +kernel

/-- 2.7: encoder deltas from a reference of 65,500. -/
def counting (ref : BitVec 16) : Chip :=
  intake0 (map0 (.encoder none)) { IntakeDyn.clear with fresh := .fresh, ref := some ref } live

theorem test_encoder_deltas :
    ((encoderItem 0 none 120 (counting 65500)).si.chans.map (·.dyn.ref)) = [some 120] ∧
    (encoderItem 0 none 120 (counting 65500)).tc.positions.getD 0 0 = 156 ∧
    ((encoderItem 0 none 100 (counting 120)).si.chans.map (·.dyn.ref)) = [some 120] ∧
    (pendingAlert (encoderItem 0 none 100 (counting 120)) .reverse).isSome = true ∧
    (encoderItem 0 none 180 (counting 120)).tc.positions.getD 0 0 = 60 := by decide

/-- 3.5: a queued divert gate; the position is the encoder's, in PRODUCTION. -/
def gate0 : TrackCfg :=
  { mode := .gate, source := .encoder 0, length := 0, delay := 400, width := 150, trigger := .segmentDecision .freeze,
    policy := .queue, cond := .always, output := some { key := 0x0401, onValue := 1, offValue := 0, timeout := 100 } }

def gateAt (pos : Word) (d : TrackDyn) : Chip :=
  let c := inMode .production (track0 gate0 d live)
  { c with tc := { c.tc with positions := [pos] } }

/-- Two starts, at 1,000 and at 1,100, and then the delta to 1,520. -/
def gateRun : Chip :=
  handleChannel 0 (gateAt 1520 { TrackDyn.clear with state := .delaying, pend := [{ point := 1000, served := none },
                                                                                  { point := 1100, served := none }] })

theorem test_queued_divert_gate :
    ((trackChan gateRun 0).dyn.state = .opened ∧ (trackChan gateRun 0).dyn.onEnd = 1650 ∧
      (trackChan gateRun 0).dyn.pend = [] ∧ gateRun.rp.returnList.map (·.kind) = [.actuate] ∧ gateRun.rp.txQueue = []) ∧
    ((startNow 0 { point := 1100, served := none }
        (gateAt 1100 { TrackDyn.clear with state := .delaying, pend := [{ point := 1000, served := none }] })).2 = true) := by
  decide +kernel

/-- 4.3: cuts, by the totaliser. -/
def cutting (value : Int) (f : Freshness) (ref : Option Nat) (last : Nat) : Chip :=
  withLh (fun h => { h with lots := [some lot0] })
    (withSt (fun s => { s with blanch := { s.blanch with written := true, void := 200, segLen := 500, length := 9000 }, nextId := 300,
                               totalRef := ref, lastNominal := last })
      (intake0 { map0 .infeedMass with offset := 0 }
        { IntakeDyn.clear with latest := some { value := value, suspect := false, clampLow := false, clampHigh := false,
                                                line := 0, ms := 0 }, fresh := f } live))

theorem test_cuts :
    ((cut 0 0 (cutting 2704 .fresh (some 4294965000) 0)).st.qBlanch.map fun g => (g.id, g.nominal, g.flags.massEst)) =
      [(300, 5000, false)] ∧
    ((cut 0 0 (cutting 7790 .stale (some 7610) 4906)).st.qBlanch.map fun g => (g.nominal, g.flags.massEst)) = [(4906, true)] ∧
    (cut 0 0 (cutting 7790 .stale (some 7610) 4906)).st.totalRef = none ∧
    ((cut 0 0 (cutting 12800 .fresh none 4906)).st.qBlanch.map (·.nominal)) = [4906] ∧
    (cut 0 0 (cutting 12800 .fresh none 4906)).st.totalRef = some 12800 ∧
    (cut 0 0 (cutting 12950 .fresh (some 12800) 4906)).st.qBlanch = [] := by decide +kernel

/-- 5.6: the worked case, with the five entries the manual gives. -/
def lethal : Recipe :=
  { recipe0 with tbase := 800, target := 9, maximum := 12,
                 table := 410 :: (List.replicate 18 0 ++ [3651, 4096, 4596] ++ List.replicate 41 0 ++ [578576]) }

def dosing (g : Segment) (line : Nat) : Chip :=
  withLh (fun h => { h with recipes := [lethal] }) (line0 g line)

def doseOf (c : Chip) : List (Nat × Bool × Bool) := c.st.qBlanch.map fun g => (g.dose, g.flags.gap, g.flags.aboveTable)

theorem test_dose_worked_case :
    doseOf (creditSegment 3 902 (some 95) 3 (dosing { segment0 with credited := some 95 } 100)) = [(21480, false, false)] ∧
    doseOf (creditSegment 3 897 (some 100) 3 (dosing { segment0 with credited := some 100, dose := 21480 } 105)) =
      [(40625, false, false)] ∧
    doseOf (creditSegment 3 897 (some 100) 3 (dosing { segment0 with credited := some 103, dose := 30310 } 105)) =
      [(37968, false, false)] ∧
    doseOf (creditSegment 3 897 (some 105) 3 (dosing { segment0 with credited := some 105 } 185)) = [(191450, true, false)] ∧
    blanchVerdict (dosing segment0 0) { segment0 with dose := 40625 } = true := by decide +kernel

theorem test_dose_limits :
    doseOf (creditSegment 3 799 (some 100) 3 (dosing { segment0 with credited := some 100 } 105)) = [(0, false, false)] ∧
    doseOf (creditSegment 3 1120 (some 100) 3 (dosing { segment0 with credited := some 100 } 105)) =
      [(2892880, false, true)] ∧
    doseOf (creditSegment 3 1120 (some 100) 3 (dosing { segment0 with credited := some 100, dose := 4294000000 } 105)) =
      [(4294967295, false, true)] := by decide +kernel

/-- 6.4: warm chill. -/
def chilling (warm : Nat) (prev : Int × Nat) (line : Nat) : Chip :=
  { withLh (fun h => { h with recipes := [{ recipe0 with chillLimit := 40, warmAllowance := 60 }], lots := [some lot0] })
      (withSt (fun s => { s with qChill := [{ segment0 with warmChill := warm }] }) (atTime 0 line live)) with
    fv := { Fv.power with prevChill := some prev } }

def warmOf (c : Chip) : List (Nat × Bool) := c.st.qChill.map fun g => (g.warmChill, g.hold.has .warmChill)

theorem test_warm_chill :
    warmOf (chillItem 43 (chilling 0 (38, 4990) 5010)) = [(0, false)] ∧
    warmOf (chillItem 46 (chilling 0 (43, 5010) 5020)) = [(10, false)] ∧
    warmOf (chillItem 47 (chilling 10 (46, 5020) 5100)) = [(60, false)] ∧
    warmOf (chillItem 41 (chilling 60 (47, 5100) 5110)) = [(70, true)] ∧
    warmOf (chillItem 39 (chilling 70 (41, 5110) 5120)) = [(70, false)] := by decide +kernel

/-- 6.6: the freezer speed limit at a changeover. -/
def freezing (lots : List (Option Lot)) (q : List Segment) : Chip :=
  withLh (fun h => { h with recipes := [{ recipe0 with dwell := 7200 }, { recipe0 with dwell := 9000 }], lots := lots })
    (withSt (fun s => { s with freeze := { s.freeze with written := true, length := 60400, entry := 400 }, qFreeze := q,
                               blanch := { s.blanch with written := true }, chill := { s.chill with written := true } })
      live)

theorem test_freezer_speed_limit :
    freezerLimit (freezing [some lot0] [segment0]) = some 833 ∧
    freezerLimit (freezing [some { lot0 with state := .draining }, some { lot0 with recipe := 1 }] [segment0]) = some 666 ∧
    freezerLimit (freezing [none, some { lot0 with recipe := 1 }] []) = some 666 ∧
    freezerLimit (freezing [none, some { lot0 with recipe := 1, state := .draining }] []) = none := by decide +kernel

/-- 8, from made to stored: the draw of bag 8,117 and its settlement. -/
def packing : Recipe :=
  { recipe0 with bagTarget := 1000, tare := 30, under := 10, overweight := 40, needWeight := true, needCode := true,
                 needMetal := true, permille := 1020, bagsPerCase := 12, casesPerPallet := 40 }

def surge : List Segment :=
  [{ segment0 with id := 522, nominal := 4960, remaining := 640 },
   { segment0 with id := 523, nominal := 4950, remaining := 4950, hold := HoldReason.lateChill.only }]

def bagLine : Chip :=
  atTime 9120040 91200 (withBa (fun b => { b with slots := [some { slot0 with seq := 8116 }, none, none, none] })
    (withLh (fun h => { h with recipes := [packing], lots := [some { lot0 with live := 2, openBags := 1 }] })
      (withSt (fun s => { s with qSurge := surge }) live)))

/-- The item of bag 8,117. -/
def bagLine1 : Chip := bagMade (8117 * 65536) bagLine

theorem test_bag_made :
    ((slotAt bagLine1 1).map fun b => (b.seq, b.lot, b.deadline)) = some (8117, 0, 9122040) ∧
    ((slotAt bagLine1 1).map fun b => b.draws.map fun d => (d.segment, d.grams)) = some [(522, 640), (523, 380)] ∧
    ((slotAt bagLine1 1).map (·.hold)) = some HoldReason.lateChill.only ∧
    (bagLine1.st.qSurge.map fun g => (g.id, g.remaining)) = [(523, 4570)] := by decide +kernel

theorem test_bag_net_window :
    rejectReasons packing { slot0 with weight := some 1048, codeFail := some false, metalFail := some false } = 0 ∧
    rejectReasons packing { slot0 with weight := some 1019, codeFail := some false, metalFail := some false } = 2 ∧
    rejectReasons packing { slot0 with weight := some 1071, codeFail := some true, metalFail := some true } = 0x1C := by
  decide

/-- 9.6 and R150, R207: the layout of a record and its check codes, an error in one bit and in two. -/
theorem test_record_layout :
    record0.bytes.take 24 = [1, 2, 0, 0, 0, 7, 0x16, 0, 0, 0, 0, 100, 0, 0, 0, 0, 0xFF, 0xFF, 0xFE, 0x20, 0, 0, 5, 1] ∧
    (record0.bytes.drop 24).take 5 = [2, 1, 0, 1, 0x90] ∧ record0.bytes.length = 64 := by decide

theorem test_check_codes :
    checkCode [0, 0, 0, 0, 0, 0, 0, 0] = 0 ∧ checkCode [0, 0, 0, 0, 0, 0, 0, 1] = 0x83 ∧
    checkWord [0, 0, 0, 0, 0, 0, 0, 1] 0 = .corrected [0, 0, 0, 0, 0, 0, 0, 0] ∧
    checkWord [0, 0, 0, 0, 0, 0, 0, 1] 0x80 = .uncorrectable [0, 0, 0, 0, 0, 0, 0, 1] ∧
    checkWord [0, 0, 0, 0, 0, 0, 0, 1] 0x82 = .corrected [0, 0, 0, 0, 0, 0, 0, 1] := by decide +kernel

theorem test_memory_stays_canonical :
    Memory.write 5 0 (Memory.write 5 1 []) = [] ∧ Memory.wf (Memory.write 2 3 (Memory.write 9 1 [])) = true ∧
    Memory.read (Memory.write 5 1 []) 5 = 1 ∧ Memory.read [] 7 = 0 := by decide

/-- 10, from close to delivery: exposure of pallets 96 and 97. -/
def dockRecipe (budget : Nat) : Recipe :=
  { recipe0 with budget := budget, expReference := -50, assumedDock := 80 }

def docked (dock : Option Int) (line : Nat) (p q : Pallet) : Chip :=
  withBa (fun b => { b with pallets := [p, q] })
    (withLh (fun h => { h with recipes := [dockRecipe 180, dockRecipe 120], lots := [some lot0, some { lot0 with recipe := 1 }] })
      (atTime 0 line (intake0 (map0 .dockTemp)
        { IntakeDyn.clear with
          latest := dock.map fun v => { value := v, suspect := false, clampLow := false, clampHigh := false, line := 0, ms := 0 }
          fresh := if dock.isSome then .fresh else .stale } live)))

def pallet96 : Pallet := { pallet0 with id := 96, expTime := 99000, expTemp := 40 }
def pallet97 : Pallet := { pallet0 with id := 97, lot := 1, expTime := 100000, expTemp := 40, serial := 1 }

def exposures (c : Chip) : List (Nat × Nat × Int) := c.ba.pallets.map fun p => (p.exposure, p.expTime, p.expTemp)

theorem test_exposure :
    exposures (exposeAll (docked (some 60) 101200 pallet96 pallet97)) = [(242000, 101200, 60), (132000, 101200, 60)] ∧
    exposures (exposeAll (docked none 102000 { pallet96 with exposure := 242000, expTime := 101200, expTemp := 60 }
      { pallet97 with exposure := 132000, expTime := 101200, expTemp := 60 })) =
      [(346000, 102000, 80), (236000, 102000, 80)] := by decide +kernel

/-- Shuttle 1 reports AT-DOCK-IDLE at 102,600: the pallet with the least remaining budget wins. -/
def arbitrated : Chip :=
  shuttleStatus 1 1 (withTd (fun t => { t with
      dock := [96, 97]
      shuttles := [{ shuttle0 with pallet := some 90, state := .inAirlock },
                   { shuttle0 with state := .idle, pallet := none, deadline := none, load := 120, point := 12801 }] })
    (inMode .production (docked none 102600 { pallet96 with exposure := 346000, expTime := 102000, expTemp := 80 }
      { pallet97 with exposure := 236000, expTime := 102000, expTemp := 80 })))

theorem test_arbitration :
    exposures arbitrated = [(424000, 102600, 80), (314000, 102600, 80)] ∧ arbitrated.td.dock = [96] ∧
    ((shuttleAt arbitrated 1).state, (shuttleAt arbitrated 1).pallet, (shuttleAt arbitrated 1).deadline) =
      (.assigned, some 97, some 103800) ∧
    (arbitrated.rp.tx.map fun t => (t.header.dest, t.body)) = some (50, some (itemBytes [mkItem 12801 (97 * 65536 + 1)])) := by
  decide +kernel

/-- 11.4: one frame from the line controller. -/
def guardRow (filter mask : Key) (cond : Condition) (action : GuardAction) : Guard :=
  { enabled := true, filter := filter, mask := mask, cond := cond, action := action, low := 0, high := 0, force := 0 }

def controlled (m : Mode) : Chip :=
  let c := freezing [none, some { lot0 with recipe := 1 }] []
  withTm (fun t => { t with holding := some record0 })
    (withAg (fun a => { a with
        mode := m
        guards := [guardRow 7685 65535 .always .clampFreezer, guardRow 7938 65535 .traceBacklog .force,
                   guardRow 7936 65280 .palletFull .block, guardRow 5121 65535 .noLot .force] })
      (track0 { gate0 with output := some { key := 10243, onValue := 1, offValue := 0, timeout := 100 } }
        { TrackDyn.clear with state := .opened } c))

def frameOfFour : List Item := [mkItem 7685 800, mkItem 7938 1, mkItem 7937 1, mkItem 10243 0]

def keptValues (m : Mode) : List Word := (checkItems frameOfFour (controlled m)).2.map (·.value)

def trapVerdicts (m : Mode) : List (Verdict × Option Word) :=
  (checkItems frameOfFour (controlled m)).1.ag.traps.map fun t => (t.verdict, t.applied)

theorem test_frame_of_the_line_controller :
    keptValues .production = [666, 0, 1, 1] ∧ keptValues .commission = [800, 1, 1, 0] ∧
    trapVerdicts .production = [(.owned, some 1), (.force, some 0), (.clampFreezer, some 666)] ∧
    trapVerdicts .commission = trapVerdicts .production ∧
    ((checkItems frameOfFour (controlled .production)).1.ag.shadows.map (·.key)) = [7685, 7938, 7937] := by decide +kernel

/-- 11.6: an echo that lags. -/
def lagging (ms : Word) : Chip :=
  atTime ms 0 (withAg (fun a => { a with confirms := [{ confirm0 with point := 1, value := 1, deadline := 9000300 },
                                                      { confirm0 with point := 1, value := 0, deadline := 9000500 }] }) live)

theorem test_echo_that_lags :
    (pointEcho 1 0 (lagging 9000210)).ag.confirms = (lagging 0).ag.confirms ∧
    ((expireConfirm 0 (lagging 9000300)).ag.confirms.map (·.value)) = [0] ∧
    confirmDue (lagging 9000300) 0 = true ∧ confirmDue (lagging 9000299) 0 = false ∧
    (pendingAlert (expireConfirm 0 (lagging 9000300)) .gateFault).map (·.subject) = some 1 := by decide +kernel

/-! ## Witnesses: what commands cause inside the blocks -/

/-- A pallet delivered, its latest report in RP's queue. -/
def delivered : Chip :=
  withBa (fun b => { b with pallets := [{ pallet0 with state := .delivered, report := .queued, reportPending := true, revision := 255 }] }) (moving 0)

theorem test_witness_TransmitterIsGranted_freeing :
    ((palletAt delivered 5).map fun p => (p.revision, p.reportPending)) = some (255, true) ∧
    ((palletAt (moving 0) 5).map (·.reportPending)) = some false ∧
    ((placeAt (traced .stored id) 0).state = .stored ∧ (placeAt (traced .pending id) 0).state = .pending) ∧
    placesWhere (fun f => f.lot == 1) (traced .stored id) = [0] ∧ (placeHeld live).2 = false ∧
    (placeHeld (traced .free fun t => { t with holding := some record0 })).2 = true := by decide +kernel

def overflowing (dest : Option Byte) : Chip :=
  withMa (fun m => { m with routes := m.routes.set 18 { dest := dest, stop := false } }) (queued 32 .actuate)

theorem test_witness_TransmitQueueKeepsClassOrder_discarded :
    (TablesSized (overflowing none) ∧ TablesSized (overflowing (some 20))) ∧
    ((rpOffer (own .alert) live).2 = .taken ∧ (rpOffer (own .alert) (inRing .isolated live)).2 = .refused ∧
      (rpOffer (own .alert) (overflowing none)).2 = .overflow) ∧
    (pendingAlert (overflowing none) .txOverflow = none ∧ (routeOf (overflowing none) .txOverflow).dest = none) ∧
    ((routeOf (overflowing (some 20)) .txOverflow).dest = some 20 ∧
      (pendingAlert (raiseOverflow (overflowing (some 20))) .txOverflow).map (·.count) = some 2) :=
  ⟨⟨rfl, rfl⟩, by decide, ⟨rfl, rfl⟩, rfl, by decide +kernel⟩

theorem test_witness_SilentChannelBecomesStale_zones :
    (servingZone live.si.chans 2 = { temp := none, state := .stale }) ∧
    (pair0.si.chans.filter fun k => k.cfg.enabled && k.cfg.role == some (.zoneTemp 2) && k.dyn.latest.isSome) =
      pairEntry 1 4 905 :: pairEntry 0 5 911 :: [] ∧
    servingZone pair0.si.chans 2 = { temp := some 905, state := .fresh } ∧ (pair0.si.zones.getD 3 .clear).temp = none := by
  decide +kernel

/-- The belts' geometry, valid, with encoder channels 0, 1 and 2. -/
def belts (c : Chip) : Chip :=
  withSt (fun s => { s with
    blanch := { s.blanch with written := true, void := 200, segLen := 500, length := 9000, zones := 2,
                              zoneStarts := [4000, 0, 0, 0, 0], decision := 8000, gate := 0 }
    chill := { s.chill with written := true, encoder := 1, length := 3000 }
    freeze := { s.freeze with written := true, encoder := 2, length := 5000, winStart := 3000, winEnd := 3500, decision := 4000,
                              gate := 0 } }) c

theorem test_witness_EncoderHandsPositiveDeltas_cuts :
    (cutMass (cutting 2704 .fresh (some 4294965000) 0) = (5000, false, some 2704) ∧
      cutMass (cutting 12800 .fresh none 4906) = (4906, true, some 12800) ∧ cutMass live = (0, true, none)) ∧
    ((199 : Nat) < (belts live).st.blanch.void ∧ (belts live).st.blanch.void ≤ 200) ∧
    (openLot? live = none ∧ openLot? (cutting 2704 .fresh none 0) = some 0 ∧ (liveSegments live.st).length < 256 ∧
      256 ≤ (List.replicate 256 segment0).length) ∧
    (freshId [300, 301] 2 300 = 302 ∧ freshId [65535] 1 65535 = 0 ∧ freshId [] 0 7 = 7) := by decide +kernel

theorem test_witness_EncoderHandsPositiveDeltas_belts :
    (segmentIn (line0 segment0 0) .blanch 3 = some segment0 ∧ segmentIn live .blanch 3 = none) ∧
    (encoderOf (belts live).st .freeze = 2 ∧ stageLength (belts live).st .blanch = 9000) ∧
    ((3999 : Nat) < (belts live).st.blanch.zoneStarts.getD 0 0 ∧ (belts live).st.blanch.zoneStarts.getD 0 0 ≤ 4000) ∧
    ((enterWindow 3 live).fv.window = [3] ∧ (leaveWindow 3 (enterWindow 3 live)).fv.window = []) ∧
    (encoderHeld live .blanch = false ∧ encoderHeld (intake0 (map0 (.encoder (some .blanch)))
      { IntakeDyn.clear with fresh := .staleHeld } live) .blanch = true) := by decide +kernel

/-- Track channel 0 with a policy, a state and `n` pending starts. -/
def starting (p : Policy) (st : ChanState) (n : Nat) : Chip :=
  track0 { gate0 with policy := p } { TrackDyn.clear with state := st, pend := List.replicate n { point := 0, served := none } } live

def start0 : Start := { point := 0, served := some (.segment 3) }

theorem test_witness_MillisecondPointFiresInterval_starts :
    ((enterStart 0 start0 (starting .ignore .stopped 0)).2 = false ∧ (enterStart 0 start0 (starting .ignore .armed 0)).2 = true ∧
      (enterStart 0 start0 (starting .ignore .delaying 1)).2 = false ∧ (enterStart 0 start0 (starting .restart .opened 1)).2 = true ∧
      (enterStart 0 start0 (starting .queue .delaying 7)).2 = true ∧ (enterStart 0 start0 (starting .queue .delaying 8)).2 = false) ∧
    (dueFire (gateAt 400 { TrackDyn.clear with state := .delaying, pend := [start0] }) 0 = some (start0, 400) ∧
      dueFire (gateAt 399 { TrackDyn.clear with state := .delaying, pend := [start0] }) 0 = none ∧
      dueClose (gateAt 550 { TrackDyn.clear with state := .opened, onEnd := 550 }) 0 = some 550 ∧
      dueClose (gateAt 549 { TrackDyn.clear with state := .opened, onEnd := 550 }) 0 = none) := by decide +kernel

def pulse0 (n : Nat) : Pulse := { served := (List.range n).map fun i => .bag i, outcome := .pending, token := 0 }

theorem test_witness_MillisecondPointFiresInterval_gates :
    ((trackChan (gateAt 0 { TrackDyn.clear with state := .opened, pulse := some (pulse0 15) }) 0).dyn.pulse = some (pulse0 15) ∧
      Served.bag 14 ∈ (pulse0 15).served ∧ Served.bag 15 ∉ (pulse0 15).served ∧ (pulse0 15).served.length < 16 ∧
      Served.bag 16 ∉ (pulse0 16).served ∧ 16 ≤ (pulse0 16).served.length) ∧
    (Outcome4.confirmed.report? = some .confirmed ∧ Outcome4.pending.report? = none ∧ gate0.cond = .always) ∧
    ((fireCheck 4 live).2 = false ∧ (fireCheck 4 (withBa (fun b => { b with decisions :=
      [{ seq := 4, lot := some 0, slot := none, decision := .accepted, place := none, gateReasons := 0 }] }) live)).2 = true) := by
  decide +kernel

def marked (d : TrackDyn) : Chip := track0 { TrackCfg.power with mode := .capture, trigger := .marker 3 .rising, source := .encoder 0 } d live

theorem test_witness_MillisecondPointFiresInterval_markers :
    ((trackChan (marked { TrackDyn.clear with state := .armed, lastLevel := some true, filtered := some false }) 0).dyn.filtered =
      some false) ∧
    ((markerChannel 0 .rising true (marked { TrackDyn.clear with state := .armed, lastLevel := some true, filtered := some false })).tc.chans.map
      (·.dyn.capture.last.isSome)) = [true] ∧
    ((markerChannel 0 .falling true (marked { TrackDyn.clear with state := .armed, lastLevel := some true, filtered := some false })).tc.chans.map
      (·.dyn.capture.last.isSome)) = [false] ∧
    (((65535 : Word) - 0).toNat ≤ 65535 ∧ 65535 < ((65536 : Word) - 0).toNat) ∧
    ((trackChan (track0 { TrackCfg.power with mode := .cut, length := 500 } { TrackDyn.clear with state := .running } live) 0).cfg.mode =
      .cut ∧ (499 + 1) / 500 = 1 ∧ 499 / 500 = 0) := by decide +kernel

theorem test_witness_CreditAddsRateTimesInterval_zones :
    ((line0 segment0 50).st.qBlanch.filter fun g => g.zone == some 0).map (·.id) = [3] ∧
    min (902 : Int) 905 = 902 ∧ (live.de.zones.getD 0 .clear).state ≠ .staleHeld ∧
    (({ live with de := { zones := [{ DoseZone.clear with state := .staleHeld }] } } : Chip).de.zones.getD 0 .clear).state =
      .staleHeld := by decide

theorem test_witness_DecisionPointsJudgeSegments_diverts :
    ((trackChan (starting .queue .armed 0) 0).cfg.trigger = .segmentDecision .freeze ∧
      (enterStart 0 start0 (starting .queue .armed 0)).2 = true) ∧
    (decisionPoint (gateAt 1520 .clear) 0 (.beforeSweep 30) 20 = 1530 ∧ decisionPoint (gateAt 1520 .clear) 0 (.sweeping 1) 20 = 1500 ∧
      (trackChan (interval 9) 0).cfg.source = .milliseconds) ∧
    (blanchVerdict (dosing segment0 0) { segment0 with dose := 36864 } = true ∧
      blanchVerdict (dosing segment0 0) { segment0 with dose := 36863 } = false) ∧
    ((recipeOfLot (dosing segment0 0) 0).maximum * 4096 < 49153 ∧ 49152 ≤ (recipeOfLot (dosing segment0 0) 0).maximum * 4096) ∧
    segmentAt (line0 { segment0 with disp := .diverting } 0) 3 = some { segment0 with disp := .diverting } := by decide +kernel

theorem test_witness_DecisionPointsJudgeSegments_freezer :
    (segmentAt (freezing [some lot0] [segment0]) 3 = some segment0 ∧ (recipeOfLot (freezing [some lot0] []) 0).dwell = 7200) ∧
    (segment0.hold.has .lateChill = false ∧ HoldReason.underDwell.only.has .underDwell = true) ∧
    ((chilling 0 (38, 4990) 5010).fv.prevChill = some (38, 4990) ∧ live.fv.prevChill = none ∧
      (recipeOfLot (chilling 60 (47, 5100) 5110) 0).chillLimit < 41 ∧ 40 ≤ (recipeOfLot (chilling 60 (47, 5100) 5110) 0).chillLimit) ∧
    (live.fv.window = [] ∧ (enterWindow 3 live).fv.window ≠ []) := by decide +kernel

def decision0 (d : Decision) : DecisionEntry :=
  { seq := 258, lot := some 1, slot := none, decision := d, place := none, gateReasons := 0 }

theorem test_witness_BagIsDecidedAtItsDeadline_made :
    (bagLot bagLine = some 0 ∧ bagLot live = none) ∧
    (bagLine.ba.slots = [some { slot0 with seq := 8116 }] ++ none :: [none, none] ∧ (bagged 0).ba.slots = [] ++ some slot0 :: []) ∧
    ((List.replicate 15 (decision0 .gathering)).length < 16 ∧
      List.replicate 16 (decision0 .accepted) = [] ++ decision0 .accepted :: List.replicate 15 (decision0 .accepted)) ∧
    ((takeRecord record0 live).2 = true ∧ (takeRecord record0 (withTm (fun t => { t with holding := some record0 }) live)).2 = false) ∧
    (drawAmount packing = 1020 ∧ drawAmount { packing with bagTarget := 1, permille := 1500 } = 2 ∧
      (drawLoop 1 9 1020 bagLine1).2 = .met ∧ (drawLoop 0 9 1020 (bagged 0)).2 = .short) := by decide +kernel

theorem test_witness_BagIsDecidedAtItsDeadline_settled :
    (contributeField .weight 400 slot0 = ({ slot0 with weight := some 400 }, true) ∧
      contributeField .weight 401 { slot0 with weight := some 400 } = ({ slot0 with weight := some 400, conflict := 1 }, false)) ∧
    (fieldsComplete packing slot0 = false ∧ fieldsComplete recipe0 slot0 = true) ∧
    (live.ba.keptMade = none ∧ (bagMade 65536 live).ba.keptMade = some 65536) ∧
    ((lotAt (moving 0) 0).bind (·.building) = none ∧ (List.replicate 23 pallet0).length < 24 ∧ 24 ≤ (List.replicate 24 pallet0).length) ∧
    (48 % packing.bagsPerCase = 0 ∧ 47 % packing.bagsPerCase ≠ 0 ∧ pallet0.state ≠ .building) := by decide +kernel

theorem test_witness_PlaceWriteCompletes_taking :
    (openPlace live = some 0 ∧ openPlace (traced .stored id) = none ∧ pointerPlace (traced .stored id) = some 0) ∧
    (openPlace (withTm (fun t => { t with writeQueue := List.replicate 3 { place := 9, record := record0 } }) live) = some 0 ∧
      openPlace (withTm (fun t => { t with writeQueue := List.replicate 4 { place := 9, record := record0 } }) live) = none) ∧
    (entryOfRecord record0 (decision0 .accepted) = true ∧ entryOfRecord record0 (decision0 .rejected) = false) ∧
    live.ma.config.pausePoint = none := by decide +kernel

/-- TM's work set apart at a warm restart. -/
def work0 : RestartWork := { writes := [{ place := 1, record := record0 }], rewrites := [(0, 3)], held := some record0 }

theorem test_witness_SpiMasterGranted_restart :
    (withTm (fun t => { t with restart := some work0 }) live).tm.restart = some work0 ∧ live.tm.spi = none ∧
    (spiGrant (withTm (fun t => { t with restart := some work0 }) live)).tm.spi = some (.write 1 record0) ∧
    (spiGrant (withTm (fun t => { t with restart := some { work0 with writes := [] } }) live)).tm.spi = some (.rewrite 0 3) ∧
    (spiGrant (withTm (fun t => { t with pointer := 1023, restart := some { work0 with writes := [], rewrites := [] } }) live)).tm.pointer =
      0 := by decide +kernel

theorem test_witness_PlaceRewriteCompletes_amended :
    ((amendPlace 0 (fun h => h ||| 1) (traced .stored id)).tm.marks = [] ∧
      (amendPlace 0 (fun h => h ||| 1) (traced .stored id)).tm.spi.isSome = true ∧
      (amendPlace 0 (fun h => h ||| 1) (traced .stored fun t => { t with spi := some (.rewrite 0 0) })).tm.marks = [0]) ∧
    ((amendPlace 0 (fun h => h ||| 1) (traced .pending fun t => { t with writeQueue := [{ place := 0, record := record0 }] })).tm.marks = []) ∧
    ((amendPlace 0 (fun h => h ||| 1) (traced .pending fun t => { t with spi := some (.write 0 record0) })).tm.marks = [0]) ∧
    (placeAt (traced .poisoned id) 0).state = .poisoned ∧ (placeAt (traced .free id) 0).state = .free ∧
    placeOfBag (traced .stored id) 1 258 = some 0 ∧ placeOfBag (traced .stored id) 1 259 = none := by decide +kernel

/-- Shuttle 0 in a state, with the pallet of `moving`. -/
def shuttled (st : ShuttleState) (c : Chip) : Chip := withTd (fun t => { t with shuttles := [{ shuttle0 with state := st }] }) c

theorem test_witness_ShuttleDeadlineFaultsTransfer_phases :
    ((shuttleAt (shuttled .assigned (moving 0)) 0).pallet = some 5 ∧ (5 * 65536 + 2 : Word).toNat / 65536 = 5 ∧
      (5 * 65536 + 2 : Word).toNat % 65536 = 2) ∧
    ((shuttleAt (shuttleStatus 0 (5 * 65536 + 2) (shuttled .assigned (moving 0))) 0).state = .loaded ∧
      (shuttleAt (shuttleStatus 0 (5 * 65536 + 3) (shuttled .loaded (moving 0))) 0).state = .inAirlock ∧
      (shuttleAt (shuttleStatus 0 (5 * 65536 + 4) (shuttled .inAirlock (moving 0))) 0).state = .idle ∧
      (shuttleAt (shuttleStatus 0 6 (shuttled .idle (moving 0))) 0).state = .fault ∧
      (shuttleAt (shuttleStatus 0 5 (shuttled .fault (moving 0))) 0).late = 1 ∧
      (shuttleAt (shuttleStatus 0 (6 * 65536 + 2) (shuttled .assigned (moving 0))) 0).mismatch = 1) ∧
    (palletAt (moving 0) 5).bind (·.dest) = some .store := by decide +kernel

theorem test_witness_ExposureFollowsTheWarmerEnd_arbitration :
    (idleShuttle arbitrated = none ∧ idleShuttle (shuttled .idle (moving 0)) = some 0) ∧
    (arbitrationWinner live = none ∧
      (arbitrationWinner (withTd (fun t => { t with dock := [96, 97] }) (docked none 0 pallet96 pallet97))).map (·.id) = some 97) ∧
    (remainingBudget (docked none 0 pallet96 pallet97) pallet97 < remainingBudget (docked none 0 pallet96 pallet97) pallet96) ∧
    ((assignPallet pallet0 0 (inMode .production (moving 0))).2 = true ∧
      (assignPallet pallet0 0 (inRing .isolated (inMode .production (moving 0)))).2 = false) := by decide +kernel

def part0 (n : Nat) (last : Bool) (ws : List Word) : Part :=
  { origin := 17, tag := 5, code := 4, number := n, last := last, count := ws.length, words := ws }

theorem test_witness_AssemblyAndRetriesComeDue_parts :
    ({ part0 0 true [2] with count := 2 }.count ≠ (part0 0 true [2]).words.length ∧ (part0 0 true [2]).count = 1) ∧
    ((takePart (part0 0 true [2]) live).ma.queue = [request 4 [2]] ∧
      (takePart (part0 0 false [2]) live).ma.assembly = some { assembly0 with words := [2] }) ∧
    ((takePart (part0 1 true [3]) (withMa (fun m => { m with assembly := some { assembly0 with words := [2] } }) live)).ma.queue =
      [request 4 [2, 3]]) ∧
    ((takePart (part0 7 true [3]) (withMa (fun m => { m with assembly := some { assembly0 with last := 6 } }) live)).ma.queue =
      [request 4 [3]] ∧
     (takePart (part0 8 true [3]) (withMa (fun m => { m with assembly := some { assembly0 with last := 7 } }) live)).ma.queue = []) ∧
    ((takePart (part0 0 true [2]) (withMa (fun m => { m with queue := List.replicate 4 (request 4 [2]) }) live)).ma.queue.length = 4) ∧
    ((lotAt (moving 0) 0).isSome = true ∧ ((palletAt (reviseDelivery 5 (withRp (fun p => { p with tx := (leaving0 none).rp.tx }) delivered)) 5).map (·.revision)) = some 0) := by decide +kernel

theorem test_witness_TablesAreWritten_checks :
    (mapValid [{ map0 (.zoneTemp 2) with low := -501 }] = false ∧ mapValid [map0 .chillTemp, map0 .chillTemp] = false ∧
      mapValid [map0 .marker, map0 .marker] = true ∧ mapValid (pair0.si.chans.map (·.cfg)) = true) ∧
    (tracksValid live [{ interval0 with source := .encoder 0 }] = false ∧ tracksValid live [interval0] = true ∧
      tracksValid live [{ gate0 with trigger := .master 0 }] = false) ∧
    (geometryOk (belts live) (belts live).st = false ∧ rising [0, 1] = true ∧ rising [0, 0] = false ∧ notFalling [0, 0] = true) ∧
    (entriesRange .geometry [(1, [47, 1, 0])] = true ∧ entriesRange .geometry [(1, [48, 1, 0])] = false) ∧
    (entriesRange .line [(0, [255, 600, 100, 64, 5000, 1, 7, 65535, 0, 0, 5000, 255])] = true ∧
      entriesRange .line [(0, [255, 600, 100, 64, 5000, 1, 8, 65535, 0, 0, 5000, 255])] = false) ∧
    (tellWritten 0 (map0 (.encoder none)) live).tc = live.tc ∧ pointFree (owning .offline) 0x0401 = false := by decide +kernel

theorem test_witness_ModesLotsAndHoldsAreAnswered_lots :
    (lotAt live 0 = none ∧ (lotAt (moving 0) 0).map (·.state) = some .opened) ∧
    ((checkDrain 0 (withLh (fun h => { h with lots := [some { lot0 with state := .draining }] }) live)).lh.lots.map
      fun l => l.map (·.drained)) = [some true] ∧
    (∀ c ∈ [(live, [none]), (leaving0 none, [some LotState.finished])],
      ((checkFinish 0 (withLh (fun h => { h with lots := [some { lot0 with state := .draining, drained := true }] }) c.1)).lh.lots.map
        fun l => l.map (·.state)) = c.2) ∧
    ((checkFinish 0 (withLh (fun h => { h with lots := [some { lot0 with state := .draining, drained := true, unwritten := 1 }] }) live)).lh.lots.map
      fun l => l.map (·.state)) = [some .draining] ∧
    palletAt (closeShort 5 (moving 0)) 5 ≠ none := by decide +kernel

/-- R2 and R3: an Ethernet frame that is no line frame counts as a bad frame of unknown kind. -/
theorem test_foreign_frame_is_bad :
    (takeHeader (headerTaken none) live).rp.rx.map (·.fwd) = some .notForwarded ∧
    (completeReception [0x45, 0, 0, 60] true (takeHeader (headerTaken none) live)).rp.rxErr = 1 := by decide +kernel

/-- R5: a frame found bad at its end leaves with the items received and a wrong frame check. -/
theorem test_bad_cut_through_copy_keeps_its_bytes :
    ((completeReception [1, 2, 3, 4, 5, 6, 0, 0, 0] false (takeHeader header0 live)).rp.tx.map fun t => (t.body, t.badCheck)) =
      some (some [1, 2, 3, 4, 5, 6, 0], true) := by decide +kernel

/-- R49: the served set of a pulse holds a bag once. -/
theorem test_repeated_bag_joins_once :
    ((trackChan (fireGate 0 { point := 0, served := some (.bag 1) } 0
        (gateAt 0 { TrackDyn.clear with state := .opened, pulse := some (pulse0 2) })) 0).dyn.pulse.map (·.served)) =
      some [.bag 0, .bag 1] := by decide +kernel

/-- R198: the number of words is checked before the index. -/
theorem test_word_count_before_index :
    formatOk (request 3 [7, 18, 2, 0, 0, 0]) = false ∧ formatOk (request 3 [7, 18, 2, 0, 0, 0, 0]) = true := by decide +kernel

/-! ## One step of a request -/

/-- Whether a step of a request's row answers with a status: the answer's header word is the first item of the part. -/
def answers (i : Instr) (r : Request) : Option (List Word) :=
  match exec i (at_ (asking r)) with
  | .next t => t.chip.rp.tx.bind fun f => (f.body.bind (parseItems f.header.count.toNat)).map fun l => l.map (·.value)
  | _ => none

theorem test_read_status_answers :
    answers .readStatus (request 1 [1]) = some [0x01000001, 1, 0, 0, 0, 0, 0] ∧
    answers .readStatus (request 1 [13]) = some [0x01010001] ∧ answers .list (request 10 [5]) = some [0x0A000001, 0] := by
  decide +kernel

theorem test_modes_and_lots_answer :
    answers (.setMode true) (request 4 [2]) = some [0x04000001] ∧ answers (.setMode true) (request 4 [1]) = some [0x04040001] ∧
    answers (.openLot true) (request 5 [77, 16]) = some [0x05020001] ∧
    answers (.openLot true) (request 5 [77, 15]) = some [0x05030001] ∧
    answers (.closeLot true) (request 6 [7]) = some [0x06060001] ∧ answers (.closeLot false) (request 6 [7]) = some [0x06090001] := by
  decide +kernel

theorem test_operations_answer :
    answers (.startChannel true) (request 11 [7]) = some [0x0B070001] ∧ answers (.stopChannel true) (request 12 [8]) = some [0x0C020001] ∧
    answers (.enableShuttle true) (request 13 [0]) = some [0x0D070001] ∧
    answers (.requeuePallet true) (request 14 [5]) = some [0x0E060001] ∧
    answers (.clearAlerts true) (request 15 [524287]) = some [0x0F000001] ∧
    answers (.clearAlerts true) (request 15 [524288]) = some [0x0F030001] ∧ answers (.restart true) (request 16 []) = some [0x10000001] := by
  decide +kernel

theorem test_tables_answer :
    answers (.writeAuthorityList true) (request 3 [9, 0, 1, 1, 254]) = some [0x03000001] ∧
    answers (.writeAuthorityList true) (request 3 [9, 0, 1, 1, 255]) = some [0x03030001] ∧
    answers (.writeAlertRoutes true) (request 3 [7, 18, 2, 0, 0, 0, 0]) = some [0x03020001] ∧
    answers (.writeShuttleTable true) (request 3 [6, 0, 1, 12801, 120, 180, 600]) = some [0x03000001] ∧
    answers (.writeGuardTable true) (request 3 [4, 63, 1, 1, 0, 0, 1, 3, 5, 4, 0]) = some [0x03030001] ∧
    answers .readTable (request 2 [9, 0, 4]) = some [0x02000001, 0, 0, 0, 0, 0, 0, 0, 0] := by decide +kernel

/-! ## Grants in the middle of an event (R8, R152) -/

/-- R8, R114, R118: CLOSE-LOT of a lot that has finished already: its REPORT leaves at once, the lot is retired within the
request, and the answer waits behind. -/
theorem test_close_lot_report_leaves_before_answer :
    (match exec (.closeLot true) (at_ (withLh (fun h => { h with lots := some lot0 :: h.lots.tail }) (asking (request 6 [0])))) with
      | .next t => (t.chip.rp.tx.map (·.header.kind), t.chip.rp.txQueue.map (·.kind), t.chip.rp.returnList.map (·.kind),
          t.chip.lh.lots.head?)
      | _ => (none, [], [], none)) = (some 6, [.mgmtAns], [.report], some none) := by decide +kernel

/-- R8, R156: the alert of TRACE-BACKLOG begins to leave before the pause value is handed. -/
theorem test_backlog_alert_leaves_before_pause :
    let c := backlogRises (inMode .production (withMa (fun m =>
      { m with routes := List.replicate 19 { dest := some 3, stop := false },
               config := { m.config with pausePoint := some { index := 0, key := 0x0401, pause := 1, resume := 0, timeout := 50 } } }) live))
    (c.rp.tx.map (·.header.kind), c.rp.txQueue.map (·.kind)) = (some 5, [.actuate]) := by decide +kernel

/-- R152: a rewrite that becomes waiting while the master is free begins, and a record placed after it waits. -/
theorem test_rewrite_begins_before_later_write :
    let c := placeRecord 1 record0 (amendPlace 0 (fun h => h ||| 1) (withTm (fun t => { t with places := [place0 .stored, place0 .free] }) live))
    (match c.tm.spi with | some (.rewrite p _) => some p | _ => none) = some 0 ∧ c.tm.writeQueue.length = 1 := by decide +kernel

theorem test_witness_grants_when_handed :
    ((leaving0 none).rp.tx ≠ none ∧ txAwaits (leaving0 none) = false ∧
      txAwaits (withRp (fun p => { p with forward := [entry0 false false] }) live) = false ∧
      txAwaits (withRp (fun p => { p with returnList := List.replicate 16 return0 }) live) = false ∧
      txAwaits (queued 1 .report) = false) ∧
    (txAwaits live = true ∧ txAwaits (withRp (fun p => { p with returnList := List.replicate 15 return0 }) live) = true ∧
      txAwaits (withRp (fun p => { p with forward := [entry0 true false] }) live) = true ∧
      txAwaits (inRing .passive (queued 1 .report)) = true) ∧
    (reportBegins live = true ∧ reportBegins (inRing .passive live) = false ∧ reportBegins (queued 1 .actuate) = false) ∧
    ((handLot 0 (moving 0)).lh.lots = [none] ∧ palletAt (handDelivery 5 delivered) 5 = none) ∧
    (spiAwaits live = true ∧ spiAwaits (withTm (fun t => { t with spi := some (.rewrite 0 0) }) live) = false ∧
      spiAwaits (traced .stored fun t => { t with marks := [0] }) = false) := by decide +kernel

/-! ## A write of a zone's channels -/

/-- `pair0` with both partners in a freshness state and zone 2 in a state before it, entry 1 alone written again. -/
def rewritten (f before : Freshness) : Chip :=
  let c := modDose 2 (fun d => { d with state := before }) { pair0 with si := { pair0.si with
    chans := pair0.si.chans.map fun (k : IntakeChan) => { k with dyn := { k.dyn with fresh := f } }
    zones := pair0.si.zones.set 2 { temp := if before = .fresh then some 905 else none, state := before } } }
  let chans := (c.si.chans.take 1) ++ [{ pairEntry 0 5 911 with dyn := .clear }]
  rederiveZone 2 { c with si := { c.si with chans := chans }
                          de := { zones := doseZonesAfter [1] c.si.chans chans c.de.zones } }

/-- The zone after entry 0, silent for longer, has become STALE-HELD. -/
def heldLater (c : Chip) : Chip := rederiveZone 2 (modIntake 0 (fun d => { d with fresh := .staleHeld }) c)

/-- DE's record of zone 2: what a write left, and its state. -/
def recordOf (c : Chip) : ZoneWrite × Freshness := ((doseZone c 2).write, (doseZone c 2).state)

/-- R81: the next item of either partner has no temperature before it and its update is skipped; the one after credits. -/
theorem test_first_item_after_a_map_write_is_skipped :
    let c := rewritten .fresh .fresh
    let d := takeItem { key := 4, value := 902, quality := 0 } c
    c.de.zones.map (·.write) = [.none, .none, .written, .none, .none, .none] ∧ (zoneAt c 2).temp = some 905 ∧
    doseBefore 2 (some 905) c = none ∧ (doseZone d 2).skipped = 1 ∧ (doseZone d 2).credits = 0 ∧
    doseBefore 2 (some 902) d = some 902 ∧
    (doseZone (takeItem { key := 4, value := 902, quality := 0 } d) 2).credits = 1 := by decide +kernel

/-- R93: a zone made STALE by a write is STALE-HELD by R34 where the silent partner is, and DE's record of it STALE until an
item, also through a further write. -/
theorem test_written_zone_is_not_stale_held :
    (zoneAt (rewritten .staleHeld .fresh) 2).state = .staleHeld ∧ recordOf (rewritten .staleHeld .fresh) = (.silenced, .stale) ∧
    (zoneAt (rewritten .stale .fresh) 2).state = .stale ∧ recordOf (rewritten .stale .fresh) = (.silenced, .stale) ∧
    (zoneAt (heldLater (rewritten .stale .fresh)) 2).state = .staleHeld ∧
    recordOf (heldLater (rewritten .stale .fresh)) = (.silenced, .stale) ∧
    zoneWritten false (doseZone (rewritten .stale .fresh) 2) = doseZone (rewritten .stale .fresh) 2 ∧
    recordOf (takeItem { key := 5, value := 902, quality := 0 } (rewritten .staleHeld .fresh)) = (.none, .fresh) ∧
    (doseZone (takeItem { key := 5, value := 902, quality := 0 } (rewritten .staleHeld .fresh)) 2).skipped = 1 := by
  decide +kernel

/-- R87, R88: a zone silent before the write goes on being copied. -/
theorem test_silent_zone_stays_copied_after_a_write :
    recordOf (rewritten .staleHeld .staleHeld) = (.written, .staleHeld) ∧ recordOf (rewritten .stale .stale) = (.written, .stale) ∧
    recordOf (heldLater (rewritten .stale .stale)) = (.written, .staleHeld) ∧
    (doseZone (rewritten .stale .stale) 1).write = .none := by decide +kernel

/-! ## Further witnesses, clause by clause -/

theorem test_witness_LowestMatchingEntryTakesItem_order :
    ((takeValue probe0 21000).high = true ∧ (takeValue probe0 20999).high = true ∧ (takeValue probe0 15216).high = false) ∧
    ((intakeChan pair0 0).dyn.fresh = .fresh ∧ (intakeChan (rewritten .fresh .fresh) 1).dyn.fresh = .stale) ∧
    (zoneAt pair0 2).temp = some 905 ∧
    (pendingAlert (acceptItem 0 false 21000 (intake0 probe0 .clear live)) .overRange).isSome = true := by decide +kernel

/-- `pair0` with a split tolerance. -/
def split0 (n : Nat) : Chip := withMa (fun m => { m with config := { m.config with split := n } }) pair0

theorem test_witness_SilentChannelBecomesStale_told :
    ((pendingAlert (checkSplit 2 0 (split0 5)) .probeSplit).isSome = true ∧ checkSplit 2 0 (split0 6) = split0 6 ∧
      (map0 .marker).partner = none) ∧
    ((tellZone 0 .staleHeld (line0 segment0 0)).st.qBlanch.map fun g => g.hold.has .staleZone) = [true] ∧
    (doseZone (tellZone 0 .staleHeld (line0 segment0 0)) 0).staleZones = 1 ∧
    (doseZone (tellZone 0 .staleHeld (line0 { segment0 with hold := HoldReason.staleZone.only } 0)) 0).staleZones = 0 ∧
    ((tellFreshness 0 (some (.encoder (some .blanch))) .staleHeld (line0 segment0 0)).st.qBlanch.map fun g =>
      g.hold.has .untrackedGap) = [true] ∧ encoderOf (belts live).st .freeze ≠ 0 := by decide +kernel

theorem test_witness_EncoderHandsPositiveDeltas_channels :
    (trackChan (gateAt 0 .clear) 0).cfg.source = .encoder 0 ∧ (trackChan (interval 9) 0).cfg.source ≠ .encoder 0 ∧
    (advanceSource 0 3 (gateAt 4294967294 .clear)).tc.positions = [1] := by decide +kernel

theorem test_witness_MillisecondPointFiresInterval_due :
    (millisecondDue (interval 10) = true ∧ millisecondDue (interval 9) = false) ∧
    (dueIntervals (interval 9) 0 = 0 ∧ dueIntervals (interval 10) 0 = 1 ∧ dueIntervals (interval 20) 0 = 2) ∧
    (isSlave { cfg := { gate0 with trigger := .master 0 }, dyn := .clear } = true) ∧
    (triggerOf (trackChan (marked .clear) 0) = some (.marker 3 .rising) ∧ triggerOf (trackChan live 0) = none) ∧
    ((markerItem 3 true (marked { TrackDyn.clear with state := .armed, lastLevel := some true, filtered := some false })).tc.chans.map
      (·.dyn.capture.last.isSome)) = [true] ∧
    (newestDecision (bagged 0) 4 = none ∧
      (newestDecision (withBa (fun b => { b with decisions := [decision0 .rejected, decision0 .gathering] }) live) 258) =
        some (decision0 .gathering)) := by decide +kernel

theorem test_witness_DecisionPointsJudgeSegments_chill :
    (tellChill .stale false (chilling 0 (38, 4990) 0)).fv.prevChill = none ∧
    (tellChill .stale true (chilling 0 (38, 4990) 0)).fv.prevChill = some (38, 4990) ∧
    warmOf (tellChill .staleHeld true (chilling 0 (38, 4990) 0)) = [(0, true)] ∧
    (tellChill .staleHeld true live).fv.chillState = .staleHeld ∧ live.fv.chillState ≠ .staleHeld ∧
    (reached (channelPos (gateAt 400 .clear) 0) (0 + BitVec.ofNat 32 400) = true ∧
      reached (channelPos (gateAt 399 .clear) 0) (0 + BitVec.ofNat 32 400) = false) ∧
    sweepLimit (gateAt 0 .clear) 0 (.beforeSweep 3) = 8 := by decide +kernel

/-- A bag in slot 0, its decision list entry with gate reasons that wait. -/
def gateWaiting (h : HoldSet) : Chip :=
  withBa (fun b => { b with decisions := [{ decision0 .gathering with seq := 4, lot := some 0, slot := some 0, gateReasons := h }] })
    (withLh (fun l => { l with recipes := [recipe0], lots := [some lot0] }) (bagged 0))

theorem test_witness_BagIsDecidedAtItsDeadline_gates :
    (waitingReasons 0 (gateWaiting 0) = 0 ∧ waitingReasons 0 (gateWaiting 1) = 1 ∧ (lotAt (gateWaiting 1) 0).bind (·.building) = none) ∧
    (palletFull live = false ∧ palletFull (withBa (fun b => { b with slots := [some { slot0 with state := .palletWait }] }) live) = true) ∧
    ((createPallet 0 (gateWaiting 0)).2 = 0 ∧ ((createPallet 0 (gateWaiting 0)).1.ba.pallets.map (·.hold)) = [0]) ∧
    (tryJoin 0 (gateWaiting 0)).2 = true ∧
    (tryJoin 0 (withBa (fun b => { b with pallets := List.replicate 24 pallet0 }) (gateWaiting 0))).2 = false ∧
    (bagOutcome 4 .failed live).ba.strayGate = 1 ∧
    ((bagOutcome 4 .failed (gateWaiting 0)).ba.decisions.map (·.gateReasons)) = [HoldReason.gateUnconfirmed.only] ∧
    ((bagOutcome 4 .notSent (gateWaiting 0)).ba.decisions.map (·.gateReasons)) = [HoldReason.unverified.only] ∧
    slotsInOrder .gathering (gateWaiting 0) = [0] := by decide +kernel

theorem test_witness_PlaceWriteCompletes_poisoned :
    (((placeAt (traced .stored id) 0).fields.bind (·.pallet)) = some 5 ∧ palletAt (traced .stored id) 5 = none) ∧
    (placeAt (poisonPlace 0 (traced .stored id)) 0).state = .poisoned ∧
    (((placeAt (poisonPlace 0 (traced .stored id)) 0).fields.map fun f => f.hold.has .traceFault) = some true) ∧
    ((palletAt (poisonPlace 0 { traced .stored id with ba := (moving 0).ba, lh := (moving 0).lh }) 5).map fun p => p.hold.has .traceFault) =
      some true ∧
    ((palletAt (poisonPlace 0 { traced .stored id with ba := { (moving 0).ba with pallets := [{ pallet0 with state := .delivered }] } }) 5).map
      (·.hold)) = some 0 := by decide +kernel

/-- A part with `n` shadowed points. -/
def shadowed (n : Nat) : Chip :=
  withAg (fun a => { a with shadows := (List.range n).map fun i =>
    { key := BitVec.ofNat 16 i, received := 0, receivedAt := 0, forwarded := none } }) live

/-- Two owned points with one key. -/
def twins : Chip :=
  { live with tc := { live.tc with chans := [{ cfg := gate0, dyn := { TrackDyn.clear with state := .opened } },
                                             { cfg := gate0, dyn := .clear }] } }

theorem test_witness_GuardDecidesItems_shadows :
    ((shadowItem true 77 1 (some 1) (shadowed 31)).ag.shadows.length = 32 ∧
      (shadowItem true 77 1 (some 1) (shadowed 32)).ag.unshadowed = 1 ∧ shadowItem false 77 1 none (shadowed 1) = shadowed 1 ∧
      ((shadowItem true 0 9 none (shadowed 1)).ag.shadows.map fun e => (e.received, e.forwarded)) = [(9, none)]) ∧
    (ownedByKey twins 0x0401 = some 1 ∧ ownedPoint twins 1 = some (0x0401, 0) ∧ ownedPoint live 0 = none ∧
      ownedPoint (owning .production) 0 = some (0x0401, 0)) ∧
    (conditionHolds live .poolLow = false ∧ conditionHolds live .noLot = true ∧ conditionHolds (moving 0) .noLot = false ∧
      conditionHolds live .zoneStale = true ∧ conditionHolds live .traceBacklog = false ∧ conditionHolds live .lotHeld = false) := by
  decide +kernel

/-- Channel 0 with an entry of its awaiting list. -/
def awaiting0 : Chip :=
  track0 gate0 { TrackDyn.clear with state := .armed, awaiting := [pulse0 1, { pulse0 2 with token := 4 }] } live

theorem test_witness_ConfirmationIsSettled_told :
    ((settleToken 0 0 .confirmed awaiting0).tc.chans.map fun k => k.dyn.awaiting.map (·.token)) = [[4]] ∧
    settleToken 0 7 .confirmed awaiting0 = awaiting0 ∧
    ((settleToken 0 0 .confirmed (gateAt 0 { TrackDyn.clear with state := .opened, pulse := some (pulse0 1) })).tc.chans.map fun k =>
      k.dyn.pulse.map fun p => (p.outcome, p.served)) = [some (.confirmed, [])] ∧
    tellSource confirm0 .failed live = live := by decide +kernel

theorem test_witness_OperationsAreAnswered_starts :
    ((commandStart 0 (starting .ignore .delaying 1)).2 = .noRoom ∧ (commandStart 0 (starting .ignore .armed 0)).2 = .ok) ∧
    reached (channelPos (gateAt 0 .clear) 0) (0 + BitVec.ofNat 32 gate0.delay) = false := by decide +kernel

/-! ## Witnesses of the opened operations -/

theorem test_witness_HeldFrameIsRebuilt_items :
    (∃ v, (checkItem 10243 0 (controlled .commission)).2 = some v) ∧ (checkItem 7685 800 (controlled .production)).2 = some 666 ∧
    (checkItem 1281 1 (withAg (fun a => { a with mode := .production, guards := [guardRow 1280 65280 .always .block] }) live)).2 = none := by
  refine ⟨⟨0, ?_⟩, ?_, ?_⟩ <;> decide +kernel

theorem test_witness_ReceptionCountsAndDisposes_parts :
    (readPart 17 [mkItem 5 0x01020001, mkItem 0 9]).map (fun p => (p.number, p.last, p.count)) = some (2, false, 1) ∧
    (readPart 17 [mkItem 5 0x10FF01FF]).map (fun p => (p.number, p.last, p.count)) = some (255, true, 255) ∧
    (readPart 17 [mkItem 5 0xFF000F0F]).map (fun p => (p.code, p.last)) = some (255, true) := by decide

theorem test_witness_ExposureFollowsTheWarmerEnd_dock :
    let c := withTd (fun t => { t with dock := [96, 97] }) (docked none 0 pallet96 pallet97)
    c.td.dock.Pairwise (fun a b => closeOrder c a ≤ closeOrder c b) ∧ palletAt c 9 = none ∧
    (enterDock 96 (withTd (fun t => { t with dock := [97] }) c)).td.dock = [96, 97] ∧
    (enterDock 97 (withTd (fun t => { t with dock := [96] }) c)).td.dock = [96, 97] := by decide +kernel

theorem test_witness_BypassFollowsItsPin_resent :
    ownedPoint live 0 = none ∧ ownedPoint (owning .production) 0 = some (0x0401, 0) ∧
    (trackChan (owning .production) 0).cfg.output.isSome = true ∧
    (let c := withMa (fun m => { m with config := { m.config with
        pausePoint := some { index := 7, key := 0x0402, pause := 1, resume := 0, timeout := 10 } } }) live
     ownedPoint c 7 = some (0x0402, 0) ∧ (trackChan c 7).cfg.output = none) := by decide +kernel

/-- Lots that wait to report, of finish times 5, 3 and 3. -/
def reporting : Chip :=
  let l (t : Nat) : Option Lot := some { lot0 with finishTime := some t, report := .waiting }
  let p (id t : Nat) : Pallet := { pallet0 with id := id, delTime := some t, report := .waiting }
  withBa (fun b => { b with pallets := [p 1 9, p 2 4, pallet0, p 3 4] })
    (withLh (fun h => { h with lots := [l 5, none, l 3, some lot0, l 3, none, none, none] }) live)

theorem test_witness_AssemblyAndRetriesComeDue_order :
    waitingLots reporting = [2, 4, 0] ∧ waitingDeliveries reporting = [2, 3, 1] ∧
    lotAt reporting 3 = some lot0 ∧ lotAt reporting 1 = none := by decide +kernel

/-- BAG-OVERRUN, kind 9, pending and unsent. -/
def unsent0 (dest : Option Byte) : Chip :=
  withMa (fun m => { m with
    pending := m.pending.set 8 (some { count := 2, subjectType := .bag, subject := 7, line := 3, unsent := true })
    routes := m.routes.set 8 { dest := dest, stop := false } }) live

theorem test_witness_AssemblyAndRetriesComeDue_unsent :
    AlertKind.all.map (·.index) = List.range 19 ∧
    (AlertKind.all.filter (unsentAlert (unsent0 (some 20)))).map (·.index) = [8] ∧
    AlertKind.all.filter (unsentAlert (unsent0 none)) = [] ∧
    (AlertKind.all.all fun k => handUnsent k (unsent0 none) == unsent0 none) = true ∧
    ((handAllUnsent (unsent0 (some 20))).ma.pending[8]?.bind id).map (·.unsent) = some false := by decide +kernel

theorem test_witness_AssemblyAndRetriesComeDue_frames :
    ((lotReport 0 { lot0 with closeTime := some 6 } reporting).items.map (·.value)).take 4 = [77, 0, 0, 6] ∧
    ((lotReport 0 { lot0 with closeTime := some 6 } reporting).items.map (·.key)).take 4 = [2, 0, 0, 1] ∧
    (deliveryReport { pallet0 with short := true, firstPlace := some 3, delDest := some .quarantine } reporting).items.map (·.key) =
      [1, 5, 5, 48, 3, 0, 0, 0, 0, 0, 1] ∧
    (lotHold reporting 0 = 0 ∧ lotHold (withLh (fun h => { h with lots := [some { lot0 with manual := true }] }) live) 0 = 0x2000) ∧
    (deliveryReport pallet0 live).items.map (·.value) = [0, 0, 0, 4, 0, 0, 0, 0, 0, 0, 0] := by decide +kernel

theorem test_witness_ModesLotsAndHoldsAreAnswered_gap :
    (leaveGap 0 (withSt (fun s => { s with gapSet := 0x81 }) live)).st.gapSet = 0x80 ∧
    (leaveGap 7 (withSt (fun s => { s with gapSet := 0x81 }) live)).st.gapSet = 0x01 ∧
    (∀ j, j < 8 → (0x80 : BitVec 8).getLsbD j = ((0x81 : BitVec 8).getLsbD j && decide (j ≠ 0))) := by decide +kernel

/-- The words of a guard entry: on, key 1 and mask, condition and action. -/
def guardEntry (cond action : Word) : List Word := [1, 0x0400, 0xFF00, cond, action, 5, 10, 0]

theorem test_witness_RequestsAreCheckedFirst_writes :
    formatOk (request 3 ([4, 0, 2] ++ guardEntry 1 1 ++ guardEntry 7 5)) = true ∧
    formatOk (request 3 ([4, 0, 2] ++ guardEntry 1 1 ++ guardEntry 8 5)) = false ∧
    formatOk (request 3 ([4, 0, 2] ++ guardEntry 1 1 ++ guardEntry 7 6)) = false ∧
    formatOk (request 3 ([4, 0, 2] ++ guardEntry 0 1 ++ guardEntry 7 5)) = false ∧
    formatOk (request 3 ([4, 0, 2] ++ guardEntry 1 1)) = false ∧ formatOk (request 3 [4, 0]) = false ∧
    entriesFormat .geometry 1 2 (List.replicate 10 0) = true ∧ entriesFormat .geometry 2 2 [] = true ∧
    entriesFormat .geometry 0 3 (List.replicate 22 0) = false ∧ entriesFormat .recipes 3 0 [] = true := by decide +kernel

theorem test_witness_RequestsAreCheckedFirst_parts :
    let c := endRequest (request 2 [8, 0, 1]) .ok (List.replicate 16 7) (inRing .passive (asking (request 2 [8, 0, 1])))
    let d := endRequest (request 2 [8, 0, 1]) .ok [] (inRing .passive (asking (request 2 [8, 0, 1])))
    (c.rp.returnList.length + c.rp.txQueue.length = 2 ∧ c.ma.queue = []) ∧ d.rp.returnList.length + d.rp.txQueue.length = 1 ∧
    (answerPart (request 2 [8, 0, 1]) .ok (List.replicate 16 7) false 0).items.length = 16 ∧
    ((answerPart (request 2 [8, 0, 1]) .ok (List.replicate 16 7) false 1).items.map fun i => (i.key, i.value)) =
      [(5, 0x02000101), (15, 7)] := by decide +kernel

theorem test_witness_BagIsDecidedAtItsDeadline_record :
    (makeRecord { slot0 with weight := some 3 } false 0 bagLine).net = some (-27) ∧
    (lotAt bagLine 0).isSome = true ∧ lotAt live 0 = none ∧
    (triggerOf (trackChan (track0 { gate0 with trigger := .bagMade } { TrackDyn.clear with state := .armed } live) 0) = some .bagMade ∧
      triggerOf (trackChan live 0) = none) := by decide +kernel

theorem test_witness_PlaceWriteCompletes_bytes :
    let r := { record0 with net := some (-1), draws := [{ segment := 258, grams := 65539 }] }
    r.bytes.length = 64 ∧ (r.bytes.drop 16).take 3 = [255, 255, 255] ∧ (r.bytes.drop 23).take 7 = [1, 1, 2, 1, 0, 3, 0] ∧
    ((-1 : Int) % 16777216 = (16777215 : Nat)) := by decide +kernel

/-- The words of a map entry of ZONE-TEMP, of zone `z`, with a partner. -/
def zoneEntry (z mark partner : Word) : List Word :=
  [1, 5, 0xFFFF, 1, z, 8000, 128, 600, 1050, 30, 300, mark, partner]

theorem test_witness_ReadsAreAnswered_readBack :
    (fieldsFormat (intakeFields (zoneEntry 5 1 47)) (zoneEntry 5 1 47) = true ∧
      fieldsRange (intakeFields (zoneEntry 5 1 47)) (zoneEntry 5 1 47) = true ∧
      intakeWords (intakeOf (zoneEntry 5 1 47)) = zoneEntry 5 1 47) ∧
    (fieldsRange (intakeFields (zoneEntry 0 0 48)) (zoneEntry 0 0 48) = true ∧
      intakeWords (intakeOf (zoneEntry 0 0 48)) = zoneEntry 0 0 0) ∧
    (fieldsRange (intakeFields (zoneEntry 6 0 0)) (zoneEntry 6 0 0) = false ∧
      fieldsRange (intakeFields (zoneEntry 0 2 0)) (zoneEntry 0 2 0) = false) ∧
    (let ws : List Word := [4, 1, 47, 0, 16777215, 65535, 2, 47, 3, 0, 0, 3, 1, 1, 0xFF01, 1, 0, 5000]
     fieldsFormat (trackFields ws) ws = true ∧ fieldsRange (trackFields ws) ws = true ∧ trackWords (trackOf ws) = ws) ∧
    (let ws : List Word := [30, 10, 15, 64, 50, 1, 7, 0x0401, 1, 0, 10, 255]
     fieldsRange (lineFields ws) ws = true ∧ lineWords (lineOf ws) = ws) ∧
    (fieldsRange (authorityFields [1, 254]) [1, 254] = true ∧ authorityWords (authorityOf [1, 254]) = [1, 254]) ∧
    (fieldsRange guardFields (guardEntry 7 5) = true ∧ guardWords (guardOf (guardEntry 7 5)) = guardEntry 7 5) ∧
    routeWords (routeFrom [255, 1]) = [255, 1] ∧ shuttleWords (shuttleOf shuttle0 [256, 1, 600, 1800]) = [256, 1, 600, 1800] ∧
    (let ws := [1, 1, 600] ++ List.replicate 64 (1048575 : Word) ++
        [1, 2, 3, 70, 5, 6, -180, 450, 0, 450, 20, 7, 1500, 48, 120, 65535, -180, 50]
     ws.length = 85 ∧ fieldsRange (recipeFields ws) ws = true ∧ recipeWords (recipeOf ws) = ws) := by decide +kernel

theorem test_witness_ReadsAreAnswered_words :
    positionOf Mode.list .production = 3 ∧ statusOf 0 live = none ∧ statusOf 13 live = none ∧ packIds [1, 2, 3] = [65538, 0x30000] ∧
    bytesWord [1, 2, 3, 4, 5, 6, 7, 8] 1 = 0x05060708 ∧ (statusOf 10 (docked (some 60) 0 pallet96 pallet97)).map (·.getLast?) = some (some 1) ∧
    (findRole live .dockTemp = none ∧ (findRole (docked (some 60) 0 pallet96 pallet97) .dockTemp).isSome = true) := by
  decide +kernel

theorem test_witness_MillisecondPointFiresInterval_silent :
    (trackChan live 0).cfg.output = none ∧ (trackChan (owning .production) 0).cfg.output.isSome = true ∧
    triggerOf (trackChan live 0) = none := by decide +kernel

theorem test_witness_ExposureFollowsTheWarmerEnd_hold :
    let c (m : Bool) := withLh (fun h => { h with lots := [some { lot0 with manual := m }] }) live
    lotAt live 0 = none ∧ (lotAt (c true) 0).map (·.manual) = some true ∧ (lotAt (c false) 0).map (·.manual) = some false ∧
    effectiveHold (c true) 0 1 = 0x2001 ∧ effectiveHold (c false) 0 1 = 1 := by decide +kernel

theorem test_pending_kind_words :
    pendingWords .bagOverrun { count := 2, subjectType := .bag, subject := 7, line := 3, unsent := true } = [9, 2, 7, 4, 3, 1] := by
  decide

/-! ## Witnesses: operations opened inside the statements -/

/-- MA executing a place read, or waiting for RESTART's answer, with two requests queued and a frame in reception. -/
def busy (phase : MaPhase) : Chip :=
  withMa (fun m => { m with phase := phase, queue := [request 2 [], request 1 []] })
    (withRp (fun p => { p with rx := some { header := header0, fwd := .buffered } }) live)

/-- A report that was QUEUED waits after the entry into ISOLATED (R117, R176). -/
def waits0 : ReportState → ReportState
  | .none => .none
  | .queued => .waiting
  | .waiting => .waiting

theorem test_witness_IsolationEmptiesTheRingPort_requests :
    (waits0 .queued = .waiting ∧ waits0 .waiting = .waiting ∧ waits0 .none = .none) ∧
    ((busy .reading).pins.running = true ∧ (busy .reading).rp.ring ≠ .isolated ∧ TablesSized (busy .reading) ∧
      (busy .reading).ma.phase = .reading ∧ (busy .reading).tm.readWaiting = none) ∧
    ((busy .restartWait).pins.running = true ∧ (busy .restartWait).rp.ring ≠ .isolated ∧ TablesSized (busy .restartWait) ∧
      (busy .restartWait).ma.phase = .restartWait ∧ (busy .restartWait).ma.phase ≠ .reading) := by
  refine ⟨⟨rfl, rfl, rfl⟩, ⟨rfl, by decide, sized_live, rfl, rfl⟩, rfl, by decide, sized_live, rfl, by decide⟩

/-- R197, R206: the request that is executing stays, the others go; RESTART waits no longer. -/
theorem test_isolation_keeps_the_executing_request :
    ((isolatedEntry (busy .reading)).ma.queue = [request 2 []] ∧ (isolatedEntry (busy .idle)).ma.queue = []) ∧
    ((isolatedEntry (busy .restartWait)).ma.phase = .restartReady ∧ (isolatedEntry (busy .idle)).ma.phase = .idle) ∧
    (isolatedEntry (busy .idle)).rp.rx = some { header := header0, fwd := .notForwarded } := by decide +kernel

theorem test_witness_TransmitterIsGranted_decided :
    let c (h : Option BagRecord) := withTm (fun t => { t with holding := h })
      (withBa (fun b => { b with slots := [some { slot0 with state := .decided, record := some record0 }] }) live)
    (handSlot 0 (c none)).2 = true ∧ (handSlot 0 (c (some record0))).2 = false ∧
    (placeHeld (c none)).2 = false ∧ slotsInOrder .decided (c none) = [0] := by decide +kernel

theorem test_witness_EncoderHandsPositiveDeltas_pool :
    (∀ x : Segment, (fun g : Segment => decide (g.id ≠ 3)) x = true ↔ x.id ≠ 3) ∧
    (segmentAt live 3 = none ∧ segmentAt (joinQueue .surge segment0 live) 3 = some segment0) ∧
    (freeSegment 3 false (enterWindow 3 (joinQueue .surge segment0 live))).fv.window = [] :=
  ⟨fun _ => decide_eq_true_iff, by decide +kernel⟩

theorem test_witness_BagIsDecidedAtItsDeadline_overrun :
    ((lotAt bagLine 0).map (·.number) = some 77 ∧ lotAt live 0 = none) ∧
    (∃ b, some b ∈ bagLine.ba.slots ∧ b.seq = 8116) ∧
    ((overrunBag 8116 0 bagLine).ba.overruns = 1 ∧ (overrunBag 8116 0 bagLine).ba.lostRecords = 0) ∧
    (overrunBag 8116 0 (withTm (fun t => { t with holding := some record0 }) bagLine)).ba.lostRecords = 1 ∧
    (slotAt (bagged 0) 0 = some slot0 ∧ slot0.state = .gathering ∧ slotAt live 0 = none) ∧
    (slotAt (gateWaiting 0) 0).isSome = true := by
  refine ⟨by decide +kernel, ⟨{ slot0 with seq := 8116 }, List.mem_cons_self .., rfl⟩, by decide +kernel,
    by decide +kernel, by decide +kernel, by decide +kernel⟩

theorem test_witness_ShuttleDeadlineFaultsTransfer_fault :
    let u (st : ShuttleState) : Shuttle := { shuttle0 with state := st }
    ((shuttled .assigned (moving 0)).td.shuttles[0]? = some (u .assigned) ∧
      (shuttled .loaded (moving 0)).td.shuttles[0]? = some (u .loaded) ∧
      (shuttled .inAirlock (moving 0)).td.shuttles[0]? = some (u .inAirlock) ∧ (u .loaded).pallet = some 5) ∧
    ((6 : Word).toNat % 65536 = 6 ∧ (65535 * 65536 + 6 : Word).toNat % 65536 = 6) ∧
    ((shuttleStatus 0 6 (shuttled .inAirlock (moving 0))).ba.pallets.map (·.state)) = [.faulted] ∧
    ((faultTransfer 0 (moving 0)).td.shuttles.map fun s => (s.state, s.faults)) = [(.fault, 1)] := by decide +kernel

theorem test_witness_GuardDecidesItems_owned :
    let full := withAg (fun a => { a with trapCount := 65535 }) (owning .production)
    ((owning .production).ag.mode ≠ .offline ∧ ownedByKey (owning .production) 0x0401 = some 0 ∧
      ownedByKey (owning .commission) 0x0401 = some 0 ∧ (0 : Word) ≠ 1) ∧
    ((checkItem 0x0401 1 (owning .production)).2 = some 0 ∧ (checkItem 0x0401 1 (owning .commission)).2 = some 1) ∧
    ((checkItem 0x0401 1 (owning .production)).1.ag.trapCount = 1 ∧ checkItem 0x0401 0 full = (full, some 0) ∧
      (checkItem 0x0401 1 full).1.ag.trapCount = 65535) := by decide +kernel

theorem test_witness_ExposureFollowsTheWarmerEnd_destination :
    (palletAt (moving 0) 5).map (·.state) = some .closed ∧ effectiveHold (moving 0) 0 0 = 0 ∧
    ((evalDestination 5 (moving 0)).ba.pallets.map (·.dest)) = [some .store] ∧
    ((changePalletHold 5 (fun _ => 1) (moving 0)).ba.pallets.map (·.dest)) = [some .quarantine] := by decide +kernel

/-- The recovery timer started at 0, seen at a time. -/
def timed (ms : Word) : Chip := atTime ms 0 (withRp (fun p => { p with recovery := some 0 }) live)

theorem test_witness_TablesAreWritten_refreshed :
    let shorter (n : Nat) (c : Chip) := withMa (fun m => { m with config := { m.config with recovery := n } }) c
    let marked := { owning .production with tc := { (owning .production).tc with unsent := [true, true] } }
    ((timed 5000).rp.recovery = some 0 ∧ recoveryDue (shorter 5 (timed 5000)) = true ∧
      recoveryDue (shorter 5 (timed 4999)) = false ∧ recoveryDue (shorter 6 (timed 5000)) = false) ∧
    (refreshUnsent (owning .production) marked).tc.unsent = [true, true] ∧
    (refreshUnsent live marked).tc.unsent = [false, true] := by decide +kernel

/-- A part whose warm restart is due, with a frame leaving, one in reception and an operation on the SPI master. -/
def restarting (ring : RingState) : Chip :=
  withMa (fun m => { m with phase := .restartReady })
    (withTm (fun t => { t with spi := some (.rewrite 0 0) })
      (inRing ring (withRp (fun p => { p with rx := some { header := header0, fwd := .buffered }, rxErr := 3, txErr := 9 })
        (leaving0 (some [])))))

theorem test_witness_WarmRestartClearsThePart_stands :
    ((restarting .passive).pins.running = true ∧ (restarting .passive).ma.phase = .restartReady ∧
      (restarting .passive).rp.ring ≠ .isolated ∧ (restarting .isolated).rp.ring = .isolated) ∧
    ((restartAll (restarting .passive)).rp.ring = .active ∧ (restartAll (restarting .passive)).rp.txErr = 0 ∧
      (restartAll (restarting .isolated)).rp.txErr = 9) ∧
    ((restartAll (restarting .passive)).rp.tx.isSome = true ∧ (restartAll (restarting .passive)).rp.rx.isSome = true ∧
      (restartAll (restarting .passive)).tm.spi = some (.rewrite 0 0) ∧
      (restartAll (restarting .passive)).ma.phase = .restartRunning) := by decide +kernel

end Sys2Proof.Tests
end

/-! PROOFS. Sample intake: the engineering value of a temperature item (R27, R28) and the values of the nine other roles
(R29, R30). -/

namespace Sys2Proof.Machine

/-! ## The conversion (R27) -/

/-- Field nodes that already publish in 0.1 °C (R27). -/
theorem convert_gain_unit {k : IntakeCfg} (raw : Int) (hg : k.gain = 1024) (ho : k.offset = 0) :
    convert k raw = raw := by
  rw [convert, hg, ho, Int.sub_zero]
  exact Int.mul_tdiv_cancel raw (by decide)

theorem convert_gain_zero {k : IntakeCfg} (raw : Int) (hg : k.gain = 0) : convert k raw = 0 := by
  rw [convert, hg, Int.mul_zero, Int.zero_tdiv]

/-- Truncation toward zero makes the division odd, so the sign of the gain comes out of it; a floor would not do (R27). -/
theorem convert_eq_neg_tdiv (k : IntakeCfg) (raw : Int) :
    convert k raw = -(((raw - k.offset) * -k.gain).tdiv 1024) := by
  rw [convert, Int.mul_neg, Int.neg_tdiv, Int.neg_neg]

/-! ## The value taken (R27 to R29) -/

/-- A temperature role is converted, then limited. -/
theorem takeValue_of_isTemperature {k : IntakeCfg} {r : Role} (w : Word) (hr : k.role = some r)
    (ht : r.isTemperature = true) : takeValue k w = clampValue k (convert k w.toInt) := by
  unfold takeValue
  rw [hr]
  cases r with
  | zoneTemp | chillTemp | exitTemp | dockTemp => rfl
  | _ => cases ht

/-- The disjunction over the four temperature roles is the model's own test of a role. -/
theorem exists_isTemperature {k : IntakeCfg}
    (h : (∃ z, k.role = some (.zoneTemp z)) ∨ k.role = some .chillTemp ∨ k.role = some .exitTemp ∨
      k.role = some .dockTemp) : ∃ r, k.role = some r ∧ r.isTemperature = true := by
  obtain ⟨z, hr⟩ | hr | hr | hr := h
  all_goals exact ⟨_, hr, rfl⟩

theorem takeValue_encoder {k : IntakeCfg} {b : Option Belt} (w : Word) (hr : k.role = some (.encoder b)) :
    takeValue k w = { value := (w.toNat % 65536 : Nat), low := false, high := false } := by
  rw [takeValue, hr]

theorem takeValue_marker {k : IntakeCfg} (w : Word) (hr : k.role = some .marker) :
    takeValue k w = { value := if w = 0 then 0 else 1, low := false, high := false } := by
  rw [takeValue, hr]

/-- A role that carries the 32 bits of an item whole: the seven that are neither a temperature nor ENCODER nor MARKER
(R29). -/
def Role.KeepsWord : Role → Prop
  | .infeedMass | .bagMade | .bagWeight | .bagCode | .bagMetal | .shuttleStatus _ | .pointEcho _ => True
  | _ => False

/-- The 32 bits are read as unsigned, and nothing limits them. -/
theorem takeValue_of_keepsWord {k : IntakeCfg} {r : Role} (w : Word) (hr : k.role = some r) (h : r.KeepsWord) :
    takeValue k w = { value := w.toNat, low := false, high := false } := by
  unfold takeValue
  rw [hr]
  cases r with
  | infeedMass | bagMade | bagWeight | bagCode | bagMetal | shuttleStatus | pointEcho => rfl
  | _ => exact h.elim

/-! ## Handing on (R30) -/

/-- An ENCODER item's consumer is given the count of the value taken: the low 16 bits of the word (R29). -/
theorem handOn_encoder (i : Nat) (b : Option Belt) (before : Option Int) (v : Int) (w : Word) (c : Chip) :
    handOn i (some (.encoder b)) before v w c = encoderItem i b (BitVec.ofNat 16 (w.toNat % 65536)) c := by
  have count : BitVec.setWidth 16 w = BitVec.ofNat 16 (w.toNat % 65536) :=
    BitVec.eq_of_toNat_eq (by simp)
  rw [← count]
  rfl

/-! ## The statements -/

/-- Settles O34: the conversion's three special gains, and the limits of R28 read off `clampValue`. -/
theorem temperatureIsConverted : Obligations.TemperatureIsConverted := by
  intro k w v role hv
  obtain ⟨r, hr, ht⟩ := exists_isTemperature role
  have engineering : v = convert k w.toInt := hv
  refine ⟨?_, ?_, ?_, ?_, rfl⟩
  · rw [engineering, takeValue_of_isTemperature w hr ht]
  · intro hg ho; rw [engineering, convert_gain_unit _ hg ho]
  · intro hg; rw [engineering, convert_gain_zero _ hg]
  · intro _; rw [engineering, convert_eq_neg_tdiv]

/-- Settles O35: the values role by role, then the consumer of each role; ENCODER's count alone is worded otherwise than
in the model. -/
theorem otherRolesPassUnconverted : Obligations.OtherRolesPassUnconverted := by
  intro k w
  refine ⟨fun hr => takeValue_of_keepsWord w hr trivial, fun _ hr => takeValue_encoder w hr, takeValue_marker w, ?whole,
    fun i before v c => ⟨rfl, fun b => handOn_encoder i b before v w c, rfl, rfl, rfl, rfl, rfl, fun _ => rfl,
      fun _ => rfl⟩⟩
  case whole =>
    rintro (hr | hr | hr | hr | ⟨_, hr⟩ | ⟨_, hr⟩)
    all_goals exact takeValue_of_keepsWord w hr trivial

end Sys2Proof.Machine

/-! PROOFS. Segment tracker: POOL-LOW (R65), and what a reset that frees records leaves (R76, R77). -/

namespace Sys2Proof.Machine

/-! ## POOL-LOW (R65) -/

theorem poolLow_iff (c : Chip) : poolLow c = true ↔ 256 - (liveSegments c.st).length < c.ma.config.reserve :=
  decide_eq_true_iff

/-- No number of free records is below 0. -/
theorem poolLow_reserve_zero {c : Chip} (h : c.ma.config.reserve = 0) : poolLow c = false := by
  rw [Bool.eq_false_iff, Ne, poolLow_iff, h]
  exact Nat.not_lt_zero _

/-- One word out of its field's range puts an entry out of range. -/
theorem fieldsRange_eq_false {fs : List Field} {ws : List Word} {k : Nat} {f : Field} {w : Word} (hf : fs[k]? = some f)
    (hw : ws[k]? = some w) (h : f.rangeOk w = false) : fieldsRange fs ws = false :=
  have member : (f, w) ∈ fs.zip ws := List.mem_of_getElem? (List.getElem?_zip_eq_some.mpr ⟨hf, hw⟩)
  List.all_eq_false.mpr ⟨(f, w), member, Bool.eq_false_iff.mp h⟩

/-- The pool reserve is word 3 of the line configuration and runs from 0 to 64, whatever the other words are (R201). -/
theorem entriesRange_line_reserve {i : Nat} {ws : List Word} (length : ws.length = 12)
    (above : 64 < (ws.getD 3 0).toNat) : entriesRange .line [(i, ws)] = false := by
  have word : ws[3]? = some (ws.getD 3 0) := by
    rw [List.getD_eq_getElem?_getD, List.getElem?_eq_getElem (by omega), Option.getD_some]
  have field : (lineFields ws)[3]? = some (.nat 0 64) := rfl
  have range : (Field.nat 0 64).rangeOk (ws.getD 3 0) = false := by
    rw [Field.rangeOk, decide_eq_false (Nat.not_le.mpr above), Bool.and_false]
  have entry : fieldsRange (lineFields ws) ws = false := fieldsRange_eq_false field word range
  exact List.all_eq_false.mpr ⟨(i, ws), List.mem_singleton_self _, Bool.eq_false_iff.mp entry⟩

/-- Settles O42: the comparison itself, the reserve's range read off its field, and the two readers of the condition. -/
theorem poolLowComparesReserve : Obligations.PoolLowComparesReserve := by
  refine ⟨poolLow_iff, fun _ => poolLow_reserve_zero, fun _ => entriesRange_line_reserve, fun _ => rfl, fun c => ?status⟩
  case status =>
    exact ⟨Stage.list.map fun st => natW (queueOf c.st st).length,
      [BitVec.setWidth 32 c.st.gapSet, natW c.st.stray, natW c.st.lastNominal, markW c.st.totalRef.isSome,
        markW (geometryValid c.st)], rfl, rfl⟩

/-! ## The grants that end a warm restart's event (R8, R161) -/

/-- With no own frame waiting, the transmitter can be granted to the forward buffer alone, and the transmit queue stays
empty. -/
theorem txGrant_of_txQueue_nil {c : Chip} (h : c.rp.txQueue = []) :
    ∃ rp, txGrant c = { c with rp := rp } ∧ rp.txQueue = [] := by
  have own : ownReady c = none := by
    unfold ownReady
    rw [h]
    exact ite_self none
  unfold txGrant
  split
  case isTrue => exact ⟨_, rfl, h⟩
  case isFalse =>
    split
    next => exact ⟨_, rfl, h⟩
    next =>
      rw [own]
      exact ⟨_, rfl, h⟩

theorem grantRestart_tm (w : RestartWork) (c : Chip) : ∃ tm, grantRestart w c = { c with tm := tm } := by
  unfold grantRestart
  split
  all_goals exact ⟨_, rfl⟩

/-- While a restart is under way the SPI master does its set-apart work alone, so no read is answered (R161). -/
theorem spiGrant_of_restart {c : Chip} {w : RestartWork} (h : c.tm.restart = some w) :
    ∃ tm, spiGrant c = { c with tm := tm } := by
  unfold spiGrant
  split
  next => exact ⟨_, rfl⟩
  next =>
    rw [h]
    exact grantRestart_tm w c

/-- With no own frame waiting and a restart under way, the grants at the event's end concern RP and TM alone, and bring no
frame into the transmit queue. -/
theorem settle_of_restart {c : Chip} {w : RestartWork} (queue : c.rp.txQueue = []) (work : c.tm.restart = some w) :
    ∃ rp tm, settle c = { c with rp := rp, tm := tm } ∧ rp.txQueue = [] := by
  obtain ⟨rp₁, first, queue₁⟩ := txGrant_of_txQueue_nil queue
  obtain ⟨tm, master⟩ := spiGrant_of_restart (c := { c with rp := rp₁ }) work
  obtain ⟨rp₂, last, queue₂⟩ := txGrant_of_txQueue_nil (c := { c with rp := rp₁, tm := tm }) queue₁
  refine ⟨rp₂, tm, ?_, queue₂⟩
  calc settle c = txGrant (spiGrant { c with rp := rp₁ }) := by rw [settle, first]
    _ = txGrant { c with rp := rp₁, tm := tm } := by rw [master]
    _ = { c with rp := rp₂, tm := tm } := last

/-! ## Resets (R76, R77) -/

theorem exec_powerOnReset (s : State) :
    exec .powerOnReset s = .next { s with chip := Chip.power s.chip.pins.byp s.chip.pins.cfg } := rfl

/-- A warm restart that is due: every block's share, then the grants at the event's end (R206). -/
theorem exec_warmRestart {s : State} (run : s.chip.pins.running = true) (ready : s.chip.ma.phase = .restartReady) :
    exec .warmRestart s = .next (s.after (restartAll s.chip)) := by
  change onChip (whileRunning startRestart) s = _
  rw [onChip, whileRunning, if_pos run, startRestart, if_pos ready, State.after]

/-- RP's share empties the transmit queue in every ring state (R21). -/
theorem Rp.restart_txQueue (r : Rp) : r.restart.txQueue = [] := by
  unfold Rp.restart
  split
  all_goals rfl

/-- What a due warm restart leaves of the segments, the lots and the reports to them. -/
theorem warmRestart_frees (c : Chip) :
    freeRecords (settle (restartAll c)).st = 256 ∧ (settle (restartAll c)).lh.lots = List.replicate 8 none ∧
      (settle (restartAll c)).rp.txQueue = [] := by
  obtain ⟨_, _, left, queue⟩ := settle_of_restart (c := restartAll c) (Rp.restart_txQueue c.rp) rfl
  rw [left]
  exact ⟨rfl, rfl, queue⟩

/-- Settles O4: the power-on state field by field, and the warm restart's share with the grants that follow it. -/
theorem powerOnSegments : Obligations.PowerOnSegments :=
  ⟨fun s => ⟨_, exec_powerOnReset s, rfl, rfl, rfl, rfl⟩,
    fun s run ready => ⟨_, exec_warmRestart run ready, warmRestart_frees s.chip⟩⟩

end Sys2Proof.Machine

/-! PROOFS. Bag assembler: the power-on state (R147), and a bag made with no lot (R130). -/

namespace Sys2Proof.Machine

/-! ## Power-on reset (R147) -/

/-- Settles O5: the power-on values of BA, field by field; with every slot FREE none is PALLET-WAIT. -/
theorem powerOnBags : Obligations.PowerOnBags := by
  intro s
  refine ⟨_, exec_powerOnReset s, ?_⟩
  have noneWaits : palletFull (Chip.power s.chip.pins.byp s.chip.pins.cfg) = false := rfl
  exact ⟨rfl, rfl, rfl, rfl, rfl, rfl, rfl, rfl, rfl, rfl, rfl, rfl, rfl, rfl, rfl, noneWaits⟩

/-! ## What an alert leaves of BA (R10, R176, R203)

The frame of an alert can displace a REPORT from a full transmit queue, and a delivery report that is handed back makes
its pallet WAITING. That is all an alert can do to BA, so what is kept is BA with its pallet table blanked. -/

def palletless (c : Chip) : Ba := { c.ba with pallets := [] }

theorem palletless_of_ba {c d : Chip} (h : d.ba = c.ba) : palletless d = palletless c := by
  rw [palletless, palletless, h]

/-- The pallet table is the one field that two such parts can differ in. -/
theorem ba_eq_of_palletless {c d : Chip} (h : palletless d = palletless c) :
    d.ba = { c.ba with pallets := d.ba.pallets } :=
  congrArg (fun b : Ba => { b with pallets := d.ba.pallets }) h

theorem palletless_reportHandedBack (src : FrameSource) (c : Chip) :
    palletless (reportHandedBack src c) = palletless c := by
  cases src
  all_goals rfl

theorem acceptFrame_ba (f : OwnFrame) (c : Chip) : (acceptFrame f c).ba = c.ba := by
  unfold acceptFrame
  split
  all_goals rfl

theorem palletless_rpOffer (f : OwnFrame) (c : Chip) : palletless (rpOffer f c).1 = palletless c := by
  unfold rpOffer
  split
  case isTrue => rfl
  split
  case isTrue => rfl
  split
  case isTrue => exact palletless_of_ba (acceptFrame_ba f c)
  split
  next => rw [palletless_reportHandedBack]; exact palletless_of_ba (acceptFrame_ba f _)
  next => rfl

theorem palletless_handAlert (k : AlertKind) (c : Chip) : palletless (handAlert k c).1 = palletless c := by
  unfold handAlert
  split
  next a d _ _ => exact palletless_rpOffer (alertFrame k a d c) c
  next => rfl

theorem countAlert_ba (k : AlertKind) (c : Chip) : (countAlert k c).ba = c.ba := by
  unfold countAlert
  split
  all_goals rfl

theorem palletless_countAlert (k : AlertKind) (c : Chip) : palletless (countAlert k c) = palletless c :=
  palletless_of_ba (countAlert_ba k c)

/-- A kind enters the pending set and its frame is handed to RP. -/
theorem palletless_handAlert_addAlert (k : AlertKind) (t : SubjectType) (w : Word) (c : Chip) :
    palletless (handAlert k (addAlert k t w c)).1 = palletless c :=
  (palletless_handAlert k _).trans (palletless_of_ba (setAlert_ba ..))

theorem palletless_raiseOverflow (c : Chip) : palletless (raiseOverflow c) = palletless c := by
  have handed := palletless_handAlert_addAlert .txOverflow .none 0 c
  unfold raiseOverflow
  split
  next => exact palletless_countAlert _ c
  next =>
    split
    next c1 discarded => rw [discarded] at handed; exact (palletless_countAlert _ c1).trans handed
    next c1 kept => rw [kept] at handed; exact handed

theorem palletless_raise (k : AlertKind) (t : SubjectType) (w : Word) (c : Chip) :
    palletless (raise k t w c) = palletless c := by
  have handed := palletless_handAlert_addAlert k t w c
  unfold raise
  split
  next => exact palletless_countAlert k c
  next =>
    split
    next c1 discarded => rw [discarded] at handed; exact (palletless_raiseOverflow c1).trans handed
    next c1 kept => rw [kept] at handed; exact handed

/-- An alert leaves BA as it was but for the pallet table, where a displaced delivery report waits again. -/
theorem raiseNat_ba (k : AlertKind) (t : SubjectType) (n : Nat) (c : Chip) :
    (raiseNat k t n c).ba = { c.ba with pallets := (raiseNat k t n c).ba.pallets } :=
  ba_eq_of_palletless (palletless_raise k t _ c)

theorem raiseNat_st (k : AlertKind) (t : SubjectType) (n : Nat) (c : Chip) : (raiseNat k t n c).st = c.st := by
  have kept : (still (raiseNat k t n c)).st = (still c).st := by rw [still_raiseNat]
  exact kept

theorem raiseNat_tm (k : AlertKind) (t : SubjectType) (n : Nat) (c : Chip) : (raiseNat k t n c).tm = c.tm :=
  congrArg Prod.fst (tmv_raiseNat k t n c)

/-! ## A bag made with no lot (R130) -/

/-- With SURGE empty and no OPEN lot a bag has no lot, so no slot is looked for. -/
theorem newBag_of_no_lot {c : Chip} (seq : Nat) (surge : c.st.qSurge = []) (lot : openLot? c = none) :
    newBag seq c = lotlessBag seq c := by
  obtain ⟨_, bagLot_open, newBag_lotless, _⟩ := spec_newBag seq c
  exact newBag_lotless ((bagLot_open surge).trans lot)

/-- Settles O44: such a bag is the model's lotless bag, step by step, and the alert it raises takes no slot, draws nothing
and makes no record. -/
theorem lotlessBagIsRejected : Obligations.LotlessBagIsRejected := by
  rintro seq c _ surge lot rfl
  exact ⟨newBag_of_no_lot seq surge lot, raiseNat_ba .untracked .bag seq c, raiseNat_st .untracked .bag seq c,
    raiseNat_tm .untracked .bag seq c⟩

end Sys2Proof.Machine

/-! PROOFS. The commands: one table of what each does to the part, what `exec` can answer, and the rule by which a property
of the part is kept by every step. -/

namespace Sys2Proof.Machine

/-! ## The commands' effects -/

/-- A write-class row, with the level of CFG that it reads (R198). -/
def writeEvent (cfg : Bool) (mine : Request → Bool) (run : Request → Chip → Chip) (c : Chip) : Chip :=
  executeWith mine run (withCfg cfg c)

/-- WRITE-TABLE of one table. -/
def writeTableEvent (cfg : Bool) (t : Table) : Chip → Chip :=
  writeEvent cfg (writesTable t) (replyWith (runWriteTable t))

/-- The event that a command is to a running part, before the grants at its end: none for the commands at the pins, for a
frame on the Downstream pair and for the completions of the SPI master. -/
def eventOf : Instr → Option (Chip → Chip)
  | .headerEnd h => some (takeHeader (headerTaken h))
  | .receptionComplete p g => some (completeReception p g)
  | .actuateFrameCheck => some checkHeldFrame
  | .transmitComplete => some completeTransmit
  | .returnTimeout q => some (expireReturn q)
  | .recoveryTimerExpiry => some recover
  | .freshnessTimerExpiry n => some (expireFreshness n)
  | .staleHoldTimerExpiry n => some (expireStaleHold n)
  | .millisecondPointDue => some handleMilliseconds
  | .bagDeadline k => some fun c => if bagDue c k then decideBag k c else c
  | .shuttleDeadlineExpiry n => some fun c => if shuttleDue c n then faultTransfer n c else c
  | .confirmationDeadline n => some fun c => if confirmDue c n then expireConfirm n c else c
  | .assemblyTimeout => some fun c => if assemblyDue c then dropAssembly c else c
  | .lotReportRetry => some fun c => if lotRetryDue c then handWaitingLots c else c
  | .deliveryReportRetry => some fun c => if deliveryRetryDue c then handWaitingDeliveries c else c
  | .alertRetry => some fun c => if alertRetryDue c then handAllUnsent c else c
  | .warmRestart => some startRestart
  | .warmRestartComplete => some endRestart
  | .readStatus => some (executeWith (hasCode 1) (replyWith runReadStatus))
  | .readTable => some (executeWith (hasCode 2) (replyWith runReadTable))
  | .writeChannelMap cfg => some (writeTableEvent cfg .channelMap)
  | .writeTrackChannels cfg => some (writeTableEvent cfg .tracks)
  | .writeStageGeometry cfg => some (writeTableEvent cfg .geometry)
  | .writeGuardTable cfg => some (writeTableEvent cfg .guards)
  | .writeRecipes cfg => some (writeTableEvent cfg .recipes)
  | .writeShuttleTable cfg => some (writeTableEvent cfg .shuttles)
  | .writeAlertRoutes cfg => some (writeTableEvent cfg .routes)
  | .writeLineConfiguration cfg => some (writeTableEvent cfg .line)
  | .writeAuthorityList cfg => some (writeTableEvent cfg .authority)
  | .setMode cfg => some (writeEvent cfg (hasCode 4) (replyWith runSetMode))
  | .openLot cfg => some (writeEvent cfg (hasCode 5) (replyWith runOpenLot))
  | .closeLot cfg => some (writeEvent cfg (hasCode 6) (replyWith runCloseLot))
  | .placeHold cfg => some (writeEvent cfg (hasCode 7) (replyWith runPlaceHold))
  | .releaseHold cfg => some (writeEvent cfg (hasCode 8) (replyWith runReleaseHold))
  | .readRecord => some (executeWith (hasCode 9) runReadRecord)
  | .list => some (executeWith (hasCode 10) (replyWith runList))
  | .startChannel cfg => some (writeEvent cfg (hasCode 11) (replyWith runStartChannel))
  | .stopChannel cfg => some (writeEvent cfg (hasCode 12) (replyWith runStopChannel))
  | .enableShuttle cfg => some (writeEvent cfg (hasCode 13) (replyWith runEnableShuttle))
  | .requeuePallet cfg => some (writeEvent cfg (hasCode 14) (replyWith runRequeuePallet))
  | .clearAlerts cfg => some (writeEvent cfg (hasCode 15) (replyWith runClearAlerts))
  | .restart cfg => some (writeEvent cfg (hasCode 16) runRestart)
  | _ => none

/-- What a command at the pins does to the part, running or not. -/
def pinOf : Instr → Option (Chip → Chip)
  | .powerOnReset => some fun c => Chip.power c.pins.byp c.pins.cfg
  | .rstNRise node => some (riseRstN node)
  | .bypAssert => some (driveByp true)
  | .bypDeassert => some (driveByp false)
  | _ => none

/-- What the completion of an operation on a place leaves, where the SPI master has such an operation. -/
def completionOf : Instr → State → Option (Nat × State)
  | .placeWriteComplete a b, s =>
    match s.chip.tm.spi with
    | some (.write p r) => some (p, endWrite p r a b s)
    | _ => none
  | .rewriteComplete a b d, s =>
    match s.chip.tm.spi with
    | some (.rewrite p h) => some (p, endRewrite p h a b d s)
    | _ => none
  | .traceReadComplete a, s =>
    match s.chip.tm.spi with
    | some (.read p e) => some (p, endRead p e a s)
    | _ => none
  | _, _ => none

theorem whileRunning_of_running {f : Chip → Chip} {c : Chip} (run : c.pins.running = true) :
    whileRunning f c = settle (f c) := if_pos run

theorem whileRunning_of_held {f : Chip → Chip} {c : Chip} (held : c.pins.running = false) : whileRunning f c = c :=
  if_neg (by simp [held])

theorem driveByp_of_running {level : Bool} {c : Chip} (run : c.pins.running = true) :
    driveByp level c = settle (evalRing { c with pins := { c.pins with byp := level } }) := if_pos run

theorem driveByp_of_held {level : Bool} {c : Chip} (held : c.pins.running = false) :
    driveByp level c = { c with pins := { c.pins with byp := level } } := if_neg (by simp [held])

theorem exec_of_event {i : Instr} {f : Chip → Chip} (h : eventOf i = some f) (s : State) :
    exec i s = .next { s with chip := whileRunning f s.chip } := by
  cases i
  all_goals simp only [eventOf, reduceCtorEq, Option.some.injEq] at h
  all_goals subst h; rfl

theorem exec_of_pin {i : Instr} {f : Chip → Chip} (h : pinOf i = some f) (s : State) :
    exec i s = .next { s with chip := f s.chip } := by
  cases i
  all_goals simp only [pinOf, reduceCtorEq, Option.some.injEq] at h
  all_goals subst h; rfl

/-- Of the commands that are neither events nor at the pins, a frame on the Downstream pair and a completion with no
operation change nothing, and the other completions end at their place (R2, R150, log entry 3). -/
theorem exec_of_other {i : Instr} (event : eventOf i = none) (pin : pinOf i = none) (s : State) :
    exec i s = .next s ∨
      ∃ p t, completionOf i s = some (p, t) ∧ s.chip.pins.running = true ∧ exec i s = onPlace p s t := by
  cases i
  case downstreamRxFrame => exact .inl rfl
  case placeWriteComplete a b =>
    change execPlaceWriteComplete a b s = _ ∨ ∃ _ _, _ ∧ _ ∧ execPlaceWriteComplete a b s = _
    unfold execPlaceWriteComplete
    split
    next p r run op => exact .inr ⟨p, _, by simp only [completionOf, op], run, rfl⟩
    next => exact .inl rfl
  case rewriteComplete a b d =>
    change execRewriteComplete a b d s = _ ∨ ∃ _ _, _ ∧ _ ∧ execRewriteComplete a b d s = _
    unfold execRewriteComplete
    split
    next p r run op => exact .inr ⟨p, _, by simp only [completionOf, op], run, rfl⟩
    next => exact .inl rfl
  case traceReadComplete a =>
    change execTraceReadComplete a s = _ ∨ ∃ _ _, _ ∧ _ ∧ execTraceReadComplete a s = _
    unfold execTraceReadComplete
    split
    next p r run op => exact .inr ⟨p, _, by simp only [completionOf, op], run, rfl⟩
    next => exact .inl rfl
  case powerOnReset | rstNRise | bypAssert | bypDeassert => cases pin
  all_goals cases event

/-- A completion leaves the queue of waiting commands. -/
theorem completionOf_pending {i : Instr} {s t : State} {p : Nat} (h : completionOf i s = some (p, t)) :
    t.pending = s.pending := by
  unfold completionOf at h
  split at h
  case h_4 => cases h
  all_goals
    split at h
    next => cases h; rfl
    next => cases h

/-- Everything a command that answers a next state can have done. -/
theorem exec_next_cases {i : Instr} {s t : State} (h : exec i s = .next t) :
    t = s ∨ (∃ f, pinOf i = some f ∧ t = { s with chip := f s.chip }) ∨
      (∃ f, eventOf i = some f ∧ s.chip.pins.running = true ∧ t = s.after (f s.chip)) ∨
      ∃ p, completionOf i s = some (p, t) ∧ p < 1024 := by
  cases event : eventOf i with
  | some f =>
    rw [exec_of_event event] at h
    cases h
    cases run : s.chip.pins.running with
    | true => exact .inr (.inr (.inl ⟨f, rfl, rfl, by rw [whileRunning_of_running run]; rfl⟩))
    | false => exact .inl (by rw [whileRunning_of_held run])
  | none =>
    cases pin : pinOf i with
    | some f =>
      rw [exec_of_pin pin] at h
      cases h
      exact .inr (.inl ⟨f, rfl, rfl⟩)
    | none =>
      obtain same | ⟨p, u, ends, _, there⟩ := exec_of_other event pin s
      · rw [same] at h
        cases h
        exact .inl rfl
      · rw [there, onPlace] at h
        split at h
        case isFalse => cases h
        case isTrue inTable =>
          cases h
          have kept : { u with pending := s.pending } = u := by rw [← completionOf_pending ends]
          exact .inr (.inr (.inr ⟨p, by rw [kept]; exact ends, inTable⟩))

/-! ## What every step keeps -/

/-- A step is a command on the queue's rest, or what the part does of itself: its chip stays, or a millisecond passes. -/
theorem step_next_cases {s t : State} (h : step s = .next t) :
    (∃ i rest, s.pending = i :: rest ∧ exec i { s with pending := rest } = .next t) ∨
      (t.mem = s.mem ∧ ∃ k, t.chip = { s.chip with clock := k }) := by
  unfold step at h
  split at h
  next i rest front => exact .inl ⟨i, rest, front, h⟩
  next =>
    cases h
    refine .inr ?_
    unfold idle
    split
    case isFalse => exact ⟨rfl, _, rfl⟩
    case isTrue =>
      split
      next => exact ⟨rfl, _, rfl⟩
      next => exact ⟨rfl, _, rfl⟩

/-- A property of the part is kept by every step if the clock, the commands at the pins, the events, the grants at an
event's end and the three completions keep it. -/
theorem keptByStep_chip {inv : Chip → Prop} (clock : ∀ c k, inv c → inv { c with clock := k })
    (pin : ∀ i f c, pinOf i = some f → inv c → inv (f c))
    (event : ∀ i f c, eventOf i = some f → c.pins.running = true → inv c → inv (f c))
    (grants : ∀ c, inv c → inv (settle c))
    (written : ∀ b p r c, inv c → inv (finishWrite b p r c)) (rewritten : ∀ b p c, inv c → inv (finishRewrite b p c))
    (read : ∀ x b p e c, inv c → inv (finishRead x b p e c)) : KeptByStep fun s => inv s.chip := by
  intro s t holds next
  obtain ⟨i, rest, _, done⟩ | ⟨_, k, passed⟩ := step_next_cases next
  case inr => rw [passed]; exact clock _ k holds
  obtain same | ⟨f, hf, rfl⟩ | ⟨f, hf, run, rfl⟩ | ⟨p, ends, _⟩ := exec_next_cases done
  · rw [same]; exact holds
  · exact pin i f _ hf holds
  · exact grants _ (event i f _ hf run holds)
  · unfold completionOf at ends
    split at ends
    case h_4 => cases ends
    all_goals
      split at ends
      case h_2 => cases ends
    · cases ends; exact grants _ (written _ _ _ _ holds)
    · cases ends; exact grants _ (rewritten _ _ _ holds)
    · cases ends; exact grants _ (read _ _ _ _ _ holds)

end Sys2Proof.Machine

/-! PROOFS. The four invariants: what each row of requests and each event of the part keeps, assembled by the rule for
every step. -/

namespace Sys2Proof.Machine

/-! ## The trace memory's canonical form (log entry 6) -/

theorem completionOf_memoryWf {i : Instr} {s t : State} {p : Nat} (h : completionOf i s = some (p, t))
    (wf : MemoryWf s) : MemoryWf t := by
  unfold completionOf at h
  split at h
  case h_4 => cases h
  all_goals
    split at h
    case h_2 => cases h
  · cases h; exact writeMemory_wf (e2 := []) wf
  · cases h; exact rewriteMemory_wf wf
  · cases h; exact wf

/-- Settles O7: a step stores in the trace memory at the completions alone, and each of them keeps the canonical form. -/
theorem memoryStaysCanonical : Obligations.MemoryStaysCanonical := by
  intro s t wf next
  obtain ⟨i, rest, _, done⟩ | ⟨kept, _⟩ := step_next_cases next
  · obtain same | ⟨f, _, rfl⟩ | ⟨f, _, _, rfl⟩ | ⟨p, ends, _⟩ := exec_next_cases done
    · rw [same]; exact wf
    · exact wf
    · exact wf
    · exact completionOf_memoryWf ends wf
  · exact (congrArg (fun m => Memory.wf m = true) kept).mpr wf

/-! ## Places -/

theorem places_completeTransmit (c : Chip) : PlacesInTable (completeTransmit c) ↔ PlacesInTable c := by
  unfold completeTransmit
  split
  next =>
    split
    · exact places_rp ..
    · rfl
  next => rfl

theorem places_writeEvent {cfg : Bool} {mine : Request → Bool} {run : Request → Chip → Chip} {c : Chip}
    (k : ∀ r d, formatOk r = true → PlacesInTable d → PlacesInTable (run r d)) (h : PlacesInTable c) :
    PlacesInTable (writeEvent cfg mine run c) :=
  places_executeWith k ((places_pins ..).mpr h)

/-- A row whose reply keeps the places, whatever its request. -/
theorem places_replyRow {f : Request → Chip → Reply} (k : ∀ r d, PlacesInTable d → PlacesInTable (f r d).1) (r : Request)
    (d : Chip) (_ : formatOk r = true) (h : PlacesInTable d) : PlacesInTable (replyWith f r d) :=
  places_replyWith (k r d h)

theorem places_runReadTable (r : Request) (d : Chip) (h : PlacesInTable d) : PlacesInTable (runReadTable r d).1 := by
  unfold runReadTable
  split
  all_goals exact h

theorem placeHold_chip (k : HoldKind) (id : Nat) (c : Chip) :
    (placeHold k id c).1 = (changeHold k id (fun h => h.place .manual) c).1 := rfl

theorem places_runPlaceHold (r : Request) (d : Chip) (h : PlacesInTable d) : PlacesInTable (runPlaceHold r d).1 := by
  unfold runPlaceHold
  split
  next => rw [placeHold_chip]; exact places_changeHold _ _ _ h
  next => exact h

theorem places_runReleaseHold (r : Request) (d : Chip) (h : PlacesInTable d) : PlacesInTable (runReleaseHold r d).1 := by
  unfold runReleaseHold
  split
  next => exact places_changeHold _ _ _ h
  next => exact h

theorem places_runList (r : Request) (d : Chip) (h : PlacesInTable d) : PlacesInTable (runList r d).1 := by
  unfold runList
  split
  all_goals exact h

theorem places_closeLot (n : Nat) {d : Chip} (h : PlacesInTable d) : PlacesInTable (closeLot n d).1 := by
  unfold closeLot
  split
  · exact h
  · split
    · exact h
    · split
      · exact places_drainLot _ h
      · exact h

theorem places_runStartChannel (r : Request) (d : Chip) (h : PlacesInTable d) :
    PlacesInTable (runStartChannel r d).1 := by
  unfold runStartChannel
  split
  · exact h
  · exact places_startChannel _ h

theorem places_runStopChannel (r : Request) (d : Chip) (h : PlacesInTable d) : PlacesInTable (runStopChannel r d).1 := by
  unfold runStopChannel
  split
  · exact h
  · exact places_stopChannel _ h

theorem places_runEnableShuttle (r : Request) (d : Chip) (h : PlacesInTable d) :
    PlacesInTable (runEnableShuttle r d).1 := by
  unfold runEnableShuttle
  split
  · exact h
  · exact (places_enableShuttle _ d).mpr h

theorem places_runClearAlerts (r : Request) (d : Chip) (h : PlacesInTable d) : PlacesInTable (runClearAlerts r d).1 := by
  unfold runClearAlerts
  dsimp only
  split
  · exact h
  · exact (places_evalStopN _).mpr ((places_ma ..).mpr h)

/-- An event guarded by its being due. -/
theorem places_ite {b : Bool} {f : Chip → Chip} {c : Chip} (k : PlacesInTable (f c)) (h : PlacesInTable c) :
    PlacesInTable (if b then f c else c) := by
  split
  · exact k
  · exact h

theorem places_event {i : Instr} {f : Chip → Chip} {c : Chip} (event : eventOf i = some f) (h : PlacesInTable c) :
    PlacesInTable (f c) := by
  cases i
  all_goals simp only [eventOf, reduceCtorEq, Option.some.injEq] at event
  all_goals subst event
  case headerEnd => exact (places_takeHeader _ c).mpr h
  case receptionComplete => exact places_completeReception _ _ h
  case actuateFrameCheck => exact (places_checkHeldFrame c).mpr h
  case transmitComplete => exact (places_completeTransmit c).mpr h
  case returnTimeout => exact places_expireReturn _ h
  case recoveryTimerExpiry => exact places_recover h
  case freshnessTimerExpiry => exact places_expireFreshness _ h
  case staleHoldTimerExpiry => exact places_expireStaleHold _ h
  case millisecondPointDue => exact places_handleMilliseconds h
  case bagDeadline => exact places_ite (places_decideBag _ h) h
  case shuttleDeadlineExpiry => exact places_ite ((places_faultTransfer _ c).mpr h) h
  case confirmationDeadline => exact places_ite (places_expireConfirm _ h) h
  case assemblyTimeout => exact places_ite ((places_dropAssembly c).mpr h) h
  case lotReportRetry => exact places_ite (places_handWaitingLots h) h
  case deliveryReportRetry => exact places_ite (places_handWaitingDeliveries h) h
  case alertRetry => exact places_ite ((places_handAllUnsent c).mpr h) h
  case warmRestart => exact places_startRestart h
  case warmRestartComplete => exact places_endRestart h
  case readStatus => exact places_executeWith (places_replyRow fun _ _ w => w) h
  case readTable => exact places_executeWith (places_replyRow places_runReadTable) h
  case readRecord => exact places_executeWith (fun r _ _ w => places_runReadRecord r w) h
  case list => exact places_executeWith (places_replyRow places_runList) h
  case setMode => exact places_writeEvent (places_replyRow fun _ _ w => places_setMode _ w) h
  case openLot => exact places_writeEvent (places_replyRow fun _ _ w => places_openLot _ _ w) h
  case closeLot => exact places_writeEvent (places_replyRow fun _ _ w => places_closeLot _ w) h
  case placeHold => exact places_writeEvent (places_replyRow places_runPlaceHold) h
  case releaseHold => exact places_writeEvent (places_replyRow places_runReleaseHold) h
  case startChannel => exact places_writeEvent (places_replyRow places_runStartChannel) h
  case stopChannel => exact places_writeEvent (places_replyRow places_runStopChannel) h
  case enableShuttle => exact places_writeEvent (places_replyRow places_runEnableShuttle) h
  case requeuePallet => exact places_writeEvent (places_replyRow fun _ d w => (places_requeuePallet _ d).mpr w) h
  case clearAlerts => exact places_writeEvent (places_replyRow places_runClearAlerts) h
  case restart => exact places_writeEvent (fun r _ _ w => places_runRestart r w) h
  all_goals exact places_writeEvent (places_replyRow fun _ _ w => places_writeTable _ _ _ _ w) h

theorem places_startPart (node : Byte) {c : Chip} (h : PlacesInTable c) : PlacesInTable (startPart node c) := by
  have started : PlacesInTable
      { c with pins := { c.pins with rstN := true, running := true, node := node, rly := !c.pins.byp } } :=
    (places_pins ..).mpr h
  unfold startPart
  dsimp only
  split
  · exact (places_raise ..).mpr ((places_rp ..).mpr started)
  · exact started

theorem places_pin {i : Instr} {f : Chip → Chip} {c : Chip} (pin : pinOf i = some f) (h : PlacesInTable c) :
    PlacesInTable (f c) := by
  have driven (b : Bool) : PlacesInTable (driveByp b c) := by
    have level : PlacesInTable { c with pins := { c.pins with byp := b } } := (places_pins ..).mpr h
    unfold driveByp whileRunning
    split
    · exact places_settle (places_evalRing level)
    · exact level
  cases i
  all_goals simp only [pinOf, reduceCtorEq, Option.some.injEq] at pin
  all_goals subst pin
  case powerOnReset => exact PlacesInTable.power _ _
  case bypAssert => exact driven true
  case bypDeassert => exact driven false
  case rstNRise node =>
    unfold riseRstN
    split
    · exact h
    · split
      · exact places_settle (places_startPart node h)
      · exact (places_pins ..).mpr h

/-- Settles O8: every event, completion and grant keeps the places, and so does every command at the pins. -/
theorem placesStayInTable : Obligations.PlacesStayInTable :=
  keptByStep_chip (fun _ _ h => (places_clock ..).mpr h) (fun _ _ _ pin h => places_pin pin h)
    (fun _ _ _ event _ h => places_event event h) (fun _ h => places_settle h)
    (fun b p r _ h => places_finishWrite b p r h) (fun b p _ h => places_finishRewrite b p h)
    (fun x b p e _ h => places_finishRead x b p e h)

/-! ## Ring state (R3, R13, R14, R16) -/

theorem ringView_completeTransmit (c : Chip) : ringView (completeTransmit c) = ringView c := by
  unfold completeTransmit
  repeat' split
  all_goals rfl

theorem RingAgrees.writeEvent {cfg : Bool} {mine : Request → Bool} {run : Request → Chip → Chip} {c : Chip}
    (k : ∀ r d, RingAgrees d → RingAgrees (run r d)) (h : RingAgrees c) : RingAgrees (writeEvent cfg mine run c) :=
  RingAgrees.executeWith k (h.of_view (d := c) rfl)

/-- A row whose reply keeps what the ring state is read from. -/
theorem RingAgrees.replyRow {f : Request → Chip → Reply} (k : ∀ r d, ringView (f r d).1 = ringView d) (r : Request)
    (d : Chip) (h : RingAgrees d) : RingAgrees (Machine.replyWith f r d) :=
  RingAgrees.of_view (ringView_replyWith (k r d)) h

theorem ringView_runReadTable (r : Request) (d : Chip) : ringView (runReadTable r d).1 = ringView d := by
  unfold runReadTable
  split
  all_goals rfl

theorem ringView_runPlaceHold (r : Request) (d : Chip) : ringView (runPlaceHold r d).1 = ringView d := by
  unfold runPlaceHold
  split
  next => rw [placeHold_chip]; exact ringView_of_front (front_changeHold ..)
  next => rfl

theorem ringView_runReleaseHold (r : Request) (d : Chip) : ringView (runReleaseHold r d).1 = ringView d := by
  unfold runReleaseHold
  split
  next => exact ringView_of_front (front_changeHold ..)
  next => rfl

theorem ringView_runList (r : Request) (d : Chip) : ringView (runList r d).1 = ringView d := by
  unfold runList
  split
  all_goals rfl

theorem ringView_closeLot (n : Nat) (d : Chip) : ringView (closeLot n d).1 = ringView d := by
  unfold closeLot
  split
  · rfl
  · split
    · rfl
    · split
      · exact ringView_of_front (front_drainLot ..)
      · rfl

theorem ringView_runStartChannel (r : Request) (d : Chip) : ringView (runStartChannel r d).1 = ringView d := by
  unfold runStartChannel
  split
  · rfl
  · exact ringView_of_front (front_startChannel ..)

theorem ringView_runStopChannel (r : Request) (d : Chip) : ringView (runStopChannel r d).1 = ringView d := by
  unfold runStopChannel
  split
  · rfl
  · exact ringView_of_front (front_stopChannel ..)

theorem ringView_runEnableShuttle (r : Request) (d : Chip) : ringView (runEnableShuttle r d).1 = ringView d := by
  unfold runEnableShuttle
  split
  · rfl
  · exact ringView_of_front (front_enableShuttle ..)

theorem ringView_runClearAlerts (r : Request) (d : Chip) : ringView (runClearAlerts r d).1 = ringView d := by
  unfold runClearAlerts
  dsimp only
  split
  all_goals rfl

theorem ringView_readRecordOf (k id : Nat) (c : Chip) : ringView (readRecordOf k id c).1 = ringView c := by
  have answered (o) : (found c o).1 = c := by unfold found; split <;> rfl
  have inTable (n id o) : (indexed c n id o).1 = c := by
    unfold indexed
    split
    · rfl
    · exact answered _
  unfold readRecordOf
  split
  case h_5 =>
    split
    next p _ =>
      split
      next c1 w budget =>
        have same : (signedWord (remainingBudget c p) c).1 = c1 := by rw [budget]
        rw [← same]
        unfold signedWord
        split
        all_goals rfl
    next => rfl
  case h_1 => rw [answered]
  case h_10 => rfl
  all_goals rw [inTable]

theorem ringView_runReadRecord (r : Request) (c : Chip) : ringView (runReadRecord r c) = ringView c := by
  unfold runReadRecord
  dsimp only
  split
  · split
    · exact ringView_of_front (front_endRequest ..)
    · split
      next => exact ringView_of_front (front_endRequest ..)
      next => rfl
  · exact ringView_replyWith (ringView_readRecordOf ..)

theorem ringView_runRestart (r : Request) (c : Chip) : ringView (runRestart r c) = ringView c := by
  have handed : ringView (rpHand (answerPart r .ok [] true 0) c).1 = ringView c := ringView_of_front (front_rpHand ..)
  exact handed

theorem RingAgrees.ite {b : Bool} {f : Chip → Chip} {c : Chip} (k : front (f c) = front c) (a : RingAgrees c) :
    RingAgrees (if b then f c else c) := by
  split
  · exact a.of_front k
  · exact a

theorem RingAgrees.event {i : Instr} {f : Chip → Chip} {c : Chip} (event : eventOf i = some f)
    (run : c.pins.running = true) (a : RingAgrees c) : RingAgrees (f c) := by
  cases i
  all_goals simp only [eventOf, reduceCtorEq, Option.some.injEq] at event
  all_goals subst event
  case headerEnd => exact a.of_view (ringView_takeHeader _ c)
  case receptionComplete => exact RingAgrees.completeReception run a
  case actuateFrameCheck => exact a.of_view (ringView_checkHeldFrame c)
  case transmitComplete => exact a.of_view (ringView_completeTransmit c)
  case returnTimeout => exact RingAgrees.expireReturn run a
  case recoveryTimerExpiry => exact RingAgrees.recover a
  case freshnessTimerExpiry => exact a.of_front (front_expireFreshness _ c)
  case staleHoldTimerExpiry => exact a.of_front (front_expireStaleHold _ c)
  case millisecondPointDue => exact a.of_front (front_handleMilliseconds c)
  case bagDeadline => exact RingAgrees.ite (front_of_still (still_decideBag _ c)) a
  case shuttleDeadlineExpiry => exact RingAgrees.ite (front_faultTransfer _ c) a
  case confirmationDeadline => exact RingAgrees.ite (front_expireConfirm _ c) a
  case assemblyTimeout => exact RingAgrees.ite (front_dropAssembly c) a
  case lotReportRetry => exact RingAgrees.ite (front_handWaitingLots c) a
  case deliveryReportRetry => exact RingAgrees.ite (front_handWaitingDeliveries c) a
  case alertRetry => exact RingAgrees.ite (front_handAllUnsent c) a
  case warmRestart => exact RingAgrees.startRestart a run
  case warmRestartComplete => exact RingAgrees.endRestart a
  case readStatus => exact RingAgrees.executeWith (RingAgrees.replyRow fun _ _ => rfl) a
  case readTable => exact RingAgrees.executeWith (RingAgrees.replyRow ringView_runReadTable) a
  case readRecord => exact RingAgrees.executeWith (fun r d w => w.of_view (ringView_runReadRecord r d)) a
  case list => exact RingAgrees.executeWith (RingAgrees.replyRow ringView_runList) a
  case setMode => exact RingAgrees.writeEvent (RingAgrees.replyRow fun _ d => ringView_setMode _ d) a
  case openLot => exact RingAgrees.writeEvent (RingAgrees.replyRow fun _ d => ringView_openLot _ _ d) a
  case closeLot => exact RingAgrees.writeEvent (RingAgrees.replyRow fun _ d => ringView_closeLot _ d) a
  case placeHold => exact RingAgrees.writeEvent (RingAgrees.replyRow ringView_runPlaceHold) a
  case releaseHold => exact RingAgrees.writeEvent (RingAgrees.replyRow ringView_runReleaseHold) a
  case startChannel => exact RingAgrees.writeEvent (RingAgrees.replyRow ringView_runStartChannel) a
  case stopChannel => exact RingAgrees.writeEvent (RingAgrees.replyRow ringView_runStopChannel) a
  case enableShuttle => exact RingAgrees.writeEvent (RingAgrees.replyRow ringView_runEnableShuttle) a
  case requeuePallet =>
    exact RingAgrees.writeEvent (RingAgrees.replyRow fun _ d => ringView_of_front (front_requeuePallet _ d)) a
  case clearAlerts => exact RingAgrees.writeEvent (RingAgrees.replyRow ringView_runClearAlerts) a
  case restart => exact RingAgrees.writeEvent (fun r d w => w.of_view (ringView_runRestart r d)) a
  all_goals exact RingAgrees.writeEvent (fun _ _ w => RingAgrees.replyWith (w.writeTable _ _ _ _)) a

/-- The state that a part with the level `byp` starts in is what its counts make it, whatever counts it had (R14, R20). -/
theorem RingAgrees.startPart (node : Byte) {c : Chip} (a : RingAgrees c) : RingAgrees (startPart node c) := by
  have inline (byp : c.pins.byp = false) : c.rp.ring = ringStateOf c.rp.txErr c.rp.rxErr false := by
    cases run : c.pins.running with
    | true => rw [a.runs run, byp]
    | false =>
      obtain ⟨ring, tx, rx⟩ := a.held run
      rw [ring, tx, rx]
      rfl
  unfold Machine.startPart
  dsimp only
  split
  next byp =>
    refine RingAgrees.of_front (front_raise ..) ⟨a.rx, a.tx, a.recovery, fun _ => ?_, fun held => nomatch held⟩
    simp [ringStateOf, byp]
  next byp =>
    have low : c.pins.byp = false := by simpa using byp
    exact ⟨a.rx, a.tx, a.recovery, fun _ => by simpa [low] using inline low, fun held => nomatch held⟩

theorem RingAgrees.driveByp (level : Bool) {c : Chip} (a : RingAgrees c) : RingAgrees (driveByp level c) := by
  cases run : c.pins.running with
  | true =>
    rw [driveByp_of_running run]
    exact RingAgrees.settle (RingAgrees.evalRing run a.rx a.tx a.recovery)
  | false =>
    rw [driveByp_of_held run]
    exact ⟨a.rx, a.tx, a.recovery, fun on => absurd (on.symm.trans run) (by decide), fun _ => a.held run⟩

theorem RingAgrees.pin {i : Instr} {f : Chip → Chip} {c : Chip} (pin : pinOf i = some f) (a : RingAgrees c) :
    RingAgrees (f c) := by
  cases i
  all_goals simp only [pinOf, reduceCtorEq, Option.some.injEq] at pin
  all_goals subst pin
  case powerOnReset => exact RingAgrees.power _ _
  case bypAssert => exact a.driveByp true
  case bypDeassert => exact a.driveByp false
  case rstNRise node =>
    unfold riseRstN
    split
    · exact a
    · split
      · exact RingAgrees.settle (a.startPart node)
      · exact a.of_view (d := c) rfl

/-- Settles O9: the commands at the pins and the events keep the agreement, and the grants and the completions leave what
it is read from. -/
theorem ringStateStaysTrue : Obligations.RingStateStaysTrue :=
  keptByStep_chip (fun c _ a => a.of_view (d := c) rfl) (fun _ _ _ pin a => a.pin pin)
    (fun _ _ _ event run a => a.event event run) (fun _ a => RingAgrees.settle a)
    (fun b p r c a => a.of_front (front_of_still (still_finishWrite b p r c)))
    (fun b p c a => a.of_front (front_of_still (still_finishRewrite b p c)))
    (fun x b p e c a => a.of_front (front_of_still (still_finishRead x b p e c)))

/-! ## Sizes of the tables -/

theorem TablesSized.of_eq {c d : Chip} (h : tableSizes d = tableSizes c) (s : TablesSized c) : TablesSized d := h.trans s

theorem sizes_writeEvent {cfg : Bool} {mine : Request → Bool} {run : Request → Chip → Chip} (c : Chip)
    (k : ∀ r d, tableSizes (run r d) = tableSizes d) : tableSizes (writeEvent cfg mine run c) = tableSizes c :=
  sizes_executeWith (withCfg cfg c) k

/-- A row whose reply keeps the sizes. -/
theorem sizes_replyRow {f : Request → Chip → Reply} (k : ∀ r d, tableSizes (f r d).1 = tableSizes d) (r : Request)
    (d : Chip) : tableSizes (replyWith f r d) = tableSizes d :=
  sizes_replyWith (k r d)

theorem sizes_runReadTable (r : Request) (d : Chip) : tableSizes (runReadTable r d).1 = tableSizes d := by
  unfold runReadTable
  split
  all_goals rfl

theorem sizes_runPlaceHold (r : Request) (d : Chip) : tableSizes (runPlaceHold r d).1 = tableSizes d := by
  unfold runPlaceHold
  split
  next => rw [placeHold_chip]; exact sizes_changeHold ..
  next => rfl

theorem sizes_runReleaseHold (r : Request) (d : Chip) : tableSizes (runReleaseHold r d).1 = tableSizes d := by
  unfold runReleaseHold
  split
  next => exact sizes_changeHold ..
  next => rfl

theorem sizes_runList (r : Request) (d : Chip) : tableSizes (runList r d).1 = tableSizes d := by
  unfold runList
  split
  all_goals rfl

theorem sizes_closeLot (n : Nat) (d : Chip) : tableSizes (closeLot n d).1 = tableSizes d := by
  unfold closeLot
  split
  · rfl
  · split
    · rfl
    · split
      · exact sizes_drainLot ..
      · rfl

theorem sizes_runStartChannel (r : Request) (d : Chip) : tableSizes (runStartChannel r d).1 = tableSizes d := by
  unfold runStartChannel
  split
  · rfl
  · exact sizes_startChannel ..

theorem sizes_runStopChannel (r : Request) (d : Chip) : tableSizes (runStopChannel r d).1 = tableSizes d := by
  unfold runStopChannel
  split
  · rfl
  · exact sizes_stopChannel ..

theorem sizes_runEnableShuttle (r : Request) (d : Chip) : tableSizes (runEnableShuttle r d).1 = tableSizes d := by
  unfold runEnableShuttle
  split
  · rfl
  · exact sizes_enableShuttle ..

theorem sizes_runClearAlerts (r : Request) (d : Chip) : tableSizes (runClearAlerts r d).1 = tableSizes d := by
  have pending : (clearKinds (r.words.getD 0 0) d.ma.pending).length = d.ma.pending.length := by
    rw [clearKinds, List.length_map, List.length_zipIdx]
  unfold runClearAlerts
  dsimp only
  split
  · rfl
  · rw [sizes_evalStopN]
    exact sizes_ma _ _ pending rfl rfl

theorem sizes_endRestart (c : Chip) : tableSizes (endRestart c) = tableSizes c := by
  unfold endRestart
  split
  all_goals rfl

theorem TablesSized.startRestart {c : Chip} (s : TablesSized c) : TablesSized (startRestart c) := by
  unfold Machine.startRestart
  split
  · exact s.restartAll
  · exact s

theorem TablesSized.ite {b : Bool} {f : Chip → Chip} {c : Chip} (k : tableSizes (f c) = tableSizes c)
    (s : TablesSized c) : TablesSized (if b then f c else c) := by
  split
  · exact s.of_eq k
  · exact s

theorem TablesSized.event {i : Instr} {f : Chip → Chip} {c : Chip} (event : eventOf i = some f) (s : TablesSized c) :
    TablesSized (f c) := by
  cases i
  all_goals simp only [eventOf, reduceCtorEq, Option.some.injEq] at event
  all_goals subst event
  case headerEnd => exact s.of_eq (sizes_takeHeader _ c)
  case receptionComplete => exact s.of_eq (sizes_completeReception _ _ c)
  case actuateFrameCheck => exact s.of_eq (sizes_checkHeldFrame c)
  case transmitComplete => exact s.of_eq (sizes_completeTransmit c)
  case returnTimeout => exact s.of_eq (sizes_expireReturn _ c)
  case recoveryTimerExpiry => exact s.of_eq (sizes_recover c)
  case freshnessTimerExpiry => exact s.of_eq (sizes_expireFreshness _ c)
  case staleHoldTimerExpiry => exact s.of_eq (sizes_expireStaleHold _ c)
  case millisecondPointDue => exact s.of_eq (sizes_handleMilliseconds c)
  case bagDeadline => exact TablesSized.ite (sizes_decideBag _ c) s
  case shuttleDeadlineExpiry => exact TablesSized.ite (sizes_faultTransfer _ c) s
  case confirmationDeadline => exact TablesSized.ite (sizes_expireConfirm _ c) s
  case assemblyTimeout => exact TablesSized.ite (sizes_dropAssembly c) s
  case lotReportRetry => exact TablesSized.ite (sizes_handWaitingLots c) s
  case deliveryReportRetry => exact TablesSized.ite (sizes_handWaitingDeliveries c) s
  case alertRetry => exact TablesSized.ite (sizes_handAllUnsent c) s
  case warmRestart => exact s.startRestart
  case warmRestartComplete => exact s.of_eq (sizes_endRestart c)
  case readStatus => exact s.of_eq (sizes_executeWith c (sizes_replyRow fun _ _ => by rfl))
  case readTable => exact s.of_eq (sizes_executeWith c (sizes_replyRow sizes_runReadTable))
  case readRecord => exact s.of_eq (sizes_executeWith c sizes_runReadRecord)
  case list => exact s.of_eq (sizes_executeWith c (sizes_replyRow sizes_runList))
  case setMode => exact s.of_eq (sizes_writeEvent c (sizes_replyRow fun _ d => sizes_setMode _ d))
  case openLot => exact s.of_eq (sizes_writeEvent c (sizes_replyRow fun _ d => sizes_openLot _ _ d))
  case closeLot => exact s.of_eq (sizes_writeEvent c (sizes_replyRow fun _ d => sizes_closeLot _ d))
  case placeHold => exact s.of_eq (sizes_writeEvent c (sizes_replyRow sizes_runPlaceHold))
  case releaseHold => exact s.of_eq (sizes_writeEvent c (sizes_replyRow sizes_runReleaseHold))
  case startChannel => exact s.of_eq (sizes_writeEvent c (sizes_replyRow sizes_runStartChannel))
  case stopChannel => exact s.of_eq (sizes_writeEvent c (sizes_replyRow sizes_runStopChannel))
  case enableShuttle => exact s.of_eq (sizes_writeEvent c (sizes_replyRow sizes_runEnableShuttle))
  case requeuePallet => exact s.of_eq (sizes_writeEvent c (sizes_replyRow fun _ d => sizes_requeuePallet _ d))
  case clearAlerts => exact s.of_eq (sizes_writeEvent c (sizes_replyRow sizes_runClearAlerts))
  case restart => exact s.of_eq (sizes_writeEvent c sizes_runRestart)
  all_goals exact s.of_eq (sizes_writeEvent c (sizes_replyRow fun _ d => sizes_writeTable _ _ _ _ d))

theorem sizes_startPart (node : Byte) (c : Chip) : tableSizes (startPart node c) = tableSizes c := by
  unfold startPart
  dsimp only
  split
  · rw [sizes_raise]; rfl
  · rfl

theorem sizes_driveByp (level : Bool) (c : Chip) : tableSizes (driveByp level c) = tableSizes c := by
  unfold driveByp whileRunning
  split
  · rw [sizes_settle, sizes_evalRing]; rfl
  · rfl

theorem TablesSized.pin {i : Instr} {f : Chip → Chip} {c : Chip} (pin : pinOf i = some f) (s : TablesSized c) :
    TablesSized (f c) := by
  cases i
  all_goals simp only [pinOf, reduceCtorEq, Option.some.injEq] at pin
  all_goals subst pin
  case powerOnReset => exact TablesSized.power _ _
  case bypAssert => exact s.of_eq (sizes_driveByp true c)
  case bypDeassert => exact s.of_eq (sizes_driveByp false c)
  case rstNRise node =>
    unfold riseRstN
    split
    · exact s
    · split
      · exact s.of_eq ((sizes_settle _).trans (sizes_startPart node c))
      · exact s

/-- Settles O10: no event, completion or grant changes a size, and the resets put tables of the same sizes. -/
theorem tablesKeepTheirSizes : Obligations.TablesKeepTheirSizes :=
  keptByStep_chip (fun _ _ s => s) (fun _ _ _ pin s => s.pin pin) (fun _ _ _ event _ s => s.event event)
    (fun c s => s.of_eq (sizes_settle c)) (fun b p r c s => s.of_eq (sizes_finishWrite b p r c))
    (fun b p c s => s.of_eq (sizes_finishRewrite b p c)) (fun x b p e c s => s.of_eq (sizes_finishRead x b p e c))

/-- Settles O11: each invariant of the power-on state. -/
theorem resetMeetsInvariants : Obligations.ResetMeetsInvariants :=
  ⟨rfl, PlacesInTable.power _ _, RingAgrees.power _ _, TablesSized.power _ _⟩

end Sys2Proof.Machine

/-! PROOFS. What commands answer, what they store, and the commands that change nothing. -/

namespace Sys2Proof.Machine

/-! ## A step (R20, log entry 2) -/

/-- Settles O1: it is the first branch of `step`. -/
theorem stepRunsFrontCommand : Obligations.StepRunsFrontCommand := fun _ _ _ => rfl

theorem step_of_empty {s : State} (empty : s.pending = []) : step s = .next (idle s) := by rw [step, empty]

/-- Settles O2: the three cases of `idle`, with the clock's tick written out. -/
theorem idleStepLetsTimePass : Obligations.IdleStepLetsTimePass := by
  intro s empty
  rw [step_of_empty empty]
  refine ⟨fun held => ?held, fun run i due => ?due, fun run none => ?passes⟩
  case held => rw [idle, if_neg (by simp [held])]
  case due => rw [idle, if_pos run, due]
  case passes =>
    rw [idle, if_pos run, none]
    dsimp only
    unfold Clock.tick
    split
    all_goals rfl

/-! ## What commands answer -/

/-- The place of a completion is that of the operation on the SPI master. -/
theorem completionOf_inTable {i : Instr} {s t : State} {p : Nat} (h : completionOf i s = some (p, t))
    (places : PlacesInTable s.chip) : p < 1024 := by
  unfold completionOf at h
  split at h
  case h_4 => cases h
  all_goals
    split at h
    next op => cases h; exact places.spi _ op
    next => cases h

/-- Settles O12: an event or a pin command always answers, and a completion's place is one that TM holds. -/
theorem everyCommandGoesOn : Obligations.EveryCommandGoesOn := by
  intro i s places
  cases event : eventOf i with
  | some f => exact ⟨_, exec_of_event event s⟩
  | none =>
    cases pin : pinOf i with
    | some f => exact ⟨_, exec_of_pin pin s⟩
    | none =>
      obtain same | ⟨p, t, ends, _, there⟩ := exec_of_other event pin s
      · exact ⟨s, same⟩
      · exact ⟨_, by rw [there, onPlace, if_pos (completionOf_inTable ends places)]⟩

theorem onPlace_outside {p : Nat} (s t : State) (h : 1024 ≤ p) : onPlace p s t = .fault .outsideTraceMemory :=
  if_neg (by omega)

theorem exec_placeWriteComplete {s : State} {p : Nat} {r : BagRecord} (a b : List Byte)
    (run : s.chip.pins.running = true) (op : s.chip.tm.spi = some (.write p r)) :
    exec (.placeWriteComplete a b) s = onPlace p s (endWrite p r a b s) := by
  change execPlaceWriteComplete a b s = _
  rw [execPlaceWriteComplete, run, op]

theorem exec_rewriteComplete {s : State} {p : Nat} {h : HoldSet} (a b d : List Byte)
    (run : s.chip.pins.running = true) (op : s.chip.tm.spi = some (.rewrite p h)) :
    exec (.rewriteComplete a b d) s = onPlace p s (endRewrite p h a b d s) := by
  change execRewriteComplete a b d s = _
  rw [execRewriteComplete, run, op]

theorem exec_traceReadComplete {s : State} {p : Nat} {e : Place} (a : List Byte)
    (run : s.chip.pins.running = true) (op : s.chip.tm.spi = some (.read p e)) :
    exec (.traceReadComplete a) s = onPlace p s (endRead p e a s) := by
  change execTraceReadComplete a s = _
  rw [execTraceReadComplete, run, op]

theorem onPlace_ne_refused (p : Nat) (s t : State) (r : Refusal) : onPlace p s t ≠ .refused r := by
  unfold onPlace
  split
  all_goals exact nofun

/-- Settles O13: the three completions fault beyond the table; of all other commands none answers anything but a next
state. -/
theorem stopsOutsideTraceMemory : Obligations.StopsOutsideTraceMemory := by
  refine ⟨fun s p beyond run => ⟨fun r a b op => ?_, fun h a b d op => ?_, fun e a op => ?_⟩, fun i s r => ?refused⟩
  · rw [exec_placeWriteComplete a b run op, onPlace_outside _ _ beyond]
  · rw [exec_rewriteComplete a b d run op, onPlace_outside _ _ beyond]
  · rw [exec_traceReadComplete a run op, onPlace_outside _ _ beyond]
  case refused =>
    cases event : eventOf i with
    | some f => rw [exec_of_event event]; exact nofun
    | none =>
      cases pin : pinOf i with
      | some f => rw [exec_of_pin pin]; exact nofun
      | none =>
        obtain same | ⟨p, t, _, _, there⟩ := exec_of_other event pin s
        · rw [same]; exact nofun
        · rw [there]; exact onPlace_ne_refused p s t r

/-- Settles O14: an event and a pin command put a new part into the state, a completion a new part and memory. -/
theorem commandsLeaveTheQueue : Obligations.CommandsLeaveTheQueue := by
  intro i s t done
  obtain rfl | ⟨_, _, rfl⟩ | ⟨_, _, _, rfl⟩ | ⟨p, ends, _⟩ := exec_next_cases done
  · rfl
  · rfl
  · rfl
  · exact completionOf_pending ends

/-- Settles O16: the events are those of a running part, and the completions too. -/
theorem heldPartIgnoresCommands : Obligations.HeldPartIgnoresCommands := by
  intro i s held power rise assert deassert
  cases event : eventOf i with
  | some f => rw [exec_of_event event, whileRunning_of_held held]
  | none =>
    have pin : pinOf i = none := by
      cases i
      case powerOnReset => exact absurd rfl power
      case rstNRise node => exact absurd rfl (rise node)
      case bypAssert => exact absurd rfl assert
      case bypDeassert => exact absurd rfl deassert
      all_goals rfl
    obtain same | ⟨_, _, _, run, _⟩ := exec_of_other event pin s
    · exact same
    · exact absurd (held.symm.trans run) (by decide)

/-! ## What commands store (R150) -/

/-- A byte stored at one address leaves every other, in canonical form or not. -/
theorem read_write_of_ne {a x : Nat} (b : Byte) (m : Memory) (h : x ≠ a) :
    Memory.read (Memory.write a b m) x = Memory.read m x := by
  have skipped (v : Byte) (l : Memory) : Memory.read ((a, v) :: l) x = Memory.read l x := if_neg (Ne.symm h)
  induction m with
  | nil =>
    unfold Memory.write
    split
    · rfl
    · exact skipped b []
  | cons e m ih =>
    obtain ⟨y, v⟩ := e
    unfold Memory.write
    split
    · split
      · rfl
      · exact skipped b _
    · split
      next here =>
        subst here
        rw [skipped]
        split
        · rfl
        · exact skipped b m
      next => exact if_congr Iff.rfl rfl ih

theorem read_writeAll_of_outside {a x : Nat} (bs : List Byte) (m : Memory) (h : x < a ∨ a + bs.length ≤ x) :
    Memory.read (Memory.writeAll a bs m) x = Memory.read m x := by
  induction bs generalizing a m with
  | nil => rfl
  | cons b bs ih =>
    rw [List.length_cons] at h
    rw [Memory.writeAll, ih _ (by omega), read_write_of_ne b m (by omega)]

theorem read_storePlace_of_outside {p x : Nat} (bs : List Byte) (m : Memory)
    (place : ¬ (placeAddr p ≤ x ∧ x < placeAddr p + 64)) (codes : ¬ (codeAddr p ≤ x ∧ x < codeAddr p + 8)) :
    Memory.read (storePlace p bs m) x = Memory.read m x := by
  have sixtyFour := List.length_take_le 64 bs
  have eight := List.length_take_le 8 (bs.drop 64)
  rw [storePlace, read_writeAll_of_outside _ _ (by omega), read_writeAll_of_outside _ _ (by omega)]

theorem read_writeMemory_of_outside {p x : Nat} (bs a b : List Byte) (m : Memory)
    (place : ¬ (placeAddr p ≤ x ∧ x < placeAddr p + 64)) (codes : ¬ (codeAddr p ≤ x ∧ x < codeAddr p + 8)) :
    Memory.read (writeMemory p bs a b m).1 x = Memory.read m x :=
  read_storePlace_of_outside _ m place codes

theorem read_rewriteMemory_of_outside {p x : Nat} (h : HoldSet) (a b d : List Byte) (m : Memory)
    (place : ¬ (placeAddr p ≤ x ∧ x < placeAddr p + 64)) (codes : ¬ (codeAddr p ≤ x ∧ x < codeAddr p + 8)) :
    Memory.read (rewriteMemory p h a b d m).1 x = Memory.read m x := by
  unfold rewriteMemory
  split
  next => rfl
  next => exact read_storePlace_of_outside _ m place codes

theorem exec_placeWriteComplete_mem {a b : List Byte} {s t : State} (done : exec (.placeWriteComplete a b) s = .next t) :
    t.mem = s.mem ∨ s.chip.pins.running = true ∧ ∃ p r, s.chip.tm.spi = some (.write p r) ∧
      t.mem = (writeMemory p r.bytes a b s.mem).1 := by
  change execPlaceWriteComplete a b s = _ at done
  unfold execPlaceWriteComplete at done
  split at done
  next p r run op =>
    unfold onPlace at done
    split at done
    case isTrue => cases done; exact .inr ⟨run, p, r, op, rfl⟩
    case isFalse => cases done
  next => cases done; exact .inl rfl

theorem exec_rewriteComplete_mem {a b d : List Byte} {s t : State} (done : exec (.rewriteComplete a b d) s = .next t) :
    t.mem = s.mem ∨ s.chip.pins.running = true ∧ ∃ p h, s.chip.tm.spi = some (.rewrite p h) ∧
      t.mem = (rewriteMemory p h a b d s.mem).1 := by
  change execRewriteComplete a b d s = _ at done
  unfold execRewriteComplete at done
  split at done
  next p r run op =>
    unfold onPlace at done
    split at done
    case isTrue => cases done; exact .inr ⟨run, p, r, op, rfl⟩
    case isFalse => cases done
  next => cases done; exact .inl rfl

/-- No other command stores: a read's completion keeps the memory too. -/
theorem exec_mem_of_no_store {i : Instr} {s t : State} (done : exec i s = .next t)
    (write : ∀ a b, i ≠ .placeWriteComplete a b) (rewrite : ∀ a b d, i ≠ .rewriteComplete a b d) : t.mem = s.mem := by
  obtain rfl | ⟨_, _, rfl⟩ | ⟨_, _, _, rfl⟩ | ⟨p, ends, _⟩ := exec_next_cases done
  · rfl
  · rfl
  · rfl
  · unfold completionOf at ends
    split at ends
    next a b => exact absurd rfl (write a b)
    next a b d => exact absurd rfl (rewrite a b d)
    next =>
      split at ends
      next => cases ends; rfl
      next => cases ends
    next => cases ends

/-- Settles O15: the two completions store through `storePlace` alone, whose addresses are the place's own. -/
theorem storesStayInTheirPlace : Obligations.StoresStayInTheirPlace := by
  refine ⟨fun i s t done write rewrite a => ?others, fun p r a b s t op done x place codes => ?writeAt,
    fun p h a b d s t op done x place codes => ?rewriteAt, fun a b s t none done => ?noWrite,
    fun a b d s t none done => ?noRewrite⟩
  case others => rw [exec_mem_of_no_store done write rewrite]
  case writeAt =>
    obtain same | ⟨_, q, r', op', stored⟩ := exec_placeWriteComplete_mem done
    · rw [same]
    · cases op.symm.trans op'
      rw [stored, read_writeMemory_of_outside _ _ _ _ place codes]
  case rewriteAt =>
    obtain same | ⟨_, q, h', op', stored⟩ := exec_rewriteComplete_mem done
    · rw [same]
    · cases op.symm.trans op'
      rw [stored, read_rewriteMemory_of_outside _ _ _ _ _ place codes]
  case noWrite =>
    obtain same | ⟨run, p, r, op, _⟩ := exec_placeWriteComplete_mem done
    · exact same
    · obtain held | other := none
      · exact absurd (held.symm.trans run) (by decide)
      · exact absurd op (other p r)
  case noRewrite =>
    obtain same | ⟨run, p, h, op, _⟩ := exec_rewriteComplete_mem done
    · exact same
    · obtain held | other := none
      · exact absurd (held.symm.trans run) (by decide)
      · exact absurd op (other p h)

/-! ## Power-on reset (R20, R205) -/

/-- Settles O3: the power-on part is `Chip.power`, and the ring port's share is read off it. -/
theorem powerOnRingPort : Obligations.PowerOnRingPort := by
  refine ⟨exec_powerOnReset, rfl, ?_⟩
  rintro byp cfg c rfl
  exact ⟨rfl, rfl, rfl, rfl, rfl, rfl, rfl, rfl, rfl, rfl, rfl, rfl, rfl, rfl, rfl, rfl, rfl, rfl, rfl⟩

theorem getD_replicate_self {α : Type} (a : α) (m n : Nat) : (List.replicate m a).getD n a = a := by
  rw [List.getD_eq_getElem?_getD, List.getElem?_replicate]
  split
  all_goals rfl

/-- A power-on channel has no output, and there is no pause point, so no point is owned. -/
theorem ownedPoint_power (byp cfg : Bool) (n : Nat) : ownedPoint (Chip.power byp cfg) n = none := by
  have channel : trackChan (Chip.power byp cfg) n = TrackChan.power := getD_replicate_self _ _ n
  unfold ownedPoint
  rw [channel]
  rfl

/-- Settles O6: each block's share of `Chip.power` is the value written out; the derived figures follow from it. -/
theorem powerOnBlocks : Obligations.PowerOnBlocks := by
  intro s
  have owned := ownedPoint_power s.chip.pins.byp s.chip.pins.cfg
  refine ⟨_, exec_powerOnReset s, rfl, rfl, rfl, rfl, rfl, owned, ?others⟩
  case others =>
    and_intros
    all_goals rfl

end Sys2Proof.Machine

/-! PROOFS. The pins and the ring port: BYP, the ring state and its changes, headers, receptions, the return list. -/

namespace Sys2Proof.Machine

/-- An event of a running part, with the grants at its end. -/
theorem exec_of_running {i : Instr} {f : Chip → Chip} {s : State} (event : eventOf i = some f)
    (run : s.chip.pins.running = true) : exec i s = .next (s.after (f s.chip)) := by
  rw [exec_of_event event, whileRunning_of_running run]
  rfl

/-! ## The rise of RST_N (R20) -/

theorem nodeValid_iff (node : Byte) : nodeValid node = true ↔ node ≠ 0 ∧ node ≠ 255 := by
  simp [nodeValid]

/-- Settles O17: the branches of `riseRstN`, and of `startPart` by the level of BYP. -/
theorem riseOfResetStartsPart : Obligations.RiseOfResetStartsPart := by
  intro node s
  have rise : exec (.rstNRise node) s = .next { s with chip := riseRstN node s.chip } := rfl
  rw [rise]
  refine ⟨fun low n0 n255 byp => ?inline, fun low n0 n255 byp => ?isolated, fun low invalid => ?invalid,
    fun high => ?second⟩
  case inline =>
    rw [riseRstN, if_neg (by simp [low]), if_pos ((nodeValid_iff node).mpr ⟨n0, n255⟩)]
    have start : startPart node s.chip = { s.chip with
        pins := { s.chip.pins with rstN := true, running := true, node := node, rly := true } } := by
      simp [startPart, byp]
    rw [start, State.after]
  case isolated =>
    rw [riseRstN, if_neg (by simp [low]), if_pos ((nodeValid_iff node).mpr ⟨n0, n255⟩)]
    have start : startPart node s.chip = raise .ringIsolated .none 0 { s.chip with
        pins := { s.chip.pins with rstN := true, running := true, node := node, rly := false },
        rp := { s.chip.rp with ring := .isolated } } := by
      simp [startPart, byp]
    rw [start, State.after]
  case invalid =>
    have no : ¬ nodeValid node = true := by
      rw [nodeValid_iff]
      rintro ⟨n0, n255⟩
      exact invalid.elim n0 n255
    rw [riseRstN, if_neg (by simp [low]), if_neg no]
  case second => rw [riseRstN, if_pos high]

/-! ## Changes of the ring state (R14, R15, R18) -/

theorem evalRing_of_same {c : Chip} (h : c.rp.ring = ringStateOf c.rp.txErr c.rp.rxErr c.pins.byp) : evalRing c = c := by
  unfold evalRing
  rw [← h]
  cases c.rp.ring
  all_goals rfl

theorem evalRing_of_isolated {c : Chip} (was : c.rp.ring ≠ .isolated)
    (new : ringStateOf c.rp.txErr c.rp.rxErr c.pins.byp = .isolated) : evalRing c = isolatedEntry c := by
  unfold evalRing
  rw [new]
  cases ring : c.rp.ring with
  | isolated => exact absurd ring was
  | active => rfl
  | passive => rfl

theorem evalRing_of_exit {c : Chip} (was : c.rp.ring = .isolated)
    (new : ringStateOf c.rp.txErr c.rp.rxErr c.pins.byp ≠ .isolated) :
    evalRing c = isolatedExit (ringStateOf c.rp.txErr c.rp.rxErr c.pins.byp) c := by
  unfold evalRing
  rw [was]
  cases ring : ringStateOf c.rp.txErr c.rp.rxErr c.pins.byp with
  | isolated => exact absurd ring new
  | active => rfl
  | passive => rfl

theorem evalRing_of_degraded {c : Chip} (was : c.rp.ring = .active)
    (new : ringStateOf c.rp.txErr c.rp.rxErr c.pins.byp = .passive) :
    evalRing c = raise .ringDegraded .none 0 (txGrant { c with rp := { c.rp with ring := .passive } }) := by
  unfold evalRing
  rw [was, new]

theorem evalRing_of_restored {c : Chip} (was : c.rp.ring = .passive)
    (new : ringStateOf c.rp.txErr c.rp.rxErr c.pins.byp = .active) :
    evalRing c = handWaitingLots (handWaitingDeliveries (txGrant { c with rp := { c.rp with ring := .active } })) := by
  unfold evalRing
  rw [was, new]
  rfl

theorem isolatedExit_passive (c : Chip) :
    isolatedExit .passive c = arbitrate (raise .ringDegraded .none 0 (handAllUnsent (resendAll
      { c with pins := { c.pins with rly := true }, rp := { c.rp with ring := .passive } }))) := by
  unfold isolatedExit
  dsimp only
  rw [if_pos rfl]

theorem isolatedExit_active (c : Chip) :
    isolatedExit .active c = arbitrate (handWaitingLots (handWaitingDeliveries (handAllUnsent (resendAll
      { c with pins := { c.pins with rly := true }, rp := { c.rp with ring := .active } })))) := by
  unfold isolatedExit ringActive
  dsimp only
  rw [if_neg (by decide)]

theorem ringStateOf_eq (tx rx : Nat) (byp : Bool) :
    ringStateOf tx rx byp =
      if byp = true ∨ 256 ≤ tx then .isolated else if 127 < tx ∨ 127 < rx then .passive else .active := by
  simp [ringStateOf]

/-- Settles O20: the counts and the timer are put, then each pair of the state before and the state of R14 is one branch of
`evalRing`. -/
theorem ringStateFollowsErrorCounts : Obligations.RingStateFollowsErrorCounts := by
  rintro rx tx c d new hd hnew
  have put : setErrors rx tx c = evalRing d := by rw [hd]; rfl
  have ring : d.rp.ring = c.rp.ring := by rw [hd]
  have follows : ringStateOf d.rp.txErr d.rp.rxErr d.pins.byp = new := by rw [ringStateOf_eq, hnew, hd]
  rw [put, ← ring]
  refine ⟨fun same => ?_, fun was goes => ?_, fun was goes => ?_, fun was goes => ?_, fun was goes => ?_, fun was goes => ?_⟩
  · exact evalRing_of_same (same.trans follows.symm)
  · exact evalRing_of_degraded was (follows.trans goes)
  · exact evalRing_of_restored was (follows.trans goes)
  · exact evalRing_of_isolated was (follows.trans goes)
  · rw [evalRing_of_exit was (by rw [follows, goes]; decide), follows, goes, isolatedExit_passive]
  · rw [evalRing_of_exit was (by rw [follows, goes]; decide), follows, goes, isolatedExit_active]

/-! ## BYP (R17) -/

theorem exec_bypAssert (s : State) : exec .bypAssert s = .next { s with chip := driveByp true s.chip } := rfl

theorem exec_bypDeassert (s : State) : exec .bypDeassert s = .next { s with chip := driveByp false s.chip } := rfl

/-- A level of BYP that leaves the ring state. -/
theorem driveByp_of_same {level : Bool} {c : Chip} (run : c.pins.running = true)
    (same : c.rp.ring = ringStateOf c.rp.txErr c.rp.rxErr level) :
    driveByp level c = settle { c with pins := { c.pins with byp := level } } := by
  rw [driveByp_of_running run]
  exact congrArg settle (evalRing_of_same (c := { c with pins := { c.pins with byp := level } }) same)

/-- A running part that BYP alone has isolated leaves ISOLATED. -/
theorem driveByp_of_deasserted {c : Chip} (run : c.pins.running = true) (was : c.rp.ring = .isolated)
    (new : ringStateOf c.rp.txErr c.rp.rxErr false ≠ .isolated) :
    driveByp false c = settle (isolatedExit (ringStateOf c.rp.txErr c.rp.rxErr false)
      { c with pins := { c.pins with byp := false } }) := by
  rw [driveByp_of_running run]
  exact congrArg settle (evalRing_of_exit (c := { c with pins := { c.pins with byp := false } }) was new)

/-- BYP isolates a running part that is not isolated (R15). -/
theorem driveByp_of_asserted {c : Chip} (run : c.pins.running = true) (was : c.rp.ring ≠ .isolated) :
    driveByp true c = settle (isolatedEntry { c with pins := { c.pins with byp := true } }) := by
  rw [driveByp_of_running run]
  exact congrArg settle (evalRing_of_isolated (c := { c with pins := { c.pins with byp := true } }) was rfl)

theorem sendIntended_of_unused {n : Nat} {c : Chip} (h : ownedPoint c n = none) : sendIntended n c = c := by
  rw [sendIntended, h]

theorem sendIntended_of_output {n : Nat} {c : Chip} {key : Key} {v : Word} {o : Output}
    (h : ownedPoint c n = some (key, v)) (output : (trackChan c n).cfg.output = some o) :
    sendIntended n c = (sendValue n key v (.channel n) none o.timeout c).1 := by
  rw [sendIntended, h]
  dsimp only
  rw [output]

theorem sendIntended_of_pause {n : Nat} {c : Chip} {key : Key} {v : Word} {p : PausePoint}
    (h : ownedPoint c n = some (key, v)) (output : (trackChan c n).cfg.output = none)
    (pause : c.ma.config.pausePoint = some p) : sendIntended n c = (sendValue n key v .pause none p.timeout c).1 := by
  rw [sendIntended, h]
  dsimp only
  rw [output, pause]

/-- Settles O18: BYP's level is put and the ring state re-evaluated; what an exit hands is read off its steps. -/
theorem bypassFollowsItsPin : Obligations.BypassFollowsItsPin := by
  refine ⟨fun s => ?pin, fun _ => rfl, fun n c => ⟨sendIntended_of_unused, fun key v used =>
    ⟨fun o output => sendIntended_of_output used output, fun p output => sendIntended_of_pause used output⟩⟩⟩
  rw [exec_bypAssert, exec_bypDeassert]
  have isolatedBy (run : s.chip.pins.running = true) (a : RingAgrees s.chip) (byp : s.chip.pins.byp = true) :
      s.chip.rp.ring = .isolated := by rw [a.runs run, byp]; rfl
  refine ⟨fun run ring => ?enters, fun run ring => ?stays, fun run a byp tx => ?kept, fun run a byp tx above => ?passive,
    fun run a byp tx rx => ?active, fun run a byp => ?low, fun held => ⟨?_, ?_⟩⟩
  case enters => rw [driveByp_of_asserted run ring, State.after]
  case stays => rw [driveByp_of_same run (level := true) ring, State.after]
  case kept =>
    have counts : ringStateOf s.chip.rp.txErr s.chip.rp.rxErr false = .isolated := by simp [ringStateOf, tx]
    rw [driveByp_of_same run ((isolatedBy run a byp).trans counts.symm), State.after]
  case passive =>
    have counts : ringStateOf s.chip.rp.txErr s.chip.rp.rxErr false = .passive := by
      rw [ringStateOf_eq, if_neg (by simp; omega), if_pos above]
    rw [driveByp_of_deasserted run (isolatedBy run a byp) (by rw [counts]; decide), counts, isolatedExit_passive, State.after]
  case active =>
    have counts : ringStateOf s.chip.rp.txErr s.chip.rp.rxErr false = .active := by
      rw [ringStateOf_eq, if_neg (by simp; omega), if_neg (by omega)]
    rw [driveByp_of_deasserted run (isolatedBy run a byp) (by rw [counts]; decide), counts, isolatedExit_active, State.after]
  case low =>
    have level : { s.chip with pins := { s.chip.pins with byp := false } } = s.chip := by rw [← byp]
    rw [driveByp_of_running run, level, evalRing_of_same (a.runs run), State.after]
  all_goals rw [driveByp_of_held held]

/-- Settles O19: the entry's own effects and the whole event by BYP, both from the laws of the warm restart's file. -/
theorem isolationEmptiesTheRingPort : Obligations.IsolationEmptiesTheRingPort := ⟨spec_isolatedEntry, spec_bypAssert⟩

/-! ## Headers (R2 to R6) -/

theorem frameKind?_eq_none_iff (b : Byte) : frameKind? b = none ↔ b.toNat = 0 ∨ 7 < b.toNat := by
  unfold frameKind?
  split
  all_goals simp_all
  omega

theorem headerGood_iff (h : Header) :
    headerGood h = true ↔ (∃ k, frameKind? h.kind = some k) ∧ 1 ≤ h.count.toNat ∧ h.count.toNat ≤ 16 := by
  simp [headerGood, Option.isSome_iff_exists, and_assoc]

theorem headerGood_eq_false {h : Header}
    (bad : h.kind.toNat = 0 ∨ 7 < h.kind.toNat ∨ h.count.toNat = 0 ∨ 16 < h.count.toNat) : headerGood h = false := by
  rw [Bool.eq_false_iff, Ne, headerGood_iff]
  rintro ⟨⟨k, kind⟩, _, _⟩
  have known : ¬ (h.kind.toNat = 0 ∨ 7 < h.kind.toNat) := by
    rw [← frameKind?_eq_none_iff, kind]
    nofun
  omega

theorem routeHeader_of_not_forwarded {h : Header} {c : Chip}
    (no : c.rp.ring = .isolated ∨ headerGood h = false ∨ h.origin = c.pins.node ∨ h.dest = c.pins.node) :
    routeHeader h c = .none :=
  if_pos (by simpa using no)

theorem routeHeader_of_forwarded {h : Header} {c : Chip} {k : FrameKind} (kind : frameKind? h.kind = some k)
    (ring : c.rp.ring ≠ .isolated) (least : 1 ≤ h.count.toNat) (most : h.count.toNat ≤ 16) (origin : h.origin ≠ c.pins.node)
    (dest : h.dest ≠ c.pins.node) :
    routeHeader h c = if k ≠ .actuate ∧ c.rp.forward = [] ∧ c.rp.tx = none then .cutThrough
      else if c.rp.forward.length < 8 then .buffer k else .overflow := by
  have good : headerGood h = true := (headerGood_iff h).mpr ⟨⟨k, kind⟩, least, most⟩
  unfold routeHeader
  rw [if_neg (by simp [ring, good, origin, dest]), kind]

theorem takeHeader_of_route {h : Header} {c : Chip} (free : c.rp.rx = none) :
    takeHeader h c = match routeHeader h c with
      | .none => { c with rp := { c.rp with rx := some { header := h, fwd := .notForwarded } } }
      | .cutThrough =>
        { c with rp := { c.rp with rx := some { header := h, fwd := .cutThrough },
                                   tx := some { header := h, body := none, badCheck := false } } }
      | .buffer k =>
        { c with rp := { c.rp with rx := some { header := h, fwd := .buffered },
                                   forward := c.rp.forward ++
                                     [{ frame := { kind := k, origin := h.origin, dest := h.dest, seq := h.seq, items := [] },
                                        receiving := true, unchecked := decide (k = .actuate) }] } }
      | .overflow =>
        { c with rp := { c.rp with rx := some { header := h, fwd := .overflowed },
                                   overflow := inc16 c.rp.overflow } } := by
  rw [takeHeader, free] <;> rfl

end Sys2Proof.Machine

/-! PROOFS. The ring port: the end of a header, receptions, the return list, the recovery timer, AG's check of a held
frame. -/

namespace Sys2Proof.Machine

/-! ## Headers (R2 to R6) -/

theorem exec_headerEnd {s : State} (h : Option Header) (run : s.chip.pins.running = true) :
    exec (.headerEnd h) s = .next (s.after (takeHeader (headerTaken h) s.chip)) := exec_of_running rfl run

theorem exec_receptionComplete {s : State} (p : List Byte) (g : Bool) (run : s.chip.pins.running = true) :
    exec (.receptionComplete p g) s = .next (s.after (completeReception p g s.chip)) := exec_of_running rfl run

/-- Settles O21: neither command has an event to be about. -/
theorem framesOutOfTurnAreDiscarded : Obligations.FramesOutOfTurnAreDiscarded := by
  refine ⟨fun _ _ => rfl, fun s run => ⟨fun p g none => ?_, fun h r rx => ?_⟩⟩
  · rw [exec_receptionComplete p g run, completeReception, none]
  · rw [exec_headerEnd h run, takeHeader, rx]

/-- Settles O22: each case of the statement is one answer of `routeHeader`. -/
theorem headerDecidesForwarding : Obligations.HeaderDecidesForwarding := by
  have discarded {h : Header} {s : State} (free : s.chip.rp.rx = none)
      (no : s.chip.rp.ring = .isolated ∨ headerGood h = false ∨ h.origin = s.chip.pins.node ∨ h.dest = s.chip.pins.node) :
      takeHeader h s.chip = { s.chip with rp := { s.chip.rp with rx := some { header := h, fwd := .notForwarded } } } := by
    rw [takeHeader_of_route free, routeHeader_of_not_forwarded no]
  refine ⟨fun s run free => ?noFrame, fun h s run free => ⟨fun no => ?notForwarded,
    fun k kind ring least most origin dest => ?forwarded⟩⟩
  case noFrame =>
    rw [exec_headerEnd none run, discarded free (.inr (.inl rfl))]
    rfl
  case notForwarded =>
    rw [exec_headerEnd (some h) run]
    refine congrArg (fun c => Host.Outcome.next (s.after c)) (discarded free ?_)
    obtain ring | bad | bad | bad | bad | own | own := no
    · exact .inl ring
    · exact .inr (.inl (headerGood_eq_false (.inl bad)))
    · exact .inr (.inl (headerGood_eq_false (.inr (.inl bad))))
    · exact .inr (.inl (headerGood_eq_false (.inr (.inr (.inl bad)))))
    · exact .inr (.inl (headerGood_eq_false (.inr (.inr (.inr bad)))))
    · exact .inr (.inr (.inl own))
    · exact .inr (.inr (.inr own))
  case forwarded =>
    have route := routeHeader_of_forwarded kind ring least most origin dest
    rw [exec_headerEnd (some h) run, headerTaken, takeHeader_of_route free, route]
    refine ⟨fun kindNot buffer idle => ?_, fun held room => ?_, fun held full => ?_⟩
    · rw [if_pos ⟨kindNot, buffer, idle⟩]
    · rw [if_neg (by tauto), if_pos room]
    · rw [if_neg (by tauto), if_neg (by omega)]
      rfl

/-! ## Good and bad frames (R3) -/

/-- A frame's items can be read exactly where its bytes are as many as they take. -/
theorem parseItems_eq_none_iff : ∀ (n : Nat) (bs : List Byte), parseItems n bs = none ↔ bs.length < 7 * n
  | 0, bs => by simp [parseItems]
  | n + 1, b0 :: b1 :: b2 :: b3 :: b4 :: b5 :: b6 :: rest => by
    rw [parseItems, Option.map_eq_none_iff, parseItems_eq_none_iff n rest]
    simp only [List.length_cons]
    omega
  | n + 1, [] | n + 1, [_] | n + 1, [_, _] | n + 1, [_, _, _] | n + 1, [_, _, _, _] | n + 1, [_, _, _, _, _]
  | n + 1, [_, _, _, _, _, _] => by
    simp only [parseItems, List.length_cons, List.length_nil, true_iff]
    omega

/-- Settles O23: a header that is bad, or a frame check, or the length of the items. -/
theorem badFramesAreTheFourOfTheManual : Obligations.BadFramesAreTheFourOfTheManual := by
  intro h payload checkGood
  unfold goodItems
  cases good : headerGood h with
  | false =>
    have bad : ¬ headerGood h = true := by rw [good]; decide
    rw [headerGood_iff, ← Option.ne_none_iff_exists', Ne, frameKind?_eq_none_iff] at bad
    simp only [Bool.false_and, Bool.false_eq_true, if_false, true_iff]
    omega
  | true =>
    obtain ⟨kind, least, most⟩ := (headerGood_iff h).mp good
    rw [← Option.ne_none_iff_exists', Ne, frameKind?_eq_none_iff] at kind
    cases checkGood with
    | false => simp
    | true =>
      rw [Bool.and_self, if_pos rfl, parseItems_eq_none_iff]
      simp only [Bool.true_eq_false, or_false]
      omega

/-! ## Receptions (R3 to R5) -/

/-- The five ends of a reception for its forwarding, as one record: the cut-through copy's bytes and the buffer's entry. -/
theorem endForwarding_eq (fwd : RxForward) (body : List Byte) (items : Option (List Item)) (rp : Rp) :
    endForwarding fwd body items rp = { rp with
      tx := if fwd = .cutThrough then rp.tx.map fun t => { t with body := some body, badCheck := items.isNone } else rp.tx,
      forward := if fwd = .buffered then
          (match items with
           | some l => rp.forward.map fun e =>
               if e.receiving then { e with receiving := false, frame := { e.frame with items := l } } else e
           | none => rp.forward.filter fun e => !e.receiving)
        else rp.forward } := by
  cases fwd with
  | buffered => cases items <;> rfl
  | cutThrough | overflowed | notForwarded => rfl

/-- A good frame has at least one item, so the epoch rule finds its first. -/
theorem takeEpoch_eq {l : List Item} (some : l ≠ []) (c : Chip) :
    takeEpoch l c = { c with rp := { c.rp with
      epoch := (l.head?.map (·.value)).getD 0 - BitVec.ofNat 32 (c.clock.line / 10), epochPresent := true } } := by
  cases l with
  | nil => exact absurd rfl some
  | cons i l => rfl

theorem parseItems_length {n : Nat} {bs : List Byte} {l : List Item} (h : parseItems n bs = some l) : l.length = n := by
  induction n generalizing bs l with
  | zero => cases h; rfl
  | succ n ih =>
    unfold parseItems at h
    split at h
    next zero => cases zero
    next count =>
      cases count
      obtain ⟨rest, parsed, rfl⟩ := Option.map_eq_some_iff.mp h
      rw [List.length_cons, ih parsed]
    next => cases h

theorem goodItems_ne_nil {h : Header} {payload : List Byte} {checkGood : Bool} {l : List Item}
    (items : goodItems h payload checkGood = some l) : l ≠ [] := by
  unfold goodItems at items
  split at items
  next good =>
    rw [Bool.and_eq_true, headerGood_iff] at good
    obtain ⟨⟨_, least, _⟩, _⟩ := good
    rintro rfl
    have length := parseItems_length items
    simp only [List.length_nil] at length
    omega
  next => cases items

/-- The disposition of a good frame by the first row of R4 that holds. -/
theorem dispose_eq {h : Header} {l : List Item} {k : FrameKind} (kind : frameKind? h.kind = some k) (some : l ≠ [])
    (d : Chip) :
    dispose h l d =
      if h.origin = d.pins.node then returnCheck k h.seq d
      else if h.dest = d.pins.node then
        (if k = .mgmtReq ∧ d.rp.ring ≠ .isolated then
           (match readPart h.origin l with
            | .some p => takePart p d
            | none => d)
         else d)
      else if k = .sample then takeItems l d
      else if k = .time ∧ h.dest = 255 then
        { d with rp := { d.rp with
            epoch := (l.head?.map (·.value)).getD 0 - BitVec.ofNat 32 (d.clock.line / 10), epochPresent := true } }
      else d := by
  unfold dispose
  rw [kind]
  dsimp only
  rw [← takeEpoch_eq some]
  refine if_congr Iff.rfl rfl (if_congr Iff.rfl rfl ?_)
  cases k with
  | time => simp
  | sample => rfl
  | actuate | mgmtReq | mgmtAns | alert | report => simp

/-- A byte of a word, as a number. -/
theorem extractByte_toNat (w : Word) (i : Nat) : (w.extractLsb' i 8).toNat = w.toNat / 2 ^ i % 256 := by
  rw [BitVec.extractLsb'_toNat, Nat.shiftRight_eq_div_pow]

/-- Settles O24: the part as the end of the reception leaves it, then the count, then the disposition. -/
theorem receptionCountsAndDisposes : Obligations.ReceptionCountsAndDisposes := by
  refine ⟨fun payload checkGood s r run rx items c hitems hc => ?reception, fun _ => rfl, fun _ _ _ => rfl, fun _ => rfl,
    fun origin h rest => ?header⟩
  case reception =>
    have ended : c = { s.chip with
        rp := endForwarding r.fwd (bodyBytes r.header payload) items { s.chip.rp with rx := none } } := by
      rw [hc, endForwarding_eq]
      rfl
    have complete : completeReception payload checkGood s.chip =
        match items with
        | none => setErrors (min (c.rp.rxErr + 1) 255) c.rp.txErr c
        | some l => dispose r.header l (setErrors (c.rp.rxErr - 1) c.rp.txErr c) := by
      rw [completeReception, rx, ended, hitems] <;> rfl
    rw [exec_receptionComplete payload checkGood run, complete]
    refine ⟨fun bad => by rw [bad], fun l k good kind d hd => ?_⟩
    rw [good] at hitems ⊢
    dsimp only
    rw [← hd]
    exact congrArg (fun c => Host.Outcome.next (s.after c)) (dispose_eq kind (goodItems_ne_nil hitems.symm) d)
  case header =>
    refine ⟨_, rfl, rfl, rfl, ?_, ?_, ?_, ?_, rfl⟩
    · rw [extractByte_toNat]
      omega
    · exact extractByte_toNat h.value 16
    · rw [decide_eq_true_iff, Ne, BitVec.toNat_inj.symm, extractByte_toNat]
      rfl
    · exact (extractByte_toNat h.value 0).trans (by rw [pow_zero, Nat.div_one])

/-! ## The return list (R12, R13) -/

/-- The first member of a list that satisfies a test, found between those before it and those after it. -/
theorem findIdx?_append_cons {α : Type} {f : α → Bool} {before after : List α} {e : α} (none : ∀ x ∈ before, f x = false)
    (here : f e = true) : (before ++ e :: after).findIdx? f = some before.length := by
  rw [List.findIdx?_append, List.findIdx?_eq_none_iff.mpr none, List.findIdx?_cons, if_pos here]
  simp

theorem getElem?_append_cons {α : Type} (before after : List α) (e : α) :
    (before ++ e :: after)[before.length]? = some e := by
  simp

theorem eraseIdx_append_cons {α : Type} (before after : List α) (e : α) :
    (before ++ e :: after).eraseIdx before.length = before ++ after := by
  rw [List.eraseIdx_append_of_length_le le_rfl, Nat.sub_self, List.eraseIdx_zero, List.tail_cons]

/-- An entry's departure from the return list, with what it tells MA (R11, R206). -/
theorem answerOut_dropEntry {c : Chip} {before after : List ReturnEntry} {e : ReturnEntry}
    (list : c.rp.returnList = before ++ e :: after) :
    answerOut e (dropEntry before.length c) =
      { c with rp := { c.rp with returnList := before ++ after },
               ma := { c.ma with phase :=
                 if e.isRestart ∧ c.ma.phase = .restartWait then .restartReady else c.ma.phase } } := by
  unfold answerOut dropEntry
  rw [list, eraseIdx_append_cons]
  dsimp only
  split
  all_goals rfl

/-- Settles O25: the first match of `findIdx?` is the entry named, and `setErrors` takes the counts of the part before. -/
theorem returnedFrameLeavesTheList : Obligations.ReturnedFrameLeavesTheList := by
  refine ⟨fun k seq c before after e list first seqs kinds => ?_, fun k seq c no => ?_⟩
  · have found : c.rp.returnList.findIdx? (fun x => x.seq == seq && x.kind == k) = some before.length := by
      rw [list]
      exact findIdx?_append_cons (fun x m => by simpa using first x m) (by simp [seqs, kinds])
    rw [returnCheck, found]
    dsimp only
    rw [list, getElem?_append_cons]
    dsimp only
    rw [answerOut_dropEntry list]
  · have found : c.rp.returnList.findIdx? (fun x => x.seq == seq && x.kind == k) = none :=
      List.findIdx?_eq_none_iff.mpr fun x m => by simpa using no x m
    rw [returnCheck, found]

/-- Settles O26: as for a return, of the entries that are due. -/
theorem expiredEntryAddsEight : Obligations.ExpiredEntryAddsEight := by
  refine ⟨fun seq s before after e run list first seqs due => ?_, fun seq s run no => ?_⟩
  · have found : s.chip.rp.returnList.findIdx? (fun x => x.seq == seq && returnDue s.chip x) = some before.length := by
      rw [list]
      exact findIdx?_append_cons (fun x m => by simpa [returnDue] using first x m) (by simp [seqs, returnDue, due])
    rw [exec_of_running (i := .returnTimeout seq) rfl run, expireReturn, found]
    dsimp only
    rw [list, getElem?_append_cons]
    dsimp only
    rw [answerOut_dropEntry list]
  · have found : s.chip.rp.returnList.findIdx? (fun x => x.seq == seq && returnDue s.chip x) = none :=
      List.findIdx?_eq_none_iff.mpr fun x m => by simpa [returnDue] using no x m
    rw [exec_of_running (i := .returnTimeout seq) rfl run, expireReturn, found]

/-! ## The recovery timer (R16) -/

/-- The relay is no part of what is handed at an event's end, nor of what an alert, a report or an owned point hands. -/
theorem rly_of_front {c d : Chip} (h : front c = front d) : c.pins.rly = d.pins.rly := by
  have kept : (front c).pins.rly = (front d).pins.rly := by rw [h]
  exact kept

theorem rly_isolatedExit (new : RingState) (c : Chip) : (isolatedExit new c).pins.rly = true := by
  have kept : front (isolatedExit new c) =
      front { c with pins := { c.pins with rly := true }, rp := { c.rp with ring := new } } := by
    unfold isolatedExit
    simp only [front_arbitrate]
    split <;> simp
  exact rly_of_front kept

/-- The recovered part: both counts 0, the timer stopped, and the state that BYP alone then decides (R16). -/
theorem ringView_setErrors_zero (c : Chip) :
    ringView (setErrors 0 0 c) =
      (0, 0, none, if c.pins.byp then .isolated else .active, c.pins.running, c.pins.byp) := by
  have view := ringView_evalRing { c with rp := { c.rp with
    rxErr := 0, txErr := 0, recovery := recoveryOf { c.rp with rxErr := 0, txErr := 0 } c.clock.ms } }
  rw [setErrors, view]
  simp [recoveryOf, ringStateOf]

/-- A part that was ISOLATED and recovers goes inline again, unless BYP is high (R16, R18). -/
theorem rly_evalRing_of_cleared {d : Chip} (was : d.rp.ring = .isolated) (tx : d.rp.txErr = 0) (rx : d.rp.rxErr = 0) :
    (evalRing d).pins.rly = if d.pins.byp then d.pins.rly else true := by
  cases byp : d.pins.byp with
  | true => rw [evalRing_of_same (by rw [was, byp]; rfl), if_pos rfl]
  | false =>
    rw [evalRing_of_exit was (by rw [tx, rx, byp]; decide), rly_isolatedExit]
    rfl

theorem rly_setErrors_zero {c : Chip} (was : c.rp.ring = .isolated) :
    (setErrors 0 0 c).pins.rly = if c.pins.byp then c.pins.rly else true :=
  rly_evalRing_of_cleared (d := { c with rp := { c.rp with
    rxErr := 0, txErr := 0, recovery := recoveryOf { c.rp with rxErr := 0, txErr := 0 } c.clock.ms } }) was rfl rfl

/-- Settles O27: where the timer runs the transmit count is 256 or more, so the part was ISOLATED. -/
theorem recoveryClearsTheCounts : Obligations.RecoveryClearsTheCounts := by
  intro s run
  have event : exec .recoveryTimerExpiry s = .next (s.after (recover s.chip)) := exec_of_running rfl run
  obtain ⟨due, early⟩ := spec_recover s.chip
  refine ⟨fun t timer a reach => ?_, fun no => by rw [event, early no]⟩
  rw [event, due t timer reach]
  have was : s.chip.rp.ring = .isolated := by
    obtain ⟨tx, _⟩ := a.recovery.mp (by rw [timer]; rfl)
    rw [a.runs run, ringStateOf_eq, if_pos (.inr tx)]
  have rly : (settle (setErrors 0 0 s.chip)).pins.rly = if s.chip.pins.byp then s.chip.pins.rly else true :=
    (rly_of_front (front_settle _)).trans (rly_setErrors_zero was)
  have view := (ringView_of_front (front_settle _)).trans (ringView_setErrors_zero s.chip)
  simp only [ringView, Prod.mk.injEq] at view
  obtain ⟨rx, tx, recovery, ring, _, _⟩ := view
  refine ⟨_, rfl, rx, tx, recovery, fun low => ⟨ring.trans (by rw [low]; rfl), rly.trans (by rw [low]; rfl)⟩,
    fun high => ⟨ring.trans (by rw [high]; rfl), rly.trans (by rw [high]; rfl)⟩⟩

/-! ## AG's check of a held frame (R7) -/

/-- AG's rules on an item concern AG alone. -/
theorem checkItem_rp (key : Key) (v : Word) (c : Chip) : (checkItem key v c).1.rp = c.rp := by
  have shadowed (enter : Bool) (r : Option Word) (d : Chip) : (shadowItem enter key v r d).rp = d.rp := by
    unfold shadowItem
    repeat' split
    all_goals rfl
  unfold checkItem
  repeat' first | split | dsimp only
  all_goals exact shadowed _ _ _

/-- What AG's rules on a frame's items leave: the ring port, and of the items some, in their order, with their keys. -/
theorem checkItems_spec (l : List Item) (c : Chip) :
    (checkItems l c).1.rp = c.rp ∧ ((checkItems l c).2.map (·.key)).Sublist (l.map (·.key)) := by
  obtain ⟨_, step⟩ := spec_checkItems
  induction l generalizing c with
  | nil => exact ⟨rfl, List.Sublist.refl _⟩
  | cons i rest ih =>
    have rp := checkItem_rp i.key i.value c
    obtain ⟨rp', sublist⟩ := ih (checkItem i.key i.value c).1
    obtain ⟨kept, removed⟩ := step i rest c (checkItem i.key i.value c).1
    cases verdict : (checkItem i.key i.value c).2 with
    | some v =>
      rw [kept v (by rw [← verdict])]
      exact ⟨rp'.trans rp, sublist.cons_cons _⟩
    | none =>
      rw [removed (by rw [← verdict])]
      exact ⟨rp'.trans rp, sublist.cons _⟩

theorem rebuildFrame_append_cons (before after : List ForwardEntry) (e : ForwardEntry) (kept : List Item) :
    rebuildFrame before.length e kept (before ++ e :: after) =
      before ++ (if kept = [] then [] else [{ e with unchecked := false, frame := { e.frame with items := kept } }]) ++
        after := by
  unfold rebuildFrame
  split
  · rw [eraseIdx_append_cons, List.append_nil]
  · simp

/-- Settles O28: the frame named is the first that `heldFrame` finds, and the checks leave the buffer it stands in. -/
theorem heldFrameIsRebuilt : Obligations.HeldFrameIsRebuilt := by
  refine ⟨⟨fun s before after e c kept run list first unchecked whole checked => ?_, fun s run no => ?_⟩, spec_checkItems⟩
  · obtain ⟨rp, sublist⟩ := checkItems_spec e.frame.items s.chip
    rw [checked] at rp sublist
    refine ⟨?_, sublist⟩
    have found : heldFrame s.chip = some before.length := by
      rw [heldFrame, list]
      refine findIdx?_append_cons (fun x m => ?_) (by simp [unchecked, whole])
      obtain h | h := first x m
      all_goals simp [h]
    rw [exec_of_running (i := .actuateFrameCheck) rfl run, checkHeldFrame, found]
    dsimp only
    rw [list, getElem?_append_cons]
    dsimp only
    rw [checked]
    dsimp only
    rw [rp, list, rebuildFrame_append_cons]
  · have found : heldFrame s.chip = none := by
      refine List.findIdx?_eq_none_iff.mpr fun x m => ?_
      obtain h | h := no x m
      all_goals simp [h]
    rw [exec_of_running (i := .actuateFrameCheck) rfl run, checkHeldFrame, found]

end Sys2Proof.Machine

/-! PROOFS. The transmitter, its queue, the grants at an event's end, and alerts. -/

namespace Sys2Proof.Machine

/-! ## The transmitter (R8, R11) -/

theorem txGrant_of_busy {c : Chip} (h : c.rp.ring = .isolated ∨ c.rp.tx.isSome = true) : txGrant c = c := if_pos h

theorem txGrant_of_idle {c : Chip} (ring : c.rp.ring ≠ .isolated) (idle : c.rp.tx = none) :
    txGrant c = match forwardReady c with
      | some e => sendForward e c
      | none =>
        match ownReady c with
        | some (f, i) => sendOwn i f c
        | none => c := by
  unfold txGrant
  exact if_neg (by simp [ring, idle])

theorem sendable_eq_false_iff {c : Chip} (ring : c.rp.ring ≠ .isolated) (f : OwnFrame) :
    sendable c f = false ↔ f.kind = .report ∧ c.rp.ring = .passive := by
  have notActive : c.rp.ring ≠ .active ↔ c.rp.ring = .passive := by
    cases h : c.rp.ring with
    | isolated => exact absurd h ring
    | active | passive => simp
  rw [← notActive]
  simp [sendable]

theorem find?_zipIdx_append_cons {α : Type} {f : α → Bool} {before after : List α} {e : α}
    (none : ∀ x ∈ before, f x = false) (here : f e = true) :
    (before ++ e :: after).zipIdx.find? (fun x => f x.1) = some (e, before.length) := by
  rw [List.zipIdx_append, List.find?_append, List.find?_eq_none.mpr ?_, List.zipIdx_cons, List.find?_cons, here]
  · simp
  · rintro ⟨x, i⟩ m
    simpa using none x (List.fst_mem_of_mem_zipIdx m)

/-- The first own frame that may be sent now, with those before it waiting for ACTIVE (R8, R9). -/
theorem ownReady_of_first {c : Chip} {before after : List OwnFrame} {f : OwnFrame} (ring : c.rp.ring ≠ .isolated)
    (room : c.rp.returnList.length < 16) (queue : c.rp.txQueue = before ++ f :: after)
    (wait : ∀ g ∈ before, g.kind = .report ∧ c.rp.ring = .passive) (now : ¬ (f.kind = .report ∧ c.rp.ring = .passive)) :
    ownReady c = some (f, before.length) := by
  rw [ownReady, if_pos room, queue]
  refine find?_zipIdx_append_cons (fun g m => (sendable_eq_false_iff ring g).mpr (wait g m)) ?_
  rw [← Bool.not_eq_false, sendable_eq_false_iff ring]
  exact now

theorem ownReady_of_none {c : Chip} (ring : c.rp.ring ≠ .isolated)
    (no : 16 ≤ c.rp.returnList.length ∨ ∀ g ∈ c.rp.txQueue, g.kind = .report ∧ c.rp.ring = .passive) :
    ownReady c = none := by
  unfold ownReady
  split
  next room =>
    refine List.find?_eq_none.mpr ?_
    rintro ⟨g, i⟩ m
    obtain full | wait := no
    · omega
    · simpa using (sendable_eq_false_iff ring g).mpr (wait g (List.fst_mem_of_mem_zipIdx m))
  next => rfl

theorem completeTransmit_of_whole {c : Chip} {t : Leaving} {l : List Byte} (tx : c.rp.tx = some t) (body : t.body = some l) :
    completeTransmit c = { c with rp := { c.rp with tx := none } } := by
  rw [completeTransmit, tx]
  dsimp only
  rw [body]
  rfl

theorem completeTransmit_of_copying {c : Chip} (body : ∀ t, c.rp.tx = some t → t.body = none) : completeTransmit c = c := by
  unfold completeTransmit
  split
  next t tx => rw [body t tx]; rfl
  next => rfl

/-- Settles O29: the two ends of a transmission, the four grants; the freeing of places by the laws on bags. -/
theorem transmitterIsGranted : Obligations.TransmitterIsGranted := by
  refine ⟨⟨fun s t l run tx body => ?left, fun s run body => ?copying, fun c => txGrant_of_busy,
    fun c e q ring idle queue whole checked => ?forward,
    fun c before after f ring idle noneReady room queue wait now => ?own, fun c ring idle noneReady no => ?none⟩,
    spec_freeing, spec_handDecided⟩
  case left => rw [exec_of_running (i := .transmitComplete) rfl run, completeTransmit_of_whole tx body]
  case copying => rw [exec_of_running (i := .transmitComplete) rfl run, completeTransmit_of_copying body]
  case forward =>
    have ready : forwardReady c = some e := by simp [forwardReady, queue, whole, checked]
    rw [txGrant_of_idle ring idle, ready]
    dsimp only
    rw [sendForward, queue]
    rfl
  case own =>
    rw [txGrant_of_idle ring idle, (forwardReady_none_iff c).mpr noneReady,
      ownReady_of_first ring room queue wait now]
    dsimp only
    rw [sendOwn, queue, eraseIdx_append_cons]
    rfl
  case none =>
    rw [txGrant_of_idle ring idle, (forwardReady_none_iff c).mpr noneReady, ownReady_of_none ring no]

/-! ## The transmit queue (R9, R10) -/

theorem rpOffer_of_passive {f : OwnFrame} {c : Chip} (ring : c.rp.ring = .passive) (kind : f.kind = .report) :
    rpOffer f c = (c, .refused) := by
  rw [rpOffer, if_neg (by rw [ring]; decide), if_pos ⟨ring, kind⟩]

theorem rpOffer_of_room {f : OwnFrame} {c : Chip} (ring : c.rp.ring ≠ .isolated)
    (may : ¬ (c.rp.ring = .passive ∧ f.kind = .report)) (room : c.rp.txQueue.length < 32) :
    rpOffer f c = (acceptFrame f c, .taken) := by
  rw [rpOffer, if_neg ring, if_neg may, if_pos room]

theorem rpOffer_of_full {f : OwnFrame} {c : Chip} (ring : c.rp.ring ≠ .isolated)
    (may : ¬ (c.rp.ring = .passive ∧ f.kind = .report)) (full : 32 ≤ c.rp.txQueue.length) :
    rpOffer f c = match displaceable f c.rp.txQueue with
      | some g =>
        (reportHandedBack g.source (acceptFrame f { c with rp := { c.rp with txQueue := c.rp.txQueue.dropLast } }), .taken)
      | none => (c, .overflow) := by
  rw [rpOffer, if_neg ring, if_neg may, if_neg (by omega)] <;> rfl

/-- An ACTUATE or ALERT displaces a REPORT that stands last, and no other frame displaces anything (R10). -/
theorem displaceable_append {f g : OwnFrame} (q : List OwnFrame) (kind : f.kind = .actuate ∨ f.kind = .alert)
    (report : g.kind = .report) : displaceable f (q ++ [g]) = some g := by
  simp [displaceable, kind, report]

theorem displaceable_eq_none {f : OwnFrame} {q : List OwnFrame}
    (h : f.kind = .mgmtAns ∨ f.kind = .report ∨ ∀ g, q.getLast? = some g → g.kind ≠ .report) :
    displaceable f q = none := by
  unfold displaceable
  split
  next kind =>
    split
    next g last =>
      obtain ans | report | other := h
      · rw [ans] at kind; simp at kind
      · rw [report] at kind; simp at kind
      · rw [if_neg (other g last)]
    next => rfl
  next => rfl

/-- In a queue in class order the frames that a new one goes behind are its first. -/
theorem enterQueue_eq_filter (f : OwnFrame) {q : List OwnFrame}
    (order : q.Pairwise fun a b => classRank a.kind ≤ classRank b.kind) :
    enterQueue f q = q.filter (fun g => decide (classRank g.kind ≤ classRank f.kind)) ++
      f :: q.filter (fun g => decide (classRank f.kind < classRank g.kind)) := by
  unfold enterQueue
  induction q with
  | nil => rfl
  | cons g q ih =>
    obtain ⟨first, rest⟩ := List.pairwise_cons.mp order
    by_cases h : classRank g.kind ≤ classRank f.kind
    · have ih := ih rest
      simp only [List.takeWhile_cons, List.dropWhile_cons, List.filter_cons, h, Nat.not_lt.mpr h, decide_true, decide_false,
        if_true, List.cons_append, Bool.false_eq_true, if_false, ih]
    · have above (x) (m : x ∈ q) : classRank f.kind < classRank x.kind := by have := first x m; omega
      have none : q.filter (fun x => decide (classRank x.kind ≤ classRank f.kind)) = [] :=
        List.filter_eq_nil_iff.mpr fun x m => by have := above x m; simp; omega
      have all : q.filter (fun x => decide (classRank f.kind < classRank x.kind)) = q :=
        List.filter_eq_self.mpr fun x m => by simpa using above x m
      simp [h, Nat.lt_of_not_le h, none, all]

theorem enterQueue_pairwise (f : OwnFrame) {q : List OwnFrame}
    (order : q.Pairwise fun a b => classRank a.kind ≤ classRank b.kind) :
    (enterQueue f q).Pairwise fun a b => classRank a.kind ≤ classRank b.kind := by
  rw [enterQueue_eq_filter f order, List.pairwise_append, List.pairwise_cons]
  refine ⟨order.filter _, ⟨fun b m => ?_, order.filter _⟩, fun a m b n => ?_⟩
  · have above := (List.mem_filter.mp m).2
    rw [decide_eq_true_iff] at above
    omega
  · have below := (List.mem_filter.mp m).2
    rw [decide_eq_true_iff] at below
    obtain rfl | n := List.mem_cons.mp n
    · exact below
    · have above := (List.mem_filter.mp n).2
      rw [decide_eq_true_iff] at above
      omega

/-- Settles O30: the branches of `rpOffer`, a frame that enters or leaves at once, class order, and what a discarded frame
raises. -/
theorem transmitQueueKeepsClassOrder : Obligations.TransmitQueueKeepsClassOrder := by
  refine ⟨⟨fun f c => ⟨rpOffer_isolated, rpOffer_of_passive, rpOffer_of_room, fun q g ring queue length report kind => ?_,
    fun ring may full no _ => ?_⟩, spec_acceptFrame, fun f q order => ⟨enterQueue_pairwise f order,
    enterQueue_eq_filter f order⟩, by decide, by decide, by decide⟩, spec_discarded⟩
  · have may : ¬ (c.rp.ring = .passive ∧ f.kind = .report) := by
      rintro ⟨_, h⟩
      rw [h] at kind
      simp at kind
    have full : 32 ≤ c.rp.txQueue.length := by rw [queue, List.length_append, List.length_singleton]; omega
    rw [rpOffer_of_full ring may full, queue, displaceable_append q kind report]
    dsimp only
    rw [List.dropLast_concat]
  · rw [rpOffer_of_full ring may full, displaceable_eq_none no]

/-! ## The grants at an event's end (R8, R152) -/

/-- Settles O31: each field stands in `still`, which the grants keep. -/
theorem grantsLeaveTheLineAlone : Obligations.GrantsLeaveTheLineAlone := by
  refine ⟨fun c => ?_, fun c => settle_busy⟩
  have kept {α : Type} (f : Chip → α) : f (still (settle c)) = f (still c) := by rw [still_settle]
  have pins : (settle c).pins = { c.pins with stopN := (settle c).pins.stopN } :=
    congrArg (fun p : Pins => { p with stopN := (settle c).pins.stopN }) (kept (·.pins))
  exact ⟨pins, kept (·.clock), kept (·.si), kept (·.st), kept (·.de), kept (·.fv), kept (·.tc.chans),
    kept (·.tc.positions), kept (·.rp.rxErr), kept (·.rp.txErr), kept (·.rp.ring), kept (·.rp.recovery), kept (·.rp.rx),
    kept (·.rp.overflow), kept (·.lh.recipes), kept (·.ag.mode), kept (·.ag.guards), kept (·.ma.routes),
    kept (·.ma.config), kept (·.ma.authority), kept (·.ma.assembly)⟩

/-! ## Alerts (R203, R204) -/

theorem TablesSized.pending {c : Chip} (h : TablesSized c) : c.ma.pending.length = 19 := by
  simp only [TablesSized, tableSizes, List.cons.injEq] at h
  tauto

theorem TablesSized.routes {c : Chip} (h : TablesSized c) : c.ma.routes.length = 19 := by
  simp only [TablesSized, tableSizes, List.cons.injEq] at h
  tauto

theorem raise_of_pending {k : AlertKind} {t : SubjectType} {w : Word} {c : Chip} {a : PendingAlert}
    (h : pendingAlert c k = some a) : raise k t w c = setAlert k (some { a with count := inc16 a.count }) c := by
  rw [raise, h]
  dsimp only
  rw [countAlert, h]

/-- A kind that joins the set is the one handed. -/
theorem pendingAlert_addAlert {k : AlertKind} (t : SubjectType) (w : Word) {c : Chip} (size : c.ma.pending.length = 19) :
    pendingAlert (addAlert k t w c) k =
      some { count := 1, subjectType := t, subject := w, line := c.clock.line, unsent := false } :=
  pendingAlert_set _ size

theorem raise_of_unrouted {k : AlertKind} {t : SubjectType} {w : Word} {c : Chip} (size : c.ma.pending.length = 19)
    (h : pendingAlert c k = none) (route : (routeOf c k).dest = none) : raise k t w c = addAlert k t w c := by
  have handed : handAlert k (addAlert k t w c) = (addAlert k t w c, false) := by
    have kept : (routeOf (addAlert k t w c) k).dest = none := route
    rw [handAlert, pendingAlert_addAlert t w size, kept]
  rw [raise, h]
  dsimp only
  rw [handed]

/-- A kind that joins the set and whose route names a destination is handed to RP; a discarded frame raises TX-OVERFLOW. -/
theorem raise_of_routed {k : AlertKind} {t : SubjectType} {w : Word} {c e : Chip} {d : Byte} {o : Offer}
    (size : c.ma.pending.length = 19) (h : pendingAlert c k = none) (route : (routeOf c k).dest = some d)
    (offer : rpOffer (alertFrame k { count := 1, subjectType := t, subject := w, line := c.clock.line, unsent := false } d
      (addAlert k t w c)) (addAlert k t w c) = (e, o)) :
    raise k t w c =
      let marked := setAlert k (some { count := 1, subjectType := t, subject := w, line := c.clock.line,
                                       unsent := decide (o ≠ .taken) })
        { e with ma := { e.ma with lastHanding := some e.clock.line } }
      if o = .overflow then raiseOverflow marked else marked := by
  have kept : (routeOf (addAlert k t w c) k).dest = some d := route
  have handed : handAlert k (addAlert k t w c) =
      (setAlert k (some { count := 1, subjectType := t, subject := w, line := c.clock.line, unsent := decide (o ≠ .taken) })
        { e with ma := { e.ma with lastHanding := some e.clock.line } }, decide (o = .overflow)) := by
    rw [handAlert, pendingAlert_addAlert t w size, kept]
    dsimp only
    rw [offer]
  rw [raise, h]
  dsimp only
  rw [handed]
  cases o with
  | overflow => rfl
  | taken | refused => rfl

/-- A table of 19 entries, read kind by kind. -/
theorem map_getD_index {α : Type} {l : List α} (a : α) (size : l.length = 19) :
    AlertKind.all.map (fun j => l.getD j.index a) = l := by
  have indices : AlertKind.all.map AlertKind.index = List.range 19 := rfl
  calc AlertKind.all.map (fun j => l.getD j.index a)
      = (AlertKind.all.map AlertKind.index).map (fun i => l.getD i a) := by rw [List.map_map]; rfl
    _ = (List.range l.length).map (fun i => l.getD i a) := by rw [indices, size]
    _ = l := List.ext_getElem (by simp) fun i h _ => by simp at h; simp [h]

/-- STOP_N is low exactly where some kind is pending whose route has its stop flag set (R204). -/
theorem stopLevel_eq {c : Chip} (sized : TablesSized c) :
    stopLevel c.ma.pending c.ma.routes =
      decide (∀ j ∈ AlertKind.all, ¬ ((pendingAlert c j).isSome = true ∧ (routeOf c j).stop = true)) := by
  have pairs : c.ma.pending.zip c.ma.routes = AlertKind.all.map fun j => (pendingAlert c j, routeOf c j) := by
    conv_lhs => rw [← map_getD_index none sized.pending, ← map_getD_index { dest := none, stop := false } sized.routes]
    exact List.zip_map' ..
  rw [stopLevel, pairs, Bool.eq_iff_iff]
  simp

/-- Settles O32: a kind that is pending, one with no destination, and one whose frame RP takes or discards. -/
theorem raisedAlertIsPending : Obligations.RaisedAlertIsPending := by
  intro k st w c sized
  refine ⟨fun a => raise_of_pending, raise_of_unrouted sized.pending, fun d e o h route offer kept => ?_,
    fun d e h route offer => ?_, stopLevel_eq sized⟩
  · rw [raise_of_routed sized.pending h route offer]
    dsimp only
    rw [if_neg kept]
    cases o with
    | overflow => exact absurd rfl kept
    | taken | refused => rfl
  · rw [raise_of_routed sized.pending h route offer]
    rfl

end Sys2Proof.Machine

/-! PROOFS. Sample intake: the matching entry, the timers of a channel, encoders; a value handed for sending. -/

namespace Sys2Proof.Machine

/-! ## A channel's dynamic state -/

theorem intakeChan_of_getElem? {c : Chip} {i : Nat} {k : IntakeChan} (h : c.si.chans[i]? = some k) : intakeChan c i = k := by
  rw [intakeChan, List.getD_eq_getElem?_getD, h, Option.getD_some]

/-- A channel in the table, changed by `modIntake`, is set to its changed self. -/
theorem modIntake_of_getElem? {c : Chip} {i : Nat} {k : IntakeChan} (f : IntakeDyn → IntakeDyn)
    (h : c.si.chans[i]? = some k) :
    modIntake i f c = { c with si := { c.si with chans := c.si.chans.set i { k with dyn := f k.dyn } } } := by
  have entry : c.si.chans.modify i (fun x => { x with dyn := f x.dyn }) = c.si.chans.set i { k with dyn := f k.dyn } := by
    rw [List.modify_eq_set_getElem?, h]
    rfl
  rw [modIntake, entry]

/-- An index that names no channel reads as one that has never been written. -/
theorem intakeChan_cases (c : Chip) (i : Nat) :
    (∃ k, c.si.chans[i]? = some k ∧ intakeChan c i = k) ∨ intakeChan c i = IntakeChan.power := by
  cases h : c.si.chans[i]? with
  | some k => exact .inl ⟨k, rfl, intakeChan_of_getElem? h⟩
  | none => exact .inr (by rw [intakeChan, List.getD_eq_getElem?_getD, h, Option.getD_none])

/-! ## Taking an item (R24, R25) -/

theorem takeItem_of_unmatched {it : Item} {c : Chip} (h : matchingEntry c it.key = none) : takeItem it c = c := by
  rw [takeItem, h]

/-- Settles O33: the entry that `findIdx?` finds is the lowest that matches; the acceptance is a law of its own. -/
theorem lowestMatchingEntryTakesItem : Obligations.LowestMatchingEntryTakesItem := by
  refine ⟨fun it c i k entry enabled hit lowest => ?_, fun it c no => ?_, fun k w suspect t d => ?_, spec_acceptItem,
    fun i before v w c => ⟨fun _ => rfl, rfl, rfl, rfl⟩⟩
  · have found : matchingEntry c it.key = some i := by
      obtain ⟨bound, here⟩ := List.getElem?_eq_some_iff.mp entry
      rw [matchingEntry, List.findIdx?_eq_some_iff_getElem]
      refine ⟨bound, by simp [here, enabled, keyMatches, hit], fun j below => ?_⟩
      have other := lowest j c.si.chans[j] below (List.getElem?_eq_getElem _)
      rw [Bool.and_eq_true, keyMatches, decide_eq_true_eq, not_and]
      exact other
    rw [takeItem, found]
    refine ⟨fun good => if_pos good, fun suspect => ?_, fun notGood notSuspect => ?_⟩
    · exact (if_neg (by rw [suspect]; decide)).trans (if_pos suspect)
    · exact (if_neg notGood).trans ((if_neg notSuspect).trans (modIntake_of_getElem? _ entry))
  · refine takeItem_of_unmatched (List.findIdx?_eq_none_iff.mpr fun m mem => ?_)
    rw [Bool.eq_false_iff, ne_eq, Bool.and_eq_true, keyMatches, decide_eq_true_eq, not_and]
    exact no m mem
  · simp only [acceptDyn, Bool.or_eq_true]
    rfl

/-! ## The timers of a channel (R31, R32) -/

theorem expireFreshness_of_due {i : Nat} {c : Chip} {k : IntakeChan} {t : Nat} (entry : c.si.chans[i]? = some k)
    (timer : k.dyn.freshTimer = some t) (due : t ≤ c.clock.line) :
    expireFreshness i c = tellFreshness i k.cfg.role .stale (raiseNat .staleInput .channel i { c with si := { c.si with
      chans := c.si.chans.set i { k with dyn := { k.dyn with
        fresh := .stale, freshTimer := none, staleTimer := some (t + k.cfg.staleTimeout), ref := none } } } }) := by
  unfold expireFreshness
  rw [intakeChan_of_getElem? entry]
  dsimp only
  rw [timer, lineDue, if_pos (decide_eq_true due), modIntake_of_getElem? _ entry, timer, Option.map_some]

theorem expireStaleHold_of_due {i : Nat} {c : Chip} {k : IntakeChan} {t : Nat} (entry : c.si.chans[i]? = some k)
    (timer : k.dyn.staleTimer = some t) (due : t ≤ c.clock.line) :
    expireStaleHold i c = tellFreshness i k.cfg.role .staleHeld { c with si := { c.si with
      chans := c.si.chans.set i { k with dyn := { k.dyn with fresh := .staleHeld, staleTimer := none } } } } := by
  unfold expireStaleHold
  rw [intakeChan_of_getElem? entry]
  dsimp only
  rw [timer, lineDue, if_pos (decide_eq_true due), modIntake_of_getElem? _ entry]

/-- A timer whose time, where it runs, is still to come is not due. -/
theorem lineDue_eq_false {c : Chip} {timer : Option Nat} (h : ∀ t, timer = some t → c.clock.line < t) :
    lineDue c timer = false := by
  cases timer with
  | none => rfl
  | some t => exact decide_eq_false (Nat.not_le.mpr (h t rfl))

theorem expireFreshness_of_early {i : Nat} {c : Chip}
    (h : ∀ k t, c.si.chans[i]? = some k → k.dyn.freshTimer = some t → c.clock.line < t) : expireFreshness i c = c := by
  have early : lineDue c (intakeChan c i).dyn.freshTimer = false := by
    obtain ⟨k, entry, chan⟩ | chan := intakeChan_cases c i
    · rw [chan]; exact lineDue_eq_false fun t => h k t entry
    · rw [chan]; rfl
  exact if_neg (by simp [early])

theorem expireStaleHold_of_early {i : Nat} {c : Chip}
    (h : ∀ k t, c.si.chans[i]? = some k → k.dyn.staleTimer = some t → c.clock.line < t) : expireStaleHold i c = c := by
  have early : lineDue c (intakeChan c i).dyn.staleTimer = false := by
    obtain ⟨k, entry, chan⟩ | chan := intakeChan_cases c i
    · rw [chan]; exact lineDue_eq_false fun t => h k t entry
    · rw [chan]; rfl
  exact if_neg (by simp [early])

/-- Settles O36: the two timers, due and not; zones and tellings are laws of their own. -/
theorem silentChannelBecomesStale : Obligations.SilentChannelBecomesStale := by
  refine ⟨fun i s run => ?_, spec_zones, spec_tellings⟩
  rw [exec_of_running (i := .freshnessTimerExpiry i) rfl run, exec_of_running (i := .staleHoldTimerExpiry i) rfl run]
  refine ⟨fun k t entry timer due => ?_, fun k t entry timer due => ?_, fun early => ?_, fun early => ?_⟩
  · rw [expireFreshness_of_due entry timer due]
  · rw [expireStaleHold_of_due entry timer due]
  · rw [expireFreshness_of_early early]
  · rw [expireStaleHold_of_early early]

/-! ## Encoders (R37, R38) -/

/-- A 16-bit difference read as signed: negative from 32,768 on. -/
theorem toInt_sub_of_diff {count ref : BitVec 16} {d : Nat} (h : d = (count.toNat + 65536 - ref.toNat) % 65536) :
    (count - ref).toInt = if d < 32768 then (d : Int) else (d : Int) - 65536 := by
  have := ref.isLt
  have value : (count - ref).toNat = d := by
    rw [BitVec.toNat_sub, h]
    congr 1
    omega
  rw [BitVec.toInt_eq_toNat_cond, value]
  split
  · rw [if_pos (by omega)]
  · rw [if_neg (by omega)]
    rfl

theorem encoderItem_of_ref {i : Nat} {belt : Option Belt} {count ref : BitVec 16} {c : Chip} {k : IntakeChan}
    (entry : c.si.chans[i]? = some k) (known : k.dyn.ref = some ref) :
    encoderItem i belt count c =
      if (count - ref).toInt = 0 then c
      else if (count - ref).toInt < 0 then raiseNat .reverse .channel i c
      else
        let c1 := { c with si := { c.si with
          chans := c.si.chans.set i { k with dyn := { k.dyn with ref := some count } } } }
        advanceSource i (count - ref).toInt.toNat
          (belt.elim c1 fun b => advanceStage b i (count - ref).toInt.toNat c1) := by
  unfold encoderItem
  rw [intakeChan_of_getElem? entry, known, modIntake_of_getElem? _ entry]
  cases belt with
  | none => rfl
  | some b => rfl

/-- Settles O37: with no reference, and the three ranges of the difference; what a delta does is laws of its own. -/
theorem encoderHandsPositiveDeltas : Obligations.EncoderHandsPositiveDeltas := by
  refine ⟨fun i belt count c k entry => ⟨fun absent => ?_, fun ref d known diff => ⟨fun zero => ?_,
    fun positive small e he => ?_, fun large => ?_⟩⟩, spec_cutMass, spec_cut, spec_advanceStage, spec_crossings,
    spec_stageEnds, spec_advanceSource, spec_segmentPool⟩
  · unfold encoderItem
    rw [intakeChan_of_getElem? entry, absent]
    exact modIntake_of_getElem? _ entry
  all_goals
    have delta := toInt_sub_of_diff diff
    have bound : d < 65536 := by rw [diff]; exact Nat.mod_lt _ (by decide)
  · rw [encoderItem_of_ref entry known, delta, if_pos (by rw [if_pos (by omega)]; omega)]
  · rw [if_pos small] at delta
    refine ⟨?_, fun b => ?_⟩
    all_goals rw [encoderItem_of_ref entry known, delta, if_neg (by omega), if_neg (by omega), ← he]
    all_goals rfl
  · rw [if_neg (by omega)] at delta
    rw [encoderItem_of_ref entry known, delta, if_neg (by omega), if_pos (by omega)]

/-! ## A value handed for sending (R53, R191) -/

/-- Settles O38: the four ways of `sendValue`, and of `agConfirm` for a value taken. -/
theorem sentValueHasItsOutcome : Obligations.SentValueHasItsOutcome := by
  intro n key v src serves timeout c
  refine ⟨fun ring => ?_, fun ring mode => ?_, fun d taken ring mode handed => ?_⟩
  · rw [sendValue, if_pos ring]
  · rw [sendValue, if_neg ring, agOwn, if_neg mode]
    rfl
  · have own : agOwn key v c = (d, taken) := by rw [agOwn, if_pos mode, handed]
    rw [sendValue, if_neg ring, own]
    refine ⟨fun no => by rw [no], fun yes none => ?_, fun yes echo room => ?_, fun yes echo full => ?_⟩
    all_goals subst yes
    all_goals dsimp only
    · rw [agConfirm, none]
    · obtain ⟨k, found⟩ := Option.isSome_iff_exists.mp echo
      rw [agConfirm, found]
      exact if_pos room
    · obtain ⟨k, found⟩ := Option.isSome_iff_exists.mp echo
      rw [agConfirm, found]
      exact if_neg (Nat.not_lt.mpr full)

end Sys2Proof.Machine

/-! PROOFS. What is due on a millisecond source; the credit of a segment; the two decision verdicts. -/

namespace Sys2Proof.Machine

/-! ## The millisecond sources (R42, R47) -/

/-- A fold whose steps change nothing. -/
theorem foldl_eq_of_fixed {α β : Type} {f : β → α → β} {b : β} {l : List α} (h : ∀ a ∈ l, f b a = b) :
    l.foldl f b = b := by
  induction l with
  | nil => rfl
  | cons a l ih =>
    rw [List.foldl_cons, h a List.mem_cons_self]
    exact ih fun x mem => h x (List.mem_cons_of_mem _ mem)

/-- A fold in which one element alone changes something. -/
theorem foldl_eq_of_single {α β : Type} {f : β → α → β} {b : β} {l : List α} {a : α} (mem : a ∈ l) (once : l.Nodup)
    (before : ∀ x ∈ l, x ≠ a → f b x = b) (after : ∀ x ∈ l, x ≠ a → f (f b a) x = f b a) :
    l.foldl f b = f b a := by
  obtain ⟨pre, post, rfl⟩ := List.append_of_mem mem
  have distinct : a ∉ pre ++ post := (List.nodup_cons.mp (List.nodup_middle.mp once)).1
  rw [List.mem_append, not_or] at distinct
  rw [List.foldl_append, List.foldl_cons,
    foldl_eq_of_fixed (b := b) fun x hx => before x (by simp [hx]) fun e => distinct.1 (e ▸ hx),
    foldl_eq_of_fixed fun x hx => after x (by simp [hx]) fun e => distinct.2 (e ▸ hx)]

theorem trackChan_of_getElem? {c : Chip} {n : Nat} {k : TrackChan} (h : c.tc.chans[n]? = some k) : trackChan c n = k := by
  rw [trackChan, List.getD_eq_getElem?_getD, h, Option.getD_some]

theorem modTrack_of_getElem? {c : Chip} {n : Nat} {k : TrackChan} (f : TrackDyn → TrackDyn)
    (h : c.tc.chans[n]? = some k) :
    modTrack n f c = { c with tc := { c.tc with chans := c.tc.chans.set n { k with dyn := f k.dyn } } } := by
  have entry : c.tc.chans.modify n (fun x => { x with dyn := f x.dyn }) = c.tc.chans.set n { k with dyn := f k.dyn } := by
    rw [List.modify_eq_set_getElem?, h]
    rfl
  rw [modTrack, entry]

theorem trackChan_modTrack_of_ne {n m : Nat} (f : TrackDyn → TrackDyn) (c : Chip) (h : m ≠ n) :
    trackChan (modTrack n f c) m = trackChan c m := by
  simp only [trackChan, modTrack, List.getD_eq_getElem?_getD, List.getElem?_modify, if_neg (Ne.symm h), id_map']

/-- A channel with no reached point is left alone, however long it is handled. -/
theorem handlePoints_of_none {n : Nat} {c : Chip} (fire : dueFire c n = none) (close : dueClose c n = none) (fuel : Nat) :
    handlePoints n fuel c = c := by
  cases fuel with
  | zero => rfl
  | succ fuel => rw [handlePoints, fire, close]

/-- Nothing is due on channel `n` as a channel of the millisecond source. -/
def QuietMilliseconds (c : Chip) (n : Nat) : Prop :=
  (trackChan c n).cfg.source = .milliseconds → dueIntervals c n = 0 ∧ dueFire c n = none ∧ dueClose c n = none

/-- What the sweep of the millisecond sources does at one channel. -/
def sweepMilliseconds (c : Chip) (n : Nat) : Chip :=
  if (trackChan c n).cfg.source = .milliseconds then handleChannel n (fireIntervals n (dueIntervals c n) c) else c

theorem handleMilliseconds_eq (c : Chip) : handleMilliseconds c = (List.range 8).foldl sweepMilliseconds c := rfl

theorem sweepMilliseconds_of_quiet {c : Chip} {n : Nat} (h : QuietMilliseconds c n) : sweepMilliseconds c n = c := by
  by_cases source : (trackChan c n).cfg.source = .milliseconds
  · obtain ⟨intervals, fire, close⟩ := h source
    rw [sweepMilliseconds, if_pos source, intervals]
    exact handlePoints_of_none fire close 18
  · exact if_neg source

theorem handleMilliseconds_of_not_due {c : Chip} (h : millisecondDue c = false) : handleMilliseconds c = c := by
  refine foldl_eq_of_fixed fun n mem => sweepMilliseconds_of_quiet fun source => ?_
  have none := (not_congr (spec_milliseconds.1 c)).mp (by rw [h]; decide)
  push Not at none
  obtain ⟨intervals, fire, close⟩ := none n (List.mem_range.mp mem) source
  exact ⟨by omega, fire, close⟩

/-- A channel that takes no starts has no fire point. -/
theorem dueFire_of_takesStarts {c : Chip} {n : Nat} (h : takesStarts (trackChan c n) = false) : dueFire c n = none := by
  unfold dueFire
  dsimp only
  split
  · rw [h]
    rfl
  · rfl

/-- A fire event of a channel that is nobody's master is its fire count alone. -/
theorem fireEvent_of_no_slaves {n : Nat} {point : Word} {c : Chip}
    (h : ∀ m, m < 8 → triggerOf (trackChan c m) ≠ some (.master n)) :
    fireEvent n point c = modTrack n (fun d => { d with fires := wrap16 d.fires }) c := by
  refine foldl_eq_of_fixed fun m mem => if_neg ?_
  have trigger : triggerOf (trackChan (modTrack n (fun d => { d with fires := wrap16 d.fires }) c) m) =
      triggerOf (trackChan c m) := by rw [triggerOf, triggerOf, trackChan_modTrack_cfg]
  rw [trigger]
  exact h m (List.mem_range.mp mem)

/-- The sweep at a RUNNING INTERVAL channel that is due once and is nobody's master. -/
theorem sweepMilliseconds_of_interval {c : Chip} {n : Nat} {k : TrackChan} (entry : c.tc.chans[n]? = some k)
    (alone : ∀ m, m < 8 → triggerOf (trackChan c m) ≠ some (.master n)) (mode : k.cfg.mode = .interval)
    (source : k.cfg.source = .milliseconds) (running : k.dyn.state = .running)
    (due : reached c.clock.ms k.dyn.nextFire = true) (once : (c.clock.ms - k.dyn.nextFire).toNat < k.cfg.length) :
    sweepMilliseconds c n = modTrack n (fun d => { d with
      nextFire := d.nextFire + BitVec.ofNat 32 k.cfg.length, fires := wrap16 d.fires }) c := by
  have chan := trackChan_of_getElem? entry
  have one : dueIntervals c n = 1 := by
    rw [dueIntervals, chan]
    exact (if_pos ⟨mode, running, by omega, due⟩).trans (by rw [Nat.div_eq_of_lt once])
  have fired : fireIntervals n 1 c = modTrack n (fun d => { d with
      nextFire := d.nextFire + BitVec.ofNat 32 k.cfg.length, fires := wrap16 d.fires }) c := by
    rw [fireIntervals, fireIntervals, chan, fireEvent_of_no_slaves, modTrack_modTrack]
    intro m below
    rw [triggerOf, trackChan_modTrack_cfg, ← triggerOf]
    exact alone m below
  have cfg : ∀ f, (trackChan (modTrack n f c) n).cfg = k.cfg := fun f => by rw [trackChan_modTrack_cfg, chan]
  rw [sweepMilliseconds, if_pos (by rw [chan, source]), one, fired]
  refine handlePoints_of_none (dueFire_of_takesStarts ?_) (if_neg ?_) 18
  · rw [takesStarts, cfg, mode]
    rfl
  · rw [cfg, mode]
    exact fun h => absurd h.1 (by decide)

theorem handleMilliseconds_of_interval {c : Chip} {n : Nat} {k : TrackChan} (below : n < 8) (entry : c.tc.chans[n]? = some k)
    (others : ∀ m, m < 8 → m ≠ n → (trackChan c m).cfg.source ≠ .milliseconds)
    (alone : ∀ m, m < 8 → triggerOf (trackChan c m) ≠ some (.master n)) (mode : k.cfg.mode = .interval)
    (source : k.cfg.source = .milliseconds) (running : k.dyn.state = .running)
    (due : reached c.clock.ms k.dyn.nextFire = true) (once : (c.clock.ms - k.dyn.nextFire).toNat < k.cfg.length) :
    handleMilliseconds c = { c with tc := { c.tc with chans := c.tc.chans.set n { k with dyn := { k.dyn with
      nextFire := k.dyn.nextFire + BitVec.ofNat 32 k.cfg.length, fires := (k.dyn.fires + 1) % 65536 } } } } := by
  have here := sweepMilliseconds_of_interval entry alone mode source running due once
  calc handleMilliseconds c
      = sweepMilliseconds c n := by
        rw [handleMilliseconds_eq]
        refine foldl_eq_of_single (f := sweepMilliseconds) (List.mem_range.mpr below) List.nodup_range (fun m mem ne => ?_) (fun m mem ne => ?_)
        · exact if_neg (others m (List.mem_range.mp mem) ne)
        · refine if_neg ?_
          rw [here, trackChan_modTrack_of_ne _ _ ne]
          exact others m (List.mem_range.mp mem) ne
    _ = _ := by rw [here, modTrack_of_getElem? _ entry]; rfl

/-- Settles O39: nothing due, something due, and one INTERVAL channel alone; the rest is laws of their own. -/
theorem millisecondPointFiresInterval : Obligations.MillisecondPointFiresInterval := by
  refine ⟨⟨fun s run idle => ?_, fun s run _ => exec_of_running (i := .millisecondPointDue) rfl run,
    fun n s k run below entry others alone mode source running due once => ?_⟩, spec_starts, spec_startNow,
    spec_fireEvent, spec_duePoints, spec_fires, spec_gate, spec_pulseOutcome, spec_reports, spec_sendNone, spec_close,
    spec_markers, spec_captures, spec_cutChannels, spec_milliseconds, spec_handleSlaves, spec_markerItem, spec_fireCheck⟩
  · rw [exec_of_running (i := .millisecondPointDue) rfl run, handleMilliseconds_of_not_due idle]
  · rw [exec_of_running (i := .millisecondPointDue) rfl run,
      handleMilliseconds_of_interval below entry others alone mode source running due once]

/-! ## Credits (R79, R83, R84) -/

/-- The lethal rate, where a number has the three properties that fix it. -/
theorem lethalRate_eq {r : Recipe} {temp : Int} {rate : Nat} (cold : temp < r.tbase → rate = 0)
    (inside : r.tbase ≤ temp → temp - r.tbase ≤ 315 →
      ∃ i f : Nat, temp - r.tbase = (5 * i + f : Nat) ∧ f < 5 ∧
        rate = r.table.getD i 0 + (r.table.getD (i + 1) 0 - r.table.getD i 0) * f / 5)
    (above : 315 < temp - r.tbase → rate = r.table.getD 63 0) :
    lethalRate r temp = (rate, decide (315 < temp - r.tbase)) := by
  unfold lethalRate
  dsimp only
  by_cases low : temp - r.tbase < 0
  · rw [if_pos low, cold (by omega), decide_eq_false (by omega)]
  · by_cases high : temp - r.tbase ≤ 315
    · obtain ⟨i, f, offset, small, value⟩ := inside (by omega) high
      have steps : (temp - r.tbase).toNat = 5 * i + f := by rw [offset, Int.toNat_natCast]
      have whole : (temp - r.tbase).toNat / 5 = i := by omega
      have part : (temp - r.tbase).toNat % 5 = f := by omega
      rw [if_neg low, if_pos high, whole, part, value, decide_eq_false (by omega)]
    · rw [if_neg low, if_neg high, above (by omega), decide_eq_true (by omega)]

/-- Settles O40: the credit of one segment; zone updates and the entry of a zone are laws of their own. -/
theorem creditAddsRateTimesInterval : Obligations.CreditAddsRateTimesInterval := by
  refine ⟨fun z id temp ct c g r rate interval found recipe time cold inside above d result => ?_, spec_zoneUpdates⟩
  subst recipe time result
  rw [creditSegment, found]
  dsimp only
  rw [lethalRate_eq cold inside above]
  exact ⟨fun short => if_neg (Nat.not_lt.mpr short), fun long => if_pos long⟩

/-! ## The verdicts (R89, R104, R105) -/

theorem holdCounted_of_new {c : Chip} {id : Nat} {g : Segment} {r : HoldReason} (count : Fv → Fv)
    (found : segmentAt c id = some g) (new : g.hold.has r = false) :
    holdCounted id r count c = modFv count (holdSegment id r c) := by
  rw [holdCounted, found]
  exact if_neg (by rw [new]; decide)

theorem holdCounted_of_held {c : Chip} {id : Nat} {g : Segment} {r : HoldReason} (count : Fv → Fv)
    (found : segmentAt c id = some g) (held : g.hold.has r = true) : holdCounted id r count c = c := by
  rw [holdCounted, found]
  exact if_pos held

/-- Settles O41: the two verdicts; diverts and the freezer's checks are laws of their own. -/
theorem decisionPointsJudgeSegments : Obligations.DecisionPointsJudgeSegments := by
  refine ⟨⟨fun c g => decide_eq_true_iff, fun c g found => ⟨fun absent new => ?_, fun absent held => ?_,
    fun w warmest warm => ?_, fun w warmest cool => ?_⟩⟩, spec_diverts, spec_divertOutcome, spec_freezerChecks,
    spec_freezerItems, spec_freezerLimit, spec_chillInput, spec_settleStart⟩
  · rw [freezeVerdict, absent]
    exact congrArg (·, true) (holdCounted_of_new _ found new)
  · rw [freezeVerdict, absent]
    exact congrArg (·, true) (holdCounted_of_held _ found held)
  · rw [freezeVerdict, warmest]
    exact if_pos warm
  · rw [freezeVerdict, warmest]
    exact if_neg (Int.not_lt.mpr cool)

end Sys2Proof.Machine

/-! PROOFS. The decision of a bag at its deadline; the grants of the SPI master. -/

namespace Sys2Proof.Machine

/-! ## Reject reasons (R135) -/

/-- The bit of a reject reason, and no other, tells whether its check fails. -/
theorem RejectReason.getLsbD_when (r : RejectReason) (fails : Bool) (i : Nat) :
    (r.when fails).getLsbD i = (decide (i = r.bit) && fails) := by
  cases fails with
  | false => rw [Bool.and_false]; exact BitVec.getLsbD_zero
  | true =>
    have small : r.bit < 8 := by cases r <;> decide
    rw [Bool.and_true]
    change (BitVec.ofNat 8 (2 ^ r.bit)).getLsbD i = _
    rw [BitVec.getLsbD_ofNat, Nat.testBit_two_pow]
    by_cases same : i = r.bit
    · simp [same, small]
    · simp [same, Ne.symm same]

/-- The checks of a bag, by the bit of the reason that each places. -/
def failedChecks (r : Recipe) (b : Slot) : List Bool :=
  [!fieldsComplete r b, b.weight.any fun w : Nat => decide ((w : Int) - r.tare < (r.bagTarget : Int) - r.under),
   b.weight.any fun w : Nat => decide ((r.bagTarget : Int) + r.overweight < (w : Int) - r.tare), b.codeFail == some true,
   b.metalFail == some true, decide (b.conflict ≠ 0), false, b.tail]

theorem getLsbD_rejectReasons (r : Recipe) (b : Slot) (i : Nat) (h : i < 8) :
    (rejectReasons r b).getLsbD i = (failedChecks r b).getD i false := by
  unfold rejectReasons
  simp only [BitVec.getLsbD_or, RejectReason.getLsbD_when]
  have cases8 : i = 0 ∨ i = 1 ∨ i = 2 ∨ i = 3 ∨ i = 4 ∨ i = 5 ∨ i = 6 ∨ i = 7 := by omega
  rcases cases8 with rfl | rfl | rfl | rfl | rfl | rfl | rfl | rfl <;> cases weight : b.weight <;>
    simp [RejectReason.bit, failedChecks, weight]

theorem fieldsComplete_eq_false_iff (r : Recipe) (b : Slot) :
    fieldsComplete r b = false ↔ (r.needWeight = true ∧ b.weight = none) ∨
      (r.needCode = true ∧ b.codeFail = none) ∨ (r.needMetal = true ∧ b.metalFail = none) := by
  simp only [fieldsComplete, Bool.and_eq_false_iff, Bool.or_eq_false_iff, Bool.not_eq_false', Option.isSome_eq_false_iff,
    Option.isNone_iff_eq_none, or_assoc]

/-! ## The deadline (R134) -/

theorem bagDue_iff {c : Chip} {k : Nat} : bagDue c k = true ↔
    ∃ b, slotAt c k = some b ∧ b.state = .gathering ∧ reached c.clock.ms b.deadline = true := by
  unfold bagDue
  cases slotAt c k with
  | none => simp
  | some b => simp

theorem decideBag_of_gathering {k : Nat} {c : Chip} {b : Slot} (found : slotAt c k = some b) (state : b.state = .gathering)
    {reasons : Byte} (h : reasons = rejectReasons (recipeOfLot c b.lot) b) {d : Chip}
    (decided : d = modDecisions (fun e => e.slot == some k)
      (fun e => { e with decision := if reasons = 0 then .accepted else .rejected })
      (modSlot k (fun x => { x with
          decision := if reasons = 0 then .accepted else .rejected, reasons := reasons, order := c.ba.serial,
          record := some (makeRecord b (decide (reasons ≠ 0)) reasons c) })
        { c with ba := { c.ba with serial := c.ba.serial + 1 } })) :
    decideBag k c = if reasons = 0 then settleAccepted k d else settleRejected k d := by
  subst decided
  rw [decideBag, found]
  dsimp only
  rw [if_pos state, ← h]
  by_cases ok : reasons = 0
  · simp only [ok, ne_eq, not_true_eq_false, decide_false, if_true, Bool.false_eq_true, if_false]
    rfl
  · simp only [ok, ne_eq, not_false_eq_true, decide_true, if_true, if_false]
    rfl

/-- Settles O43: a bag that is due, one that is not, and the bits of the reasons; the rest is laws of their own. -/
theorem bagIsDecidedAtItsDeadline : Obligations.BagIsDecidedAtItsDeadline := by
  refine ⟨⟨fun k s b run found state due reasons d value decided => ?_, fun k s run early => ?_, fun r b => ?_⟩,
    spec_newBag, spec_bagSteps, spec_draw, spec_contributions, spec_settlement, spec_settleRejected, spec_pallets,
    spec_slotsInOrder, spec_bagOutcome, spec_bagRecord, spec_decideBag⟩
  · rw [exec_of_running (i := .bagDeadline k) rfl run, if_pos (bagDue_iff.mpr ⟨b, found, state, due⟩),
      decideBag_of_gathering found state value decided]
  · rw [exec_of_running (i := .bagDeadline k) rfl run, if_neg fun due => ?_]
    obtain ⟨b, found, state, late⟩ := bagDue_iff.mp due
    obtain other | notDue := early b found
    · exact other state
    · exact absurd late (by rw [notDue]; decide)
  · have bit := getLsbD_rejectReasons r b
    rw [bit 0 (by decide), bit 1 (by decide), bit 2 (by decide), bit 3 (by decide), bit 4 (by decide), bit 5 (by decide),
      bit 6 (by decide), bit 7 (by decide)]
    refine ⟨(Bool.not_eq_true' _).to_iff.trans (fieldsComplete_eq_false_iff r b), ?_, ?_, ?_, ?_, ?_, ?_, ?_⟩
    all_goals simp [failedChecks, Option.any_eq_true]

/-! ## The grants (R152) -/

/-- The answer of a request leaves the trace memory alone. -/
theorem endRequest_tm (r : Request) (st : Status) (ws : List Word) (c : Chip) : (endRequest r st ws c).tm = c.tm :=
  congrArg Prod.fst (tmv_foldl (fun d k => tmv_rpHand (answerPart r st ws false k) d) _ c)

theorem spiGrant_of_busy {c : Chip} {op : SpiOp} (busy : c.tm.spi = some op) : spiGrant c = c := by
  rw [spiGrant, busy]

/-- With no read waiting, a free master is granted to the work of the trace memory. -/
theorem spiGrant_of_no_read {c : Chip} (free : c.tm.spi = none) (up : c.tm.restart = none)
    (noRead : c.tm.readWaiting = none) : spiGrant c = grantWork c := by
  rw [spiGrant, free, up, noRead]

/-- After another kind of operation, a waiting read goes first. -/
theorem spiGrant_of_read_first {c : Chip} {p : Nat} (free : c.tm.spi = none) (up : c.tm.restart = none)
    (waits : c.tm.readWaiting = some p) (turn : c.tm.lastWasRead = false) :
    spiGrant c = if (grantRead p c).tm.spi.isSome then grantRead p c else grantWork (grantRead p c) := by
  rw [spiGrant, free, up, waits]
  exact if_pos turn

/-- After a read, the work of the trace memory goes first. -/
theorem spiGrant_of_work_first {c : Chip} {p : Nat} (free : c.tm.spi = none) (up : c.tm.restart = none)
    (waits : c.tm.readWaiting = some p) (turn : c.tm.lastWasRead = true) :
    spiGrant c = if (grantWork c).tm.spi.isSome then grantWork c else grantRead p (grantWork c) := by
  rw [spiGrant, free, up, waits]
  exact if_neg (by rw [turn]; decide)

/-- The read of a place that is not PENDING takes the master. -/
theorem grantRead_of_not_pending {c : Chip} {p : Nat} (h : (placeAt c p).state ≠ .pending) :
    grantRead p c = { c with tm := { c.tm with
      readWaiting := none, spi := some (.read p (placeAt c p)), lastWasRead := true } } := by
  have : pendingWordsOf p c = none := if_neg h
  rw [grantRead, this]
  rfl

/-- The read of a PENDING place is answered from the write queue. -/
theorem grantRead_of_pending {c : Chip} {p : Nat} {ws : List Word} {r : Request} {q : List Request}
    (h : pendingWordsOf p c = some ws) (phase : c.ma.phase = .reading) (queue : c.ma.queue = r :: q) :
    grantRead p c = endRequest r .ok ws { c with tm := { c.tm with readWaiting := none } } := by
  rw [grantRead, h]
  dsimp only
  rw [answerRead, phase, queue]

theorem grantWork_of_write {c : Chip} {q : Placed} {rest : List Placed} (h : c.tm.writeQueue = q :: rest) :
    grantWork c = { c with tm := { c.tm with spi := some (.write q.place q.record), lastWasRead := false } } := by
  rw [grantWork, h]
  rfl

theorem nextRewrite_of_none_stored {c : Chip} (h : ∀ x ∈ c.tm.marks, (placeAt c x).state ≠ .stored) :
    nextRewrite c = none := by
  refine List.findSome?_eq_none_iff.mpr fun x mem => ?_
  split
  · next stored _ => exact absurd stored (h x mem)
  · rfl

theorem grantWork_of_idle {c : Chip} (noWrite : c.tm.writeQueue = [])
    (noRewrite : ∀ x ∈ c.tm.marks, (placeAt c x).state ≠ .stored) : grantWork c = c := by
  rw [grantWork, noWrite, nextRewrite_of_none_stored noRewrite]

/-- The first mark whose place is STORED is rewritten. -/
theorem grantWork_of_rewrite {c : Chip} {before after : List Nat} {p : Nat} {f : PlaceFields}
    (noWrite : c.tm.writeQueue = []) (marks : c.tm.marks = before ++ p :: after)
    (passed : ∀ x ∈ before, (placeAt c x).state ≠ .stored)
    (stored : placeAt c p = { state := .stored, fields := some f }) :
    grantWork c = { c with tm := { c.tm with
      marks := c.tm.marks.filter (fun x => decide (x ≠ p)), spi := some (.rewrite p f.hold), lastWasRead := false } } := by
  have next : nextRewrite c = some (p, f.hold) := by
    unfold nextRewrite
    rw [marks, List.findSome?_append, List.findSome?_eq_none_iff.mpr fun x mem => ?_, Option.none_or,
      List.findSome?_cons, stored]
    split
    · next found _ => exact absurd found (passed x mem)
    · rfl
  rw [grantWork, noWrite, next]
  rfl

/-- What a waiting read leaves to the trace memory's own work: none waits, or the last operation was a read. -/
theorem spiGrant_of_work {c d : Chip} {op : SpiOp} (free : c.tm.spi = none) (up : c.tm.restart = none)
    (turn : c.tm.readWaiting = none ∨ c.tm.lastWasRead = true) (work : grantWork c = d) (busy : d.tm.spi = some op) :
    spiGrant c = d := by
  cases waits : c.tm.readWaiting with
  | none => rw [spiGrant_of_no_read free up waits, work]
  | some p =>
    have last : c.tm.lastWasRead = true := turn.resolve_left (by rw [waits]; exact Option.some_ne_none p)
    rw [spiGrant_of_work_first free up waits last, work, if_pos (by rw [busy]; rfl)]

/-- Settles O45: one case for each kind of grant; the waiting and the restart's grants are laws of their own. -/
theorem spiMasterGranted : Obligations.SpiMasterGranted := by
  refine ⟨⟨fun c op busy => spiGrant_of_busy busy, fun c free up => ⟨fun p waits turn place => ?_,
    fun p ws r q waits turn words phase queue => ?_, fun q rest turn writes => ?_,
    fun before after p f turn noWrite marks passed stored => ?_, fun p waits turn noWrite noRewrite place => ?_,
    fun noRead noWrite noRewrite => ?_⟩⟩, spec_whenWaiting, spec_restartGrants⟩
  · rw [spiGrant_of_read_first free up waits turn, grantRead_of_not_pending place]
    rfl
  · have same := endRequest_tm r .ok ws { c with tm := { c.tm with readWaiting := none } }
    have stays : (endRequest r .ok ws { c with tm := { c.tm with readWaiting := none } }).tm.spi = none := by
      rw [same, free]
    rw [spiGrant_of_read_first free up waits turn, grantRead_of_pending words phase queue,
      if_neg (by rw [stays]; decide), spiGrant_of_no_read stays (by rw [same, up]) (by rw [same])]
  · exact spiGrant_of_work free up turn (grantWork_of_write writes) rfl
  · exact spiGrant_of_work free up turn (grantWork_of_rewrite noWrite marks passed stored) rfl
  · rw [spiGrant_of_work_first free up waits turn, grantWork_of_idle noWrite noRewrite,
      if_neg (by rw [free]; decide), grantRead_of_not_pending place]
  · rw [spiGrant_of_no_read free up noRead, grantWork_of_idle noWrite noRewrite]

end Sys2Proof.Machine

/-! PROOFS. The completions of the trace memory's operations. -/

namespace Sys2Proof.Machine

/-! ## What a place holds after a store (R150, R153) -/

theorem xorMask_nil (bs : List Byte) : xorMask bs [] = bs := by
  cases bs with
  | nil => rfl
  | cons b bs => rfl

theorem length_beBytes (n k : Nat) : (beBytes n k).length = k := by
  induction k with
  | zero => rfl
  | succ k ih => rw [beBytes, List.length_cons, ih]

theorem length_recordBytes (r : BagRecord) : r.bytes.length = 64 := by
  simp only [BagRecord.bytes, List.length_append, length_beBytes, List.length_flatMap, List.length_cons, List.length_nil]
  rw [List.map_congr_left (g := fun _ => 5) fun i _ => ?_]
  · rfl
  · split
    all_goals simp only [List.length_append, length_beBytes]

theorem length_recordCodes (bs : List Byte) : (recordCodes bs).length = 8 := by
  rw [recordCodes, recordWords, List.length_map, List.length_map, List.length_range]

theorem readAll_writeAll {a : Nat} {bs : List Byte} {m : Memory} (w : Memory.wf m = true) :
    Memory.readAll (Memory.writeAll a bs m) a bs.length = bs := by
  refine List.ext_getElem (by rw [Memory.readAll, List.length_map, List.length_range]) fun i _ inside => ?_
  simp only [Memory.readAll, List.getElem_map, List.getElem_range]
  rw [Memory.read_writeAll_inside w inside, List.getD_eq_getElem?_getD, List.getElem?_eq_getElem inside, Option.getD_some]

theorem readAll_writeAll_below {a x n : Nat} {bs : List Byte} {m : Memory} (below : x + n ≤ a) :
    Memory.readAll (Memory.writeAll a bs m) x n = Memory.readAll m x n := by
  refine List.map_congr_left fun i mem => ?_
  have := List.mem_range.mp mem
  exact read_writeAll_of_outside bs m (by omega)

/-- A place's record and codes, stored, read back as they were sent: the codes lie above every place. -/
theorem readBack_storePlace {p : Nat} {bs codes : List Byte} {m : Memory} (below : p < 1024) (w : Memory.wf m = true)
    (record : bs.length = 64) (eight : codes.length = 8) :
    placeBytes (storePlace p (bs ++ codes) m) p = bs ∧ placeCodes (storePlace p (bs ++ codes) m) p = codes := by
  have first : (bs ++ codes).take 64 = bs := by rw [← record, List.take_left]
  have rest : ((bs ++ codes).drop 64).take 8 = codes := by
    rw [← record, List.drop_left, ← eight, List.take_length]
  rw [storePlace, first, rest]
  constructor
  · rw [placeBytes, readAll_writeAll_below (by rw [placeAddr, codeAddr]; omega)]
    exact record ▸ readAll_writeAll w
  · rw [placeCodes]
    exact eight ▸ readAll_writeAll (Memory.writeAll_wf w)

/-! ## A write (R153) -/

/-- A place write by its two results: the memory stored, and whether the read-back equals what was sent. -/
theorem writeMemory_eq {p : Nat} {bs a b : List Byte} {m n : Memory} {same : Bool}
    (stores : n = storePlace p (xorMask (bs ++ recordCodes bs) a) m)
    (verify : decide (xorMask (placeBytes n p ++ placeCodes n p) b = bs ++ recordCodes bs) = same) :
    writeMemory p bs a b m = (n, same) := by
  subst stores verify
  rfl

theorem exec_placeWriteComplete_of_other {s : State} (a b : List Byte) (other : ∀ p r, s.chip.tm.spi ≠ some (.write p r)) :
    exec (.placeWriteComplete a b) s = .next s := by
  change execPlaceWriteComplete a b s = _
  unfold execPlaceWriteComplete
  split
  next p r _ op => exact absurd op (other p r)
  next => rfl

theorem exec_placeWriteComplete_of_inTable {s : State} {p : Nat} {r : BagRecord} {a b : List Byte} {m : Memory}
    {same : Bool} (run : s.chip.pins.running = true) (op : s.chip.tm.spi = some (.write p r)) (below : p < 1024)
    (work : writeMemory p r.bytes a b s.mem = (m, same)) :
    exec (.placeWriteComplete a b) s = .next { s.after (finishWrite same p r s.chip) with mem := m } := by
  rw [exec_placeWriteComplete a b run op, onPlace, if_pos below, endWrite, work]
  rfl

/-- The place is freed where its entry asks for it. -/
theorem freeAtCompletion_iff (fields : Option PlaceFields) :
    (match fields with | some f => f.freeAtCompletion | none => false) = true ↔
      fields.map (·.freeAtCompletion) = some true := by
  cases fields with
  | none => simp
  | some f => simp

/-- The end of a write in normal running, its place's new state given. -/
theorem finishWrite_of_up {same : Bool} {p : Nat} {r : BagRecord} {c c1 c2 c3 : Chip} (up : c.tm.restart = none)
    (state : c1 = if same = true then modPlace p (fun e => { e with state := .stored })
      { c with tm := { c.tm with spi := none } } else failPlace p { c with tm := { c.tm with spi := none } })
    (told : c2 = reportLot r.lot .recordWritten c1)
    (left : c3 = { c2 with tm := { c2.tm with writeQueue := c2.tm.writeQueue.eraseP (fun q => q.place == p) } }) :
    finishWrite same p r c = checkHolding
      (if (placeAt c3 p).fields.map (·.freeAtCompletion) = some true then freePlace p c3 else c3) := by
  subst state told left
  rw [finishWrite, up]
  exact congrArg checkHolding (if_congr (freeAtCompletion_iff _) rfl rfl)

/-- Settles O47: a write that ends, a store that is read back, and no write on the master; the rest is laws of their
own. -/
theorem placeWriteCompletes : Obligations.PlaceWriteCompletes := by
  refine ⟨⟨fun s p r storeErr readErr run below op up sent m c0 c1 c2 c3 sends stores frees same other told left => ?_,
    fun p r m below wf n stored => ?_, fun s a b _ other => exec_placeWriteComplete_of_other a b other⟩, spec_takeRecord,
    spec_placeReport, spec_restartCompletions, spec_poison, spec_recordBytes⟩
  · subst sends frees
    by_cases verified : xorMask (placeBytes m p ++ placeCodes m p) readErr = r.bytes ++ recordCodes r.bytes
    · rw [exec_placeWriteComplete_of_inTable run op below (writeMemory_eq stores (decide_eq_true verified)),
        finishWrite_of_up up ((same verified).trans (if_pos rfl).symm) told left]
    · rw [exec_placeWriteComplete_of_inTable run op below (writeMemory_eq stores (decide_eq_false verified)),
        finishWrite_of_up up ((other verified).trans (if_neg Bool.false_ne_true).symm) told left]
  · rw [xorMask_nil] at stored
    subst stored
    have back := readBack_storePlace below wf (length_recordBytes r) (length_recordCodes r.bytes)
    exact ⟨back.1, back.2, length_recordBytes r⟩

/-! ## A rewrite (R154) -/

theorem exec_rewriteComplete_of_other {s : State} (a b d : List Byte)
    (other : ∀ p h, s.chip.tm.spi ≠ some (.rewrite p h)) : exec (.rewriteComplete a b d) s = .next s := by
  change execRewriteComplete a b d s = _
  unfold execRewriteComplete
  split
  next p h _ op => exact absurd op (other p h)
  next => rfl

theorem exec_rewriteComplete_of_inTable {s : State} {p : Nat} {h : HoldSet} {a b d : List Byte} {m : Memory} {good : Bool}
    (run : s.chip.pins.running = true) (op : s.chip.tm.spi = some (.rewrite p h)) (below : p < 1024)
    (work : rewriteMemory p h a b d s.mem = (m, good)) :
    exec (.rewriteComplete a b d) s = .next { s.after (finishRewrite good p s.chip) with mem := m } := by
  rw [exec_rewriteComplete a b d run op, onPlace, if_pos below, endRewrite, work]
  rfl

theorem rewriteMemory_of_uncorrectable {p : Nat} {a : List Byte} {m : Memory} {bs : List Byte}
    (read : readMemory p a m = (.uncorrectable, bs)) (h : HoldSet) (b d : List Byte) :
    rewriteMemory p h a b d m = (m, false) := by
  rw [rewriteMemory, read]

theorem rewriteMemory_of_readable {p : Nat} {a : List Byte} {m : Memory} {res : ReadResult} {bs : List Byte}
    (read : readMemory p a m = (res, bs)) (readable : res ≠ .uncorrectable) (h : HoldSet) (b d : List Byte) :
    rewriteMemory p h a b d m = writeMemory p (withHoldBytes h bs) b d m := by
  rw [rewriteMemory, read]
  cases res with
  | good => rfl
  | corrected => rfl
  | uncorrectable => exact absurd rfl readable

/-- A rewrite that verifies only frees the master. -/
theorem finishRewrite_of_good (p : Nat) (c : Chip) :
    finishRewrite true p c = { c with tm := { c.tm with spi := none } } := rfl

/-- A rewrite that fails: a STORED place is poisoned, any other only counted. -/
theorem finishRewrite_of_failed {p : Nat} {c failed : Chip} (up : c.tm.restart = none)
    (count : failed = countVerifyFail { c with tm := { c.tm with spi := none } }) :
    finishRewrite false p c =
      if (placeAt c p).state = .stored then raiseNat .traceFault .place p (poisonPlace p failed) else failed := by
  subst count
  rw [finishRewrite, up]
  rfl

/-- Settles O48: the read of a rewrite is uncorrectable, or the read-back decides; the restart's rewrites and the
amendments are laws of their own. -/
theorem placeRewriteCompletes : Obligations.PlaceRewriteCompletes := by
  refine ⟨⟨fun s p h readErr storeErr verifyErr run below op up c0 failed res bs new frees count read image => ?_,
    fun s a b d _ other => exec_rewriteComplete_of_other a b d other⟩,
    fun c w p d restart value => (spec_restartCompletions c w restart).2 p d value, spec_amend⟩
  subst frees
  have fails := finishRewrite_of_failed (p := p) up count
  refine ⟨fun m stores readable => ?_, fun lost => ?_⟩
  · rw [show new = withHoldBytes h bs from image] at stores ⊢
    have work := rewriteMemory_of_readable read readable h storeErr verifyErr
    refine ⟨fun verified => ?_, fun differs => ?_⟩
    · rw [exec_rewriteComplete_of_inTable run op below (work.trans (writeMemory_eq stores (decide_eq_true verified))),
        finishRewrite_of_good]
    · rw [exec_rewriteComplete_of_inTable run op below
        (work.trans (writeMemory_eq stores (decide_eq_false differs))), fails]
      exact ⟨fun stored => by rw [if_pos stored], fun other => by rw [if_neg other]⟩
  · subst lost
    have work := rewriteMemory_of_uncorrectable read h storeErr verifyErr
    rw [exec_rewriteComplete_of_inTable run op below work, fails]
    exact ⟨fun stored => by rw [if_pos stored]; rfl, fun other => by rw [if_neg other]; rfl⟩

/-! ## A read (R155) -/

/-- What decides whether a place read has a request to answer. -/
def requestView (c : Chip) : MaPhase × List Request := (c.ma.phase, c.ma.queue)

theorem requestView_txQueue (c : Chip) (q : List OwnFrame) :
    requestView { c with rp := { c.rp with txQueue := q } } = requestView c := rfl

theorem requestView_acceptFrame (f : OwnFrame) (c : Chip) : requestView (acceptFrame f c) = requestView c := by
  unfold acceptFrame
  split
  all_goals rfl

theorem requestView_reportHandedBack (src : FrameSource) (c : Chip) :
    requestView (reportHandedBack src c) = requestView c := by
  unfold reportHandedBack
  split
  all_goals rfl

theorem requestView_rpOffer (f : OwnFrame) (c : Chip) : requestView (rpOffer f c).1 = requestView c := by
  unfold rpOffer
  split
  · rfl
  · split
    · rfl
    · split
      · exact requestView_acceptFrame f c
      · split
        · exact (requestView_reportHandedBack _ _).trans (requestView_acceptFrame f _)
        · rfl

theorem requestView_handAlert (k : AlertKind) (c : Chip) : requestView (handAlert k c).1 = requestView c := by
  unfold handAlert
  split
  next a d _ _ => exact requestView_rpOffer (alertFrame k a d c) c
  next => rfl

theorem requestView_countAlert (k : AlertKind) (c : Chip) : requestView (countAlert k c) = requestView c := by
  unfold countAlert
  split
  all_goals rfl

theorem requestView_addAlert (k : AlertKind) (t : SubjectType) (w : Word) (c : Chip) :
    requestView (addAlert k t w c) = requestView c := rfl

theorem requestView_raiseOverflow (c : Chip) : requestView (raiseOverflow c) = requestView c := by
  unfold raiseOverflow
  split
  · exact requestView_countAlert _ _
  · have handed := requestView_handAlert .txOverflow (addAlert .txOverflow .none 0 c)
    split
    next c1 e => rw [e] at handed; exact (requestView_countAlert _ _).trans handed
    next c1 e => rw [e] at handed; exact handed

theorem requestView_raiseNat (k : AlertKind) (t : SubjectType) (n : Nat) (c : Chip) :
    requestView (raiseNat k t n c) = requestView c := by
  unfold raiseNat raise
  split
  · exact requestView_countAlert _ _
  · have handed := requestView_handAlert k (addAlert k t (BitVec.ofNat 32 n) c)
    split
    next c1 e => rw [e] at handed; exact (requestView_raiseOverflow _).trans handed
    next c1 e => rw [e] at handed; exact handed

theorem requestView_poisonPlace (p : Nat) (c : Chip) : requestView (poisonPlace p c) = requestView c := by
  unfold poisonPlace faultPallet
  dsimp only
  split
  · split
    · split
      all_goals rfl
    · rfl
  · rfl

theorem answerRead_of_reading {c : Chip} {r : Request} {rest : List Request} (ws : List Word)
    (view : requestView c = (.reading, r :: rest)) : answerRead ws c = endRequest r .ok ws c := by
  obtain ⟨phase, queue⟩ := Prod.mk.inj view
  rw [answerRead, phase, queue]

theorem exec_traceReadComplete_of_other {s : State} (a : List Byte) (other : ∀ p e, s.chip.tm.spi ≠ some (.read p e)) :
    exec (.traceReadComplete a) s = .next s := by
  change execTraceReadComplete a s = _
  unfold execTraceReadComplete
  split
  next p e _ op => exact absurd op (other p e)
  next => rfl

/-- The end of an uncorrectable read: counted, the place poisoned where it is STORED, and answered as read. -/
theorem finishRead_of_uncorrectable {c c1 : Chip} {p : Nat} {e : Place} {bs : List Byte}
    (count : c1 = { c with tm := { c.tm with spi := none, uncorrectable := min (c.tm.uncorrectable + 1) 65535 } }) :
    finishRead .uncorrectable bs p e c = answerRead (placeWords e (c.tm.marks.contains p) bs .uncorrectable)
      (raiseNat .traceFault .place p (if (placeAt c p).state = .stored then poisonPlace p c1 else c1)) := by
  subst count
  rfl

/-- Settles O49: the three results of a read, an uncorrectable one by the place's state. -/
theorem placeReadCompletes : Obligations.PlaceReadCompletes := by
  refine ⟨fun s p e readErr r rest run below op phase queue c0 c1 res bs ws answer frees image read words count => ?_,
    fun s a _ other => exec_traceReadComplete_of_other a other⟩
  subst frees image
  have memory : readMemory p readErr s.mem = (res, bs) := read
  have ends : exec (.traceReadComplete readErr) s = .next (s.after (finishRead res bs p e s.chip)) := by
    rw [exec_traceReadComplete readErr run op, onPlace, if_pos below, endRead, memory]
    rfl
  have view : requestView s.chip = (.reading, r :: rest) := by rw [requestView, phase, queue]
  rw [ends]
  refine ⟨fun good => ?_, fun corrected => ?_, fun lost stored => ?_, fun lost other => ?_⟩
  · subst good words
    rw [finishRead]
    exact congrArg (fun c => Host.Outcome.next (s.after c)) (answerRead_of_reading _ view)
  · subst corrected words
    rw [finishRead]
    exact congrArg (fun c => Host.Outcome.next (s.after c)) (answerRead_of_reading _ view)
  · subst lost words
    rw [finishRead_of_uncorrectable (c := s.chip) count, if_pos stored, answerRead_of_reading]
    · rfl
    · rw [requestView_raiseNat, requestView_poisonPlace, count]
      exact view
  · subst lost words
    rw [finishRead_of_uncorrectable (c := s.chip) count, if_neg other, answerRead_of_reading]
    · rfl
    · rw [requestView_raiseNat, count]
      exact view

end Sys2Proof.Machine

/-! PROOFS. The check code corrects one turned bit of a word and its code, and detects two. -/

namespace Sys2Proof.Machine

/-! ## Turning over one bit

The syndrome and the parity of a word and its code are folds with exclusive or, so a turned bit adds its position to the
one and turns over the other. -/

theorem foldl_positions_xor (l : List (Bool × Nat)) (a b : Nat) :
    l.foldl (fun acc (x, p) => if x then acc ^^^ p else acc) (a ^^^ b) =
      l.foldl (fun acc (x, p) => if x then acc ^^^ p else acc) a ^^^ b := by
  induction l generalizing a with
  | nil => rfl
  | cons e l ih =>
    obtain ⟨x, p⟩ := e
    cases x with
    | false => exact ih a
    | true =>
      simp only [List.foldl_cons, if_true]
      rw [Nat.xor_right_comm, ih]

theorem foldl_positions_modify {bits : List Bool} {ps : List Nat} {i p : Nat} (a : Nat) (below : i < bits.length)
    (here : ps[i]? = some p) :
    ((bits.modify i not).zip ps).foldl (fun acc (x, q) => if x then acc ^^^ q else acc) a =
      (bits.zip ps).foldl (fun acc (x, q) => if x then acc ^^^ q else acc) a ^^^ p := by
  induction bits generalizing i ps a with
  | nil => exact absurd below (Nat.not_lt_zero i)
  | cons x bits ih =>
    cases ps with
    | nil => exact absurd here (by simp)
    | cons q ps =>
      cases i with
      | zero =>
        obtain rfl : q = p := Option.some.inj here
        rw [List.modify_zero_cons, List.zip_cons_cons, List.zip_cons_cons, List.foldl_cons, List.foldl_cons,
          ← foldl_positions_xor]
        cases x with
        | false => rfl
        | true => simp
      | succ i =>
        rw [List.modify_succ_cons, List.zip_cons_cons, List.zip_cons_cons, List.foldl_cons, List.foldl_cons]
        exact ih _ (Nat.lt_of_succ_lt_succ below) here

theorem positionSum_modify {bits : List Bool} {i p : Nat} (below : i < bits.length) (here : dataPositions[i]? = some p) :
    positionSum (bits.modify i not) = positionSum bits ^^^ p := foldl_positions_modify 0 below here

theorem foldl_bne_not (l : List Bool) (a : Bool) :
    l.foldl (fun acc b => acc != b) (!a) = !(l.foldl (fun acc b => acc != b) a) := by
  induction l generalizing a with
  | nil => rfl
  | cons b l ih =>
    rw [List.foldl_cons, List.foldl_cons, ← ih]
    congr 1
    cases a <;> cases b <;> rfl

theorem oddOnes_modify {bits : List Bool} {i : Nat} (below : i < bits.length) :
    oddOnes (bits.modify i not) = !(oddOnes bits) := by
  have general (a : Bool) : (bits.modify i not).foldl (fun acc b => acc != b) a =
      !(bits.foldl (fun acc b => acc != b) a) := by
    induction bits generalizing i a with
    | nil => exact absurd below (Nat.not_lt_zero i)
    | cons b bits ih =>
      cases i with
      | zero =>
        rw [List.modify_zero_cons, List.foldl_cons, List.foldl_cons, ← foldl_bne_not]
        congr 1
        cases a <;> cases b <;> rfl
      | succ i =>
        rw [List.modify_succ_cons, List.foldl_cons, List.foldl_cons]
        exact ih (Nat.lt_of_succ_lt_succ below) _
  exact general false

/-! ## The bits of bytes and words -/

theorem length_byteBits (b : Byte) : (byteBits b).length = 8 := by
  rw [byteBits, List.length_map, List.length_range]

theorem byteBits_turned (b : Byte) (j : Nat) :
    byteBits (b ^^^ BitVec.ofNat 8 (2 ^ j)) = (byteBits b).modify j not := by
  refine List.ext_getElem (by rw [List.length_modify, length_byteBits, length_byteBits]) fun i inside _ => ?_
  have small : i < 8 := by rwa [length_byteBits] at inside
  simp only [byteBits, List.getElem_modify, List.getElem_map, List.getElem_range, BitVec.getLsbD_xor,
    BitVec.getLsbD_ofNat, Nat.testBit_two_pow, small, decide_true, Bool.true_and]
  by_cases same : j = i
  · simp [same]
  · simp [same]

theorem length_flatMap_byteBits (l : List Byte) : (l.flatMap byteBits).length = 8 * l.length := by
  simp only [List.length_flatMap, length_byteBits, List.map_const', List.sum_replicate, smul_eq_mul]
  exact Nat.mul_comm _ _

theorem modify_append_of_lt {α : Type} {l : List α} (m : List α) {i : Nat} (f : α → α) (below : i < l.length) :
    (l ++ m).modify i f = l.modify i f ++ m := by
  induction l generalizing i with
  | nil => exact absurd below (Nat.not_lt_zero i)
  | cons a l ih =>
    cases i with
    | zero => rfl
    | succ i => exact congrArg (a :: ·) (ih (Nat.lt_of_succ_lt_succ below))

theorem flatMap_byteBits_turned {l : List Byte} {k : Nat} (below : k < 8 * l.length) :
    (l.modify (k / 8) fun b => b ^^^ BitVec.ofNat 8 (2 ^ (k % 8))).flatMap byteBits =
      (l.flatMap byteBits).modify k not := by
  induction l generalizing k with
  | nil => exact absurd below (Nat.not_lt_zero k)
  | cons b l ih =>
    rw [List.length_cons] at below
    by_cases first : k < 8
    · rw [Nat.div_eq_of_lt first, Nat.mod_eq_of_lt first, List.modify_zero_cons, List.flatMap_cons, List.flatMap_cons,
        byteBits_turned, modify_append_of_lt _ _ (by rw [length_byteBits]; exact first)]
    · obtain ⟨m, rfl⟩ : ∃ m, k = m + 8 := ⟨k - 8, by omega⟩
      rw [Nat.add_div_right m (by decide), Nat.add_mod_right, List.modify_succ_cons, List.flatMap_cons,
        List.flatMap_cons, ih (by omega), Nat.add_comm, ← length_byteBits b]
      exact (List.modifyTailIdx_add _ m (byteBits b) _).symm

theorem wordBits_eq (bs : List Byte) : wordBits bs = bs.reverse.flatMap byteBits := rfl

theorem length_wordBits {bs : List Byte} (eight : bs.length = 8) : (wordBits bs).length = 64 := by
  rw [wordBits_eq, length_flatMap_byteBits, List.length_reverse, eight]

theorem length_flipBit (k : Nat) (bs : List Byte) : (flipBit k bs).length = bs.length := List.length_modify ..

theorem reverse_modify {α : Type} {l : List α} {i : Nat} (f : α → α) (below : i < l.length) :
    (l.modify (l.length - 1 - i) f).reverse = l.reverse.modify i f := by
  refine List.ext_getElem (by simp) fun j inside _ => ?_
  simp only [List.length_reverse, List.length_modify] at inside
  rw [List.getElem_reverse, List.getElem_modify, List.getElem_modify, List.getElem_reverse]
  simp only [List.length_modify]
  exact if_congr (by omega) rfl rfl

theorem wordBits_flipBit {bs : List Byte} {k : Nat} (eight : bs.length = 8) (below : k < 64) :
    wordBits (flipBit k bs) = (wordBits bs).modify k not := by
  have turned := reverse_modify (l := bs) (i := k / 8) (fun b => b ^^^ BitVec.ofNat 8 (2 ^ (k % 8))) (by omega)
  rw [eight] at turned
  rw [wordBits_eq, wordBits_eq, flipBit, turned, flatMap_byteBits_turned (by rw [List.length_reverse]; omega)]

/-- A bit turned over twice is as it was. -/
theorem flipBit_flipBit (k : Nat) (bs : List Byte) : flipBit k (flipBit k bs) = bs := by
  have undo : (fun b : Byte => b ^^^ BitVec.ofNat 8 (2 ^ (k % 8))) ∘ (fun b => b ^^^ BitVec.ofNat 8 (2 ^ (k % 8))) = id :=
    funext fun b => by rw [Function.comp_apply, BitVec.xor_assoc, BitVec.xor_self, BitVec.xor_zero, id]
  rw [flipBit, flipBit, List.modify_modify_eq, undo, List.modify_id]

/-! ## The syndrome and the parity (R150) -/

/-- What a check of a word against its code looks at: the positions that hold ones, added up, and the parity of all. -/
def syndrome (bs : List Byte) (code : Byte) : Nat := positionSum (wordBits bs) ^^^ (code.toNat % 128)

def oddTotal (bs : List Byte) (code : Byte) : Bool := oddOnes (wordBits bs ++ byteBits code)

/-- The position of a bit of the code: the parity bit has none. -/
def codePosition (j : Nat) : Nat := 2 ^ j % 128

theorem dataPositions_getElem? {i : Nat} (below : i < 64) : dataPositions[i]? = some (dataPositions.getD i 0) := by
  have size : dataPositions.length = 64 := by decide
  rw [List.getD_eq_getElem?_getD, List.getElem?_eq_getElem (by omega), Option.getD_some]

theorem syndrome_flipBit {bs : List Byte} {i : Nat} (code : Byte) (eight : bs.length = 8) (below : i < 64) :
    syndrome (flipBit i bs) code = syndrome bs code ^^^ dataPositions.getD i 0 := by
  rw [syndrome, wordBits_flipBit eight below,
    positionSum_modify (by rw [length_wordBits eight]; exact below) (dataPositions_getElem? below), syndrome,
    Nat.xor_right_comm]

theorem oddTotal_flipBit {bs : List Byte} {i : Nat} (code : Byte) (eight : bs.length = 8) (below : i < 64) :
    oddTotal (flipBit i bs) code = !(oddTotal bs code) := by
  have inside : i < (wordBits bs).length := by rw [length_wordBits eight]; exact below
  rw [oddTotal, wordBits_flipBit eight below, ← modify_append_of_lt _ _ inside,
    oddOnes_modify (by rw [List.length_append]; omega), oddTotal]

theorem toNat_turned (code : Byte) {j : Nat} (below : j < 8) :
    (code ^^^ BitVec.ofNat 8 (2 ^ j)).toNat = code.toNat ^^^ 2 ^ j := by
  rw [BitVec.toNat_xor, BitVec.toNat_ofNat, Nat.mod_eq_of_lt (Nat.pow_lt_pow_right (by decide) below)]

theorem syndrome_turned (bs : List Byte) (code : Byte) {j : Nat} (below : j < 8) :
    syndrome bs (code ^^^ BitVec.ofNat 8 (2 ^ j)) = syndrome bs code ^^^ codePosition j := by
  rw [syndrome, toNat_turned code below, show 128 = 2 ^ 7 from rfl, Nat.xor_mod_two_pow, syndrome, codePosition,
    Nat.xor_assoc]

theorem oddTotal_turned {bs : List Byte} (code : Byte) {j : Nat} (below : j < 8) :
    oddTotal bs (code ^^^ BitVec.ofNat 8 (2 ^ j)) = !(oddTotal bs code) := by
  have tail : (wordBits bs ++ byteBits code).modify ((wordBits bs).length + j) not =
      wordBits bs ++ (byteBits code).modify j not := List.modifyTailIdx_add _ j (wordBits bs) _
  rw [oddTotal, byteBits_turned, ← tail,
    oddOnes_modify (by rw [List.length_append, length_byteBits]; omega), oddTotal]

/-! ## The check code -/

theorem positionSum_lt (bits : List Bool) : positionSum bits < 128 := by
  have general (l : List (Bool × Nat)) (small : ∀ e ∈ l, e.2 < 128) (a : Nat) (start : a < 128) :
      l.foldl (fun acc (x, p) => if x then acc ^^^ p else acc) a < 128 := by
    induction l generalizing a with
    | nil => exact start
    | cons e l ih =>
      obtain ⟨x, p⟩ := e
      refine ih (fun x mem => small x (List.mem_cons_of_mem _ mem)) _ ?_
      cases x with
      | false => exact start
      | true => exact Nat.xor_lt_two_pow (n := 7) start (small (true, p) List.mem_cons_self)
  have positions : ∀ p ∈ dataPositions, p < 128 := by decide
  exact general _ (fun e mem => positions e.2 (List.of_mem_zip mem).2) 0 (by decide)

/-- The groups' bits of a word's code: its positions, added up. -/
theorem toNat_groups (bs : List Byte) : (BitVec.ofNat 8 (positionSum (wordBits bs))).toNat = positionSum (wordBits bs) := by
  have := positionSum_lt (wordBits bs)
  rw [BitVec.toNat_ofNat, Nat.mod_eq_of_lt (by omega)]

/-- Setting a parity bit that is clear is turning it over. -/
theorem or_parity {b : Byte} (h : b.toNat < 128) : b ||| 128 = b ^^^ BitVec.ofNat 8 (2 ^ 7) := by
  refine BitVec.eq_of_getLsbD_eq fun i below => ?_
  rw [BitVec.getLsbD_or, BitVec.getLsbD_xor, show (128 : Byte) = BitVec.ofNat 8 (2 ^ 7) from rfl, BitVec.getLsbD_ofNat,
    Nat.testBit_two_pow]
  by_cases parity : 7 = i
  · subst parity
    have clear : b.getLsbD 7 = false := Nat.testBit_lt_two_pow h
    rw [clear]
    rfl
  · simp [parity]

theorem checkCode_eq (bs : List Byte) :
    checkCode bs = if oddTotal bs (BitVec.ofNat 8 (positionSum (wordBits bs))) = true
      then BitVec.ofNat 8 (positionSum (wordBits bs)) ^^^ BitVec.ofNat 8 (2 ^ 7)
      else BitVec.ofNat 8 (positionSum (wordBits bs)) := by
  rw [← or_parity (by rw [toNat_groups]; exact positionSum_lt _)]
  rfl

theorem syndrome_groups (bs : List Byte) : syndrome bs (BitVec.ofNat 8 (positionSum (wordBits bs))) = 0 := by
  rw [syndrome, toNat_groups, Nat.mod_eq_of_lt (positionSum_lt _), Nat.xor_self]

/-- A word and its code leave no syndrome. -/
theorem syndrome_checkCode (bs : List Byte) : syndrome bs (checkCode bs) = 0 := by
  rw [checkCode_eq]
  split
  · rw [syndrome_turned _ _ (by decide), syndrome_groups]
    rfl
  · exact syndrome_groups bs

/-- A word and its code hold an even number of ones. -/
theorem oddTotal_checkCode (bs : List Byte) : oddTotal bs (checkCode bs) = false := by
  rw [checkCode_eq]
  split
  next odd => rw [oddTotal_turned _ (by decide), odd]; rfl
  next even => exact Bool.eq_false_iff.mpr even

/-! ## The check (R150) -/

theorem checkWord_of_even {bs : List Byte} {code : Byte} (even : oddTotal bs code = false) :
    checkWord bs code = if syndrome bs code = 0 then .good bs else .uncorrectable bs :=
  if_neg (by rw [← oddTotal, even]; decide)

theorem checkWord_of_word_position {bs : List Byte} {code : Byte} {k : Nat} (odd : oddTotal bs code = true)
    (small : syndrome bs code ≤ 71) (here : dataPositions.idxOf? (syndrome bs code) = some k) :
    checkWord bs code = .corrected (flipBit k bs) := by
  refine (if_pos odd).trans ((if_neg (Nat.not_lt.mpr small)).trans ?_)
  rw [← syndrome, here]

theorem checkWord_of_code_position {bs : List Byte} {code : Byte} (odd : oddTotal bs code = true)
    (small : syndrome bs code ≤ 71) (here : dataPositions.idxOf? (syndrome bs code) = none) :
    checkWord bs code = .corrected bs := by
  refine (if_pos odd).trans ((if_neg (Nat.not_lt.mpr small)).trans ?_)
  rw [← syndrome, here]

/-- What the positions are: those of the word are distinct and small, and those of the code are none of them. -/
theorem word_positions : ∀ i < 64, dataPositions.getD i 0 ≤ 71 ∧ dataPositions.idxOf? (dataPositions.getD i 0) = some i := by
  decide

theorem code_positions : ∀ j < 8, codePosition j ≤ 71 ∧ dataPositions.idxOf? (codePosition j) = none := by decide

theorem word_positions_injective {i j : Nat} (hi : i < 64) (hj : j < 64)
    (same : dataPositions.getD i 0 = dataPositions.getD j 0) : i = j := by
  have := (word_positions i hi).2
  rw [same, (word_positions j hj).2] at this
  exact (Option.some.inj this).symm

theorem word_position_ne_code_position {i j : Nat} (hi : i < 64) (hj : j < 8) :
    dataPositions.getD i 0 ≠ codePosition j := by
  intro same
  have := (word_positions i hi).2
  rw [same, (code_positions j hj).2] at this
  cases this

theorem code_positions_injective : ∀ j < 8, ∀ i < j, codePosition i ≠ codePosition j := by decide

/-- Settles O46: a turned bit makes the parity odd and the syndrome its position; two make it even with a syndrome that
is not 0, their positions being distinct. -/
theorem checkCodeCorrects : Obligations.CheckCodeCorrects := by
  intro bs eight
  have none := syndrome_checkCode bs
  have even := oddTotal_checkCode bs
  refine ⟨?_, fun i below => ?_, fun j below => ?_, fun i j order below => ?_, fun i j word code => ?_,
    fun i j order below => ?_⟩
  · rw [checkWord_of_even even, if_pos none]
  · have place : syndrome (flipBit i bs) (checkCode bs) = dataPositions.getD i 0 := by
      rw [syndrome_flipBit _ eight below, none, Nat.zero_xor]
    have odd : oddTotal (flipBit i bs) (checkCode bs) = true := by rw [oddTotal_flipBit _ eight below, even]; rfl
    rw [checkWord_of_word_position odd (by rw [place]; exact (word_positions i below).1)
      (by rw [place]; exact (word_positions i below).2), flipBit_flipBit]
  · have place : syndrome bs (checkCode bs ^^^ BitVec.ofNat 8 (2 ^ j)) = codePosition j := by
      rw [syndrome_turned _ _ below, none, Nat.zero_xor]
    have odd : oddTotal bs (checkCode bs ^^^ BitVec.ofNat 8 (2 ^ j)) = true := by
      rw [oddTotal_turned _ below, even]; rfl
    exact checkWord_of_code_position odd (by rw [place]; exact (code_positions j below).1)
      (by rw [place]; exact (code_positions j below).2)
  · have length := (length_flipBit i bs).trans eight
    rw [checkWord_of_even, if_neg]
    · rw [syndrome_flipBit _ length below, syndrome_flipBit _ eight (by omega), none, Nat.zero_xor, Nat.xor_eq_zero_iff]
      intro same
      have := word_positions_injective (by omega) below same
      omega
    · rw [oddTotal_flipBit _ length below, oddTotal_flipBit _ eight (by omega), even]
      rfl
  · rw [checkWord_of_even, if_neg]
    · rw [syndrome_turned _ _ code, syndrome_flipBit _ eight word, none, Nat.zero_xor, Nat.xor_eq_zero_iff]
      exact word_position_ne_code_position word code
    · rw [oddTotal_turned _ code, oddTotal_flipBit _ eight word, even]
      rfl
  · rw [checkWord_of_even, if_neg]
    · rw [syndrome_turned _ _ below, syndrome_turned _ _ (by omega), none, Nat.zero_xor, Nat.xor_eq_zero_iff]
      exact code_positions_injective j below i order
    · rw [oddTotal_turned _ below, oddTotal_turned _ (by omega), even]
      rfl

end Sys2Proof.Machine

/-! PROOFS. A shuttle's deadline, exposure, the actuation guard, confirmations. -/

namespace Sys2Proof.Machine

/-! ## A shuttle's deadline (R171, R173) -/

theorem shuttleAt_of_getElem? {c : Chip} {n : Nat} {u : Shuttle} (h : c.td.shuttles[n]? = some u) : shuttleAt c n = u := by
  rw [shuttleAt, List.getD_eq_getElem?_getD, h, Option.getD_some]

theorem shuttleDue_iff {c : Chip} {n : Nat} :
    shuttleDue c n = true ↔ ∃ u t, c.td.shuttles[n]? = some u ∧ u.deadline = some t ∧ t ≤ c.clock.line := by
  unfold shuttleDue
  cases entry : c.td.shuttles[n]? with
  | none =>
    have power : shuttleAt c n = .power := by rw [shuttleAt, List.getD_eq_getElem?_getD, entry, Option.getD_none]
    have never : Shuttle.power.deadline = none := rfl
    simp [power, never]
  | some u =>
    rw [shuttleAt_of_getElem? entry]
    cases deadline : u.deadline with
    | none => simp [deadline]
    | some t => simp [deadline]

/-- Settles O50: a deadline that is reached, and one that is not; status codes and deliveries are laws of their own. -/
theorem shuttleDeadlineFaultsTransfer : Obligations.ShuttleDeadlineFaultsTransfer := by
  refine ⟨⟨fun n id t s u run entry pallet deadline late => ?_, fun n s run early => ?_⟩, spec_shuttleStatus, spec_deliver,
    spec_faultTransfer⟩
  · rw [exec_of_running (i := .shuttleDeadlineExpiry n) rfl run,
      if_pos (shuttleDue_iff.mpr ⟨u, t, entry, deadline, late⟩),
      (spec_faultTransfer n id 0 s.chip _ u entry pallet rfl).1]
  · rw [exec_of_running (i := .shuttleDeadlineExpiry n) rfl run, if_neg fun due => ?_]
    obtain ⟨u, t, entry, deadline, late⟩ := shuttleDue_iff.mp due
    exact absurd late (Nat.not_le.mpr (early u t entry deadline))

/-! ## Exposure (R164, R165) -/

theorem dockTemp_of_fresh {c : Chip} {lot : Nat} {k : IntakeChan} {v : Latest} (role : findRole c .dockTemp = some k)
    (fresh : k.dyn.fresh = .fresh) (latest : k.dyn.latest = some v) : dockTemp c lot = v.value := by
  rw [dockTemp, role]
  dsimp only
  rw [fresh, latest]

theorem dockTemp_of_not_fresh {c : Chip} {lot : Nat} (h : ∀ k, findRole c .dockTemp = some k → k.dyn.fresh ≠ .fresh) :
    dockTemp c lot = (recipeOfLot c lot).assumedDock := by
  unfold dockTemp
  split
  next k role =>
    split
    next fresh _ => exact absurd fresh (h k role)
    next => rfl
  next => rfl

/-- The excess of the warmer end over the reference, times the interval, is 0 where there is no excess. -/
theorem exposureIncrement_eq (start stop reference : Int) (interval : Nat) :
    exposureIncrement start stop reference interval = (max start stop - reference).toNat * interval := by
  unfold exposureIncrement
  dsimp only
  split
  · rfl
  · rw [Int.toNat_of_nonpos (by omega), Nat.zero_mul]

/-- A pallet in the table, changed by a change that keeps its id, is found in its changed state. -/
theorem palletAt_modPallet {c : Chip} {id : Nat} {p : Pallet} {f : Pallet → Pallet} (found : palletAt c id = some p)
    (same : ∀ q, (f q).id = q.id) : palletAt (modPallet id f c) id = some (f p) := by
  have kept : (fun q : Pallet => q.id == id) ∘ (fun q => if q.id = id then f q else q) = fun q => q.id == id := by
    funext q
    rw [Function.comp_apply]
    split
    · rw [same]
    · rfl
  have named : p.id = id := by simpa using List.find?_some found
  rw [palletAt, modPallet, List.find?_map, kept, ← palletAt, found, Option.map_some, if_pos named]

/-- The check of an updated pallet (R165). -/
theorem checkExhausted_of_found {c : Chip} {id : Nat} {p : Pallet} (found : palletAt c id = some p) :
    checkExhausted id c = if (recipeOfLot c p.lot).budget * 6000 ≤ p.exposure ∧ ¬ p.exhausted = true then
      raiseNat .exposure .pallet id (changePalletHold id (fun h => h ||| HoldReason.exposure.only)
        (modPallet id (fun q => { q with exhausted := true }) c)) else c := by
  rw [checkExhausted, found]
  rfl

/-- The update of a pallet's exposure and the check that follows, by the exposure it comes to. -/
theorem exposePallet_of_found {c d : Chip} {id e : Nat} {p : Pallet} (found : palletAt c id = some p)
    (total : e = min (p.exposure + (max p.expTemp (dockTemp c p.lot) - (recipeOfLot c p.lot).expReference).toNat *
      (c.clock.line - p.expTime)) 4294967295)
    (updated : d = { c with ba := { c.ba with pallets := c.ba.pallets.map fun q =>
      if q.id = id then
        { q with
          exposure := min (q.exposure + (max p.expTemp (dockTemp c p.lot) - (recipeOfLot c p.lot).expReference).toNat *
            (c.clock.line - p.expTime)) 4294967295
          expTime := c.clock.line
          expTemp := dockTemp c p.lot }
      else q } }) :
    exposePallet id c = if (recipeOfLot c p.lot).budget * 6000 ≤ e ∧ ¬ p.exhausted = true then
      raiseNat .exposure .pallet id (changePalletHold id (fun h => h ||| HoldReason.exposure.only)
        (modPallet id (fun q => { q with exhausted := true }) d)) else d := by
  have update : exposePallet id c = checkExhausted id d := by
    rw [exposePallet, found, updated]
    dsimp only
    rw [exposureIncrement_eq]
    rfl
  have there := palletAt_modPallet found (f := fun q => { q with
    exposure := min (q.exposure + (max p.expTemp (dockTemp c p.lot) - (recipeOfLot c p.lot).expReference).toNat *
      (c.clock.line - p.expTime)) 4294967295, expTime := c.clock.line, expTemp := dockTemp c p.lot }) fun _ => rfl
  rw [modPallet, ← updated] at there
  rw [update, checkExhausted_of_found there, total]
  subst updated
  rfl

/-- Settles O51: the dock temperature, the update with its check, and destinations; the rest is laws of their own. -/
theorem exposureFollowsTheWarmerEnd : Obligations.ExposureFollowsTheWarmerEnd := by
  refine ⟨⟨fun c lot k v => dockTemp_of_fresh, fun c lot => dockTemp_of_not_fresh,
    fun id c d p e found total updated => ⟨fun spent fresh => ?_, fun within => ?_⟩, spec_evalDestination⟩,
    spec_effectiveHold, spec_arbitration, spec_exposeAll, spec_enterDock⟩
  · rw [exposePallet_of_found found total updated, if_pos ⟨spent, by rw [fresh]; decide⟩]
  · rw [exposePallet_of_found found total updated, if_neg]
    rintro ⟨spent, new⟩
    obtain below | exhausted := within
    · omega
    · exact new exhausted

/-! ## The actuation guard (R183 to R187) -/

theorem checkItem_of_offline {c : Chip} {key : Key} {v : Word} (mode : c.ag.mode = .offline) :
    checkItem key v c = (shadowItem false key v (some v) c, some v) := by
  rw [checkItem, mode]

theorem checkItem_of_undecided {c : Chip} {key : Key} {v : Word} (mode : c.ag.mode ≠ .offline)
    (unowned : ownedByKey c key = none) (undecided : decidingGuard c key = none) :
    checkItem key v c = (shadowItem (guarded c key) key v (some v) c, some v) := by
  unfold checkItem
  split
  next off => exact absurd off mode
  next => simp only [unowned, undecided]

/-- The trap record of a verdict of guard entry `i`: none for one that passes (R188). -/
def trapVerdict (key : Key) (v : Word) (i : Nat) (value : Option Word) (c : Chip) : Option Verdict → Chip
  | some d => addTrap { line := c.clock.line, key := key, received := v, verdict := d, applied := value,
                        entry := .guard i, mode := c.ag.mode } c
  | none => c

theorem checkItem_of_verdict {c : Chip} {key : Key} {v : Word} {g : Guard} {i : Nat} {value result : Option Word}
    {verdict : Option Verdict} (mode : c.ag.mode ≠ .offline) (unowned : ownedByKey c key = none)
    (decides : decidingGuard c key = some (g, i)) (gives : guardVerdict c g v = (value, verdict))
    (applied : result = if c.ag.mode = .production then value else some v) :
    checkItem key v c = (shadowItem true key v result (trapVerdict key v i value c verdict), result) := by
  unfold checkItem
  split
  next off => exact absurd off mode
  next =>
    simp only [unowned, decides, gives, ← applied]
    cases verdict with
    | none => rfl
    | some d => rfl

/-- The first entry that is enabled, matches and whose condition holds decides. -/
theorem decidingGuard_of_first {c : Chip} {key : Key} {before after : List Guard} {g : Guard}
    (guards : c.ag.guards = before ++ g :: after)
    (passed : ∀ x ∈ before, ¬ (x.enabled = true ∧ keyMatches x.filter x.mask key = true ∧ conditionHolds c x.cond = true))
    (enabled : g.enabled = true) (hit : (key ^^^ g.filter) &&& g.mask = 0) (holds : conditionHolds c g.cond = true) :
    decidingGuard c key = some (g, before.length) := by
  rw [decidingGuard, guards]
  refine find?_zipIdx_append_cons (f := fun g : Guard => g.enabled && keyMatches g.filter g.mask key && conditionHolds c g.cond)
    (fun x mem => ?_) ?_
  · rw [Bool.eq_false_iff, ne_eq, Bool.and_eq_true, Bool.and_eq_true, and_assoc]
    exact passed x mem
  · rw [enabled, keyMatches, decide_eq_true hit, holds]
    rfl

/-- Settles O52: the item by mode, owner and deciding entry; conditions, owned points and shadows are laws of their
own. -/
theorem guardDecidesItems : Obligations.GuardDecidesItems := by
  refine ⟨fun key v c => ⟨checkItem_of_offline, fun w d result mode owned => spec_ownedItem key v w c d result mode owned,
    checkItem_of_undecided, fun g i value verdict mode unowned decides pass block clamp freezer force result applied => ?_,
    fun before after g guards passed enabled hit holds => decidingGuard_of_first guards passed enabled hit holds⟩,
    spec_conditions, spec_ownedPoints, spec_shadow⟩
  have gives : guardVerdict c g v = (value, verdict) := by
    unfold guardVerdict
    cases action : g.action with
    | pass => exact (pass action).symm
    | block => exact (block action).symm
    | clamp => exact (clamp action).symm
    | clampFreezer => exact (freezer action).symm
    | force => exact (force action).symm
  rw [checkItem_of_verdict mode unowned decides gives applied]
  cases verdict with
  | none => rfl
  | some d => rfl

/-! ## Confirmations (R192, R193) -/

theorem confirmDue_iff {c : Chip} {i : Nat} :
    confirmDue c i = true ↔ ∃ e, c.ag.confirms[i]? = some e ∧ reached c.clock.ms e.deadline = true := by
  unfold confirmDue
  cases c.ag.confirms[i]? with
  | none => simp
  | some e => simp

theorem pointEcho_of_oldest {c : Chip} {n : Nat} {before after : List Confirm} {e : Confirm} (w : Word)
    (list : c.ag.confirms = before ++ e :: after) (others : ∀ x ∈ before, x.point ≠ n) (point : e.point = n) :
    pointEcho n w c = if e.value = w
      then tellSource e .confirmed { c with ag := { c.ag with confirms := before ++ after } } else c := by
  rw [pointEcho, list, findIdx?_append_cons (fun x mem => beq_false_of_ne (others x mem)) (beq_iff_eq.mpr point)]
  dsimp only
  rw [getElem?_append_cons, eraseIdx_append_cons]

theorem pointEcho_of_none {c : Chip} {n : Nat} (w : Word) (none : ∀ x ∈ c.ag.confirms, x.point ≠ n) :
    pointEcho n w c = c := by
  rw [pointEcho, List.findIdx?_eq_none_iff.mpr fun x mem => beq_false_of_ne (none x mem)]

theorem expireConfirm_of_entry {c : Chip} {before after : List Confirm} {e : Confirm}
    (list : c.ag.confirms = before ++ e :: after) :
    expireConfirm before.length c = tellSource e .failed
      (gateFault e.point { c with ag := { c.ag with confirms := before ++ after } }) := by
  rw [expireConfirm, list, getElem?_append_cons]
  dsimp only
  rw [eraseIdx_append_cons]

/-- Settles O53: an entry that expires, one that does not, and an echo; what the source does is a law of its own. -/
theorem confirmationIsSettled : Obligations.ConfirmationIsSettled := by
  refine ⟨fun s before after e run list due => ?_, fun s i run early => ?_,
    fun n w c => ⟨fun before after e list others point => ⟨fun equal => ?_, fun differs => ?_⟩, pointEcho_of_none w⟩,
    spec_tellSource⟩
  · have entry : s.chip.ag.confirms[before.length]? = some e := by rw [list, getElem?_append_cons]
    rw [exec_of_running (i := .confirmationDeadline before.length) rfl run,
      if_pos (confirmDue_iff.mpr ⟨e, entry, due⟩), expireConfirm_of_entry list]
    rfl
  · rw [exec_of_running (i := .confirmationDeadline i) rfl run, if_neg fun due => ?_]
    obtain ⟨e, entry, late⟩ := confirmDue_iff.mp due
    exact absurd late (by rw [early e entry]; decide)
  · rw [pointEcho_of_oldest w list others point, if_pos equal]
  · rw [pointEcho_of_oldest w list others point, if_neg differs]

end Sys2Proof.Machine

/-! PROOFS. Assembly and retries; the checks before a request's own. -/

namespace Sys2Proof.Machine

/-! ## Assembly and retries (R196, R117, R176, R203) -/

theorem assemblyDue_iff {c : Chip} :
    assemblyDue c = true ↔ ∃ a, c.ma.assembly = some a ∧ reached c.clock.ms (a.started + 1000) = true := by
  unfold assemblyDue
  cases c.ma.assembly with
  | none => simp
  | some a => simp

theorem dropAssembly_of_some {c : Chip} {a : Assembly} (h : c.ma.assembly = some a) :
    dropAssembly c = (rpHand
      { kind := .mgmtAns, dest := a.origin, source := .answer false,
        items := [mkItem a.tag (BitVec.ofNat 32 (a.code.toNat * 16777216 + 65536 + 1))] }
      { c with ma := { c.ma with assembly := none } }).1 := by
  rw [dropAssembly, h]
  exact answerOnly_eq a.origin a.tag a.code .badFormat _

theorem retryDue_of_some {c : Chip} {last : Option Nat} {t : Nat} (h : last = some t) (late : t + 10 ≤ c.clock.line) :
    retryDue c last = true := by
  rw [h]
  exact decide_eq_true late

theorem retryDue_of_early {c : Chip} {last : Option Nat} (h : ∀ t, last = some t → c.clock.line < t + 10) :
    retryDue c last = false := by
  cases last with
  | none => rfl
  | some t => exact decide_eq_false (Nat.not_le.mpr (h t rfl))

/-- A retry that is due hands what waits; one with nothing waiting would hand nothing. -/
theorem lotRetry_of_due {c : Chip} (ring : c.rp.ring = .active) (due : retryDue c c.lh.lastHanding = true) :
    (if lotRetryDue c = true then handWaitingLots c else c) = (waitingLots c).foldl (fun d i => handLot i d) c := by
  rw [lotRetryDue, decide_eq_true ring, due]
  cases waiting : waitingLots c with
  | nil => rfl
  | cons i rest => rw [handWaitingLots, waiting]; rfl

theorem deliveryRetry_of_due {c : Chip} (ring : c.rp.ring = .active) (due : retryDue c c.td.lastHanding = true) :
    (if deliveryRetryDue c = true then handWaitingDeliveries c else c) =
      (waitingDeliveries c).foldl (fun d i => handDelivery i d) c := by
  rw [deliveryRetryDue, decide_eq_true ring, due]
  cases waiting : waitingDeliveries c with
  | nil => rfl
  | cons i rest => rw [handWaitingDeliveries, waiting]; rfl

theorem alertRetry_of_due {c : Chip} (ring : c.rp.ring ≠ .isolated) (due : retryDue c c.ma.lastHanding = true) :
    (if alertRetryDue c = true then handAllUnsent c else c) = handAllUnsent c := by
  rw [alertRetryDue, decide_eq_true ring, due]
  by_cases unsent : AlertKind.all.any (unsentAlert c) = true
  · rw [unsent]
    rfl
  · rw [if_neg (by simpa using unsent)]
    refine (foldl_eq_of_fixed fun k mem => if_neg fun one => unsent ?_).symm
    exact List.any_eq_true.mpr ⟨k, mem, one⟩

/-- Settles O54: each of the four timers, due and not; parts, handings, what waits and the frames are laws of their
own. -/
theorem assemblyAndRetriesComeDue : Obligations.AssemblyAndRetriesComeDue := by
  refine ⟨fun s run => ?_, spec_parts, spec_handings, spec_waitingReports, spec_handAllUnsent, spec_reportFrames⟩
  rw [exec_of_running (i := .assemblyTimeout) rfl run, exec_of_running (i := .lotReportRetry) rfl run,
    exec_of_running (i := .deliveryReportRetry) rfl run, exec_of_running (i := .alertRetry) rfl run]
  refine ⟨fun a assembly due => ?_, fun early => ?_, fun t last ring late => ?_, fun early => ?_,
    fun t last ring late => ?_, fun early => ?_, fun t last ring late => ?_, fun early => ?_⟩
  · rw [if_pos (assemblyDue_iff.mpr ⟨a, assembly, due⟩), dropAssembly_of_some assembly]
  · rw [if_neg fun due => ?_]
    obtain ⟨a, assembly, late⟩ := assemblyDue_iff.mp due
    exact absurd late (by rw [early a assembly]; decide)
  · rw [lotRetry_of_due ring (retryDue_of_some last late)]
  · rw [if_neg]
    obtain ring | early := early
    · simp [lotRetryDue, ring]
    · simp [lotRetryDue, retryDue_of_early early]
  · rw [deliveryRetry_of_due ring (retryDue_of_some last late)]
  · rw [if_neg]
    obtain ring | early := early
    · simp [deliveryRetryDue, ring]
    · simp [deliveryRetryDue, retryDue_of_early early]
  · rw [alertRetry_of_due ring (retryDue_of_some last late)]
  · rw [if_neg]
    obtain ring | early := early
    · simp [alertRetryDue, ring]
    · simp [alertRetryDue, retryDue_of_early early]

/-! ## A request row (R197, R198) -/

section
variable {mine : Request → Bool} {run : Request → Chip → Chip} {c : Chip} {r : Request}

theorem executeWith_of_none (h : headRequest c = none) : executeWith mine run c = c := by
  rw [executeWith, h]

/-- A request of another row is left to that row. -/
theorem executeWith_of_other (head : headRequest c = some r) (named : misnamed r = false) (other : mine r = false) :
    executeWith mine run c = c := by
  rw [executeWith, head]
  exact if_neg (by rw [named, other]; decide)

theorem executeWith_of_taken (head : headRequest c = some r) (taken : (misnamed r || mine r) = true) :
    executeWith mine run c = match earlyStatus c r with | some st => endRequest r st [] c | none => run r c := by
  rw [executeWith, head]
  exact (if_pos taken).trans (by cases earlyStatus c r <;> rfl)

theorem executeWith_of_badFormat (head : headRequest c = some r) (taken : (misnamed r || mine r) = true)
    (bad : formatOk r = false) : executeWith mine run c = endRequest r .badFormat [] c := by
  have early : earlyStatus c r = some .badFormat := if_pos (by rw [bad]; decide)
  rw [executeWith_of_taken head taken, early]

theorem executeWith_of_denied (head : headRequest c = some r) (taken : mine r = true) (good : formatOk r = true)
    (denied : authorised c r = false) : executeWith mine run c = endRequest r .denied [] c := by
  have early : earlyStatus c r = some .denied :=
    (if_neg (by rw [good]; decide)).trans (if_pos (by rw [denied]; decide))
  rw [executeWith_of_taken head (by rw [taken, Bool.or_true]), early]

/-- A request that passes the checks is executed. -/
theorem executeWith_of_passed (head : headRequest c = some r) (taken : mine r = true) (good : formatOk r = true)
    (allowed : authorised c r = true) : executeWith mine run c = run r c := by
  have early : earlyStatus c r = none :=
    (if_neg (by rw [good]; decide)).trans (if_neg (by rw [allowed]; decide))
  rw [executeWith_of_taken head (by rw [taken, Bool.or_true]), early]

end

theorem hasCode_iff {k : Nat} (small : k < 256) (r : Request) :
    hasCode (BitVec.ofNat 8 k) r = true ↔ r.code.toNat = k := by
  rw [hasCode, beq_iff_eq, ← BitVec.toNat_inj, BitVec.toNat_ofNat, Nat.mod_eq_of_lt small]

/-- A request that names no row has no right form. -/
theorem formatOk_of_misnamed {r : Request} (h : misnamed r = true) : formatOk r = false := by
  simp only [misnamed, Bool.or_eq_true, Bool.and_eq_true, decide_eq_true_eq, Option.isNone_iff_eq_none] at h
  obtain (zero | beyond) | ⟨write, noTable⟩ := h
  · rw [formatOk, zero]
    rfl
  · unfold formatOk
    dsimp only
    split
    case h_17 => rfl
    all_goals omega
  · rw [formatOk, write, noTable]
    exact Bool.and_false _

theorem eventOf_readCodeRow {k : Nat} {i : Instr} (row : readCodeRow k = some i) :
    k < 256 ∧ writeClass (BitVec.ofNat 8 k) = false ∧ ∃ run, eventOf i = some (executeWith (hasCode (BitVec.ofNat 8 k)) run) := by
  unfold readCodeRow at row
  split at row
  case h_5 => cases row
  all_goals
    cases row
    exact ⟨by decide, by decide, _, rfl⟩

theorem eventOf_writeCodeRow {k : Nat} {cfg : Bool} {i : Instr} (row : writeCodeRow k cfg = some i) :
    k < 256 ∧ ∃ run, eventOf i = some (writeEvent cfg (hasCode (BitVec.ofNat 8 k)) run) := by
  unfold writeCodeRow at row
  split at row
  case h_12 => cases row
  all_goals
    cases row
    exact ⟨by decide, _, rfl⟩

theorem eventOf_writeRow (t : Table) (cfg : Bool) : eventOf (writeRow t cfg) = some (writeTableEvent cfg t) := by
  cases t
  all_goals rfl

theorem writesTable_iff (t : Table) (r : Request) : writesTable t r = true ↔ r.code = 3 ∧ tableArg r = some t := by
  rw [writesTable, Bool.and_eq_true, beq_iff_eq, beq_iff_eq]

/-- Row `i` with CFG at a level, the part it executes a request in and the requests that are its own. -/
def RequestRow (s : State) (cfg : Bool) (i : Instr) (c : Chip) (mine : Request → Prop) : Prop :=
  (∃ k, readCodeRow k = some i ∧ c = s.chip ∧ mine = fun r => r.code.toNat = k) ∨
  (∃ k, writeCodeRow k cfg = some i ∧ c = withCfg cfg s.chip ∧ mine = fun r => r.code.toNat = k) ∨
  (∃ t, i = writeRow t cfg ∧ c = withCfg cfg s.chip ∧ mine = fun r => r.code = 3 ∧ tableArg r = some t)

/-- What a row does, whatever request it is for: it executes the head of the queue where that is its own. -/
theorem exec_requestRow {s : State} {cfg : Bool} {i : Instr} {c : Chip} {mine : Request → Prop}
    (running : s.chip.pins.running = true) (row : RequestRow s cfg i c mine) :
    ∃ test run, exec i s = .next (s.after (executeWith test run c)) ∧ ∀ r, test r = true ↔ mine r := by
  obtain ⟨k, row, rfl, rfl⟩ | ⟨k, row, rfl, rfl⟩ | ⟨t, rfl, rfl, rfl⟩ := row
  · obtain ⟨small, _, run, event⟩ := eventOf_readCodeRow row
    exact ⟨_, run, exec_of_running event running, hasCode_iff small⟩
  · obtain ⟨small, run, event⟩ := eventOf_writeCodeRow row
    exact ⟨_, run, exec_of_running event running, hasCode_iff small⟩
  · exact ⟨_, _, exec_of_running (eventOf_writeRow t cfg) running, writesTable_iff t⟩

theorem RequestRow.headRequest {s : State} {cfg : Bool} {i : Instr} {c : Chip} {mine : Request → Prop}
    (row : RequestRow s cfg i c mine) : Machine.headRequest c = Machine.headRequest s.chip := by
  obtain ⟨_, _, rfl, _⟩ | ⟨_, _, rfl, _⟩ | ⟨_, _, rfl, _⟩ := row
  all_goals rfl

/-- A write-class request whose origin is not in the authority list is not allowed while CFG is low. -/
theorem RequestRow.authorised_eq_false {s : State} {i : Instr} {c : Chip} {mine : Request → Prop} {r : Request}
    (row : RequestRow s false i c mine) (own : mine r) (writes : writeClass r.code = true)
    (origin : some r.origin ∉ s.chip.ma.authority) : authorised c r = false := by
  have denied : authorised (withCfg false s.chip) r = false := by
    rw [authorised, writes]
    simpa [withCfg] using origin
  obtain ⟨k, row, rfl, rfl⟩ | ⟨_, _, rfl, _⟩ | ⟨_, _, rfl, _⟩ := row
  · obtain ⟨small, reads, _⟩ := eventOf_readCodeRow row
    have code : r.code = BitVec.ofNat 8 k := beq_iff_eq.mp ((hasCode_iff small r).mpr own)
    exact absurd writes (by rw [code, reads]; decide)
  · exact denied
  · exact denied

/-! ## The form of a request and of a short answer (R198, R207) -/

theorem tableArg_isSome_iff (r : Request) : (tableArg r).isSome = true ↔ 1 ≤ argNat r 0 ∧ argNat r 0 ≤ 9 := by
  have nine : Table.list.length = 9 := rfl
  rw [tableArg, tableOf, argNat, wNat]
  split
  next zero => rw [zero]; decide
  next some =>
    have positive : (r.words.getD 0 0).toNat ≠ 0 := fun h => some (BitVec.eq_of_toNat_eq h)
    rw [isSome_getElem?, nine]
    omega

theorem holdKind?_isSome_iff (n : Nat) : (holdKind? n).isSome = true ↔ n ∈ [1, 5, 6, 7] := by
  unfold holdKind?
  split
  case h_5 h1 h5 h6 h7 => simpa using ⟨h1, h5, h6, h7⟩
  all_goals decide

/-- The form of every request but WRITE-TABLE, by its code. -/
theorem formatOk_iff {r : Request} (other : r.code.toNat ≠ 3) : formatOk r = true ↔
    (r.code.toNat = 1 ∧ r.words.length = 1 ∧ 1 ≤ argNat r 0 ∧ argNat r 0 ≤ 12) ∨
    (r.code.toNat = 2 ∧ r.words.length = 3 ∧ 1 ≤ argNat r 0 ∧ argNat r 0 ≤ 9) ∨
    (r.code.toNat = 4 ∧ r.words.length = 1 ∧ 1 ≤ argNat r 0 ∧ argNat r 0 ≤ 3) ∨
    (r.code.toNat = 5 ∧ r.words.length = 2) ∨
    (r.code.toNat = 7 ∧ r.words.length = 2 ∧ argNat r 0 ∈ [1, 5, 6, 7]) ∨
    (r.code.toNat = 8 ∧ r.words.length = 3 ∧ argNat r 0 ∈ [1, 5, 6, 7]) ∨
    (r.code.toNat = 9 ∧ r.words.length = 2 ∧ 1 ≤ argNat r 0 ∧ argNat r 0 ≤ 10) ∨
    (r.code.toNat = 10 ∧ r.words.length = 1 ∧ 1 ≤ argNat r 0 ∧ argNat r 0 ≤ 5) ∨
    ((r.code.toNat = 6 ∨ (11 ≤ r.code.toNat ∧ r.code.toNat ≤ 15)) ∧ r.words.length = 1) ∨
    (r.code.toNat = 16 ∧ r.words = []) := by
  unfold formatOk
  dsimp only
  generalize r.code.toNat = k at *
  split
  case h_3 => exact absurd rfl other
  case h_17 =>
    simp only [imp_false] at *
    exact iff_of_false Bool.false_ne_true (by omega)
  all_goals simp [tableArg_isSome_iff, holdKind?_isSome_iff]

/-- Settles O55: a row's five outcomes, the forms of requests, and an answer of one part; the form of a write and longer
answers are laws of their own. -/
theorem requestsAreCheckedFirst : Obligations.RequestsAreCheckedFirst := by
  refine ⟨⟨fun s cfg i c mine running row => ?_, fun r other => ?_, fun r st ws c d short part => ?_⟩, spec_writeFormat,
    spec_answerParts⟩
  · obtain ⟨test, run, ends, own⟩ := exec_requestRow running row
    have same := RequestRow.headRequest row
    rw [ends]
    refine ⟨fun none => ?_, fun r head => ⟨fun notMine named => ?_, fun named => ?_, fun isMine bad => ?_,
      fun isMine good c1 c2 c9 c10 low origin => ?_⟩⟩
    · rw [executeWith_of_none (same.trans none)]
    · rw [executeWith_of_other (same.trans head) named (Bool.eq_false_iff.mpr fun h => notMine ((own r).mp h))]
    · rw [executeWith_of_badFormat (same.trans head) (by rw [named]; rfl) (formatOk_of_misnamed named)]
      rfl
    · rw [executeWith_of_badFormat (same.trans head) (by rw [(own r).mpr isMine, Bool.or_true]) bad]
      rfl
    · subst low
      have writes : writeClass r.code = true := by
        simpa [writeClass, and_assoc] using ⟨c1, c2, c9, c10⟩
      rw [executeWith_of_denied (same.trans head) ((own r).mpr isMine) good
        (RequestRow.authorised_eq_false row isMine writes origin)]
      rfl
  · simp only [ne_eq, ← BitVec.toNat_inj (n := 8)] at other ⊢
    exact formatOk_iff other
  · refine spec_answerParts r st ws c d 1 (by omega) ?_
    rw [part, List.range_one, List.foldl_cons, List.foldl_nil, Nat.mul_zero, List.drop_zero, List.take_of_length_le short]
    simp

end Sys2Proof.Machine

/-! PROOFS. How a request that passes its checks is executed; the read-class requests. -/

namespace Sys2Proof.Machine

/-! ## The rows of requests (R198) -/

theorem headRequest_of_asked {s : State} {r : Request} (asked : Asked s r) : headRequest s.chip = some r := asked.1.2

theorem running_of_asked {s : State} {r : Request} (asked : Asked s r) : s.chip.pins.running = true := asked.1.1

theorem exec_of_asked {s : State} {r : Request} {i : Instr} {mine : Request → Bool} {run : Request → Chip → Chip}
    (asked : Asked s r) (event : eventOf i = some (executeWith mine run)) (own : mine r = true)
    (reads : writeClass r.code = false) : exec i s = .next (s.after (run r s.chip)) := by
  rw [exec_of_running event (running_of_asked asked), executeWith_of_passed (headRequest_of_asked asked) own asked.2]
  rw [authorised, reads]
  rfl

theorem authorised_of_allowed {cfg : Bool} {s : State} {r : Request} (allowed : Allowed cfg s r) :
    authorised (withCfg cfg s.chip) r = true := by
  obtain ⟨_, high | member⟩ := allowed
  · rw [authorised, withCfg, high, Bool.or_true, Bool.true_or]
  · rw [authorised, Bool.or_eq_true]
    exact .inr (List.contains_iff_mem.mpr member)

theorem exec_of_allowed {cfg : Bool} {s : State} {r : Request} {i : Instr} {mine : Request → Bool}
    {run : Request → Chip → Chip} (allowed : Allowed cfg s r) (event : eventOf i = some (writeEvent cfg mine run))
    (own : mine r = true) : exec i s = .next (s.after (run r (withCfg cfg s.chip))) := by
  rw [exec_of_running event (running_of_asked allowed.1), writeEvent,
    executeWith_of_passed (c := withCfg cfg s.chip) (headRequest_of_asked allowed.1) own allowed.1.2
      (authorised_of_allowed allowed)]

theorem hasCode_of_eq {r : Request} {k : Byte} (code : r.code = k) : hasCode k r = true := beq_iff_eq.mpr code

/-- A reply with its status, and its words where that is OK. -/
theorem replyWith_of_reply {f : Request → Chip → Reply} {r : Request} {c d : Chip} {st : Status} {ws : List Word}
    (h : f r c = (d, st, ws)) : replyWith f r c = endRequest r st (if st = .ok then ws else []) d := by
  rw [replyWith, h]

/-! ## READ-STATUS, READ-TABLE and LIST (R199, R200) -/

theorem statusOf_isSome {block : Nat} (h : 1 ≤ block ∧ block ≤ 12) (c : Chip) : ∃ ws, statusOf block c = some ws := by
  obtain ⟨low, high⟩ := h
  unfold statusOf
  split
  case h_13 =>
    simp only [imp_false] at *
    omega
  all_goals exact ⟨_, rfl⟩

theorem lt_partCount_iff (ws : List Word) : 32 < partCount ws ↔ 480 < ws.length := by
  rw [partCount]
  omega

theorem beyondTable_iff (t : Table) (first count : Nat) :
    beyondTable t first count = true ↔ t.size ≤ first ∨ t.size < first + count := by
  rw [beyondTable, Bool.or_eq_true, decide_eq_true_eq, decide_eq_true_eq]

/-- A table's entries: BAD-INDEX beyond the table, RANGE above 32 parts of 15 words. -/
theorem readTable_eq {t : Table} {first count : Nat} {c : Chip} {ws : List Word}
    (entries : ws = (List.range count).flatMap fun i => entryWords t (first + i) c) :
    readTable t first count c = if t.size ≤ first ∨ t.size < first + count then (.badIndex, [])
      else if 480 < ws.length then (.range, []) else (.ok, ws) := by
  subst entries
  unfold readTable
  exact if_congr (beyondTable_iff t first count) rfl (if_congr (lt_partCount_iff _) rfl rfl)

theorem exec_readTable {s : State} {r : Request} {t : Table} {st : Status} {ws : List Word} (asked : Asked s r)
    (code : r.code = 2) (named : tableArg r = some t) (reads : readTable t (argNat r 1) (argNat r 2) s.chip = (st, ws)) :
    exec .readTable s = .next (s.answered r st (if st = .ok then ws else []) s.chip) := by
  have reply : runReadTable r s.chip = (s.chip, st, ws) := by
    rw [runReadTable, named]
    exact congrArg _ reads
  rw [exec_of_asked (i := .readTable) asked rfl (hasCode_of_eq code) (by rw [code]; rfl), replyWith_of_reply reply]
  rfl

/-- The ids of a queue by its place in the list of queues. -/
theorem idsOf_eq {queue : Nat} {c : Chip} {ids : List Nat} (positive : 1 ≤ queue)
    (named : [c.st.qBlanch.map (·.id), c.st.qChill.map (·.id), c.st.qFreeze.map (·.id), c.st.qSurge.map (·.id),
      c.td.dock][queue - 1]? = some ids) : idsOf queue c = some ids := by
  obtain ⟨below, _⟩ := List.getElem?_eq_some_iff.mp named
  have five : queue = 1 ∨ queue = 2 ∨ queue = 3 ∨ queue = 4 ∨ queue = 5 := by
    simp only [List.length_cons, List.length_nil] at below
    omega
  rw [← named]
  obtain rfl | rfl | rfl | rfl | rfl := five
  all_goals rfl

/-! ## READ-RECORD (R200) -/

theorem findSome?_of_only {α β : Type} {f : α → Option β} {l : List α} {a : α} {b : β} (mem : a ∈ l) (here : f a = some b)
    (others : ∀ x ∈ l, x ≠ a → f x = none) : l.findSome? f = some b := by
  induction l with
  | nil => cases mem
  | cons x l ih =>
    by_cases same : x = a
    · rw [List.findSome?_cons, same, here]
    · rw [List.findSome?_cons, others x List.mem_cons_self same]
      exact ih ((List.mem_cons.mp mem).resolve_left (Ne.symm same)) fun y m => others y (List.mem_cons_of_mem _ m)

/-- A queue without a segment's id has no place for it. -/
theorem findInQueue_eq_none {q : List Segment} {id : Nat} (absent : ∀ g ∈ q, g.id ≠ id) :
    q.zipIdx.find? (fun x => x.1.id == id) = none := by
  rw [List.find?_eq_none]
  rintro ⟨g, i⟩ mem
  simpa using absent g (List.fst_mem_of_mem_zipIdx mem)

theorem findSegment_of_absent {c : Chip} {id : Nat} (absent : ∀ st, ∀ g ∈ queueOf c.st st, g.id ≠ id) :
    findSegment c id = none := by
  refine List.findSome?_eq_none_iff.mpr fun st _ => ?_
  exact congrArg (Option.map _) (findInQueue_eq_none (absent st))

theorem findSegment_of_queue {c : Chip} {id : Nat} {st : Stage} {before after : List Segment} {g : Segment}
    (queue : queueOf c.st st = before ++ g :: after) (others : ∀ x ∈ before, x.id ≠ id) (here : g.id = id)
    (elsewhere : ∀ st', st' ≠ st → ∀ x ∈ queueOf c.st st', x.id ≠ id) :
    findSegment c id = some (g, st, before.length) := by
  refine findSome?_of_only (a := st) (by cases st <;> decide) ?_ fun st' _ ne => ?_
  · have place := find?_zipIdx_append_cons (f := fun g : Segment => g.id == id) (after := after)
      (fun x mem => beq_false_of_ne (others x mem)) (beq_iff_eq.mpr here)
    rw [queue]
    exact congrArg (Option.map _) place
  · exact congrArg (Option.map _) (findInQueue_eq_none (elsewhere st' ne))

theorem indexed_of_beyond {n id : Nat} (c : Chip) (ws : Option (List Word)) (h : n ≤ id) :
    indexed c n id ws = (c, .badIndex, []) := if_pos h

theorem indexed_of_below {n id : Nat} (c : Chip) (ws : Option (List Word)) (h : id < n) : indexed c n id ws = found c ws :=
  if_neg (Nat.not_le.mpr h)

section
variable {s : State} {r : Request} (asked : Asked s r) (code : r.code = 9)
include asked code

theorem exec_readRecord : exec .readRecord s = .next (s.after (runReadRecord r s.chip)) :=
  exec_of_asked (i := .readRecord) asked rfl (hasCode_of_eq code) (by rw [code]; rfl)

/-- A record of any kind but a place. -/
theorem exec_readRecord_of_reply {kind : Nat} {st : Status} {ws : List Word} {d : Chip} (named : argNat r 0 = kind)
    (other : kind ≠ 5) (reply : readRecordOf kind (argNat r 1) s.chip = (d, st, ws)) :
    exec .readRecord s = .next (s.answered r st (if st = .ok then ws else []) d) := by
  subst named
  have run : runReadRecord r s.chip = replyWith (fun q d => readRecordOf (argNat q 0) (argNat q 1) d) r s.chip :=
    if_neg other
  rw [exec_readRecord asked code, run, replyWith_of_reply reply]
  rfl

/-- A record that exists is answered with its words. -/
theorem exec_readRecord_of_found {kind : Nat} {ws : List Word} (named : argNat r 0 = kind) (other : kind ≠ 5)
    (reply : readRecordOf kind (argNat r 1) s.chip = found s.chip (some ws)) :
    exec .readRecord s = .next (s.answered r .ok ws s.chip) := exec_readRecord_of_reply asked code named other reply

/-- One that does not exist is NOT-FOUND. -/
theorem exec_readRecord_of_notFound {kind : Nat} (named : argNat r 0 = kind) (other : kind ≠ 5)
    (reply : readRecordOf kind (argNat r 1) s.chip = found s.chip none) :
    exec .readRecord s = .next (s.answered r .notFound [] s.chip) := exec_readRecord_of_reply asked code named other reply

/-- An index beyond its table is BAD-INDEX. -/
theorem exec_readRecord_of_beyond {n : Nat}
    (table : (argNat r 0, n) ∈ [(2, 48), (3, 8), (4, 4), (7, 8), (8, 4), (9, 32), (10, 32), (5, 1024)])
    (beyond : n ≤ argNat r 1) : exec .readRecord s = .next (s.answered r .badIndex [] s.chip) := by
  have reply (kind : Nat) (named : argNat r 0 = kind) (other : kind ≠ 5) (ws : Option (List Word))
      (indexes : readRecordOf kind (argNat r 1) s.chip = indexed s.chip n (argNat r 1) ws) :
      exec .readRecord s = .next (s.answered r .badIndex [] s.chip) :=
    exec_readRecord_of_reply asked code named other (indexes.trans (indexed_of_beyond _ _ beyond))
  simp only [List.mem_cons, Prod.mk.injEq, List.not_mem_nil, or_false] at table
  obtain ⟨kind, rfl⟩ | ⟨kind, rfl⟩ | ⟨kind, rfl⟩ | ⟨kind, rfl⟩ | ⟨kind, rfl⟩ | ⟨kind, rfl⟩ | ⟨kind, rfl⟩ | ⟨kind, rfl⟩ := table
  case inr.inr.inr.inr.inr.inr.inr =>
    have run : runReadRecord r s.chip = endRequest r .badIndex [] s.chip := (if_pos kind).trans (if_pos beyond)
    rw [exec_readRecord asked code, run]
    rfl
  all_goals exact reply _ kind (by decide) _ rfl

/-- A pallet, with its remaining budget as a word. -/
theorem exec_readRecord_of_pallet {p : Pallet} {w : Word} {d : Chip} (kind : argNat r 0 = 6)
    (pallet : palletAt s.chip (argNat r 1) = some p) (word : signedWord (remainingBudget s.chip p) s.chip = (d, w)) :
    exec .readRecord s = .next (s.answered r .ok (palletWords p w) d) := by
  refine exec_readRecord_of_reply asked code kind (by decide) ?_
  rw [readRecordOf, pallet]
  dsimp only
  rw [word]
  rfl

/-- A place: one that is PENDING is answered from the write queue, any other waits for its read. -/
theorem exec_readRecord_of_place (kind : argNat r 0 = 5) (below : argNat r 1 < 1024) :
    exec .readRecord s = .next (s.after (match pendingWordsOf (argNat r 1) s.chip with
      | some ws => endRequest r .ok ws s.chip
      | none => { s.chip with ma := { s.chip.ma with phase := .reading }
                              tm := { s.chip.tm with readWaiting := some (argNat r 1) } })) := by
  have run := (if_pos kind).trans (if_neg (Nat.not_lt.mpr (Nat.le_of_lt_succ below))) (a := runReadRecord r s.chip)
  refine (exec_readRecord asked code).trans (congrArg (fun c => Host.Outcome.next (s.after c)) (run.trans ?_))
  cases pendingWordsOf (argNat r 1) s.chip <;> rfl

end

/-- Settles O56: the four read-class requests; the words of the answers are laws of their own. -/
theorem readsAreAnswered : Obligations.ReadsAreAnswered := by
  refine ⟨fun s r asked => ⟨fun code => ?_, fun code t first count ws named rf rc entries => ?_,
    fun code ids named => ?_, fun code id names => ?_⟩, spec_fieldWords, spec_status, spec_records, spec_entries,
    spec_readBack⟩
  case refine_1 =>
    have format := (formatOk_iff (by rw [code]; decide)).mp asked.2
    have range : r.words.length = 1 ∧ 1 ≤ argNat r 0 ∧ argNat r 0 ≤ 12 := by simpa [code] using format
    obtain ⟨ws, status⟩ := statusOf_isSome range.2 s.chip
    have reply : runReadStatus r s.chip = (s.chip, .ok, ws) := by rw [runReadStatus, status, Option.getD_some]
    refine ⟨ws, status, ?_⟩
    rw [exec_of_asked (i := .readStatus) asked rfl (hasCode_of_eq code) (by rw [code]; rfl), replyWith_of_reply reply]
    rfl
  case refine_2 =>
    subst rf rc
    have reads := readTable_eq entries
    refine ⟨fun beyond => ?_, fun low high long => ?_, fun low high short => ?_⟩
    · exact exec_readTable asked code named (reads.trans (if_pos beyond))
    · exact exec_readTable asked code named (reads.trans ((if_neg (by omega)).trans (if_pos long)))
    · exact exec_readTable asked code named (reads.trans ((if_neg (by omega)).trans (if_neg (by omega))))
  case refine_3 =>
    have format := (formatOk_iff (by rw [code]; decide)).mp asked.2
    have range : r.words.length = 1 ∧ 1 ≤ argNat r 0 ∧ argNat r 0 ≤ 5 := by simpa [code] using format
    have reply : runList r s.chip = (s.chip, .ok, listWords ids) := by rw [runList, idsOf_eq range.2.1 named]
    rw [exec_of_asked (i := .list) asked rfl (hasCode_of_eq code) (by rw [code]; rfl), replyWith_of_reply reply]
    rfl
  case refine_4 =>
    subst names
    have none {kind : Nat} (named : argNat r 0 = kind) := exec_readRecord_of_notFound asked code named
    have some {kind : Nat} {ws : List Word} (named : argNat r 0 = kind) :=
      exec_readRecord_of_found asked code (ws := ws) named
    refine ⟨fun kind absent => none kind (by decide) (by rw [readRecordOf, findSegment_of_absent absent]; rfl),
      fun kind st before after g queue others here elsewhere => some kind (by decide) (by
        rw [readRecordOf, findSegment_of_queue queue others here elsewhere]; rfl),
      fun n => exec_readRecord_of_beyond asked code,
      fun kind below => some kind (by decide) (indexed_of_below _ _ below),
      fun kind below => some kind (by decide) (indexed_of_below _ _ below),
      fun kind below => some kind (by decide) (indexed_of_below _ _ below),
      fun kind absent => none kind (by decide) (by rw [readRecordOf, absent]; rfl),
      fun kind p pallet low high => exec_readRecord_of_pallet asked code kind pallet (if_pos ⟨low, high⟩),
      fun kind p pallet outside => ⟨_, exec_readRecord_of_pallet asked code kind pallet (if_neg (by omega))⟩,
      fun kind below absent => none kind (by decide) (by
        rw [readRecordOf, indexed_of_below _ _ below, absent]; rfl),
      fun kind below l lot => some kind (by decide) (by rw [readRecordOf, indexed_of_below _ _ below, lot]; rfl),
      fun kind below => some kind (by decide) (indexed_of_below _ _ below),
      fun kind below t trap => some kind (by decide) (by rw [readRecordOf, indexed_of_below _ _ below, trap]; rfl),
      fun kind below absent => none kind (by decide) (by
        rw [readRecordOf, indexed_of_below _ _ below, absent]; rfl),
      fun kind below absent => none kind (by decide) (by
        rw [readRecordOf, indexed_of_below _ _ below, absent]; rfl),
      fun kind below e shadow => some kind (by decide) (by
        rw [readRecordOf, indexed_of_below _ _ below, shadow]; rfl),
      fun kind below ws pending => ?_, fun kind below place => ?_⟩
    · rw [exec_readRecord_of_place asked code kind below, pending]
      rfl
    · have waits : pendingWordsOf (argNat r 1) s.chip = Option.none := if_neg place
      rw [exec_readRecord_of_place asked code kind below, waits]

end Sys2Proof.Machine

/-! PROOFS. Writes of the nine tables. -/

namespace Sys2Proof.Machine

/-! ## Entries put into a list -/

theorem putEntries_cons {α : Type} (f : α → List Word → α) (x : Nat × List Word) (es : List (Nat × List Word)) (l : List α) :
    putEntries f (x :: es) l = putEntries f es (l.modify x.1 fun a => f a x.2) := rfl

theorem putEntries_append {α : Type} (f : α → List Word → α) (es fs : List (Nat × List Word)) (l : List α) :
    putEntries f (es ++ fs) l = putEntries f fs (putEntries f es l) := List.foldl_append ..

/-- An index that no entry names keeps its member. -/
theorem getElem?_putEntries_of_absent {α : Type} (f : α → List Word → α) {es : List (Nat × List Word)} {i : Nat}
    (absent : ∀ x ∈ es, x.1 ≠ i) (l : List α) : (putEntries f es l)[i]? = l[i]? := by
  induction es generalizing l with
  | nil => rfl
  | cons x es ih =>
    rw [putEntries_cons, ih (fun y mem => absent y (List.mem_cons_of_mem _ mem)), List.getElem?_modify]
    simp only [if_neg (absent x List.mem_cons_self), id_map']

/-- An index that one entry names has that entry put. -/
theorem getElem?_putEntries_of_single {α : Type} (f : α → List Word → α) {before after : List (Nat × List Word)} {i : Nat}
    {ws : List Word} (single : ∀ x ∈ before ++ after, x.1 ≠ i) (l : List α) :
    (putEntries f (before ++ (i, ws) :: after) l)[i]? = l[i]?.map fun x => f x ws := by
  rw [putEntries_append, putEntries_cons,
    getElem?_putEntries_of_absent f fun x mem => single x (List.mem_append_right _ mem), List.getElem?_modify,
    getElem?_putEntries_of_absent f fun x mem => single x (List.mem_append_left _ mem)]
  simp only [if_true]
  rfl

/-! ## The checks of WRITE-TABLE (R199) -/

theorem lineTable_iff (t : Table) : t.lineTable = true ↔ t ∈ [Table.channelMap, .tracks, .geometry, .guards] := by
  cases t
  all_goals decide

theorem writeTable_of_beyond {t : Table} {first count : Nat} (ws : List Word) (c : Chip)
    (h : t.size ≤ first ∨ t.size < first + count) : writeTable t first count ws c = (c, .badIndex) :=
  if_pos ((beyondTable_iff t first count).mpr h)

theorem writeTable_of_mode {t : Table} {first count : Nat} (ws : List Word) {c : Chip} (start : first < t.size)
    (stop : first + count ≤ t.size) (line : t ∈ [Table.channelMap, .tracks, .geometry, .guards])
    (mode : c.ag.mode = .production) : writeTable t first count ws c = (c, .mode) :=
  (if_neg (by rw [beyondTable_iff]; omega)).trans (if_pos ⟨(lineTable_iff t).mpr line, mode⟩)

/-- A write inside its table, which is not a line table in PRODUCTION, comes to the table's own checks. -/
theorem writeTable_of_inside {t : Table} {first count : Nat} (ws : List Word) {c : Chip} (start : first < t.size)
    (stop : first + count ≤ t.size) (mode : t ∈ [Table.channelMap, .tracks, .geometry, .guards] → c.ag.mode ≠ .production) :
    writeTable t first count ws c = writeEntries t (cutEntries t count first ws) c :=
  (if_neg (by rw [beyondTable_iff]; omega)).trans
    (if_neg fun h => mode ((lineTable_iff t).mp h.1) h.2)

theorem exec_writeRow {cfg : Bool} {s : State} {r : Request} {t : Table} {d : Chip} {st : Status} (allowed : Allowed cfg s r)
    (code : r.code = 3) (named : tableArg r = some t)
    (write : writeTable t (argNat r 1) (argNat r 2) (r.words.drop 3) (withCfg cfg s.chip) = (d, st)) :
    exec (writeRow t cfg) s = .next (s.answered r st [] d) := by
  have reply : runWriteTable t r (withCfg cfg s.chip) = (d, st, []) := by rw [runWriteTable, write]; rfl
  rw [exec_of_allowed allowed (eventOf_writeRow t cfg) ((writesTable_iff t r).mpr ⟨code, named⟩),
    replyWith_of_reply reply, ite_self]
  rfl

/-! ## The tables' own checks -/

theorem ite_of_and_eq_true {α : Type} {a b : Bool} {x y : α} (ha : a = true) (hb : b = true) :
    (if (a && b) = true then x else y) = x := if_pos (by rw [ha, hb]; rfl)

theorem ite_of_and_eq_false {α : Type} {a b : Bool} {x y : α} (h : a = false ∨ b = false) :
    (if (a && b) = true then x else y) = y := if_neg (by rw [Bool.and_eq_false_iff.mpr h]; decide)

theorem recipeHeld_iff (c : Chip) (i : Nat) : recipeHeld c i = true ↔ ∃ l, some l ∈ c.lh.lots ∧ l.recipe = i := by
  rw [recipeHeld, List.any_eq_true]
  constructor
  · rintro ⟨l, mem, held⟩
    cases l with
    | none => cases held
    | some l => exact ⟨l, mem, of_decide_eq_true held⟩
  · rintro ⟨l, mem, held⟩
    exact ⟨some l, mem, decide_eq_true held⟩

theorem shuttleWritable_iff (u : Shuttle) : shuttleWritable u = true ↔ u.state = .offline ∨ u.state = .fault := by
  rw [shuttleWritable, Bool.or_eq_true, beq_iff_eq, beq_iff_eq]

section
variable {es : List (Nat × List Word)} {c : Chip}

theorem writeRecipes_of_held (h : ∃ x ∈ es, ∃ l, some l ∈ c.lh.lots ∧ l.recipe = x.1) :
    writeRecipes es c = (c, .lotActive) := by
  obtain ⟨x, mem, held⟩ := h
  exact if_pos (List.any_eq_true.mpr ⟨x, mem, (recipeHeld_iff c x.1).mpr held⟩)

theorem writeRecipes_of_not_held (h : ∀ x ∈ es, ∀ l, some l ∈ c.lh.lots → l.recipe ≠ x.1) :
    writeRecipes es c =
      if (entriesRange .recipes es && es.all fun x => recipeOk (recipeOf x.2)) = true then
        ({ c with lh := { c.lh with recipes := putEntries (fun _ ws => recipeOf ws) es c.lh.recipes } }, .ok)
      else (c, .range) := by
  refine if_neg fun held => ?_
  obtain ⟨x, mem, here⟩ := List.any_eq_true.mp held
  obtain ⟨l, lot, same⟩ := (recipeHeld_iff c x.1).mp here
  exact h x mem l lot same

theorem writeShuttles_of_busy (h : ∃ x ∈ es, (shuttleAt c x.1).state ≠ .offline ∧ (shuttleAt c x.1).state ≠ .fault) :
    writeShuttles es c = (c, .mode) := by
  obtain ⟨x, mem, offline, fault⟩ := h
  refine if_pos (List.any_eq_true.mpr ⟨x, mem, ?_⟩)
  have busy : shuttleWritable (shuttleAt c x.1) = false :=
    Bool.eq_false_iff.mpr fun h => ((shuttleWritable_iff _).mp h).elim offline fault
  exact (congrArg not busy).trans rfl

theorem writeShuttles_of_writable (h : ∀ x ∈ es, (shuttleAt c x.1).state = .offline ∨ (shuttleAt c x.1).state = .fault) :
    writeShuttles es c =
      if (entriesRange .shuttles es && es.all fun x => pointFree c (wKey x.2 0)) = true then
        ({ c with td := { c.td with shuttles := putEntries shuttleOf es c.td.shuttles } }, .ok)
      else (c, .range) := by
  refine if_neg fun busy => ?_
  obtain ⟨x, mem, here⟩ := List.any_eq_true.mp busy
  have free : shuttleWritable (shuttleAt c x.1) = true := (shuttleWritable_iff _).mpr (h x mem)
  exact absurd ((congrArg not free).symm.trans here) (by decide)

theorem writeMap_of_valid {chans : List IntakeChan} {zones : List DoseZone}
    (put : chans = putEntries (fun _ ws => { cfg := intakeOf ws, dyn := .clear }) es c.si.chans)
    (marks : zones = doseZonesAfter (es.map (·.1)) c.si.chans chans c.de.zones)
    (range : entriesRange .channelMap es = true) (valid : mapValid (chans.map (·.cfg)) = true) :
    writeMap es c = (es.foldl (fun d x => afterMapWrite c.si.chans x.1 d)
      { c with si := { c.si with chans := chans }, de := { zones := zones } }, .ok) := by
  subst put marks
  exact ite_of_and_eq_true range valid

end

/-- Settles O57: the checks of every table, then each table's own checks and its write, case by case; the checks
themselves and what follows a map write are laws of their own. -/
theorem tablesAreWritten : Obligations.TablesAreWritten := by
  refine ⟨⟨fun cfg s r t first count es c allowed code named rf rc entries level => ?_,
    fun α f es l i => ⟨fun absent => getElem?_putEntries_of_absent f absent l, length_putEntries f es l,
      fun before ws after split single => ?_⟩⟩, spec_afterMapWrite, spec_mapChecks, spec_trackChecks, spec_geometryChecks,
    spec_otherChecks, spec_ranges, spec_refreshUnsent, spec_recover⟩
  case refine_2 =>
    rw [split]
    exact getElem?_putEntries_of_single f single l
  case refine_1 =>
    subst rf rc entries level
    have ends {d : Chip} {st : Status} := exec_writeRow (d := d) (st := st) allowed code named
    refine ⟨fun beyond => ends (writeTable_of_beyond _ _ beyond),
      fun start stop line mode => ends (writeTable_of_mode _ start stop line mode), fun start stop mode => ?_⟩
    have own {d : Chip} {st : Status}
        (h : writeEntries t (cutEntries t (argNat r 2) (argNat r 1) (r.words.drop 3)) (withCfg cfg s.chip) = (d, st)) :=
      ends ((writeTable_of_inside _ (c := withCfg cfg s.chip) start stop mode).trans h)
    generalize cutEntries t (argNat r 2) (argNat r 1) (r.words.drop 3) = es at own ⊢
    refine ⟨?map, ?tracks, ?geometry, ?guards, ?recipes, ?shuttles, ?routes, ?line, ?authority⟩
    case map =>
      rintro rfl chans zones put size marks
      exact ⟨fun range valid => own (writeMap_of_valid put (eq_doseZonesAfter size marks) range valid),
        fun bad => own (by subst put; exact ite_of_and_eq_false bad)⟩
    case tracks =>
      rintro rfl put value
      subst value
      refine ⟨fun range valid d stopped => ?_, fun bad => own (ite_of_and_eq_false bad)⟩
      subst stopped
      exact own (ite_of_and_eq_true range valid)
    case geometry =>
      rintro rfl st value
      subst value
      exact ⟨fun range valid empty => own ((ite_of_and_eq_true range valid).trans (if_pos (List.isEmpty_iff.mpr empty))),
        fun range valid live => own ((ite_of_and_eq_true range valid).trans
          (if_neg fun empty => live (List.isEmpty_iff.mp empty))),
        fun bad => own (ite_of_and_eq_false bad)⟩
    case guards =>
      rintro rfl ok value
      exact ⟨fun good => own (if_pos (value.symm.trans good)),
        fun bad => own (if_neg (Bool.eq_false_iff.mp (value.symm.trans bad)))⟩
    case recipes =>
      rintro rfl ok value
      exact ⟨fun held => own (writeRecipes_of_held held),
        fun free good => own ((writeRecipes_of_not_held free).trans (if_pos (value.symm.trans good))),
        fun free bad => own ((writeRecipes_of_not_held free).trans
          (if_neg (Bool.eq_false_iff.mp (value.symm.trans bad))))⟩
    case shuttles =>
      rintro rfl ok value
      exact ⟨fun busy => own (writeShuttles_of_busy busy),
        fun free good => own ((writeShuttles_of_writable free).trans (if_pos (value.symm.trans good))),
        fun free bad => own ((writeShuttles_of_writable free).trans
          (if_neg (Bool.eq_false_iff.mp (value.symm.trans bad))))⟩
    case routes =>
      rintro rfl
      exact ⟨fun range => own (if_pos range), fun bad => own (if_neg (Bool.eq_false_iff.mp bad))⟩
    case line =>
      rintro rfl ok value
      exact ⟨fun good => own (if_pos (value.symm.trans good)),
        fun bad => own (if_neg (Bool.eq_false_iff.mp (value.symm.trans bad)))⟩
    case authority =>
      rintro rfl
      exact ⟨fun low => own (if_pos low),
        fun high range => own ((if_neg fun low : cfg = false => Bool.false_ne_true (low.symm.trans high)).trans
          (if_pos range)),
        fun high bad => own ((if_neg fun low : cfg = false => Bool.false_ne_true (low.symm.trans high)).trans
          (if_neg (Bool.eq_false_iff.mp bad)))⟩

end Sys2Proof.Machine

/-! PROOFS. Line mode, lots and holds. -/

namespace Sys2Proof.Machine

theorem exec_of_reply {cfg : Bool} {s : State} {r : Request} {i : Instr} {k : Byte} {f : Request → Chip → Reply}
    {d : Chip} {st : Status} {ws : List Word} (allowed : Allowed cfg s r)
    (event : eventOf i = some (writeEvent cfg (hasCode k) (replyWith f))) (code : r.code = k)
    (reply : f r (withCfg cfg s.chip) = (d, st, ws)) :
    exec i s = .next (s.answered r st (if st = .ok then ws else []) d) := by
  rw [exec_of_allowed allowed event (hasCode_of_eq code), replyWith_of_reply reply]
  rfl

/-- A reply without words. -/
theorem exec_of_plain {cfg : Bool} {s : State} {r : Request} {i : Instr} {k : Byte} {f : Request → Chip → Reply}
    {d : Chip} {st : Status} (allowed : Allowed cfg s r)
    (event : eventOf i = some (writeEvent cfg (hasCode k) (replyWith f))) (code : r.code = k)
    (reply : f r (withCfg cfg s.chip) = (d, st, [])) : exec i s = .next (s.answered r st [] d) := by
  rw [exec_of_reply allowed event code reply, ite_self]

/-! ## Line mode (R181, R182) -/

theorem withMode_self {m : Mode} {c : Chip} (mode : c.ag.mode = m) : withMode m c = c := by
  rw [withMode, ← mode]

theorem setMode_commission (c : Chip) : setMode .commission c = (withMode .commission c, .ok) := by
  unfold setMode
  cases mode : c.ag.mode with
  | commission => rw [withMode_self mode]
  | offline => rfl
  | production => rfl

theorem setMode_production_of_offline {c : Chip} (mode : c.ag.mode = .offline) :
    setMode .production c = (c, .mode) := by
  unfold setMode
  rw [mode]

theorem setMode_production_of_production {c : Chip} (mode : c.ag.mode = .production) :
    setMode .production c = (c, .ok) := by
  unfold setMode
  rw [mode]

theorem setMode_production_of_commission {c : Chip} (mode : c.ag.mode = .commission) :
    setMode .production c = if productionReady c = true
      then (resendUnsent (arbitrate (withMode .production c)), .ok) else (c, .notReady) := by
  unfold setMode
  rw [mode]

theorem encoderReady_iff (c : Chip) (b : Belt) : encoderReady c b = true ↔
    (intakeChan c (encoderOf c.st b)).cfg.enabled = true ∧
      ∃ x, (intakeChan c (encoderOf c.st b)).cfg.role = some (.encoder x) := by
  rw [encoderReady, Bool.and_eq_true]
  refine and_congr_right fun _ => ?_
  split
  next x role => exact iff_of_true rfl ⟨x, role⟩
  next other => exact iff_of_false Bool.false_ne_true fun ⟨x, role⟩ => other x role

theorem productionReady_iff (c : Chip) : productionReady c = true ↔
    c.st.blanch.written = true ∧ c.st.chill.written = true ∧ c.st.freeze.written = true ∧
    (∀ e ∈ [c.st.blanch.encoder, c.st.chill.encoder, c.st.freeze.encoder],
      (intakeChan c e).cfg.enabled = true ∧ ∃ b, (intakeChan c e).cfg.role = some (.encoder b)) ∧
    (trackChan c c.st.blanch.cutChannel).cfg.mode = .cut ∧
    (trackChan c c.st.blanch.cutChannel).cfg.length = c.st.blanch.segLen ∧
    (trackChan c c.st.blanch.cutChannel).cfg.source = .encoder c.st.blanch.encoder ∧
    ∃ r ∈ c.lh.recipes, r.valid = true := by
  simp only [productionReady, geometryValid, Bool.and_eq_true, encoderReady_iff, encoderOf, beq_iff_eq,
    decide_eq_true_eq, List.any_eq_true, List.forall_mem_cons, List.not_mem_nil, false_implies, implies_true, and_true,
    and_assoc]

/-! ## Lots (R113, R114) -/

theorem drainLot_clock (i : Nat) (c : Chip) : (drainLot i c).clock = c.clock := by
  have kept : (front (drainLot i c)).clock = (front c).clock := by rw [front_drainLot]
  exact kept

section
variable {number : Word} {recipe : Nat} {c : Chip}

/-- A lot with the number, among the entries that are not FREE. -/
theorem numberTaken_iff (c : Chip) (number : Word) :
    (c.lh.lots.any fun l => match l with | some e => e.number == number | none => false) = true ↔
      ∃ l, some l ∈ c.lh.lots ∧ l.number = number := by
  rw [List.any_eq_true]
  constructor
  · rintro ⟨l, mem, same⟩
    cases l with
    | none => cases same
    | some l => exact ⟨l, mem, beq_iff_eq.mp same⟩
  · rintro ⟨l, mem, same⟩
    exact ⟨some l, mem, beq_iff_eq.mpr same⟩

theorem openLot_of_beyond (h : 15 < recipe) : openLot number recipe c = (c, .badIndex, []) := if_pos h

theorem openLot_of_invalid (below : recipe ≤ 15) (invalid : (c.lh.recipes.getD recipe .power).valid = false) :
    openLot number recipe c = (c, .range, []) := (if_neg (Nat.not_lt.mpr below)).trans (if_pos invalid)

theorem openLot_of_taken (below : recipe ≤ 15) (valid : (c.lh.recipes.getD recipe .power).valid = true)
    (taken : ∃ l, some l ∈ c.lh.lots ∧ l.number = number) : openLot number recipe c = (c, .lotActive, []) :=
  (if_neg (Nat.not_lt.mpr below)).trans ((if_neg (by rw [valid]; decide)).trans
    (if_pos ((numberTaken_iff c number).mpr taken)))

/-- With a recipe that may be used and a number that is new, the first FREE entry is taken. -/
theorem openLot_of_new (below : recipe ≤ 15) (valid : (c.lh.recipes.getD recipe .power).valid = true)
    (new : ∀ l, some l ∈ c.lh.lots → l.number ≠ number) :
    openLot number recipe c = match c.lh.lots.findIdx? Option.isNone with
      | none => (c, .noRoom, [])
      | some i =>
        let c1 := match openLot? c with | some o => drainLot o c | none => c
        ({ c1 with lh := { c1.lh with lots := c1.lh.lots.set i (some (newLot number recipe c1.clock.line)) } }, .ok,
          [natW i]) := by
  have free := fun taken => (fun ⟨l, mem, same⟩ => new l mem same : ¬ ∃ l, some l ∈ c.lh.lots ∧ l.number = number)
    ((numberTaken_iff c number).mp taken)
  refine (if_neg (Nat.not_lt.mpr below)).trans ((if_neg (by rw [valid]; decide)).trans ((if_neg free).trans ?_))
  cases c.lh.lots.findIdx? Option.isNone <;> rfl

theorem openLot_of_full (below : recipe ≤ 15) (valid : (c.lh.recipes.getD recipe .power).valid = true)
    (new : ∀ l, some l ∈ c.lh.lots → l.number ≠ number) (full : ∀ l ∈ c.lh.lots, l ≠ none) :
    openLot number recipe c = (c, .noRoom, []) := by
  have none : c.lh.lots.findIdx? Option.isNone = none :=
    List.findIdx?_eq_none_iff.mpr fun l mem => by simpa [Option.isSome_iff_ne_none] using full l mem
  rw [openLot_of_new below valid new, none]

theorem openLot_of_room {before after : List (Option Lot)} {d : Chip} (below : recipe ≤ 15)
    (valid : (c.lh.recipes.getD recipe .power).valid = true) (new : ∀ l, some l ∈ c.lh.lots → l.number ≠ number)
    (lots : c.lh.lots = before ++ none :: after) (used : ∀ l ∈ before, l ≠ none)
    (old : ∀ o, openLot? c = some o → d = drainLot o c) (alone : openLot? c = none → d = c) :
    openLot number recipe c = ({ d with lh := { d.lh with
      lots := d.lh.lots.set before.length (some (newLot number recipe c.clock.line)) } }, .ok, [natW before.length]) := by
  have place : c.lh.lots.findIdx? Option.isNone = some before.length := by
    rw [lots]
    exact findIdx?_append_cons (fun l mem => by simpa [Option.isSome_iff_ne_none] using used l mem) rfl
  rw [openLot_of_new below valid new, place]
  cases opened : openLot? c with
  | none => rw [alone opened]
  | some o =>
    rw [old o opened]
    dsimp only
    rw [drainLot_clock]

end

/-! ## Holds (R121, R122) -/

/-- A row of holds: its command, the change it makes to a hold set, and the words that it answers for one. -/
def HoldRow (cfg : Bool) (r : Request) (i : Instr) (f : HoldSet → HoldSet) (ans : HoldSet → List Word) (kind : Nat) : Prop :=
  (r.code = 7 ∧ i = .placeHold cfg ∧ (f = fun h => h ||| HoldReason.manual.only) ∧
      (ans = fun h => if kind = 5 then [BitVec.setWidth 32 h] else [])) ∨
    (r.code = 8 ∧ i = .releaseHold cfg ∧ (f = fun h => h &&& ~~~ BitVec.setWidth 14 (r.words.getD 2 0)) ∧
      (ans = fun h => [BitVec.setWidth 32 h]))

theorem holdKind?_eq_bag_iff {n : Nat} {k : HoldKind} (h : holdKind? n = some k) : k = .bag ↔ n = 5 := by
  unfold holdKind? at h
  split at h
  case h_5 => cases h
  all_goals
    cases h
    decide

section
variable {cfg : Bool} {s : State} {r : Request} {i : Instr} {f : HoldSet → HoldSet} {ans : HoldSet → List Word} {d : Chip}
  {k : HoldKind} (allowed : Allowed cfg s r) (row : HoldRow cfg r i f ans (argNat r 0))
  (kind : holdKind? (argNat r 0) = some k)
include allowed row kind

/-- A hold that is changed answers the set after it. -/
theorem exec_holdRow_of_changed {h : HoldSet}
    (change : changeHold k (argNat r 1) f (withCfg cfg s.chip) = (d, .ok, [BitVec.setWidth 32 h])) :
    exec i s = .next (s.answered r .ok (ans h) d) := by
  obtain ⟨code, rfl, rfl, rfl⟩ | ⟨code, rfl, rfl, rfl⟩ := row
  · have place : placeHold k (argNat r 1) (withCfg cfg s.chip) =
        (d, .ok, if k = .bag then [BitVec.setWidth 32 h] else []) := by
      rw [placeHold]
      exact congrArg (fun x : Reply => (x.1, x.2.1, if k = .bag then x.2.2 else [])) change
    have reply : runPlaceHold r (withCfg cfg s.chip) = (d, .ok, if k = .bag then [BitVec.setWidth 32 h] else []) := by
      rw [runPlaceHold, kind]
      exact place
    rw [exec_of_reply (i := .placeHold cfg) allowed rfl code reply, if_pos rfl]
    simp only [holdKind?_eq_bag_iff kind]
  · have reply : runReleaseHold r (withCfg cfg s.chip) = (d, .ok, [BitVec.setWidth 32 h]) := by
      rw [runReleaseHold, kind]
      exact change
    exact exec_of_reply (i := .releaseHold cfg) allowed rfl code reply

/-- One that is refused answers the status alone. -/
theorem exec_holdRow_of_refused {st : Status}
    (change : changeHold k (argNat r 1) f (withCfg cfg s.chip) = (d, st, [])) :
    exec i s = .next (s.answered r st [] d) := by
  obtain ⟨code, rfl, rfl, rfl⟩ | ⟨code, rfl, rfl, rfl⟩ := row
  · have place : placeHold k (argNat r 1) (withCfg cfg s.chip) = (d, st, []) := by
      rw [placeHold]
      exact (congrArg (fun x : Reply => (x.1, x.2.1, if k = .bag then x.2.2 else [])) change).trans (by rw [ite_self])
    have reply : runPlaceHold r (withCfg cfg s.chip) = (d, st, []) := by
      rw [runPlaceHold, kind]
      exact place
    exact exec_of_plain (i := .placeHold cfg) allowed rfl code reply
  · have reply : runReleaseHold r (withCfg cfg s.chip) = (d, st, []) := by
      rw [runReleaseHold, kind]
      exact change
    exact exec_of_plain (i := .releaseHold cfg) allowed rfl code reply

end

/-! ## What a change of a hold does, by the kind of record (R121, R122) -/

section
variable {id : Nat} {f : HoldSet → HoldSet} {c : Chip}

theorem changeHold_segment_of_none (h : segmentAt c id = none) : changeHold .segment id f c = (c, .notFound, []) := by
  rw [changeHold, h]

theorem changeHold_segment_of_some {g : Segment} (h : segmentAt c id = some g) : changeHold .segment id f c =
    (modSegment id (fun x => { x with hold := f x.hold }) c, .ok, [BitVec.setWidth 32 (f g.hold)]) := by
  rw [changeHold, h]

theorem changeHold_bag_of_dead (below : id ≤ 1023) (dead : placeLive (placeAt c id) = false) :
    changeHold .bag id f c = (c, .notFound, []) := by
  refine (if_neg (Nat.not_lt.mpr below)).trans ?_
  rw [dead]

theorem changeHold_bag_of_live {g : PlaceFields} (below : id ≤ 1023) (live : placeLive (placeAt c id) = true)
    (fields : (placeAt c id).fields = some g) :
    changeHold .bag id f c = (amendPlace id f c, .ok, [BitVec.setWidth 32 (f g.hold)]) := by
  refine (if_neg (Nat.not_lt.mpr below)).trans ?_
  rw [live, fields]

theorem changeHold_pallet_of_none (h : palletAt c id = none) : changeHold .pallet id f c = (c, .notFound, []) := by
  rw [changeHold, h]

theorem changeHold_pallet_of_some {p : Pallet} (h : palletAt c id = some p) : changeHold .pallet id f c =
    (if f p.hold = p.hold then c else reviseDelivery id (changePalletHold id f c), .ok, [BitVec.setWidth 32 (f p.hold)]) := by
  rw [changeHold, h, holdPallet, h]

theorem changeHold_lot_of_none (below : id ≤ 7) (h : lotAt c id = none) : changeHold .lot id f c = (c, .notFound, []) := by
  refine (if_neg (Nat.not_lt.mpr below)).trans ?_
  rw [h]

theorem changeHold_lot_of_some {l : Lot} (below : id ≤ 7) (h : lotAt c id = some l) : changeHold .lot id f c =
    if l.state = .finished then (c, .notReady, [])
    else (holdLot id ((f (if l.manual then HoldReason.manual.only else 0)).has .manual) c, .ok,
      [BitVec.setWidth 32 (if (f (if l.manual then HoldReason.manual.only else 0)).has .manual
        then HoldReason.manual.only else 0)]) := by
  refine (if_neg (Nat.not_lt.mpr below)).trans ?_
  rw [h]

end

/-- Settles O58: SET-MODE, OPEN-LOT, CLOSE-LOT and the two hold requests, and what PRODUCTION needs; lots' counts, drain
points and the gap set are laws of their own. -/
theorem modesLotsAndHoldsAreAnswered : Obligations.ModesLotsAndHoldsAreAnswered := by
  refine ⟨⟨fun cfg s r c allowed level => ⟨fun code => ?mode, fun code number recipe hn hr => ?openLot,
    fun code i hi => ?closeLot, fun i f ans kind id hk hid row => ?hold⟩, productionReady_iff⟩, spec_lotCounts,
    spec_lotReports, spec_leaveGap, fun _ => rfl⟩
  case mode =>
    subst level
    have ends {d : Chip} {st : Status} {m : Mode} (named : atPosition Mode.list .offline (argNat r 0) = m)
        (sets : setMode m (withCfg cfg s.chip) = (d, st)) :
        exec (.setMode cfg) s = .next (s.answered r st [] d) :=
      exec_of_plain (i := .setMode cfg) allowed rfl code (by rw [runSetMode, named, sets]; rfl)
    have position {n : Nat} {m : Mode} (named : argNat r 0 = n) (h : atPosition Mode.list .offline n = m) :
        atPosition Mode.list .offline (argNat r 0) = m := by rw [named, h]
    exact ⟨fun one => ends (position one rfl) rfl,
      fun two => ends (position two rfl) (setMode_commission _),
      fun three mode => ends (position three rfl) (setMode_production_of_offline mode),
      fun three mode => ends (position three rfl) (setMode_production_of_production mode),
      fun three mode notReady => ends (position three rfl)
        ((setMode_production_of_commission mode).trans (if_neg (by rw [notReady]; decide))),
      fun three mode ready => ends (position three rfl)
        ((setMode_production_of_commission mode).trans (if_pos ready))⟩
  case openLot =>
    subst level hn hr
    have ends {d : Chip} {st : Status} {ws : List Word}
        (opens : openLot (r.words.getD 0 0) (argNat r 1) (withCfg cfg s.chip) = (d, st, ws)) :=
      exec_of_reply (i := .openLot cfg) allowed rfl code opens
    exact ⟨fun beyond => ends (openLot_of_beyond beyond), fun below invalid => ends (openLot_of_invalid below invalid),
      fun below valid => ⟨fun taken => ends (openLot_of_taken below valid taken),
        fun new full => ends (openLot_of_full below valid new full),
        fun new before after lots used d old alone => ends (openLot_of_room below valid new lots used old alone)⟩⟩
  case closeLot =>
    subst level hi
    have ends {d : Chip} {st : Status} (closes : closeLot (argNat r 0) (withCfg cfg s.chip) = (d, st)) :
        exec (.closeLot cfg) s = .next (s.answered r st [] d) :=
      exec_of_plain (i := .closeLot cfg) allowed rfl code (by rw [runCloseLot, closes]; rfl)
    refine ⟨fun beyond => ends (if_pos beyond), fun below free => ends ?_, fun below l lot other => ends ?_,
      fun below l lot opened => ends ?_⟩
    all_goals refine (if_neg (Nat.not_lt.mpr below)).trans ?_
    · rw [free]
    · rw [lot]
      exact if_neg other
    · rw [lot]
      exact if_pos opened
  case hold =>
    subst level hk hid
    have done {k : HoldKind} {d : Chip} {h : HoldSet} (n : Nat) (named : argNat r 0 = n) (kind : holdKind? n = some k) :=
      exec_holdRow_of_changed (d := d) (h := h) allowed row (named ▸ kind)
    have refused {k : HoldKind} {d : Chip} {st : Status} (n : Nat) (named : argNat r 0 = n)
        (kind : holdKind? n = some k) := exec_holdRow_of_refused (d := d) (st := st) allowed row (named ▸ kind)
    exact ⟨fun one absent => refused 1 one rfl (changeHold_segment_of_none absent),
      fun one g found => done 1 one rfl (changeHold_segment_of_some found),
      fun five beyond => refused 5 five rfl (if_pos beyond),
      fun five below dead => refused 5 five rfl (changeHold_bag_of_dead below dead),
      fun five below live g fields => done 5 five rfl (changeHold_bag_of_live below live fields),
      fun six absent => refused 6 six rfl (changeHold_pallet_of_none absent),
      fun six p found same => done 6 six rfl ((changeHold_pallet_of_some found).trans (by rw [if_pos same])),
      fun six p found differs => done 6 six rfl ((changeHold_pallet_of_some found).trans (by rw [if_neg differs])),
      fun seven beyond => refused 7 seven rfl (if_pos beyond),
      fun seven below free => refused 7 seven rfl (changeHold_lot_of_none below free),
      fun seven below l lot finished => refused 7 seven rfl ((changeHold_lot_of_some below lot).trans (if_pos finished)),
      fun seven below l h lot live set d changed => done 7 seven rfl ((changeHold_lot_of_some below lot).trans (by
        subst set changed; exact if_neg live))⟩

end Sys2Proof.Machine

/-! PROOFS. Channels, shuttles, pallets and alerts by request; the warm restart. -/

namespace Sys2Proof.Machine

/-! ## START-CHANNEL (R43) -/

section
variable {n : Nat} {c : Chip}

theorem startChannel_of_off (mode : (trackChan c n).cfg.mode = .off) : startChannel n c = (c, .notReady) := by
  simp only [startChannel, mode]

theorem startChannel_of_cut (mode : (trackChan c n).cfg.mode = .cut) (state : (trackChan c n).dyn.state = .stopped) :
    startChannel n c = (modTrack n (fun d => { d with state := .running, remainder := 0 }) c, .ok) := by
  simp only [startChannel, mode, state]

theorem startChannel_of_interval (mode : (trackChan c n).cfg.mode = .interval)
    (state : (trackChan c n).dyn.state = .stopped) : startChannel n c = (modTrack n (fun d => { d with
      state := .running, nextFire := c.clock.ms + BitVec.ofNat 32 (trackChan c n).cfg.length }) c, .ok) := by
  simp only [startChannel, mode, state]

theorem startChannel_of_capture (mode : (trackChan c n).cfg.mode = .capture)
    (state : (trackChan c n).dyn.state = .stopped) : startChannel n c = (modTrack n (fun d => { d with
      state := .armed, pend := [], capture := { d.capture with span := false } }) c, .ok) := by
  simp only [startChannel, mode, state]

/-- A DELAY or GATE channel is armed; a command trigger then starts it at once. -/
theorem startChannel_of_armed {d : Chip} (mode : (trackChan c n).cfg.mode = .delay ∨ (trackChan c n).cfg.mode = .gate)
    (state : (trackChan c n).dyn.state = .stopped) (armed : d = modTrack n (fun e => { e with state := .armed, pend := [] }) c) :
    startChannel n c = (if (trackChan c n).cfg.trigger = .command then (commandStart n d).1 else d, .ok) := by
  subst armed
  rcases mode with mode | mode
  all_goals
    simp only [startChannel, mode, state, decide_eq_true_eq]
    split
    all_goals rfl

/-- A DELAY or GATE channel that is started already: a command trigger gives it a further start. -/
theorem startChannel_of_started (mode : (trackChan c n).cfg.mode = .delay ∨ (trackChan c n).cfg.mode = .gate)
    (state : (trackChan c n).dyn.state ≠ .stopped) :
    startChannel n c = if (trackChan c n).cfg.trigger = .command then commandStart n c else (c, .ok) := by
  rcases mode with mode | mode
  all_goals simp only [startChannel, mode, decide_eq_true_eq]

/-- A start that meets a channel in operation and is no command start. -/
theorem startChannel_of_kept (on : (trackChan c n).cfg.mode ≠ .off) (state : (trackChan c n).dyn.state ≠ .stopped)
    (other : (trackChan c n).cfg.trigger ≠ .command ∨ (trackChan c n).cfg.mode ≠ .delay ∧ (trackChan c n).cfg.mode ≠ .gate) :
    startChannel n c = (c, .ok) := by
  by_cases timed : (trackChan c n).cfg.mode = .delay ∨ (trackChan c n).cfg.mode = .gate
  · have trigger : (trackChan c n).cfg.trigger ≠ .command :=
      other.resolve_right fun ⟨delay, gate⟩ => timed.elim delay gate
    rw [startChannel_of_started timed state, if_neg trigger]
  · cases mode : (trackChan c n).cfg.mode with
    | off => exact absurd mode on
    | delay => exact absurd (.inl mode) timed
    | gate => exact absurd (.inr mode) timed
    | cut | interval | capture => simp only [startChannel, mode]

/-! ## STOP-CHANNEL (R43) -/

theorem stopChannel_of_stopped (state : (trackChan c n).dyn.state = .stopped) : stopChannel n c = c := if_pos state

theorem stopChannel_of_opened {d : Chip} (state : (trackChan c n).dyn.state = .opened)
    (stopped : d = modTrack n (fun e => { e with state := .stopped, pend := [] }) c) : stopChannel n c =
      reportAll .refused ((trackChan c n).dyn.pend.filterMap (·.served)) (sendOutput n false none d).1 := by
  subst stopped
  refine (if_neg (by rw [state]; decide)).trans ?_
  exact congrArg _ (if_pos state)

theorem stopChannel_of_pending {d : Chip} (started : (trackChan c n).dyn.state ≠ .stopped)
    (closed : (trackChan c n).dyn.state ≠ .opened)
    (stopped : d = modTrack n (fun e => { e with state := .stopped, pend := [] }) c) : stopChannel n c =
      reportAll .refused ((trackChan c n).dyn.pend.filterMap (·.served)) d := by
  subst stopped
  refine (if_neg started).trans ?_
  exact congrArg _ (if_neg closed)

end

/-! ## CLEAR-ALERTS (R204) -/

theorem clearKinds_getElem? (mask : Word) (pending : List (Option PendingAlert)) (i : Nat) :
    (clearKinds mask pending)[i]? = pending[i]?.map fun a => if mask.getLsbD i = true then none else a := by
  rw [clearKinds, List.getElem?_map, List.getElem?_zipIdx, Option.map_map]
  simp [Function.comp_def]

/-- The pending alerts of the kinds in the mask are gone, the others as they were. -/
theorem clearKinds_eq {mask : Word} {pending cleared : List (Option PendingAlert)}
    (length : cleared.length = pending.length)
    (named : ∀ i, i < pending.length → mask.getLsbD i = true → cleared[i]? = some none)
    (others : ∀ i, i < pending.length → mask.getLsbD i = false → cleared[i]? = pending[i]?) :
    clearKinds mask pending = cleared := by
  refine List.ext_getElem? fun i => ?_
  rw [clearKinds_getElem?]
  by_cases below : i < pending.length
  · cases bit : mask.getLsbD i with
    | true => rw [named i below bit, List.getElem?_eq_getElem below]; rfl
    | false => rw [others i below bit, List.getElem?_eq_getElem below]; rfl
  · rw [List.getElem?_eq_none (Nat.not_lt.mp below), List.getElem?_eq_none (length ▸ Nat.not_lt.mp below)]
    rfl

/-! ## ENABLE-SHUTTLE (R166) and REQUEUE-PALLET (R174) -/

theorem requeuePallet_of_none {id : Nat} {c : Chip} (h : palletAt c id = none) : requeuePallet id c = (c, .notFound) := by
  rw [requeuePallet, h]

theorem requeuePallet_of_some {id : Nat} {c : Chip} {p : Pallet} (h : palletAt c id = some p) :
    requeuePallet id c = if p.state ≠ .faulted then (c, .notReady) else
      (arbitrate (evalDestination id (modPallet id (fun q => { q with expTime := c.clock.line, expTemp := dockTemp c p.lot })
        (enterDock id (modPallet id (fun q => { q with state := .closed, shuttle := none }) c)))), .ok) := by
  rw [requeuePallet, h]

theorem enableShuttle_of_unwritten {n : Nat} {c : Chip} (unset : (shuttleAt c n).written = false) :
    enableShuttle n c = (c, .notReady) := if_pos (by rw [unset]; decide)

theorem enableShuttle_of_written {n : Nat} {c : Chip} (written : (shuttleAt c n).written = true) :
    enableShuttle n c = if (shuttleAt c n).state ≠ .offline ∧ (shuttleAt c n).state ≠ .fault then (c, .mode)
      else (modShuttle n (fun t => { t with state := .offline, enabled := true }) c, .ok) :=
  if_neg (fun unset => unset written)

/-- Settles O59: START-CHANNEL, STOP-CHANNEL, ENABLE-SHUTTLE, REQUEUE-PALLET and CLEAR-ALERTS; a command start is a law of
its own. -/
theorem operationsAreAnswered : Obligations.OperationsAreAnswered := by
  refine ⟨fun cfg s r c allowed level => ⟨fun code => ?start, fun code => ?stop, fun code n u hn hu => ?enable,
    fun code id hid => ?requeue, fun code mask hmask => ?clear⟩, spec_commandStart⟩
  case start =>
    subst level
    have ends {d : Chip} {st : Status} (reply : runStartChannel r (withCfg cfg s.chip) = (d, st, [])) :=
      exec_of_plain (i := .startChannel cfg) allowed rfl code reply
    refine ⟨fun beyond => ends (if_pos beyond), fun n k hn below hk => ?_⟩
    subst hn hk
    have starts {d : Chip} {st : Status} (h : startChannel (argNat r 0) (withCfg cfg s.chip) = (d, st)) :
        exec (.startChannel cfg) s = .next (s.answered r st [] d) :=
      ends ((if_neg (Nat.not_lt.mpr below)).trans (by rw [h]; rfl))
    exact ⟨fun mode => starts (startChannel_of_off mode),
      fun mode state => starts (startChannel_of_cut mode state),
      fun mode state => starts (startChannel_of_interval mode state),
      fun mode state => starts (startChannel_of_capture mode state),
      fun mode state trigger => starts ((startChannel_of_armed mode state rfl).trans (by rw [if_neg trigger])),
      fun mode state trigger => starts ((startChannel_of_armed mode state rfl).trans (by rw [if_pos trigger])),
      fun mode state trigger d st started => starts
        ((startChannel_of_started mode state).trans ((if_pos trigger).trans started)),
      fun on state other => starts (startChannel_of_kept on state other)⟩
  case stop =>
    subst level
    have ends {d : Chip} {st : Status} (reply : runStopChannel r (withCfg cfg s.chip) = (d, st, [])) :=
      exec_of_plain (i := .stopChannel cfg) allowed rfl code reply
    refine ⟨fun beyond => ends (if_pos beyond), fun n k d hn below hk hd => ?_⟩
    subst hn hk
    have stops {e : Chip} (h : stopChannel (argNat r 0) (withCfg cfg s.chip) = e) :
        exec (.stopChannel cfg) s = .next (s.answered r .ok [] e) :=
      ends ((if_neg (Nat.not_lt.mpr below)).trans (by rw [h]))
    exact ⟨fun state => stops (stopChannel_of_stopped state), fun state => stops (stopChannel_of_opened state hd),
      fun started closed => stops (stopChannel_of_pending started closed hd)⟩
  case enable =>
    subst level hn hu
    have ends {d : Chip} {st : Status} (reply : runEnableShuttle r (withCfg cfg s.chip) = (d, st, [])) :=
      exec_of_plain (i := .enableShuttle cfg) allowed rfl code reply
    have enables {d : Chip} {st : Status} (below : argNat r 0 ≤ 3)
        (h : enableShuttle (argNat r 0) (withCfg cfg s.chip) = (d, st)) :
        exec (.enableShuttle cfg) s = .next (s.answered r st [] d) :=
      ends ((if_neg (Nat.not_lt.mpr below)).trans (by rw [h]; rfl))
    exact ⟨fun beyond => ends (if_pos beyond), fun below unset => enables below (enableShuttle_of_unwritten unset),
      fun below written up fine => enables below ((enableShuttle_of_written written).trans (if_pos ⟨up, fine⟩)),
      fun below written down => enables below ((enableShuttle_of_written written).trans
        (if_neg fun ⟨up, fine⟩ => down.elim up fine))⟩
  case requeue =>
    subst level hid
    have ends {d : Chip} {st : Status} (h : requeuePallet (argNat r 0) (withCfg cfg s.chip) = (d, st)) :
        exec (.requeuePallet cfg) s = .next (s.answered r st [] d) :=
      exec_of_plain (i := .requeuePallet cfg) allowed rfl code (by rw [runRequeuePallet, h]; rfl)
    exact ⟨fun absent => ends (requeuePallet_of_none absent),
      fun p found fine => ends ((requeuePallet_of_some found).trans (if_pos fine)),
      fun p found faulted => ends ((requeuePallet_of_some found).trans (if_neg (not_not_intro faulted)))⟩
  case clear =>
    subst level hmask
    have ends {d : Chip} {st : Status} (reply : runClearAlerts r (withCfg cfg s.chip) = (d, st, [])) :=
      exec_of_plain (i := .clearAlerts cfg) allowed rfl code reply
    refine ⟨fun beyond => ends (if_pos beyond), fun below pending length named others => ends ?_⟩
    refine (if_neg (Nat.not_le.mpr below)).trans ?_
    rw [clearKinds_eq length named others]
    rfl

/-! ## The warm restart (R206) -/

/-- RESTART's answer: one part, its header alone. -/
theorem answerPart_restart {r : Request} (code : r.code = 16) : answerPart r .ok [] true 0 =
    { kind := .mgmtAns, dest := r.origin, source := .answer true,
      items := [mkItem r.tag (BitVec.ofNat 32 (16 * 16777216 + 1))] } := by
  rw [answerPart, code]
  rfl

theorem restartFinished_iff {c : Chip} {w : RestartWork} (work : c.tm.restart = some w) :
    restartFinished c = true ↔ c.tm.spi = none ∧ w = { writes := [], rewrites := [], held := none } := by
  obtain ⟨writes, rewrites, held⟩ := w
  simp only [restartFinished, work, Bool.and_eq_true, Option.isNone_iff_eq_none, List.isEmpty_iff, RestartWork.mk.injEq,
    and_assoc]

theorem exec_warmRestart_of_early {s : State} (run : s.chip.pins.running = true) (early : s.chip.ma.phase ≠ .restartReady) :
    exec .warmRestart s = .next (s.after s.chip) := by
  rw [exec_of_running (i := .warmRestart) rfl run, startRestart, if_neg early]

theorem exec_warmRestartComplete {s : State} (run : s.chip.pins.running = true) :
    exec .warmRestartComplete s = .next (s.after (endRestart s.chip)) :=
  exec_of_running (i := .warmRestartComplete) rfl run

theorem endRestart_of_finished {c : Chip} (running : c.ma.phase = .restartRunning) (finished : restartFinished c = true) :
    endRestart c = { c with tm := { c.tm with restart := none }, ma := { c.ma with phase := .idle } } :=
  if_pos ⟨running, finished⟩

theorem endRestart_of_not {c : Chip} (h : ¬ (c.ma.phase = .restartRunning ∧ restartFinished c = true)) : endRestart c = c :=
  if_neg h

/-- Settles O60: RESTART and its answer, every block's share of the event, and the restart's end. -/
theorem warmRestartClearsThePart : Obligations.WarmRestartClearsThePart := by
  refine ⟨fun cfg s r allowed code f d taken frame handed => ?request, fun s run ready c d hc hd => ?event,
    fun s run early => exec_warmRestart_of_early run early, fun s w run running work => ?ends,
    fun s run other => ?notRunning⟩
  case request =>
    rw [exec_of_allowed (i := .restart cfg) allowed rfl (hasCode_of_eq code), runRestart, answerPart_restart code, ← frame,
      handed]
  case event =>
    subst hc
    have spec := spec_restartAll s.chip d hd
    exact ⟨hd ▸ exec_warmRestart run ready, spec⟩
  case ends =>
    rw [exec_warmRestartComplete run]
    refine ⟨fun idle empty => ?_, fun busy => ?_⟩
    · rw [endRestart_of_finished running ((restartFinished_iff work).mpr ⟨idle, empty⟩)]
    · have unfinished : restartFinished s.chip ≠ true := fun finished => by
        obtain ⟨idle, empty⟩ := (restartFinished_iff work).mp finished
        exact busy.elim (· idle) (· empty)
      rw [endRestart_of_not fun ⟨_, finished⟩ => unfinished finished]
  case notRunning =>
    rw [exec_warmRestartComplete run, endRestart_of_not fun ⟨running, _⟩ => other running]

end Sys2Proof.Machine
